-- ==== Sys2Proof/Word.lean ====
section
/-! DEFINITION. The machine's bit vectors (00_scope.md R5, R8): 32-bit words, bytes, 16-bit parcels. -/

namespace Sys2Proof

/-- A word: 32 bits, the width of addresses, control registers and the ALU (R5). -/
abbrev Word := BitVec 32

/-- A byte of memory. -/
abbrev Byte := BitVec 8

/-- A parcel: two bytes, the unit of instruction length (R5, R140). -/
abbrev Parcel := BitVec 16

end Sys2Proof
end

