-- ==== Sys2Proof/Config.lean ====
section
/-! DEFINITION. The values the spec leaves open, as constants without a body (free values), each applied to the draw counter
of the state, so that two draws are unrelated; and the fixed sizes of 00_scope.md R5. -/

namespace Sys2Proof

/-- SCSIZE, the stack cache's size in bytes (R5). -/
abbrev scSize : Nat := 256

/-- How many translations each translation buffer holds (R5, R120). -/
abbrev tlbSize : Nat := 32

/-- How many entries the decoded instruction cache holds, each the only one of its slot (R5, R48). -/
abbrev icSize : Nat := 32

/-- How many lines a set of the prefetch buffer holds (R5, R48). -/
abbrev pfbWays : Nat := 3

/-- How many sets the prefetch buffer has: 3 Kbyte of quad-words in sets of three (R5, R48). -/
abbrev pfbSets : Nat := 64

/-- FREE VALUE. A word the spec leaves undefined: a stack cache word brought in by ENTER (R90, U8), a register after
the HRESET pin (R51), a timer counting an undefined event (U3). Log entry 3. -/
opaque Config.freeWord : Nat → Word

/-- FREE VALUE. Which of the two values the spec allows is taken: the hazards of R491, R493 and R495 (U18, U19, U20),
an indirect CALL through the word it writes (U14), the space of text after a direct write of PSW.VP (U23, log entry 24), a request
of a timer counting an undefined event. Log entry 4. -/
opaque Config.coin : Nat → Bool

/-- FREE VALUE. One less than the clock cycles a step takes, for a timer that counts cycles (R451, D20). Log entry 5. -/
opaque Config.cycles : Nat → Nat

/-- FREE VALUE. How many of a step's clock cycles lie at kernel level where the step goes from one level to the other, for a timer
that counts cycles with its K bit set (R451). Log entry 5. -/
opaque Config.kernelCycles : Nat → Nat

/-- FREE VALUE. The set of the prefetch buffer a quad-word's physical address goes to, which the spec does not give (R48).
Log entry 9. -/
opaque Config.pfbSet : Word → Fin pfbSets

/-- FREE VALUE. The slot of the decoded instruction cache a virtual address goes to, which the spec does not give (R48).
Log entry 9. -/
opaque Config.icSlot : Word → Fin icSize

/-- FREE VALUE. What a device answers to a read of the given physical word address (D7: "read value drawn"). Log entry 6. -/
opaque Config.deviceWord : Nat → Word → Word

end Sys2Proof
end

