-- ==== Sys2Proof/Syntax.lean ====
section
/-! DEFINITION. The instructions: one constructor for each mnemonic of spec/opcode_table.json, with the table's rows of that
mnemonic as the forms of its argument (R140: "the forms of one mnemonic differ only in the reach of their operands").
Addressing modes are constructors; the machine never sees a raw mode code. -/

namespace Sys2Proof

/-- Whether a CPU prefix (the parcel 0x2C00) stands before the instruction (R170). -/
inductive Prefix
  | none
  | cpu
  deriving DecidableEq, Repr

/-- Operand size and signedness of a general mode code (R161): byte, unsigned byte, half-word, unsigned half-word, word. -/
inductive Sz
  | b | ub | h | uh | w
  deriving DecidableEq, Repr

/-- The three memory modes of Table 1-21 (R161): absolute, stack offset, stack offset indirect. -/
inductive Base
  | abs | stk | ind
  deriving DecidableEq, Repr

/-- The sixteen general mode codes of Table 1-21 (R161). -/
inductive Mode
  | mem (b : Base) (z : Sz)
  | imm
  deriving DecidableEq, Repr

/-- The word modes 0xC to 0xF of Table 1-21, of a monadic instruction that takes a `word32` (R169). -/
inductive WordMode
  | abs | stk | ind | imm
  deriving DecidableEq, Repr

/-- The control-transfer modes 0xC to 0xF of Table 1-23 (R162). -/
inductive FlowMode
  | absInd | stkInd | pcRel | abs
  deriving DecidableEq, Repr

/-- A 5-bit operand field of a one-parcel dyadic instruction with its type (R142). -/
inductive Short
  | imm5 (f : BitVec 5)
  | uimm5 (f : BitVec 5)
  | wai5 (f : BitVec 5)
  | stk5 (f : BitVec 5)
  | istk5 (f : BitVec 5)
  deriving DecidableEq, Repr

/-- The forms of a dyadic instruction: one parcel (P1-D), three parcels (P3-D), five parcels (P5-D), and a three- or
five-parcel form whose modes the instruction rejects: it is recognised from the first parcel alone, and its operand
parcels are not part of it (R151, D35). -/
inductive Dyadic
  | p1 (src dst : Short)
  | p3 (sm dm : Mode) (src dst : BitVec 16)
  | p5 (sm dm : Mode) (src dst : Word)
  | illegal (five : Bool) (sm dm : Mode)
  deriving DecidableEq, Repr

/-- The forms of a monadic instruction whose one-parcel field has type `F` (`Empty` where it has no one-parcel form) and
whose accepted modes have type `M`: one parcel, three parcels (P3-M), and a mode the instruction rejects (D25, D35). -/
inductive Monadic (F M : Type)
  | p1 (f : F)
  | p3 (m : M) (x : Word)
  | illegal (m : Mode)
  deriving DecidableEq, Repr

/-- The dyadic mnemonics of the three- and five-parcel opcode maps (R148, R150). -/
inductive DyOp
  | ori | andi | addi | mova | urem | mov | dqm | tadd | tsub | cmpgt | cmphi | cmpeq
  | sub | or | and | add | xor | rem | mul | div | shr | ushr | shl | udiv
  | sub3 | or3 | and3 | add3 | xor3 | rem3 | mul3 | div3 | shr3 | ushr3 | shl3
  deriving DecidableEq, Repr

/-- The monadic mnemonics that take a `word32` (R149). -/
inductive WordOp
  | kcall | catchSc | enter | flushpte | flushpbe
  deriving DecidableEq, Repr

/-- The monadic mnemonics that take a `flow32` or `abs32` (R149). -/
inductive FlowOp
  | call | jmp | jmpfn | jmpfy | jmptn | jmpty | ldraa
  deriving DecidableEq, Repr

/-- The monadic mnemonics that take a `stk32` (R149). -/
inductive StkOp
  | ret | popn
  deriving DecidableEq, Repr

/-- The unimplemented encodings of the opcode table (R145, R147, R148, R149, R150), by their first parcel. -/
inductive Unimpl
  /-- a one-parcel opcode with no instruction; the low ten bits are ignored -/
  | p1 (op : BitVec 5) (low : BitVec 10)
  /-- a niladic subcode below 0x200 with no instruction -/
  | niladic (sc : BitVec 10)
  /-- the monadic subcode 0xE -/
  | monadic (m : Mode)
  /-- a three- or five-parcel opcode marked "unimp", and the five-parcel opcode 0 -/
  | dyadic (five : Bool) (op : BitVec 6) (sm dm : Mode)
  deriving DecidableEq, Repr

/-- What stands after a CPU prefix (R170, R371): a three- or five-parcel instruction, or a one-parcel instruction,
which the spec does not describe there (U11). -/
inductive CpuBody
  | dyadic (op : DyOp) (f : Dyadic)
  | word (op : WordOp) (f : Monadic Empty WordMode)
  | flow (op : FlowOp) (f : Monadic Empty FlowMode)
  | stack (op : StkOp) (f : Monadic Empty Unit)
  | flushdce (m : Mode)
  | unimplemented (u : Unimpl)
  | oneParcel (p : Parcel)
  deriving DecidableEq, Repr

/-- The instructions, one constructor for each mnemonic of spec/opcode_table.json. -/
inductive Instr
  | ori (f : Dyadic)
  | andi (f : Dyadic)
  | addi (f : Dyadic)
  | mova (f : Dyadic)
  | urem (f : Dyadic)
  | mov (f : Dyadic)
  | dqm (f : Dyadic)
  | tadd (f : Dyadic)
  | tsub (f : Dyadic)
  | cmpgt (f : Dyadic)
  | cmphi (f : Dyadic)
  | cmpeq (f : Dyadic)
  | sub (f : Dyadic)
  | or (f : Dyadic)
  | and (f : Dyadic)
  | add (f : Dyadic)
  | xor (f : Dyadic)
  | rem (f : Dyadic)
  | mul (f : Dyadic)
  | div (f : Dyadic)
  | shr (f : Dyadic)
  | ushr (f : Dyadic)
  | shl (f : Dyadic)
  | udiv (f : Dyadic)
  | sub3 (f : Dyadic)
  | or3 (f : Dyadic)
  | and3 (f : Dyadic)
  | add3 (f : Dyadic)
  | xor3 (f : Dyadic)
  | rem3 (f : Dyadic)
  | mul3 (f : Dyadic)
  | div3 (f : Dyadic)
  | shr3 (f : Dyadic)
  | ushr3 (f : Dyadic)
  | shl3 (f : Dyadic)
  | kcall (f : Monadic (BitVec 10) WordMode)
  | call (f : Monadic (BitVec 10) FlowMode)
  | ret (f : Monadic (BitVec 8) Unit)
  | jmp (f : Monadic (BitVec 10) FlowMode)
  | jmpfn (f : Monadic (BitVec 10) FlowMode)
  | jmpfy (f : Monadic (BitVec 10) FlowMode)
  | jmptn (f : Monadic (BitVec 10) FlowMode)
  | jmpty (f : Monadic (BitVec 10) FlowMode)
  | catchSc (f : Monadic (BitVec 8) WordMode)
  | enter (f : Monadic (BitVec 8) WordMode)
  | ldraa (f : Monadic Empty FlowMode)
  | flushpte (f : Monadic Empty WordMode)
  | flushpbe (f : Monadic Empty WordMode)
  | flushdce (m : Mode)
  | popn (f : Monadic (BitVec 8) Unit)
  | cpu (b : CpuBody)
  | kret
  | nop
  | flushi
  | flushp
  | cret
  | flushd
  | testv
  | testc
  | clre
  | unimplemented (u : Unimpl)
  | niladicTrap (n : BitVec 9)
  deriving DecidableEq, Repr

/-- The instruction a dyadic mnemonic and a form make. -/
def DyOp.instr : DyOp → Dyadic → Instr
  | .ori => .ori | .andi => .andi | .addi => .addi | .mova => .mova | .urem => .urem | .mov => .mov | .dqm => .dqm
  | .tadd => .tadd | .tsub => .tsub | .cmpgt => .cmpgt | .cmphi => .cmphi | .cmpeq => .cmpeq
  | .sub => .sub | .or => .or | .and => .and | .add => .add | .xor => .xor | .rem => .rem | .mul => .mul | .div => .div
  | .shr => .shr | .ushr => .ushr | .shl => .shl | .udiv => .udiv
  | .sub3 => .sub3 | .or3 => .or3 | .and3 => .and3 | .add3 => .add3 | .xor3 => .xor3 | .rem3 => .rem3
  | .mul3 => .mul3 | .div3 => .div3 | .shr3 => .shr3 | .ushr3 => .ushr3 | .shl3 => .shl3

/-- A form without a one-parcel field, as a form of an instruction that has one. -/
def Monadic.widen {F M : Type} : Monadic Empty M → Monadic F M
  | .p3 m x => .p3 m x
  | .illegal m => .illegal m

end Sys2Proof
end

