-- ==== Sys2Proof/Machine/Modes.lean ====
section
/-! DEFINITION. Which addressing modes each instruction accepts (30_encoding.md R152, R171 to R176; 43_move.md R262, R263)
and how long its encoding is (R140, R153). The decoder, the well-formedness check and the meanings share these. -/

namespace Sys2Proof

/-- A mode code of 0xC or above: a word form or immediate (R161). -/
def Mode.isWord : Mode → Bool
  | .mem _ .w => true
  | .mem _ _ => false
  | .imm => true

/-- A word memory mode: 0xC, 0xD or 0xE. -/
def Mode.isWordMem : Mode → Bool
  | .mem _ .w => true
  | _ => false

/-- Mode code 0x7, the register mode after a CPU prefix (R171). -/
def Mode.isReg : Mode → Bool
  | .mem .stk .uh => true
  | _ => false

/-- The mode codes of Table 1-22, the ones a CPU prefix admits: 0x7 and 0xC to 0xF (R171). -/
def Mode.inCpuTable (m : Mode) : Bool := m.isReg || m.isWord

/-- A word mode of a `word32` operand, as a general mode (R169). -/
def WordMode.toMode : WordMode → Mode
  | .abs => .mem .abs .w
  | .stk => .mem .stk .w
  | .ind => .mem .ind .w
  | .imm => .imm

/-- The general mode as a word mode, where its code is 0xC or above. -/
def WordMode.ofMode : Mode → Option WordMode
  | .mem .abs .w => some .abs
  | .mem .stk .w => some .stk
  | .mem .ind .w => some .ind
  | .imm => some .imm
  | .mem _ _ => none

/-- The general mode code a control-transfer mode has: 0xC, 0xD, 0xE, 0xF in the order of Table 1-23 (R162). -/
def FlowMode.toMode : FlowMode → Mode
  | .absInd => .mem .abs .w
  | .stkInd => .mem .stk .w
  | .pcRel => .mem .ind .w
  | .abs => .imm

/-- The general mode code read as a control-transfer mode, where it is 0xC or above. -/
def FlowMode.ofMode : Mode → Option FlowMode
  | .mem .abs .w => some .absInd
  | .mem .stk .w => some .stkInd
  | .mem .ind .w => some .pcRel
  | .imm => some .abs
  | .mem _ _ => none

/-- Whether the instruction writes its destination operand (R176). The compares and the three-operand forms do not. -/
def DyOp.writesDst : DyOp → Bool
  | .ori | .andi | .addi | .mova | .urem | .mov | .dqm | .tadd | .tsub => true
  | .sub | .or | .and | .add | .xor | .rem | .mul | .div | .shr | .ushr | .shl | .udiv => true
  | .cmpgt | .cmphi | .cmpeq => false
  | .sub3 | .or3 | .and3 | .add3 | .xor3 | .rem3 | .mul3 | .div3 | .shr3 | .ushr3 | .shl3 => false

/-- Whether the instruction reads its destination operand; MOV, MOVA and DQM only write it. -/
def DyOp.readsDst : DyOp → Bool
  | .mov | .mova | .dqm => false
  | _ => true

/-- The modes a three- or five-parcel dyadic instruction accepts; any other pair is the illegal instruction
exception 0x3, found from the first parcel (R171, R174, R176, R262, R263; D23, D24). -/
def DyOp.legal (op : DyOp) (k : Prefix) (sm dm : Mode) : Bool :=
  (match k with
   | .none => true
   | .cpu => sm.inCpuTable && dm.inCpuTable) &&
  (match op with
   | .mova => sm.isWordMem && !(k == .cpu && dm.isReg)
   | .dqm => sm.isWord && !(k == .cpu && dm.isReg)
   | _ => true) &&
  !(op.writesDst && dm == .imm)

/-- The pairs of one-parcel operand types of Table 1-15 (R145). -/
def DyOp.shortOk : DyOp → Short → Short → Bool
  | .mov, .wai5 _, .stk5 _ | .mov, .stk5 _, .stk5 _ | .mov, .istk5 _, .stk5 _ => true
  | .mov, .stk5 _, .istk5 _ | .mov, .istk5 _, .istk5 _ | .mov, .imm5 _, .stk5 _ => true
  | .add3, .wai5 _, .stk5 _ | .add3, .imm5 _, .stk5 _ | .add3, .stk5 _, .stk5 _ => true
  | .and3, .imm5 _, .stk5 _ => true
  | .and, .stk5 _, .stk5 _ => true
  | .cmpeq, .imm5 _, .stk5 _ | .cmpeq, .stk5 _, .stk5 _ => true
  | .cmpgt, .stk5 _, .stk5 _ | .cmpgt, .imm5 _, .stk5 _ => true
  | .add, .imm5 _, .stk5 _ | .add, .stk5 _, .stk5 _ => true
  | .mova, .stk5 _, .stk5 _ => true
  | .shl3, .uimm5 _, .stk5 _ => true
  | .shr3, .uimm5 _, .stk5 _ => true
  | _, _, _ => false

/-- Whether a form is one the instruction accepts: not an illegal form, and with modes it takes. -/
def Dyadic.accepted (k : Prefix) (op : DyOp) : Dyadic → Bool
  | .p1 _ _ => true
  | .p3 sm dm _ _ => op.legal k sm dm
  | .p5 sm dm _ _ => op.legal k sm dm
  | .illegal _ _ _ => false

/-- The modes of an unimplemented three- or five-parcel opcode after a CPU prefix that leave it unimplemented: each in
Table 1-22, and not two registers (R152, D24). -/
def cpuUnimplLegal (sm dm : Mode) : Bool :=
  sm.inCpuTable && dm.inCpuTable && !(sm.isReg && dm.isReg)

/-- The bytes a CPU prefix adds to an instruction (R153). -/
def Prefix.len : Prefix → Word
  | .none => 0
  | .cpu => 2

/-- The bytes of a dyadic form, its prefix apart (R140, R153). -/
def Dyadic.len : Dyadic → Word
  | .p1 _ _ => 2
  | .p3 _ _ _ _ => 6
  | .p5 _ _ _ _ => 10
  | .illegal five _ _ => if five then 10 else 6

/-- The bytes of a monadic form, its prefix apart (R140, R153). -/
def Monadic.len {F M : Type} : Monadic F M → Word
  | .p1 _ => 2
  | .p3 _ _ => 6
  | .illegal _ => 6

end Sys2Proof
end

