-- ==== Sys2Proof/Decode.lean ====
section
/-! DEFINITION. The decoder (30_encoding.md R140 to R152), total on any parcels and rejecting by name, and after it the
encoder, written from the same tables. Text is big-endian: a parcel's high byte lies at the lower address (R98). -/

namespace Sys2Proof

/-- Why the decoder rejects: the parcels end before the instruction does. Every first parcel has a decoding (R151). -/
inductive DecodeError
  /-- no parcel at all -/
  | empty
  /-- the first parcel asks for more parcels than there are -/
  | truncated
  deriving DecidableEq, Repr

/-! ## Field codes -/

/-- The mode of a four-bit code (Table 1-21, R161). -/
def Mode.ofCode (c : BitVec 4) : Mode :=
  match c.toNat with
  | 0x0 => .mem .abs .b | 0x1 => .mem .abs .ub | 0x2 => .mem .abs .h | 0x3 => .mem .abs .uh
  | 0x4 => .mem .stk .b | 0x5 => .mem .stk .ub | 0x6 => .mem .stk .h | 0x7 => .mem .stk .uh
  | 0x8 => .mem .ind .b | 0x9 => .mem .ind .ub | 0xA => .mem .ind .h | 0xB => .mem .ind .uh
  | 0xC => .mem .abs .w | 0xD => .mem .stk .w | 0xE => .mem .ind .w | _ => .imm

/-- The four-bit code of a mode (Table 1-21, R161). -/
def Mode.code : Mode → BitVec 4
  | .mem .abs .b => 0x0 | .mem .abs .ub => 0x1 | .mem .abs .h => 0x2 | .mem .abs .uh => 0x3
  | .mem .stk .b => 0x4 | .mem .stk .ub => 0x5 | .mem .stk .h => 0x6 | .mem .stk .uh => 0x7
  | .mem .ind .b => 0x8 | .mem .ind .ub => 0x9 | .mem .ind .h => 0xA | .mem .ind .uh => 0xB
  | .mem .abs .w => 0xC | .mem .stk .w => 0xD | .mem .ind .w => 0xE | .imm => 0xF

/-- The three- and five-parcel opcode of a dyadic mnemonic (R148, R150). -/
def DyOp.code : DyOp → BitVec 6
  | .ori => 0x01 | .andi => 0x02 | .addi => 0x03 | .mova => 0x04 | .urem => 0x05 | .mov => 0x06 | .dqm => 0x07
  | .tadd => 0x0C | .tsub => 0x0D | .cmpgt => 0x1D | .cmphi => 0x1E | .cmpeq => 0x1F
  | .sub => 0x20 | .or => 0x21 | .and => 0x22 | .add => 0x23 | .xor => 0x24 | .rem => 0x25 | .mul => 0x26 | .div => 0x27
  | .shr => 0x2C | .ushr => 0x2D | .shl => 0x2E | .udiv => 0x2F
  | .sub3 => 0x30 | .or3 => 0x31 | .and3 => 0x32 | .add3 => 0x33 | .xor3 => 0x34 | .rem3 => 0x35 | .mul3 => 0x36
  | .div3 => 0x37 | .shr3 => 0x3C | .ushr3 => 0x3D | .shl3 => 0x3E

/-- The dyadic mnemonic of a three- or five-parcel opcode, none where the map says "unimp" (R148, R150); opcode 0 is the
monadic group of the three-parcel map and is unimplemented in the five-parcel map. -/
def DyOp.ofCode (c : BitVec 6) : Option DyOp :=
  match c.toNat with
  | 0x01 => some .ori | 0x02 => some .andi | 0x03 => some .addi | 0x04 => some .mova | 0x05 => some .urem
  | 0x06 => some .mov | 0x07 => some .dqm | 0x0C => some .tadd | 0x0D => some .tsub
  | 0x1D => some .cmpgt | 0x1E => some .cmphi | 0x1F => some .cmpeq
  | 0x20 => some .sub | 0x21 => some .or | 0x22 => some .and | 0x23 => some .add | 0x24 => some .xor
  | 0x25 => some .rem | 0x26 => some .mul | 0x27 => some .div
  | 0x2C => some .shr | 0x2D => some .ushr | 0x2E => some .shl | 0x2F => some .udiv
  | 0x30 => some .sub3 | 0x31 => some .or3 | 0x32 => some .and3 | 0x33 => some .add3 | 0x34 => some .xor3
  | 0x35 => some .rem3 | 0x36 => some .mul3 | 0x37 => some .div3
  | 0x3C => some .shr3 | 0x3D => some .ushr3 | 0x3E => some .shl3
  | _ => none

/-- What a monadic subcode names (Table 1-19, R149). -/
inductive MonOp
  | word (op : WordOp)
  | flow (op : FlowOp)
  | stack (op : StkOp)
  | flushdce
  | unimp
  deriving DecidableEq, Repr

/-- The monadic mnemonic of a subcode (Table 1-19, R149). -/
def MonOp.ofCode (c : BitVec 4) : MonOp :=
  match c.toNat with
  | 0x0 => .word .kcall | 0x1 => .flow .call | 0x2 => .stack .ret | 0x3 => .flow .jmp
  | 0x4 => .flow .jmpfn | 0x5 => .flow .jmpfy | 0x6 => .flow .jmptn | 0x7 => .flow .jmpty
  | 0x8 => .word .catchSc | 0x9 => .word .enter | 0xA => .flow .ldraa | 0xB => .word .flushpte
  | 0xC => .word .flushpbe | 0xD => .flushdce | 0xE => .unimp | _ => .stack .popn

/-- The subcode of a monadic mnemonic (Table 1-19, R149). -/
def MonOp.code : MonOp → BitVec 4
  | .word .kcall => 0x0 | .flow .call => 0x1 | .stack .ret => 0x2 | .flow .jmp => 0x3
  | .flow .jmpfn => 0x4 | .flow .jmpfy => 0x5 | .flow .jmptn => 0x6 | .flow .jmpty => 0x7
  | .word .catchSc => 0x8 | .word .enter => 0x9 | .flow .ldraa => 0xA | .word .flushpte => 0xB
  | .word .flushpbe => 0xC | .flushdce => 0xD | .unimp => 0xE | .stack .popn => 0xF

/-- Whether a monadic instruction takes the mode, which decides whether its operand parcels are fetched (R175, R294,
R302, D25, D35). -/
def MonOp.takes : MonOp → Mode → Bool
  | .word _, m => m.isWord
  | .flow _, m => m.isWord
  | .stack _, m => m == .mem .stk .w
  | .flushdce, _ => false
  | .unimp, _ => false

/-! ## First parcels (R141, R143, R144) -/

/-- The parcel of the CPU prefix (R147). -/
def cpuParcel : Parcel := 0x2C00

/-- Layout P1-T: an opcode and a ten-bit field (R141). -/
def layoutT (op : BitVec 5) (f : BitVec 10) : Parcel := (0#1 ++ op) ++ f

/-- Layout P1-S: the stack group's subcode and eight-bit field (R141, R146). -/
def layoutS (sub : BitVec 2) (f : BitVec 8) : Parcel := layoutT 0x02 (sub ++ f)

/-- Layout P1-N: a niladic subcode (R141, R147). -/
def layoutN (sub : BitVec 10) : Parcel := layoutT 0x0B sub

/-- Layout P1-D: an opcode, a source field above a destination field (R141, G1). -/
def layoutD (op src dst : BitVec 5) : Parcel := layoutT op (src ++ dst)

/-- The first parcel of a three-parcel (`five` false) or five-parcel instruction: opcode, SMODE, and DMODE or the
subcode (R143, R144). -/
def layoutL (five : Bool) (op : BitVec 6) (hi lo : BitVec 4) : Parcel :=
  ((1#1 ++ BitVec.ofBool five) ++ op) ++ (hi ++ lo)

/-- Bits 9:0 of a parcel. -/
def low10 (p : Parcel) : BitVec 10 := p.extractLsb' 0 10
/-- Bits 7:0 of a parcel. -/
def low8 (p : Parcel) : BitVec 8 := p.extractLsb' 0 8
/-- Bits 14:10 of a one-parcel instruction: the opcode (R141). -/
def op5 (p : Parcel) : BitVec 5 := p.extractLsb' 10 5
/-- Bits 9:8: the stack group's subcode (R146). -/
def sub2 (p : Parcel) : BitVec 2 := p.extractLsb' 8 2
/-- Bits 9:5: the source field of layout P1-D. -/
def src5 (p : Parcel) : BitVec 5 := p.extractLsb' 5 5
/-- Bits 4:0: the destination field of layout P1-D. -/
def dst5 (p : Parcel) : BitVec 5 := p.extractLsb' 0 5
/-- Bits 13:8: the opcode of a three- or five-parcel instruction (R143). -/
def op6 (p : Parcel) : BitVec 6 := p.extractLsb' 8 6
/-- Bits 7:4: SMODE. -/
def smode (p : Parcel) : BitVec 4 := p.extractLsb' 4 4
/-- Bits 3:0: DMODE, or the monadic subcode. -/
def dmode (p : Parcel) : BitVec 4 := p.extractLsb' 0 4
/-- Bit 15: 0 for a one-parcel instruction (R140). -/
def isLong (p : Parcel) : Bool := p.getLsbD 15
/-- Bit 14 of a long instruction: five parcels (R140). -/
def isFive (p : Parcel) : Bool := p.getLsbD 14

/-! ## Decoding -/

/-- The niladic group (Table 1-17, R147), the CPU prefix apart. -/
def decodeNiladic (sc : BitVec 10) : Instr :=
  match sc.toNat with
  | 0x001 => .kret | 0x002 => .nop | 0x003 => .flushi | 0x004 => .flushp | 0x005 => .cret | 0x006 => .flushd
  | 0x008 => .testv | 0x009 => .testc | 0x00A => .clre
  | n => if 0x200 ≤ n then .niladicTrap (sc.extractLsb' 0 9) else .unimplemented (.niladic sc)

/-- The stack group (Table 1-16, R146). -/
def decodeStack (sub : BitVec 2) (f : BitVec 8) : Instr :=
  match sub.toNat with
  | 0 => .enter (.p1 f)
  | 1 => .catchSc (.p1 f)
  | 2 => .ret (.p1 f)
  | _ => .popn (.p1 f)

/-- A one-parcel instruction other than the CPU prefix (Table 1-15, R145). -/
def decodeShort (p : Parcel) : Instr :=
  let f := low10 p
  let s := src5 p
  let d := dst5 p
  match (op5 p).toNat with
  | 0x00 => .kcall (.p1 f)
  | 0x01 => .call (.p1 f)
  | 0x02 => decodeStack (sub2 p) (low8 p)
  | 0x03 => .jmp (.p1 f)
  | 0x04 => .jmpfn (.p1 f)
  | 0x05 => .jmpfy (.p1 f)
  | 0x06 => .jmptn (.p1 f)
  | 0x07 => .jmpty (.p1 f)
  | 0x0A => .mov (.p1 (.wai5 s) (.stk5 d))
  | 0x0B => decodeNiladic f
  | 0x0D => .add3 (.p1 (.wai5 s) (.stk5 d))
  | 0x0E => .and3 (.p1 (.imm5 s) (.stk5 d))
  | 0x0F => .and (.p1 (.stk5 s) (.stk5 d))
  | 0x10 => .cmpeq (.p1 (.imm5 s) (.stk5 d))
  | 0x11 => .cmpgt (.p1 (.stk5 s) (.stk5 d))
  | 0x12 => .cmpgt (.p1 (.imm5 s) (.stk5 d))
  | 0x13 => .cmpeq (.p1 (.stk5 s) (.stk5 d))
  | 0x14 => .add (.p1 (.imm5 s) (.stk5 d))
  | 0x15 => .add3 (.p1 (.imm5 s) (.stk5 d))
  | 0x16 => .add (.p1 (.stk5 s) (.stk5 d))
  | 0x17 => .add3 (.p1 (.stk5 s) (.stk5 d))
  | 0x18 => .mov (.p1 (.stk5 s) (.stk5 d))
  | 0x19 => .mov (.p1 (.istk5 s) (.stk5 d))
  | 0x1A => .mov (.p1 (.stk5 s) (.istk5 d))
  | 0x1B => .mov (.p1 (.istk5 s) (.istk5 d))
  | 0x1C => .mov (.p1 (.imm5 s) (.stk5 d))
  | 0x1D => .mova (.p1 (.stk5 s) (.stk5 d))
  | 0x1E => .shl3 (.p1 (.uimm5 s) (.stk5 d))
  | 0x1F => .shr3 (.p1 (.uimm5 s) (.stk5 d))
  | _ => .unimplemented (.p1 (op5 p) f)

/-- What the first parcel of a three- or five-parcel instruction says: everything but the operand parcels. -/
inductive Head
  /-- a dyadic instruction with modes it takes -/
  | dyadic (five : Bool) (op : DyOp) (sm dm : Mode)
  /-- a dyadic instruction with modes it rejects -/
  | badDyadic (five : Bool) (op : DyOp) (sm dm : Mode)
  /-- a monadic instruction with a mode it takes -/
  | monadic (op : MonOp) (m : Mode)
  /-- a monadic instruction with a mode it rejects, FLUSHDCE, or the unimplemented subcode -/
  | badMonadic (op : MonOp) (m : Mode)
  /-- an unimplemented opcode -/
  | unimp (five : Bool) (op : BitVec 6) (sm dm : Mode)
  deriving DecidableEq, Repr

/-- Reading the first parcel of a three- or five-parcel instruction (R148 to R152, R171 to R176). -/
def headOf (k : Prefix) (p : Parcel) : Head :=
  let five := isFive p
  let sm := Mode.ofCode (smode p)
  let dm := Mode.ofCode (dmode p)
  if five = false ∧ op6 p = 0 then
    let op := MonOp.ofCode (dmode p)
    if op.takes sm then .monadic op sm else .badMonadic op sm
  else
    match DyOp.ofCode (op6 p) with
    | some op => if op.legal k sm dm then .dyadic five op sm dm else .badDyadic five op sm dm
    | none => .unimp five (op6 p) sm dm

/-- How many operand parcels the first parcel asks for: none where it already decides the event (R151, D35). -/
def Head.more : Head → Nat
  | .dyadic five _ _ _ => if five then 4 else 2
  | .monadic _ _ => 2
  | _ => 0

/-- How many parcels follow the parcel `p`, itself after a prefix or not. -/
def moreParcels (k : Prefix) (p : Parcel) : Nat :=
  if isLong p then (headOf k p).more else 0

/-- A `word32` instruction. -/
def WordOp.instr : WordOp → Monadic Empty WordMode → Instr
  | .kcall, f => .kcall f.widen
  | .catchSc, f => .catchSc f.widen
  | .enter, f => .enter f.widen
  | .flushpte, f => .flushpte f
  | .flushpbe, f => .flushpbe f

/-- A `flow32` or `abs32` instruction. -/
def FlowOp.instr : FlowOp → Monadic Empty FlowMode → Instr
  | .call, f => .call f.widen
  | .jmp, f => .jmp f.widen
  | .jmpfn, f => .jmpfn f.widen
  | .jmpfy, f => .jmpfy f.widen
  | .jmptn, f => .jmptn f.widen
  | .jmpty, f => .jmpty f.widen
  | .ldraa, f => .ldraa f

/-- A `stk32` instruction. -/
def StkOp.instr : StkOp → Monadic Empty Unit → Instr
  | .ret, f => .ret f.widen
  | .popn, f => .popn f.widen

/-- A long instruction, as the body a CPU prefix would have (R170): the reading is the same for both, the modes apart. -/
def CpuBody.plain : CpuBody → Instr
  | .dyadic op f => op.instr f
  | .word op f => op.instr f
  | .flow op f => op.instr f
  | .stack op f => op.instr f
  | .flushdce m => .flushdce m
  | .unimplemented u => .unimplemented u
  | .oneParcel p => decodeShort p

/-- The body a head makes when its mode is rejected or its opcode is unimplemented. -/
def badMonadicBody (op : MonOp) (m : Mode) : CpuBody :=
  match op with
  | .word op => .word op (.illegal m)
  | .flow op => .flow op (.illegal m)
  | .stack op => .stack op (.illegal m)
  | .flushdce => .flushdce m
  | .unimp => .unimplemented (.monadic m)

/-- The body of a monadic instruction with a mode it takes and its 32-bit operand (R143). -/
def monadicBody (op : MonOp) (m : Mode) (x : Word) : CpuBody :=
  match op with
  | .word op =>
    match WordMode.ofMode m with
    | some w => .word op (.p3 w x)
    | none => .word op (.illegal m)
  | .flow op =>
    match FlowMode.ofMode m with
    | some w => .flow op (.p3 w x)
    | none => .flow op (.illegal m)
  | .stack op => .stack op (.p3 () x)
  | .flushdce => .flushdce m
  | .unimp => .unimplemented (.monadic m)

/-- A three- or five-parcel instruction from its head and the parcels after it: high half at the lower address (R143,
R144). -/
def decodeLong : Head → List Parcel → Except DecodeError (CpuBody × List Parcel)
  | .dyadic false op sm dm, a :: b :: r => .ok (.dyadic op (.p3 sm dm a b), r)
  | .dyadic true op sm dm, a :: b :: c :: d :: r => .ok (.dyadic op (.p5 sm dm (a ++ b) (c ++ d)), r)
  | .dyadic _ _ _ _, _ => .error .truncated
  | .badDyadic five op sm dm, r => .ok (.dyadic op (.illegal five sm dm), r)
  | .monadic op m, a :: b :: r => .ok (monadicBody op m (a ++ b), r)
  | .monadic _ _, _ => .error .truncated
  | .badMonadic op m, r => .ok (badMonadicBody op m, r)
  | .unimp five op sm dm, r => .ok (.unimplemented (.dyadic five op sm dm), r)

/-- The instruction at the head of the parcels, and the parcels after it (R151). -/
def decode : List Parcel → Except DecodeError (Instr × List Parcel)
  | [] => .error .empty
  | p :: r =>
    if p = cpuParcel then
      match r with
      | [] => .error .truncated
      | q :: r' =>
        if isLong q then
          match decodeLong (headOf .cpu q) r' with
          | .ok (b, rest) => .ok (.cpu b, rest)
          | .error e => .error e
        else .ok (.cpu (.oneParcel q), r')
    else if isLong p then
      match decodeLong (headOf .none p) r with
      | .ok (b, rest) => .ok (b.plain, rest)
      | .error e => .error e
    else .ok (decodeShort p, r)

/-- The parcels of a text: each parcel's high byte first (R98). A last odd byte is no parcel. -/
def parcelsOfBytes : List Byte → List Parcel
  | hi :: lo :: r => (hi ++ lo) :: parcelsOfBytes r
  | _ => []

/-- The bytes of a text, each parcel's high byte first (R98). -/
def bytesOfParcels : List Parcel → List Byte
  | [] => []
  | p :: r => p.extractLsb' 8 8 :: p.extractLsb' 0 8 :: bytesOfParcels r

/-- The instruction at the head of a text of bytes. -/
def decodeBytes (t : List Byte) : Except DecodeError Instr :=
  match decode (parcelsOfBytes t) with
  | .ok (i, _) => .ok i
  | .error e => .error e

/-- The six parcels of the number `w` cut to `nbits` bits, the first parcel in its low 16 bits (the numbering of
spec/opcode_table.json); six parcels are the longest instruction (R5). -/
def tableParcels (nbits w : Nat) : List Parcel :=
  [0, 1, 2, 3, 4, 5].map fun i => BitVec.ofNat 16 (w % 2 ^ nbits / 2 ^ (16 * i))

/-- The instruction the decoder reads from a word of the opcode table. -/
def decodeTableWord (nbits w : Nat) : Option Instr :=
  match decodeBytes (bytesOfParcels (tableParcels nbits w)) with
  | .ok i => some i
  | .error _ => none

/-! ## Encoding -/

/-- The field of a one-parcel operand. -/
def Short.field : Short → BitVec 5
  | .imm5 f | .uimm5 f | .wai5 f | .stk5 f | .istk5 f => f

/-- The one-parcel opcode of a mnemonic and a pair of operand types (Table 1-15, R145); 0x08, an unimplemented one, where
the table has none. -/
def DyOp.shortCode : DyOp → Short → Short → BitVec 5
  | .mov, .wai5 _, .stk5 _ => 0x0A
  | .mov, .stk5 _, .stk5 _ => 0x18
  | .mov, .istk5 _, .stk5 _ => 0x19
  | .mov, .stk5 _, .istk5 _ => 0x1A
  | .mov, .istk5 _, .istk5 _ => 0x1B
  | .mov, .imm5 _, .stk5 _ => 0x1C
  | .add3, .wai5 _, .stk5 _ => 0x0D
  | .add3, .imm5 _, .stk5 _ => 0x15
  | .add3, .stk5 _, .stk5 _ => 0x17
  | .and3, .imm5 _, .stk5 _ => 0x0E
  | .and, .stk5 _, .stk5 _ => 0x0F
  | .cmpeq, .imm5 _, .stk5 _ => 0x10
  | .cmpeq, .stk5 _, .stk5 _ => 0x13
  | .cmpgt, .stk5 _, .stk5 _ => 0x11
  | .cmpgt, .imm5 _, .stk5 _ => 0x12
  | .add, .imm5 _, .stk5 _ => 0x14
  | .add, .stk5 _, .stk5 _ => 0x16
  | .mova, .stk5 _, .stk5 _ => 0x1D
  | .shl3, .uimm5 _, .stk5 _ => 0x1E
  | .shr3, .uimm5 _, .stk5 _ => 0x1F
  | _, _, _ => 0x08

/-- The two parcels of a 32-bit operand, high half first (R143). -/
def wordParcels (x : Word) : List Parcel := [x.extractLsb' 16 16, x.extractLsb' 0 16]

/-- The parcels of a dyadic instruction. -/
def encodeDyadic (op : DyOp) : Dyadic → List Parcel
  | .p1 s d => [layoutD (op.shortCode s d) s.field d.field]
  | .p3 sm dm a b => [layoutL false op.code sm.code dm.code, a, b]
  | .p5 sm dm a b => layoutL true op.code sm.code dm.code :: (wordParcels a ++ wordParcels b)
  | .illegal five sm dm => [layoutL five op.code sm.code dm.code]

/-- The parcels of a three-parcel monadic instruction. -/
def encodeMon3 (op : MonOp) (m : Mode) (x : Word) : List Parcel :=
  layoutL false 0 m.code op.code :: wordParcels x

/-- The first parcel of a monadic instruction whose operand parcels are not fetched. -/
def encodeMonBad (op : MonOp) (m : Mode) : List Parcel := [layoutL false 0 m.code op.code]

/-- The parcels of a monadic form: `short` encodes the one-parcel field, `mode` gives the mode code. -/
def encodeMonadic {F M : Type} (op : MonOp) (short : F → Parcel) (mode : M → Mode) : Monadic F M → List Parcel
  | .p1 f => [short f]
  | .p3 m x => encodeMon3 op (mode m) x
  | .illegal m => encodeMonBad op m

/-- The mode of a `stk32` operand: 0xD only (R169). -/
def stackMode (_ : Unit) : Mode := .mem .stk .w

/-- The first parcel of an unimplemented encoding. -/
def encodeUnimpl : Unimpl → List Parcel
  | .p1 op low => [layoutT op low]
  | .niladic sc => [layoutN sc]
  | .monadic m => encodeMonBad .unimp m
  | .dyadic five op sm dm => [layoutL five op sm.code dm.code]

/-- The parcels of the body of a CPU prefix. -/
def encodeBody : CpuBody → List Parcel
  | .dyadic op f => encodeDyadic op f
  | .word op f => encodeMonadic (.word op) Empty.elim WordMode.toMode f
  | .flow op f => encodeMonadic (.flow op) Empty.elim FlowMode.toMode f
  | .stack op f => encodeMonadic (.stack op) Empty.elim stackMode f
  | .flushdce m => encodeMonBad .flushdce m
  | .unimplemented u => encodeUnimpl u
  | .oneParcel p => [p]

/-- The parcels of an instruction. -/
def encode : Instr → List Parcel
  | .ori f => encodeDyadic .ori f
  | .andi f => encodeDyadic .andi f
  | .addi f => encodeDyadic .addi f
  | .mova f => encodeDyadic .mova f
  | .urem f => encodeDyadic .urem f
  | .mov f => encodeDyadic .mov f
  | .dqm f => encodeDyadic .dqm f
  | .tadd f => encodeDyadic .tadd f
  | .tsub f => encodeDyadic .tsub f
  | .cmpgt f => encodeDyadic .cmpgt f
  | .cmphi f => encodeDyadic .cmphi f
  | .cmpeq f => encodeDyadic .cmpeq f
  | .sub f => encodeDyadic .sub f
  | .or f => encodeDyadic .or f
  | .and f => encodeDyadic .and f
  | .add f => encodeDyadic .add f
  | .xor f => encodeDyadic .xor f
  | .rem f => encodeDyadic .rem f
  | .mul f => encodeDyadic .mul f
  | .div f => encodeDyadic .div f
  | .shr f => encodeDyadic .shr f
  | .ushr f => encodeDyadic .ushr f
  | .shl f => encodeDyadic .shl f
  | .udiv f => encodeDyadic .udiv f
  | .sub3 f => encodeDyadic .sub3 f
  | .or3 f => encodeDyadic .or3 f
  | .and3 f => encodeDyadic .and3 f
  | .add3 f => encodeDyadic .add3 f
  | .xor3 f => encodeDyadic .xor3 f
  | .rem3 f => encodeDyadic .rem3 f
  | .mul3 f => encodeDyadic .mul3 f
  | .div3 f => encodeDyadic .div3 f
  | .shr3 f => encodeDyadic .shr3 f
  | .ushr3 f => encodeDyadic .ushr3 f
  | .shl3 f => encodeDyadic .shl3 f
  | .kcall f => encodeMonadic (.word .kcall) (layoutT 0x00) WordMode.toMode f
  | .call f => encodeMonadic (.flow .call) (layoutT 0x01) FlowMode.toMode f
  | .ret f => encodeMonadic (.stack .ret) (layoutS 2) stackMode f
  | .jmp f => encodeMonadic (.flow .jmp) (layoutT 0x03) FlowMode.toMode f
  | .jmpfn f => encodeMonadic (.flow .jmpfn) (layoutT 0x04) FlowMode.toMode f
  | .jmpfy f => encodeMonadic (.flow .jmpfy) (layoutT 0x05) FlowMode.toMode f
  | .jmptn f => encodeMonadic (.flow .jmptn) (layoutT 0x06) FlowMode.toMode f
  | .jmpty f => encodeMonadic (.flow .jmpty) (layoutT 0x07) FlowMode.toMode f
  | .catchSc f => encodeMonadic (.word .catchSc) (layoutS 1) WordMode.toMode f
  | .enter f => encodeMonadic (.word .enter) (layoutS 0) WordMode.toMode f
  | .ldraa f => encodeMonadic (.flow .ldraa) Empty.elim FlowMode.toMode f
  | .flushpte f => encodeMonadic (.word .flushpte) Empty.elim WordMode.toMode f
  | .flushpbe f => encodeMonadic (.word .flushpbe) Empty.elim WordMode.toMode f
  | .flushdce m => encodeMonBad .flushdce m
  | .popn f => encodeMonadic (.stack .popn) (layoutS 3) stackMode f
  | .cpu b => cpuParcel :: encodeBody b
  | .kret => [layoutN 0x001]
  | .nop => [layoutN 0x002]
  | .flushi => [layoutN 0x003]
  | .flushp => [layoutN 0x004]
  | .cret => [layoutN 0x005]
  | .flushd => [layoutN 0x006]
  | .testv => [layoutN 0x008]
  | .testc => [layoutN 0x009]
  | .clre => [layoutN 0x00A]
  | .unimplemented u => encodeUnimpl u
  | .niladicTrap n => [layoutN (1#1 ++ n)]

end Sys2Proof
end

