-- ==== Sys2Proof/Machine/Memory.lean ====
section
/-! DEFINITION. Physical memory (20_memory.md R80, R81): bytes at physical addresses, held as a list in one canonical form.
A word's bytes lie most significant first, so a word and its lanes are those of Table R83 with `LE = 0`. -/

namespace Sys2Proof.Machine

/-- Physical memory: the bytes that differ from `memDefault`, addresses strictly rising and below 2^32. -/
abbrev Memory := List Host.Cell

/-- What a byte that is not listed reads as. DESIGN CHOICE (log entry 1): the spec gives memory no reset contents (R51). -/
def memDefault : Byte := 0

/-- The byte at a physical address. -/
def Memory.get : Memory → Nat → Byte
  | [], _ => memDefault
  | (k, b) :: r, a => if k = a then b else Memory.get r a

/-- The memory with the byte at `a` replaced, in canonical form again. -/
def Memory.set : Memory → Nat → Byte → Memory
  | [], a, v => if v = memDefault then [] else [(a, v)]
  | (k, b) :: r, a, v =>
    if a < k then (if v = memDefault then (k, b) :: r else (a, v) :: (k, b) :: r)
    else if a = k then (if v = memDefault then r else (a, v) :: r)
    else (k, b) :: Memory.set r a v

/-- Every listed address is at least `lo` and below 2^32, strictly rising, and no listed byte is the unlisted value. -/
def Memory.wfFrom : Nat → Memory → Bool
  | _, [] => true
  | lo, (k, b) :: r => decide (lo ≤ k) && decide (k < 2 ^ 32) && decide (b ≠ memDefault) && Memory.wfFrom (k + 1) r

/-- The canonical form. -/
def Memory.wf (m : Memory) : Bool := Memory.wfFrom 0 m

/-- The word address of a physical address: its bits 31:2. -/
def wordAddr (pa : Word) : Word := pa &&& 0xFFFFFFFC

/-- The byte address of byte `i` of the word at `pa`. -/
def byteAddr (pa : Word) (i : Nat) : Nat := (wordAddr pa).toNat + i

/-- The word of memory that holds the address `pa` (R81). -/
def Memory.readWord (m : Memory) (pa : Word) : Word :=
  (m.get (byteAddr pa 0) ++ m.get (byteAddr pa 1)) ++ (m.get (byteAddr pa 2) ++ m.get (byteAddr pa 3))

/-- A word with the bits of `mask` taken from `v` (write strobes, R81). -/
def mergeLanes (old mask v : Word) : Word := (old &&& ~~~mask) ||| (v &&& mask)

/-- The memory with the lanes `mask` of the word at `pa` replaced (R81). -/
def Memory.writeLanes (m : Memory) (pa mask v : Word) : Memory :=
  let w := mergeLanes (m.readWord pa) mask v
  let m := m.set (byteAddr pa 0) (w.extractLsb' 24 8)
  let m := m.set (byteAddr pa 1) (w.extractLsb' 16 8)
  let m := m.set (byteAddr pa 2) (w.extractLsb' 8 8)
  m.set (byteAddr pa 3) (w.extractLsb' 0 8)

/-- The memory with the word at `pa` replaced (R81). -/
def Memory.writeWord (m : Memory) (pa v : Word) : Memory := m.writeLanes pa 0xFFFFFFFF v

end Sys2Proof.Machine
end

