-- ==== Sys2Proof/Machine/State.lean ====
section
/-! DEFINITION. The state of the machine: everything 10_state.md gives it (R20 to R52), as plain data, with the outside world
of R14 as data too (the board's answers and a script of inputs), the ways a step can stop, and the state after reset. -/

namespace Sys2Proof.Machine

/-! ## Registers with fields -/

/-- PSW, the program status word (R36). Bits 3:0 do not exist; bits 31:17 are reserved and kept as written (U5). -/
structure Psw where
  /-- bits 31:17, reserved -/
  rsv : BitVec 15 := 0
  /-- bit 16: virtual addressing -/
  vp : Bool := false
  /-- bit 15: user data little-endian -/
  ul : Bool := false
  /-- bits 14:12: interrupt priority level -/
  ipl : BitVec 3 := 0
  /-- bit 11: enter guard -/
  e : Bool := false
  /-- bit 10: user level -/
  x : Bool := false
  /-- bit 9: SP is the current stack pointer -/
  s : Bool := false
  /-- bit 8: trace basic block -/
  tb : Bool := false
  /-- bit 7: trace instruction -/
  ti : Bool := false
  /-- bit 6: overflow -/
  v : Bool := false
  /-- bit 5: carry -/
  c : Bool := false
  /-- bit 4: flag -/
  f : Bool := false
  deriving DecidableEq, Repr

/-- CONFIG, the configuration register (R31). Bits 15:0 read 0. -/
structure Cfg where
  /-- bit 31: Timer2 interrupts -/
  t2i : Bool := false
  /-- bit 30: Timer2 counts at kernel level only -/
  t2k : Bool := false
  /-- bits 29:25: Timer2's event -/
  t2ev : BitVec 5 := 0
  /-- bit 24: Timer1 interrupts -/
  t1i : Bool := false
  /-- bit 23: Timer1 counts at kernel level only -/
  t1k : Bool := false
  /-- bit 22: Timer1 counts completed instructions -/
  t1ev : Bool := false
  /-- bit 21: aggressive prefetching -/
  pm : Bool := false
  /-- bit 20: prefetch buffer hits -/
  pbe : Bool := false
  /-- bit 19: instruction cache hits -/
  ice : Bool := false
  /-- bit 18: stack cache hits -/
  sce : Bool := false
  /-- bit 17: PC extension of 16-bit absolute addresses -/
  px : Bool := false
  /-- bit 16: kernel data little-endian -/
  kl : Bool := false
  deriving DecidableEq, Repr

/-! ## State seen only indirectly (R47, R48, R52) -/

/-- A store that has left its instruction and not reached memory (R52, R128): the lanes `mask` of the word at `pa`. -/
structure Store where
  pa : Word
  mask : Word
  val : Word
  deriving DecidableEq, Repr

/-- A cached page table entry (R47, R114), keyed by the page number. -/
structure TlbEntry where
  vpn : BitVec 20
  frame : BitVec 20
  /-- the cache bit -/
  c : Bool
  /-- the modified bit as cached -/
  m : Bool
  /-- user access allowed -/
  u : Bool
  /-- writes allowed -/
  w : Bool
  deriving DecidableEq, Repr

/-- A cached nonpaged segment table entry (R47, R113), keyed by the segment number. -/
structure Npsr where
  seg : BitVec 10
  base : BitVec 10
  bound : BitVec 10
  c : Bool
  u : Bool
  w : Bool
  deriving DecidableEq, Repr

/-- A quad-word of the prefetch buffer (R48): its physical address, the virtual address it was fetched at, its text. -/
structure PfbLine where
  pa : Word
  va : Word
  w0 : Word
  w1 : Word
  w2 : Word
  w3 : Word
  /-- a FLUSHI has found its text older than memory (R132, log entry 15) -/
  aged : Bool := false
  deriving DecidableEq, Repr

/-- A quad-word in the pipeline's prefetch registers (R131), and what the flushes have found of it: its text goes when both kinds, the
instruction cache's (`line.aged`) and the prefetch buffer's, have found it older than memory (R132, log entry 15). -/
structure AheadLine where
  line : PfbLine
  /-- a FLUSHP or a FLUSHPBE of it has found its text older than memory -/
  flushed : Bool := false
  deriving DecidableEq, Repr

/-- A read of a quad-word of text into the prefetch registers (R131). -/
structure TextRead where
  va : Word
  pa : Word
  /-- its text may be kept in the prefetch buffer too (R119) -/
  buffer : Bool
  /-- it is made whatever CONFIG.PM says: text that the pipeline may still hold (R132, log entry 15) -/
  linger : Bool
  deriving DecidableEq, Repr

/-- The lower double-word of a quad-word of text whose upper one is not read yet, and what the flushes have found of it, as of an
`AheadLine` (R131, R132, log entry 15). -/
structure LowerHalf where
  w0 : Word
  w1 : Word
  /-- a FLUSHI has found it older than memory -/
  aged : Bool := false
  /-- a FLUSHP or a FLUSHPBE of its quad-word has found it older than memory -/
  flushed : Bool := false
  deriving DecidableEq, Repr

/-- A prefetch under way, by the bus access that comes next (R131, R114): it may stand still between any two of them, for any
number of the program's accesses and instructions. -/
inductive Prefetch
  /-- the segment table entry of a text address -/
  | segment (va : Word)
  /-- the page table entry, read and marked in one locked pair (R109); its segment table entry was `ste` -/
  | page (va ste : Word)
  /-- the lower double-word of text -/
  | lower (r : TextRead)
  /-- the upper double-word of text -/
  | upper (r : TextRead) (h : LowerHalf)
  deriving DecidableEq, Repr

/-- A parcel of text, and whether it comes from a line that a FLUSHI has found old (R132, log entry 15). -/
structure Text where
  parcel : Parcel
  aged : Bool := false
  deriving DecidableEq, Repr

/-- An entry of the decoded instruction cache (R48): an instruction's virtual address and its parcels. -/
structure IcEntry where
  va : Word
  parcels : List Parcel
  deriving DecidableEq, Repr

/-! ## Hazards (70_reset_and_hazards.md R491, R493, R495) -/

/-- A byte or half-word result of ADD, SHL or MUL that overflowed its size: where it went and the 32-bit result (R495). -/
structure Wide where
  ea : Word
  bytes : Nat
  val : Word
  deriving DecidableEq, Repr

/-- What one instruction did that the next two may see late. -/
structure Hazard where
  /-- the PSW before it wrote F, C, V or E (R491) -/
  flags : Option Psw := none
  /-- SHAD before ENTER, RETURN, CALL or POPN (R493) -/
  shad : Option Word := none
  /-- an untruncated result (R495) -/
  wide : Option Wide := none
  deriving DecidableEq, Repr

/-- What the last executed instruction turned into, for tracing and the timers (R440, R451). -/
inductive StepEvent
  /-- it completed, or nothing ran -/
  | none
  /-- it raised an exception -/
  | exception
  /-- it ran the unimplemented instruction or trapped niladic sequence -/
  | softTrap
  /-- it reset the processor -/
  | reset
  deriving DecidableEq, Repr

/-! ## The outside world (R6, R14): parameters of a step, held as data -/

/-- What answers at a physical address (D7). -/
inductive Answer
  /-- memory -/
  | ram
  /-- a device: a read value is free, a write is consumed -/
  | device
  /-- BERR -/
  | busError
  deriving DecidableEq, Repr

/-- A range of physical addresses, both ends included, with its answers. D7 makes the answer a function of the address and the
access kind without naming the kinds: here they are two, every read (of data, text and the walker) and every write (DESIGN CHOICE,
log entry 7). -/
structure Region where
  lo : Word
  hi : Word
  /-- what answers every read -/
  rd : Answer
  /-- what answers every write -/
  wr : Answer
  deriving DecidableEq, Repr

/-- The parameters of R6 that no step changes. -/
structure Board where
  /-- MASK_VERSION: mask two -/
  maskTwo : Bool := false
  /-- EVENT_ACCESS_LEVEL: event sequences access memory at kernel level, not at the level in PSW -/
  eventKernel : Bool := false
  /-- whether the store check of ENTER, CATCH and CRET sets R and M (U9) -/
  checkMarks : Bool := false
  /-- PLATFORM_MEMORY: the first region that holds an address answers; elsewhere RAM -/
  regions : List Region := []
  deriving DecidableEq, Repr

/-- What may happen on the bus or in the caches between two accesses of the program (D8, D13, D22, R48, R131, R132, R464). -/
inductive Act
  /-- the oldest buffered transfer of the processor reaches the bus (R128) -/
  | deliver
  /-- another bus master writes a word (R464) -/
  | write (pa v : Word)
  /-- the text TLB drops the entry of an address -/
  | textPage (va : Word)
  /-- the data TLB drops the entry of an address -/
  | dataPage (va : Word)
  /-- the text NPSR is dropped -/
  | textSegment
  /-- the data NPSR is dropped -/
  | dataSegment
  /-- the prefetch buffer drops the quad-word of a physical address -/
  | line (pa : Word)
  /-- the prefetch registers drop the quad-word of a physical address -/
  | registers (pa : Word)
  /-- the decoded instruction cache drops the instruction at a virtual address -/
  | instr (va : Word)
  /-- a prefetch of the text at an address begins (R131); with `old`, in the space before a direct write of PSW.VP (R494) -/
  | prefetch (va : Word) (old : Bool := false)
  /-- text at a physical address that the pipeline may still hold later begins to be read, without a prefetch (R132) -/
  | linger (pa : Word)
  /-- the `i`-th of the reads under way makes its next bus access (R131) -/
  | advance (i : Nat)
  /-- the instruction at an address is predecoded from text on the chip (R131), its first `old` parcels found in the space before a
  direct write of PSW.VP (R494) -/
  | predecode (va : Word) (old : Nat := 0)
  deriving DecidableEq, Repr

/-- What the outside world, and the hardware's own unstated choices, do in one step (EXTERNAL_AGENTS, D8, D13, D21, D22). -/
structure Env where
  /-- the recognised value of IL[2:0]; 7 is no interrupt (R406) -/
  il : BitVec 3 := 7
  /-- the hardware takes no interrupt at this boundary; a request may be taken after any delay (R411, D21) -/
  defer : Bool := false
  /-- HRESET asserted -/
  hreset : Bool := false
  /-- what happens before the step's first access -/
  start : List Act := []
  /-- what happens before each access of the step to the bus or to a translation cache, one list for each -/
  between : List (List Act) := []
  /-- whether translations walked in this step are cached (D22) -/
  keepWalk : Bool := true
  /-- whether cached text is kept (R132); if not, the text caches are emptied and not filled -/
  keepText : Bool := true
  /-- how many transfers may stay in the store buffer at the end of the step (R128) -/
  hold : Nat := 0
  /-- whether a one-parcel jump after the instruction is folded into it (R442, D28) -/
  fold : Bool := false
  deriving DecidableEq, Repr

/-- The mnemonics of a one-parcel jump (R145, R442). -/
inductive JumpOp
  | jmp | jmpfn | jmpfy | jmptn | jmpty
  deriving DecidableEq, Repr

/-- A one-parcel jump that was folded into the instruction before it and runs next (R442). -/
structure FoldedJump where
  op : JumpOp
  field : BitVec 10
  /-- TI as the instruction before it began -/
  ti : Bool
  deriving DecidableEq, Repr

/-- The whole state. -/
structure State where
  /-- the program counter (R45) -/
  pc : Word
  psw : Psw
  config : Cfg
  /-- the stack pointer (R39) -/
  sp : Word
  /-- the maximum stack pointer (R35) -/
  msp : Word
  /-- the interrupt stack pointer (R34) -/
  isp : Word
  /-- the shadow of the current stack pointer (R38) -/
  shad : Word
  /-- the vector base (R40) -/
  vb : Word
  /-- the segment table base (R41) -/
  stb : Word
  /-- the fault address (R32) -/
  fault : Word
  timer1 : Word
  timer2 : Word
  /-- the stack cache's 64 word registers (R22) -/
  sc : Vector Word 64
  /-- physical memory (R80) -/
  mem : Memory
  /-- the store buffer, oldest first: one list of stores for each bus transfer, of one word or a block (R52, R105, R128) -/
  storeBuf : List (List Store)
  textTlb : List TlbEntry
  dataTlb : List TlbEntry
  textNpsr : Option Npsr
  dataNpsr : Option Npsr
  /-- the prefetch buffer (R48) -/
  pfb : List PfbLine
  /-- the decoded instruction cache (R48) -/
  ic : List IcEntry
  /-- text already in the pipeline's prefetch registers, newest first (R131, R132) -/
  ahead : List AheadLine
  /-- prefetches and other reads of text into those registers that are under way, newest first (R131) -/
  prefetches : List Prefetch
  /-- the last recognised value of IL[2:0], the edge detector of level 0 (R49, R408) -/
  lastIl : BitVec 3
  nmiPending : Bool
  /-- Timer1's and Timer2's pending requests (R453) -/
  t1Req : Bool
  t2Req : Bool
  /-- a trace exception is due before the next instruction (R440) -/
  tracePending : Bool
  /-- stores the bus refused whose exception is not yet taken (R426) -/
  lostStores : Nat
  /-- the jump folded into the last instruction (R442) -/
  folded : Option FoldedJump
  /-- PSW.VP before a direct write changed it, while text of that space may still follow (R494 (b), U23) -/
  oldSpace : Option Bool
  /-- the hazards of the last two instructions, newest first (R491 to R495) -/
  recent : List Hazard
  /-- the hazard the instruction in progress leaves -/
  hazard : Hazard
  /-- what the instruction in progress turned into -/
  event : StepEvent
  /-- how many free values have been drawn -/
  draw : Nat
  board : Board
  /-- the script of the outside world, one entry a step; quiet when it is empty -/
  env : List Env
  deriving DecidableEq, Repr

/-- The ways a step can stop that are no event of the machine. -/
inductive Fault
  /-- Raised by the step: the text delivered ends before its instruction does. Safe; no fetch of the machine delivers such
  a text. -/
  | textTruncated
  /-- Raised by the step: U17's `stuck` (R424). The handler's first instruction cannot be fetched, its own fault leads to it
  again, and no frame store can fault, so nothing but an endless loop is left. Safe. -/
  | handlerLoop
  deriving DecidableEq, Repr

/-- The instructions and states the model does not go on from, each where the spec says so. -/
inductive Refusal
  /-- Raised by the dispatch for an instruction without a meaning; safe. -/
  | notModelled (mnemonic : String)
  /-- U1: a stack-cache access, ENTER, CATCH, CRET, POPN or RETURN while `SP <= MSP <= SP + 256` is false; safe. -/
  | stackCacheBounds
  /-- U6: an instruction that reads two control registers; safe. -/
  | twoRegisterReads
  /-- U11, D17: a CPU prefix before a one-parcel instruction; safe. -/
  | cpuBeforeOneParcel
  /-- U12: a conditional jump with an indirect mode; safe. -/
  | indirectConditionalJump
  /-- U15: a three-parcel `ENTER Roffset` with `-256 <= offset < 0`; safe. -/
  | enterShortOffset
  /-- U16: FLUSHPBE or FLUSHPTE with immediate mode; safe. -/
  | flushImmediate
  deriving DecidableEq, Repr

/-- The outside world in this step: the head of the script, or nothing at all. -/
def State.cur (s : State) : Env := s.env.headD {}

/-- The machine right after the reset sequence of the HRESET pin (R51, R480). PC, PSW, CONFIG, SHAD and the empty caches are
the spec's; every other register's zero is the model's (DESIGN CHOICE, log entry 2), and memory reads `memDefault`
(log entry 1). The board is all RAM and mask one, the script is empty (log entry 7). -/
def State.reset : State where
  pc := 0
  psw := {}
  config := {}
  sp := 0
  msp := 0
  isp := 0
  shad := 0
  vb := 0
  stb := 0
  fault := 0
  timer1 := 0
  timer2 := 0
  sc := Vector.replicate 64 0
  mem := []
  storeBuf := []
  textTlb := []
  dataTlb := []
  textNpsr := none
  dataNpsr := none
  pfb := []
  ic := []
  ahead := []
  prefetches := []
  lastIl := 7
  nmiPending := false
  t1Req := false
  t2Req := false
  tracePending := false
  lostStores := 0
  folded := none
  oldSpace := none
  recent := []
  hazard := {}
  event := .none
  draw := 0
  board := {}
  env := []

end Sys2Proof.Machine
end

