-- ==== Sys2Proof/Machine/Run.lean ====
section
/-! DEFINITION. How an instruction runs: a computation over the state that ends in a value, in an exception of Table 1-26
(60_exceptions.md R421), in a reset, or in one of the model's own stops; and the few primitives every meaning is made of. -/

namespace Sys2Proof.Machine

/-- The exceptions of Table 1-26 (R421). -/
inductive Exc
  | zeroDivide
  | trace
  | illegal
  | alignment
  | privilege
  | unimplReg
  | fetchFault
  /-- a data read fault at a virtual address, which FAULT reports (R423) -/
  | dataRead (va : Word)
  /-- a data write fault at a virtual address, which FAULT reports (R423) -/
  | dataWrite (va : Word)
  | busFault
  | walkFault
  deriving DecidableEq, Repr

/-- The exception identifiers (Table 1-26, R421). -/
def Exc.id : Exc → Word
  | .zeroDivide => 0x1
  | .trace => 0x2
  | .illegal => 0x3
  | .alignment => 0x4
  | .privilege => 0x5
  | .unimplReg => 0x6
  | .fetchFault => 0x7
  | .dataRead _ => 0x8
  | .dataWrite _ => 0x9
  | .busFault => 0xA
  | .walkFault => 0xB

/-- What ends a computation early. -/
inductive Stop
  /-- an exception of the instruction (R420) -/
  | exc (e : Exc)
  /-- a fault of an access that resets the processor (R481) -/
  | reset
  /-- a refusal of the model -/
  | refused (r : Refusal)
  /-- a fault of the model -/
  | fault (f : Fault)
  deriving DecidableEq, Repr

/-- A computation of the machine. The state at an early end is the one it had reached: checks come before changes (R422). -/
abbrev M := EStateM Stop State

/-- The state. -/
def getS : M State := fun s => .ok s s

/-- Changing the state. -/
def modS (f : State → State) : M Unit := fun s => .ok () (f s)

/-- Ending early. -/
def stop {α : Type} (e : Stop) : M α := fun s => .error e s

/-- Raising an exception. -/
def raise {α : Type} (e : Exc) : M α := stop (.exc e)

/-- Raising an exception where a condition holds. -/
def raiseIf (b : Bool) (e : Exc) : M Unit := if b then raise e else pure ()

/-- Refusing where a condition holds. -/
def refuseIf (b : Bool) (r : Refusal) : M Unit := if b then stop (.refused r) else pure ()

/-- Drawing a free choice between two allowed values. -/
def flip : M Bool := fun s => .ok (Config.coin s.draw) { s with draw := s.draw + 1 }

/-- Drawing a free word. -/
def freeWord : M Word := fun s => .ok (Config.freeWord s.draw) { s with draw := s.draw + 1 }

/-- An access of an event sequence: what would be an exception resets the processor (R481). -/
def guardReset {α : Type} (m : M α) : M α := fun s =>
  match m s with
  | .ok a s' => .ok a s'
  | .error (.exc _) s' => .error .reset s'
  | .error e s' => .error e s'

/-- The step's remaining `between` lists set (`Env.between`). -/
def State.setBetween (s : State) (l : List (List Act)) : State :=
  match s.env with
  | [] => s
  | e :: r => { s with env := { e with between := l } :: r }

/-- A computation in which no other agent acts: a locked pair (R107), or one whose effects nobody sees. -/
def undisturbed {α : Type} (m : M α) : M α := fun s =>
  match m (s.setBetween []) with
  | .ok a t => .ok a (t.setBetween s.cur.between)
  | .error e t => .error e (t.setBetween s.cur.between)

/-- What a computation answers, its effects on the state undone but for the values it drew (FLUSHPBE's comparison, R384). -/
def peek {α : Type} (m : M α) : M α := fun s =>
  match m (s.setBetween []) with
  | .ok a t => .ok a { s with draw := t.draw }
  | .error e t => .error e { s with draw := t.draw }

/-- A computation under another CONFIG (R494). -/
def underConfig {α : Type} (c : Cfg) (m : M α) : M α := fun s =>
  match m { s with config := c } with
  | .ok a t => .ok a { t with config := s.config }
  | .error e t => .error e { t with config := s.config }

/-- A hazard with the PSW found before a write of F, C, V or E; the first of an instruction counts (R491). -/
def Hazard.noteFlags (h : Hazard) (p : Psw) : Hazard := { h with flags := some (h.flags.getD p) }

/-- The instruction has written F, C, V or E and found the PSW `p` (R491). -/
def State.noteFlags (s : State) (p : Psw) : State := { s with hazard := s.hazard.noteFlags p }

/-- The virtual and user bits that govern an access. -/
structure Level where
  /-- translation is on -/
  vp : Bool
  /-- user level -/
  user : Bool
  deriving DecidableEq, Repr

/-- The level in PSW. -/
def State.level (s : State) : Level := ⟨s.psw.vp, s.psw.x⟩

/-- The level of an event sequence's accesses: the one in PSW or the kernel's (D6, EVENT_ACCESS_LEVEL). -/
def State.eventLevel (s : State) : Level := ⟨s.psw.vp, s.psw.x && !s.board.eventKernel⟩

end Sys2Proof.Machine
end

