-- ==== Sys2Proof/Machine/Registers.lean ====
section
/-! DEFINITION. The control registers (10_state.md R29 to R46): their words, their numbers, reading and writing them, and the
hazards R491 and R493 of reading or writing PSW and SHAD too soon. -/

namespace Sys2Proof.Machine

/-- The quad-word aligned part of an address: bits 31:4 (R30). -/
def quadAlign (v : Word) : Word := v &&& 0xFFFFFFF0

/-- A text address: bit 0 is dropped (R45, R99). -/
def textAddr (v : Word) : Word := v &&& 0xFFFFFFFE

/-- The PSW as a word (R36): bits 3:0 read 0. -/
def Psw.toWord (p : Psw) : Word :=
  (p.rsv ++ BitVec.ofBool p.vp) ++
    (((BitVec.ofBool p.ul ++ p.ipl) ++ (BitVec.ofBool p.e ++ BitVec.ofBool p.x ++ BitVec.ofBool p.s ++ BitVec.ofBool p.tb)) ++
      ((BitVec.ofBool p.ti ++ BitVec.ofBool p.v ++ BitVec.ofBool p.c ++ BitVec.ofBool p.f) ++ 0#4))

/-- The PSW a word loads (R36): bits 3:0 are dropped. -/
def Psw.ofWord (w : Word) : Psw where
  rsv := w.extractLsb' 17 15
  vp := w.getLsbD 16
  ul := w.getLsbD 15
  ipl := w.extractLsb' 12 3
  e := w.getLsbD 11
  x := w.getLsbD 10
  s := w.getLsbD 9
  tb := w.getLsbD 8
  ti := w.getLsbD 7
  v := w.getLsbD 6
  c := w.getLsbD 5
  f := w.getLsbD 4

/-- `PSW & 0xFFFF0000`: what every event sequence and KCALL leave (R410, R420, R310). -/
def Psw.cleared (p : Psw) : Psw := { rsv := p.rsv, vp := p.vp }

/-- CONFIG as a word (R31): bits 15:0 read 0. -/
def Cfg.toWord (c : Cfg) : Word :=
  ((BitVec.ofBool c.t2i ++ BitVec.ofBool c.t2k ++ c.t2ev ++ BitVec.ofBool c.t1i) ++
    (BitVec.ofBool c.t1k ++ BitVec.ofBool c.t1ev ++ BitVec.ofBool c.pm ++ BitVec.ofBool c.pbe ++ BitVec.ofBool c.ice ++
      BitVec.ofBool c.sce ++ BitVec.ofBool c.px ++ BitVec.ofBool c.kl)) ++ 0#16

/-- The CONFIG a word loads (R31, U4): bits 15:0 are dropped. -/
def Cfg.ofWord (w : Word) : Cfg where
  t2i := w.getLsbD 31
  t2k := w.getLsbD 30
  t2ev := w.extractLsb' 25 5
  t1i := w.getLsbD 24
  t1k := w.getLsbD 23
  t1ev := w.getLsbD 22
  pm := w.getLsbD 21
  pbe := w.getLsbD 20
  ice := w.getLsbD 19
  sce := w.getLsbD 18
  px := w.getLsbD 17
  kl := w.getLsbD 16

/-- The identification register (R33): version, part code 0, manufacturer code 0x3B. -/
def State.idWord (s : State) : Word := if s.board.maskTwo then 0x1000003B else 0x0000003B

/-- The current stack pointer (R24). -/
def State.csp (s : State) : Word := if s.psw.s then s.sp else s.isp

/-- "Set CSP": SP or ISP as PSW bit 9 selects. -/
def State.setCsp (s : State) (v : Word) : State := if s.psw.s then { s with sp := v } else { s with isp := v }

/-- The address of the accumulator (R25). -/
def State.accAddr (s : State) : Word := s.csp + 4

/-- The control registers that have a number (R29). -/
inductive Reg
  | msp | isp | sp | config | psw | shad | vb | stb | fault | id | timer1 | timer2
  deriving DecidableEq, Repr

/-- The register of a number, none for 0x0, 0xD, 0xE and 0xF (Table 1-24, R29). -/
def Reg.ofCode (c : BitVec 4) : Option Reg :=
  match c.toNat with
  | 0x1 => some .msp | 0x2 => some .isp | 0x3 => some .sp | 0x4 => some .config | 0x5 => some .psw | 0x6 => some .shad
  | 0x7 => some .vb | 0x8 => some .stb | 0x9 => some .fault | 0xA => some .id | 0xB => some .timer1 | 0xC => some .timer2
  | _ => none

/-- What a register holds, with no hazard in the way. -/
def Reg.get (s : State) : Reg → Word
  | .msp => s.msp
  | .isp => s.isp
  | .sp => s.sp
  | .config => s.config.toWord
  | .psw => s.psw.toWord
  | .shad => s.shad
  | .vb => s.vb
  | .stb => s.stb
  | .fault => s.fault
  | .id => s.idWord
  | .timer1 => s.timer1
  | .timer2 => s.timer2

/-! ## Hazards of reading and writing PSW and SHAD -/

/-- A bit that is open between two values: the first, unless another differs and the coin falls to it. -/
def openBit (now : Bool) (others : List Bool) : M Bool :=
  if others.all (· == now) then pure now
  else do
    let k ← flip
    pure (now ^^ k)

/-- One of several words: the first, or a later one that the coin picks. -/
def openWord (now : Word) : List Word → M Word
  | [] => pure now
  | w :: r => do
    let v ← openWord now r
    if w = v then pure v
    else do
      let k ← flip
      pure (if k then w else v)

/-- The values of PSW before the flag writes of the last two instructions (R491). -/
def State.oldPsws (s : State) : List Psw := s.recent.filterMap Hazard.flags

/-- The values of SHAD before the changes the last two instructions made (R493). -/
def State.oldShads (s : State) : List Word := s.recent.filterMap Hazard.shad

/-- The PSW a CPU-prefixed read sees (R491, U18): bits 11, 6, 5, 4 are each the value before or after a nearby flag write,
the other bits exact. -/
def readPsw : M Word := do
  let s ← getS
  let old := s.oldPsws
  let e ← openBit s.psw.e (old.map (·.e))
  let v ← openBit s.psw.v (old.map (·.v))
  let c ← openBit s.psw.c (old.map (·.c))
  let f ← openBit s.psw.f (old.map (·.f))
  pure { s.psw with e := e, v := v, c := c, f := f }.toWord

/-- The text space a direct write of PSW.VP leaves (R494 (b), U23). -/
def State.leaveSpace (s : State) (vp : Bool) : Option Bool := if vp = s.psw.vp then s.oldSpace else some s.psw.vp

/-- The PSW a CPU-prefixed write leaves (R491, U18): after a nearby flag write, whether bits 11, 6, 5, 4 end as written or as
that write left them is open; what it left is the PSW as it stands, which for TADD and TSUB with PSW as their destination holds
their own flags (DESIGN CHOICE, log entry 16). It writes the four bits itself, so it opens the hazard for a later access (R46;
log entry 16), and it may leave the text that follows in either space (R494). It does not update SHAD (R37). -/
def writePsw (w : Word) : M Unit := do
  let s ← getS
  let p := Psw.ofWord w
  let late (b : Bool) : List Bool := if s.oldPsws.isEmpty then [] else [b]
  let e ← openBit p.e (late s.psw.e)
  let v ← openBit p.v (late s.psw.v)
  let c ← openBit p.c (late s.psw.c)
  let f ← openBit p.f (late s.psw.f)
  modS fun s => { s with
    psw := { p with e := e, v := v, c := c, f := f }, hazard := s.hazard.noteFlags s.psw, oldSpace := s.leaveSpace p.vp }

/-- SHAD as a CPU-prefixed read sees it (R493, U19): the old or the new value. -/
def readShad : M Word := do
  let s ← getS
  openWord s.shad s.oldShads

/-- SHAD after a CPU-prefixed write (R493, U19): the written value, or the late internal update. For that update stands SHAD as the
write finds it, so a second write inside one window may leave what the first one left (DESIGN CHOICE, log entry 16). -/
def writeShad (w : Word) : M Unit := do
  let s ← getS
  let v ← openWord (quadAlign w) (if s.oldShads.isEmpty then [] else [s.shad])
  modS fun s => { s with shad := v }

/-! ## The stack cache's contents when its range grows (R90) -/

/-- The stack cache with the words of the `len` bytes from `lo` holding no defined value (R90, U8): each is a free value. -/
def State.scForget (s : State) (lo : Word) (len : Nat) : State :=
  { s with
    sc := Vector.ofFn fun i : Fin 64 =>
      if (4 * i.val + 256 - lo.toNat % 256) % 256 < len then Config.freeWord (s.draw + i.val) else s.sc.get i
    draw := s.draw + 64 }

/-- The stack cache before SP falls to `v`: the words that come into its range hold no defined value (R90; for an event
sequence's `SP <- SHAD` the spec is silent, DESIGN CHOICE, log entry 33). -/
def State.lowerSp (s : State) (v m : Word) : State :=
  let top := if s.sp < m then s.sp else m
  if v < top then s.scForget v (top - v).toNat else s

/-! ## Reading and writing registers (R44) -/

/-- `x[r]` (R44). -/
def readReg : Reg → M Word
  | .psw => readPsw
  | .shad => readShad
  | r => do
    let s ← getS
    pure (r.get s)

/-- A prefetch that has read a segment table entry and not yet the page table entry it leads to. -/
def Prefetch.midWalk : Prefetch → Bool
  | .page _ _ => true
  | _ => false

/-- The TLBs and segment registers emptied (R122, R123), and with them the prefetches in the middle of a walk: what such a one would
load is older than the flush (log entry 15). -/
def State.flushTranslations (s : State) : State :=
  { s with textTlb := [], dataTlb := [], textNpsr := none, dataNpsr := none, prefetches := s.prefetches.filter fun p => !p.midWalk }

/-- A direct write of MSP (R35): words it brings into the range hold no defined value (R90). -/
def State.writeMsp (s : State) (v : Word) : State :=
  let s' := if s.msp < v then s.scForget s.msp (v - s.msp).toNat else s
  { s' with msp := v }

/-- `x[r] <- v` once the level has been checked (R44), with the side effects of R30, R33, R38 (D12), R39 and R41. -/
def writeReg (r : Reg) (v : Word) : M Unit :=
  match r with
  | .msp => modS fun s => s.writeMsp (quadAlign v)
  | .isp => modS fun s => { s with isp := quadAlign v, shad := if s.psw.s then s.shad else quadAlign v }
  | .sp => modS fun s =>
      { s with sp := quadAlign v, msp := quadAlign v, shad := if s.psw.s then quadAlign v else s.shad }
  | .config => modS fun s => { s with config := Cfg.ofWord v }
  | .psw => writePsw v
  | .shad => writeShad v
  | .vb => modS fun s => { s with vb := quadAlign v }
  | .stb => modS fun s => { s.flushTranslations with stb := v &&& 0xFFFFF800 }
  | .fault => modS fun s => { s with fault := v }
  | .id => pure ()
  | .timer1 => modS fun s => { s with timer1 := v }
  | .timer2 => modS fun s => { s with timer2 := v }

end Sys2Proof.Machine
end

