-- ==== Sys2Proof/Machine/Bus.lean ====
section
/-! DEFINITION. External memory as the bus answers it, and the store buffer (20_memory.md R81, R105, R128, R425, R426). -/

namespace Sys2Proof.Machine

/-- What answers a read of the word at a physical address (D7). -/
def Board.readAnswer (b : Board) (pa : Word) : Answer :=
  match b.regions.find? fun r => decide (r.lo ≤ wordAddr pa ∧ wordAddr pa ≤ r.hi) with
  | some r => r.rd
  | none => .ram

/-- What answers a write of the word at a physical address (D7). -/
def Board.writeAnswer (b : Board) (pa : Word) : Answer :=
  match b.regions.find? fun r => decide (r.lo ≤ wordAddr pa ∧ wordAddr pa ≤ r.hi) with
  | some r => r.wr
  | none => .ram

/-- `PhysRead` (R81): the word at `pa`, a device's free value, or the bus error `e`. -/
def busRead (e : Exc) (pa : Word) : M Word := fun s =>
  match s.board.readAnswer pa with
  | .ram => .ok (s.mem.readWord pa) s
  | .device => .ok (Config.deviceWord s.draw (wordAddr pa)) { s with draw := s.draw + 1 }
  | .busError => .error (.exc e) s

/-- `PhysWrite` (R81) that is not buffered: the walker's. -/
def busWrite (e : Exc) (pa v : Word) : M Unit := fun s =>
  match s.board.writeAnswer pa with
  | .ram => .ok () { s with mem := s.mem.writeWord pa v }
  | .device => .ok () s
  | .busError => .error (.exc e) s

/-- A word with a buffered store's lanes laid over it, where the store is to that word. -/
def Store.over (pa w : Word) (t : Store) : Word := if t.pa = wordAddr pa then mergeLanes w t.mask t.val else w

/-- The word at a physical address as the processor's own reads see it (R52, R126): memory under the buffered stores. -/
def State.physWord (s : State) (pa : Word) : Word :=
  s.storeBuf.flatten.foldl (Store.over pa) (s.mem.readWord pa)

/-- A byte of physical memory as the processor's own reads see it. -/
def State.physByte (s : State) (a : Word) : Byte :=
  (s.physWord a).extractLsb' (24 - 8 * (a.toNat % 4)) 8

/-- A store of the processor to memory: lanes of a word. -/
def Store.of (pa mask v : Word) : Store := ⟨wordAddr pa, mask, v⟩

/-- A bus transfer of the processor, of one word or of a block, joins the store buffer (R105, R128). -/
def State.enqueueBlock (s : State) (b : List Store) : State := { s with storeBuf := s.storeBuf ++ [b] }

/-- A store of one word joins the store buffer (R128). -/
def State.enqueue (s : State) (pa mask v : Word) : State := s.enqueueBlock [Store.of pa mask v]

/-- One buffered transfer reaches the bus, with nothing of any other master in its middle (R105). A bus error loses the rest of
it and is counted once (R426); the earlier words are written. -/
def State.drainTransfer (s : State) : List Store → State
  | [] => s
  | t :: r =>
    match s.board.writeAnswer t.pa with
    | .ram => State.drainTransfer { s with mem := s.mem.writeLanes t.pa t.mask t.val } r
    | .device => State.drainTransfer s r
    | .busError => { s with lostStores := s.lostStores + 1 }

/-- The oldest transfers reach the bus until at most `n` are left (R128). -/
def State.drainTo (s : State) (n : Nat) : State :=
  let k := s.storeBuf.length - n
  { (s.storeBuf.take k).foldl State.drainTransfer s with storeBuf := s.storeBuf.drop k }

/-- Every store reaches the bus (the drain points of D13). -/
def State.drainAll (s : State) : State := s.drainTo 0

/-- Another bus master's word (R464). -/
def State.masterWord (s : State) (pa v : Word) : State :=
  match s.board.writeAnswer pa with
  | .ram => { s with mem := s.mem.writeWord pa v }
  | _ => s

end Sys2Proof.Machine
end

