-- ==== Sys2Proof/Machine/Tables.lean ====
section
/-! DEFINITION. The translation tables and the translation caches (20_memory.md R111 to R124), and the two bus operations of a walk,
each alone: other agents act before them, not inside (R109). -/

namespace Sys2Proof.Machine

/-- The page number of an address. -/
def vpnOf (va : Word) : BitVec 20 := va.extractLsb' 12 20

/-- What an access is for (R114). -/
inductive Kind
  | text
  | read
  | write
  /-- the store check of ENTER, CATCH and CRET, with no data access after it (R95); `marks` is whether it sets R and M (U9) -/
  | check (marks : Bool)
  deriving DecidableEq, Repr

/-- Whether an access needs permission to write (R114, R95). -/
def Kind.writes : Kind → Bool
  | .write => true
  | .check _ => true
  | _ => false

/-- The fault of a failed translation (R114, R116); a store check's is a data read fault (R95, C9). -/
def Kind.faultAt (va : Word) : Kind → Exc
  | .text => .fetchFault
  | .read => .dataRead va
  | .write => .dataWrite va
  | .check _ => .dataRead va

/-- A cached or walked table entry. -/
inductive Entry
  | page (e : TlbEntry)
  | seg (e : Npsr)
  deriving DecidableEq, Repr

/-- A translated address and whether its text may be kept in the prefetch buffer (R119). -/
structure Xlat where
  pa : Word
  cacheable : Bool
  deriving DecidableEq, Repr

/-- The segment number of an address. -/
def segOf (va : Word) : BitVec 10 := va.extractLsb' 22 10

/-- Bits 21:12 of an address: the page number inside its segment. -/
def pageOf (va : Word) : BitVec 10 := va.extractLsb' 12 10

/-- The checks of R114: the segment bound, user access, write access. -/
def Entry.allows (user : Bool) (k : Kind) (va : Word) : Entry → Bool
  | .page e => (!user || e.u) && (!k.writes || e.w)
  | .seg e => decide (pageOf va ≤ e.bound) && (!user || e.u) && (!k.writes || e.w)

/-- The physical address an entry gives (R114). -/
def Entry.xlat (va : Word) : Entry → Xlat
  | .page e => ⟨e.frame ++ va.extractLsb' 0 12, e.c⟩
  | .seg e => ⟨e.base ++ va.extractLsb' 0 22, e.c⟩

/-- The TLB of an access's side. -/
def State.tlb (s : State) : Kind → List TlbEntry
  | .text => s.textTlb
  | _ => s.dataTlb

/-- The nonpaged segment register of an access's side. -/
def State.npsr (s : State) : Kind → Option Npsr
  | .text => s.textNpsr
  | _ => s.dataNpsr

/-- The cached entry for an address (R120): a page's, else the segment's. A write that hits a page with M = 0 counts as a miss
and is walked (R114, D14), even where the segment register matches too (DESIGN CHOICE, log entry 14). -/
def State.lookup (s : State) (k : Kind) (va : Word) : Option Entry :=
  match (s.tlb k).find? fun e => e.vpn == vpnOf va with
  | some e => if k.writes = true ∧ e.m = false then none else some (.page e)
  | none =>
    match s.npsr k with
    | some n => if n.seg = segOf va then some (.seg n) else none
    | none => none

/-- Loading a walked page table entry, if the hardware keeps it (D22); the oldest of more than 32 goes. A copy of the page that was
cached before (with M = 0, walked again for a write) goes either way: that it goes where the new entry is not kept is a DESIGN CHOICE,
since D22 would let it stay (log entry 9). A store check that sets no marks loads none (log entry 19). -/
def State.loadTlb (s : State) (k : Kind) (e : TlbEntry) : State :=
  if k = .check false then s
  else if s.cur.keepWalk then
    match k with
    | .text => { s with textTlb := (e :: s.textTlb.filter fun o => o.vpn != e.vpn).take tlbSize }
    | _ => { s with dataTlb := (e :: s.dataTlb.filter fun o => o.vpn != e.vpn).take tlbSize }
  else
    match k with
    | .text => { s with textTlb := s.textTlb.filter fun o => o.vpn != e.vpn }
    | _ => { s with dataTlb := s.dataTlb.filter fun o => o.vpn != e.vpn }

/-- Loading a walked nonpaged segment entry, if the hardware keeps it (D22). A store check that sets no marks loads none (log
entry 19). -/
def State.loadNpsr (s : State) (k : Kind) (n : Npsr) : State :=
  if k = .check false then s
  else if s.cur.keepWalk then
    match k with
    | .text => { s with textNpsr := some n }
    | _ => { s with dataNpsr := some n }
  else s

/-- A page table entry as the TLB holds it (R115). -/
def TlbEntry.ofPte (va pte : Word) : TlbEntry where
  vpn := vpnOf va
  frame := pte.extractLsb' 12 20
  c := pte.getLsbD 11
  m := pte.getLsbD 4
  u := pte.getLsbD 2
  w := pte.getLsbD 1

/-- A nonpaged segment table entry as the NPSR holds it (R113). -/
def Npsr.ofSte (va ste : Word) : Npsr where
  seg := segOf va
  base := ste.extractLsb' 22 10
  bound := ste.extractLsb' 12 10
  c := ste.getLsbD 11
  u := ste.getLsbD 2
  w := ste.getLsbD 1

/-- A prefetch in the middle of the walk of a page (R131). -/
def Prefetch.walksPage (vpn : BitVec 20) : Prefetch → Bool
  | .page va _ => vpnOf va == vpn
  | _ => false

/-- The address of the segment table entry (R112). -/
def steAddr (stb va : Word) : Word := stb.extractLsb' 12 20 ++ (segOf va ++ 0#2)

/-- The address of the page table entry (R115). -/
def pteAddr (ste va : Word) : Word := ste.extractLsb' 12 20 ++ (pageOf va ++ 0#2)

/-- The bits a walk sets in a page table entry: R always, M for a write (R114); a store check's are the board's (U9). -/
def markBits : Kind → Word
  | .text => 0x8
  | .read => 0x8
  | .write => 0x18
  | .check marks => if marks then 0x18 else 0

/-- A valid segment table entry of a paged segment (R113). -/
def isPaged (ste : Word) : Bool := ste.getLsbD 0 && !ste.getLsbD 3

/-- The segment table entry of an address (R112). -/
def readSte (va : Word) : M Word := do
  let s ← getS
  busRead .walkFault (steAddr s.stb va)

/-- The entry that a segment table entry gives without a page table (R114): a nonpaged segment's, which is loaded, or `none`,
"absent". -/
def segmentEntry (k : Kind) (va ste : Word) : M (Option Entry) :=
  if !ste.getLsbD 0 then pure none
  else do
    modS fun s => s.loadNpsr k (Npsr.ofSte va ste)
    pure (some (.seg (Npsr.ofSte va ste)))

/-- The entry that a paged segment's table entry leads to (R114); `none` is "absent". The read of the page table entry and its
write-back are one locked pair (R109). -/
def walkPage (user : Bool) (k : Kind) (va ste : Word) : M (Option Entry) := do
  let pte ← busRead .walkFault (pteAddr ste va)
  if !pte.getLsbD 0 then pure none
  else if !(Entry.page (TlbEntry.ofPte va pte)).allows user k va then pure (some (.page (TlbEntry.ofPte va pte)))
  else do
    let new := pte ||| markBits k
    if new ≠ pte then busWrite .walkFault (pteAddr ste va) new
    modS fun s => s.loadTlb k (TlbEntry.ofPte va new)
    pure (some (.page (TlbEntry.ofPte va new)))

end Sys2Proof.Machine
end

