-- ==== Sys2Proof/Machine/Prefetch.lean ====
section
/-! DEFINITION. The text the chip holds (20_memory.md R48, R119, R131, R132), the prefetch unit, which reads and walks ahead of the
program's path at any time, and the acts of every other agent between two accesses of the program (D8, D13, D22, R464). -/

namespace Sys2Proof.Machine

/-! ## Text on the chip -/

/-- The parcel at a text address in the word that holds it: high half first (R98). -/
def parcelOf (a w : Word) : Parcel := if a.getLsbD 1 then w.extractLsb' 0 16 else w.extractLsb' 16 16

/-- A word of a prefetch buffer line. -/
def PfbLine.word (l : PfbLine) (a : Word) : Word :=
  match (a.extractLsb' 2 2).toNat with
  | 0 => l.w0
  | 1 => l.w1
  | 2 => l.w2
  | _ => l.w3

/-- Whether memory answers for all of the quad-word at a physical address. -/
def State.ramQuad (s : State) (pa : Word) : Bool :=
  let q := quadAlign pa
  [q, q + 4, q + 8, q + 12].all fun a => s.board.readAnswer a == .ram

/-- The line that the two double-words of a text read make (R131). -/
def TextRead.line (r : TextRead) (h : LowerHalf) (w2 w3 : Word) : PfbLine :=
  { pa := quadAlign r.pa, va := quadAlign r.va, w0 := h.w0, w1 := h.w1, w2 := w2, w3 := w3, aged := h.aged }

/-- The lower double-word of the quad-word at a physical address, as the processor's reads see it (R131). -/
def State.lowerHalf (s : State) (pa : Word) : LowerHalf := { w0 := s.physWord (quadAlign pa), w1 := s.physWord (quadAlign pa + 4) }

/-- The line of the prefetch buffer that holds a physical address, if the buffer is enabled (R48). -/
def State.pfbHit (s : State) (pa : Word) : Option PfbLine :=
  if s.config.pbe then s.pfb.find? fun l => l.pa == quadAlign pa else none

/-- A line put into its set of the prefetch buffer, which holds three, newest first (R48; log entry 9). -/
def placeLine (l : PfbLine) (ls : List PfbLine) : List PfbLine :=
  let inSet (o : PfbLine) : Bool := Config.pfbSet o.pa == Config.pfbSet l.pa
  l :: ((ls.filter fun o => inSet o && o.pa != l.pa).take (pfbWays - 1) ++ ls.filter fun o => !inSet o)

/-- A line kept in the prefetch buffer, if it is enabled and the text may be kept there (R119). -/
def State.keepLine (s : State) (cacheable : Bool) (l : PfbLine) : State :=
  if s.config.pbe && cacheable && s.cur.keepText then { s with pfb := placeLine l s.pfb } else s

/-- The text the chip holds for a physical address: in the prefetch registers, else in the prefetch buffer. -/
def State.chipText (s : State) (pa : Word) : Option Text :=
  match s.ahead.find? fun e => e.line.pa == quadAlign pa with
  | some e => some ⟨parcelOf pa (e.line.word pa), e.line.aged⟩
  | none => (s.pfbHit pa).map fun l => ⟨parcelOf pa (l.word pa), l.aged⟩

/-- An instruction kept in its slot of the decoded instruction cache, if the cache is enabled (R48; log entry 9). Text that a FLUSHI
has found old does not enter it again, so that FLUSHI and then a flush of the prefetch buffer leave none (R132; log entry
15). -/
def State.keepInstr (s : State) (a : Word) (ts : List Text) : State :=
  if s.config.ice && s.cur.keepText && !ts.any Text.aged then
    { s with
      ic := ⟨a, ts.map Text.parcel⟩ :: s.ic.filter fun e => Config.icSlot e.va != Config.icSlot a }
  else s

/-- A line read into the prefetch registers. -/
def State.readAhead (s : State) (e : AheadLine) : State := { s with ahead := e :: s.ahead }

/-- The parcels from the `i`-th on, each found by `get`. -/
def parcelsFrom {m : Type → Type} [Monad m] (get : Nat → m Text) : Nat → Nat → m (List Text)
  | 0, _ => pure []
  | n + 1, i => do
    let p ← get i
    let r ← parcelsFrom get n (i + 1)
    pure (p :: r)

/-- The parcels of an instruction, the `i`-th found by `get`: the first says how many follow (R140, R151, R170, D35). -/
def instrText {m : Type → Type} [Monad m] (get : Nat → m Text) : m (List Text) := do
  let p ← get 0
  if p.parcel = cpuParcel then do
    let q ← get 1
    let r ← parcelsFrom get (moreParcels .cpu q.parcel) 2
    pure (p :: q :: r)
  else do
    let r ← parcelsFrom get (moreParcels .none p.parcel) 1
    pure (p :: r)

/-- The address of the `i`-th parcel from a text address on. -/
def parcelAddr (a : Word) (i : Nat) : Word := a + BitVec.ofNat 32 (2 * i)

/-! ## The prefetch unit (R131)

A prefetch is a chain of bus accesses, each an act of its own: the segment table entry, the page table entry with its mark, the two
double-words of the quad-word of text. What one has found is kept in `State.prefetches` until the next. -/

/-- The level of text, in the space before a direct write of PSW.VP if `old` says so and there is one (R494). -/
def State.textLevel (s : State) (old : Bool) : Level := ⟨if old then s.oldSpace.getD s.psw.vp else s.psw.vp, s.psw.x⟩

/-- A text address translated without a walk: by itself with translation off, or by a cached entry that allows it (R114, R120). -/
def State.cachedText (s : State) (lv : Level) (va : Word) : Option Xlat :=
  if lv.vp then
    match s.lookup .text va with
    | some e => if e.allows lv.user .text va then some (e.xlat va) else none
    | none => none
  else some ⟨va, false⟩

/-- A read of text under way. -/
def State.underWay (s : State) (p : Prefetch) : State := { s with prefetches := p :: s.prefetches }

/-- A prefetch that has its translation: text in the prefetch buffer is taken at once, other text is to be read. A quad-word that
memory does not answer for whole enters neither the buffer nor the prefetch registers (DESIGN CHOICE, log entry 15). -/
def State.foundText (s : State) (va : Word) (x : Xlat) : State :=
  match s.pfbHit x.pa with
  | some l => s.readAhead { line := l }
  | none => if s.ramQuad x.pa then s.underWay (.lower ⟨va, x.pa, x.cacheable, false⟩) else s

/-- A prefetch whose walk has ended: one whose translation fails is dropped silently (R116). -/
def State.foundEntry (s : State) (va : Word) (e : Option Entry) : State :=
  match e with
  | some e => if e.allows s.psw.x .text va then s.foundText va (e.xlat va) else s
  | none => s

/-- A prefetch begins (R131): its address is looked for in the translation caches, or a walk is to come. -/
def State.prefetchOne (s : State) (va : Word) (old : Bool) : State :=
  match s.cachedText (s.textLevel old) va with
  | some x => s.foundText va x
  | none => if (s.lookup .text va).isNone then s.underWay (.segment va) else s

/-- Text that the pipeline may still hold when it is fetched, whatever CONFIG says of the caches and of prefetching: until the
flushes R132 leaves open whether the old or the new text is found (log entry 15). Only a quad-word that memory answers for whole is
held so; the spec does not say what the pipeline holds of one with a device or a bus error in it (DESIGN CHOICE, log entry
15). -/
def State.lingerOne (s : State) (pa : Word) : State :=
  if s.ramQuad pa then s.underWay (.lower ⟨pa, pa, false, true⟩) else s

/-- Whether a text read goes to the bus: with PM = 0 text is not prefetched off-chip (R131). -/
def State.offChip (s : State) (r : TextRead) : Bool := s.config.pm || r.linger

/-- The next bus access of a read under way (R131). Old text that a flush of the prefetch buffer has found does not enter the buffer
again (R132, log entry 15). -/
def prefetchNext : Prefetch → M Unit
  | .segment va => do
    let ste ← readSte va
    if isPaged ste then modS fun s => s.underWay (.page va ste)
    else do
      let e ← segmentEntry .text va ste
      modS fun s => s.foundEntry va e
  | .page va ste => do
    let s ← getS
    let e ← walkPage s.psw.x .text va ste
    modS fun s => s.foundEntry va e
  | .lower r => modS fun s => if s.offChip r then s.underWay (.upper r (s.lowerHalf r.pa)) else s
  | .upper r h => modS fun s =>
    if s.offChip r then
      let l := r.line h (s.physWord (quadAlign r.pa + 8)) (s.physWord (quadAlign r.pa + 12))
      (s.keepLine (r.buffer && !h.flushed) l).readAhead ⟨l, h.flushed⟩
    else s

/-- The `i`-th read under way makes its next bus access; a bus error ends it silently (R116, R424). -/
def State.advanceOne (s : State) (i : Nat) : State :=
  match s.prefetches[i]? with
  | none => s
  | some p =>
    match prefetchNext p { s with prefetches := s.prefetches.eraseIdx i } with
    | .ok _ t => t
    | .error _ t => t

/-- One predecoding (R131): the instruction at an address enters the decoded instruction cache if the chip holds its text and its
translations. -/
def State.predecodeOne (s : State) (va : Word) (old : Nat) : State :=
  let held (i : Nat) : Option Text :=
    (s.cachedText (s.textLevel (decide (i < old))) (parcelAddr va i)).bind fun x => s.chipText x.pa
  match instrText held with
  | some ts => s.keepInstr va ts
  | none => s

/-! ## Other agents between two accesses (R6, D8, R464) -/

/-- One act between two accesses: a transfer delivered, another master's word, a cached entry dropped, a step of the prefetch unit
(D13, D22, R131, R132). -/
def State.act (s : State) (x : Act) : State :=
  match x with
  | .deliver => s.drainTo (s.storeBuf.length - 1)
  | .write pa v => s.masterWord pa v
  | .textPage va => { s with textTlb := s.textTlb.filter fun e => e.vpn != vpnOf va }
  | .dataPage va => { s with dataTlb := s.dataTlb.filter fun e => e.vpn != vpnOf va }
  | .textSegment => { s with textNpsr := none }
  | .dataSegment => { s with dataNpsr := none }
  | .line pa => { s with pfb := s.pfb.filter fun l => l.pa != quadAlign pa }
  | .registers pa => { s with ahead := s.ahead.filter fun e => e.line.pa != quadAlign pa }
  | .instr va => { s with ic := s.ic.filter fun e => e.va != va }
  | .prefetch va old => s.prefetchOne va old
  | .linger pa => s.lingerOne pa
  | .advance i => s.advanceOne i
  | .predecode va old => s.predecodeOne va old

/-- What happens before the next access: the first of the step's remaining `between` lists. -/
def State.others (s : State) : State :=
  match s.cur.between with
  | [] => s
  | l :: r => (l.foldl State.act s).setBetween r

/-- Other agents have their turn before an access to the bus or to a translation cache. -/
def others : M Unit := fun s =>
  match s.cur.between with
  | [] => .ok () s
  | _ :: _ => .ok () s.others

end Sys2Proof.Machine
end

