-- ==== Sys2Proof/Machine/Mmu.lean ====
section
/-! DEFINITION. The program's reads of external memory (20_memory.md R81, R126) and address translation (R110, R114, R95). -/

namespace Sys2Proof.Machine

/-- A read of the processor with no other agent before it: of RAM, its own buffered stores are seen (R126, R128). A device's word is
drawn (D7), also while the processor's own store to it is still buffered, where R128 taken alone would give the stored value
(DESIGN CHOICE, log entry 6). -/
def wordRead (pa : Word) : M Word := fun s =>
  match s.board.readAnswer pa with
  | .ram => .ok (s.physWord pa) s
  | .device => .ok (Config.deviceWord s.draw (wordAddr pa)) { s with draw := s.draw + 1 }
  | .busError => .error (.exc .busFault) s

/-- A read of the processor: one bus transfer (R81, R126). -/
def physRead (pa : Word) : M Word := do
  others
  wordRead pa

/-- The walk of the tables in external memory (R114), with other agents before each of its two bus operations (D8). -/
def walk (user : Bool) (k : Kind) (va : Word) : M (Option Entry) := do
  others
  let ste ← readSte va
  if isPaged ste then do
    others
    walkPage user k va ste
  else segmentEntry k va ste

/-- `Translate` (R114): the identity with translation off, with nothing kept in the prefetch buffer (R119). -/
def translateAddr (lv : Level) (k : Kind) (va : Word) : M Xlat :=
  if lv.vp then do
    others
    let s ← getS
    let e ← match s.lookup k va with
      | some e => pure (some e)
      | none => walk lv.user k va
    match e with
    | none => raise (k.faultAt va)
    | some e => if e.allows lv.user k va then pure (e.xlat va) else raise (k.faultAt va)
  else pure ⟨va, false⟩

/-- `CheckStore` (R95): the store check of ENTER, CATCH and CRET, whose fault is a data read fault 0x8. Whether it sets R and M
is the board's (U9); where it does not, its walk leaves nothing behind, but other agents act between its reads as in any walk
(D8; log entry 19). -/
def checkStore (lv : Level) (a : Word) : M Unit :=
  if lv.vp then do
    let s ← getS
    let _ ← translateAddr lv (.check s.board.checkMarks) a
    pure ()
  else pure ()

/-- The entry of one page dropped from both TLBs and both NPSRs invalidated (R124). A prefetch's walk of that page that has read its
segment table entry ends too: what it would load is no walk after the flush (log entry 15). -/
def State.flushPage (s : State) (a : Word) : State :=
  { s with
    prefetches := s.prefetches.filter fun p => !p.walksPage (vpnOf a)
    textTlb := s.textTlb.filter fun e => e.vpn != vpnOf a
    dataTlb := s.dataTlb.filter fun e => e.vpn != vpnOf a
    textNpsr := none
    dataNpsr := none }

end Sys2Proof.Machine
end

