-- ==== Sys2Proof/Machine/Access.lean ====
section
/-! DEFINITION. Data accesses (20_memory.md R83 to R97): alignment, the stack cache, byte lanes, reads, writes whose checks
come before the store (30_encoding.md R167), block transfers, and the stack cache's quad-word flush and fill. -/

namespace Sys2Proof.Machine

/-! ## Byte lanes -/

/-- The data byte order of a level: true is little-endian (R83). -/
def State.little (s : State) (user : Bool) : Bool := if user then s.psw.ul else s.config.kl

/-- A mask of the low `n` bytes of a word. -/
def lowMask (n : Nat) : Word := if n = 1 then 0xFF else if n = 2 then 0xFFFF else 0xFFFFFFFF

/-- The position of the lowest lane bit of an aligned access of `n` bytes at `a` (the table of R83). -/
def laneShift (le : Bool) (a : Word) (n : Nat) : Nat :=
  if n = 1 then (if le then 8 * (a.toNat % 4) else 24 - 8 * (a.toNat % 4))
  else if n = 2 then (if le then 8 * (a.toNat % 4) else 16 - 8 * (a.toNat % 4))
  else 0

/-- The lanes of an access, as a mask of the word (R83). -/
def laneMask (le : Bool) (a : Word) (n : Nat) : Word := lowMask n <<< laneShift le a n

/-- The value in the lanes of a word, zero-extended. -/
def lanesOf (le : Bool) (a : Word) (n : Nat) (w : Word) : Word := (w >>> laneShift le a n) &&& lowMask n

/-! ## Checks -/

/-- Whether an address is a multiple of the operand size (R85). -/
def aligned (a : Word) (n : Nat) : Bool := a.toNat % n == 0

/-- `AlignCheck` (R85). -/
def alignCheck (a : Word) (n : Nat) : M Unit := raiseIf (!aligned a n) .alignment

/-- `SCHit` (R86, D2). -/
def State.scHit (s : State) (a : Word) : Bool := s.config.sce && decide (s.sp ≤ a) && decide (a < s.msp)

/-- The invariant the hardware assumes: `SP <= MSP <= SP + 256` (R23). The sum is the exact one and does not wrap at the top of the
address space, where R8's `+` on bit-vectors would and R23 says only "as unsigned 32-bit addresses": with SP less than 256 below
2^32 every MSP from SP on keeps it (DESIGN CHOICE, log entry 26). -/
def State.scOk (s : State) : Bool := decide (s.sp.toNat ≤ s.msp.toNat) && decide (s.msp.toNat ≤ s.sp.toNat + scSize)

/-- The stack cache register of an address: index `a[7:2]` (R27, D3). -/
def scIdx (a : Word) : Fin 64 := (a.extractLsb' 2 6).toFin

/-- A word of the stack cache. -/
def State.scWord (s : State) (a : Word) : Word := s.sc.get (scIdx a)

/-- The stack cache with lanes of a word replaced (R87). -/
def State.scMerge (s : State) (a mask v : Word) : State :=
  { s with sc := s.sc.set (scIdx a).val (mergeLanes (s.scWord a) mask v) (scIdx a).isLt }

/-! ## Where an access goes -/

/-- The home of an aligned operand: the stack cache, or external memory at a physical address. -/
inductive Home
  | sc (a : Word)
  | phys (pa : Word)
  deriving DecidableEq, Repr

/-- Finding the home of an aligned data access: a stack cache hit needs the invariant (U1) and nothing else (R87); otherwise
the address is translated (R96, R97). -/
def findHome (lv : Level) (k : Kind) (a : Word) : M Home := do
  let s ← getS
  if s.scHit a then do
    refuseIf (!s.scOk) .stackCacheBounds
    pure (.sc a)
  else do
    let x ← translateAddr lv k a
    pure (.phys x.pa)

/-- The address `4 i` bytes further in the same home. -/
def Home.plus : Home → Nat → Home
  | .sc a, i => .sc (a + BitVec.ofNat 32 (4 * i))
  | .phys pa, i => .phys (pa + BitVec.ofNat 32 (4 * i))

/-- The word at a home. -/
def homeRead : Home → M Word
  | .sc a => do
    let s ← getS
    pure (s.scWord a)
  | .phys pa => physRead pa

/-- Lanes of the word at a home replaced: at once in the stack cache, through the store buffer in memory (R126). -/
def State.homeWrite (s : State) (h : Home) (mask v : Word) : State :=
  match h with
  | .sc a => s.scMerge a mask v
  | .phys pa => s.enqueue pa mask v

/-! ## Reads and writes -/

/-- `MemRead` of 1, 2 or 4 bytes, zero-extended (R96). -/
def memRead (lv : Level) (a : Word) (n : Nat) : M Word := do
  alignCheck a n
  let h ← findHome lv .read a
  let w ← homeRead h
  let s ← getS
  pure (lanesOf (s.little lv.user) a n w)

/-- `MemReadW` (R96). -/
def memReadW (lv : Level) (a : Word) : M Word := memRead lv a 4

/-- A checked write: its home and its lanes. -/
structure Slot where
  home : Home
  mask : Word
  shift : Nat
  deriving DecidableEq, Repr

/-- Every check of `MemWrite`, with nothing stored (R97, R167 step 4). Its walk sets R and M also where the instruction then
stores nothing, for a zero divisor (R214) or a tag or an overflow (R362): DESIGN CHOICE, log entry 19. -/
def checkWrite (lv : Level) (a : Word) (n : Nat) : M Slot := do
  alignCheck a n
  let h ← findHome lv .write a
  let s ← getS
  pure ⟨h, laneMask (s.little lv.user) a n, laneShift (s.little lv.user) a n⟩

/-- The state after a checked write stores the low bytes of a value (R97). -/
def State.commit (s : State) (p : Slot) (v : Word) : State := s.homeWrite p.home p.mask (v <<< p.shift)

/-- `MemWriteW` (R97). -/
def memWriteW (lv : Level) (a v : Word) : M Unit := do
  let p ← checkWrite lv a 4
  modS fun s => s.commit p v

/-- What the bus answers a store whose bus error is precise (R425, R481). -/
def checkAnswer (h : Home) : M Unit := do
  let s ← getS
  match h with
  | .sc _ => pure ()
  | .phys pa => raiseIf (s.board.writeAnswer pa == .busError) .busFault

/-- A word stored by an event sequence, whose bus error is precise (R425, R481). -/
def storePrecise (h : Home) (v : Word) : M Unit := do
  checkAnswer h
  modS fun s => s.homeWrite h 0xFFFFFFFF v

/-- A word written on the interrupt stack by an event sequence or KCALL (R403). -/
def frameWrite (lv : Level) (a v : Word) : M Unit := do
  let p ← checkWrite lv a 4
  storePrecise p.home v

/-- The word at a home with no other agent before it. -/
def homeWord : Home → M Word
  | .sc a => do
    let s ← getS
    pure (s.scWord a)
  | .phys pa => wordRead pa

/-- Words read in ascending address order. -/
def readWords (h : Home) : List Nat → M (List Word)
  | [] => pure []
  | i :: r => do
    let w ← homeWord (h.plus i)
    let ws ← readWords h r
    pure (w :: ws)

/-- The indices of the words of a block of `k` words. -/
def blockIdx (k : Nat) : List Nat := if k = 2 then [0, 1] else [0, 1, 2, 3]

/-- A block read in ascending address order, from memory one bus transfer (R105). -/
def readBlock (h : Home) (k : Nat) : M (List Word) := do
  match h with
  | .sc _ => pure ()
  | .phys _ => others
  readWords h (blockIdx k)

/-- The stores of a block, in ascending address order. -/
def blockStores (pa : Word) (is : List Nat) (ws : List Word) : List Store :=
  List.zipWith (fun i w => Store.of (pa + BitVec.ofNat 32 (4 * i)) 0xFFFFFFFF w) is ws

/-- Words of the stack cache replaced in ascending address order. -/
def State.scWriteWords (s : State) (a : Word) : List Nat → List Word → State
  | i :: r, w :: ws => (s.scMerge (a + BitVec.ofNat 32 (4 * i)) 0xFFFFFFFF w).scWriteWords a r ws
  | _, _ => s

/-- The state after a block is stored: at once in the stack cache, as one bus transfer in memory (R105). -/
def State.writeBlock (s : State) (h : Home) (k : Nat) (ws : List Word) : State :=
  match h with
  | .sc a => s.scWriteWords a (blockIdx k) ws
  | .phys pa => s.enqueueBlock (blockStores pa (blockIdx k) ws)

/-! ## Quad-word transfers of the stack cache (R91, R92) -/

/-- The four stores of the stack cache's quad-word at `q` to physical memory at `pa` (R91). -/
def State.quadStores (s : State) (q pa : Word) : List Store :=
  blockStores pa (blockIdx 4) ((blockIdx 4).map fun i => s.scWord (q + BitVec.ofNat 32 (4 * i)))

/-- A block stored with a precise bus error: the words before the one it meets are written (R105). -/
def storeBlock (ts : List Store) : M Unit := do
  let s ← getS
  let good := ts.takeWhile fun t => s.board.writeAnswer t.pa != .busError
  modS fun s => s.enqueueBlock good
  raiseIf (decide (good.length < ts.length)) .busFault

/-- `SCFlushQuad` (R91): the quad-word at `MSP - 16` goes to memory and MSP falls by 16. It needs `MSP > SP`; without it the
invariant of R23 would be broken (U1). A translation that fails is a data write fault 0x9 (R300 (d), R116); that the 0x8 of R421's row
and of R133's last sentence, both citing R95, is the store check's and not this one's is read so from the order of authority of
90_conflicts.md (DEDUCED, log entry 11). -/
def flushQuad (lv : Level) : M Unit := do
  let s ← getS
  refuseIf (!decide (s.sp < s.msp)) .stackCacheBounds
  let x ← translateAddr lv .write (s.msp - 16)
  storeBlock (s.quadStores (s.msp - 16) x.pa)
  modS fun s => { s with msp := s.msp - 16 }

/-- `SCFillQuad` (R92): the quad-word at MSP comes in and MSP rises by 16; its store check and its read's fault are both a
data read fault. -/
def fillQuad (lv : Level) : M Unit := do
  let s ← getS
  let q := s.msp
  checkStore lv q
  let x ← translateAddr lv .read q
  let ws ← readBlock (.phys x.pa) 4
  modS fun s => { s.scWriteWords q (blockIdx 4) ws with msp := q + 16 }

/-- Running a quad-word transfer while a condition on the state holds; `fuel` bounds the turns, 16 quad-words being all the
stack cache can hold. -/
def whileM (fuel : Nat) (c : State → Bool) (m : M Unit) : M Unit :=
  match fuel with
  | 0 => pure ()
  | k + 1 => do
    let s ← getS
    if c s then do
      m
      whileM k c m
    else pure ()

end Sys2Proof.Machine
end

