-- ==== Sys2Proof/Machine/Flags.lean ====
section
/-! DEFINITION. The arithmetic of 40_arithmetic.md (R202, R214) with its flags, and the shifts of 45_shift.md (R346): operands
go to integers, the result is exact, and narrowing comes last. `a` is the source, `b` the destination operand. -/

namespace Sys2Proof.Machine

/-- A signed result that does not fit a word. -/
def signedOut (n : Int) : Bool := decide (n < -(2 ^ 31) ∨ 2 ^ 31 ≤ n)

/-- An unsigned result that does not fit a word. -/
def unsignedOut (n : Int) : Bool := decide (n < 0 ∨ 2 ^ 32 ≤ n)

/-- `AddFlags`: carry out (R202). -/
def addC (a b : Word) : Bool := unsignedOut ((a.toNat : Int) + b.toNat)
/-- `AddFlags`: signed overflow (R202). -/
def addV (a b : Word) : Bool := signedOut (a.toInt + b.toInt)
/-- `SubFlags`: borrow of `b - a` (R202). -/
def subC (a b : Word) : Bool := unsignedOut ((b.toNat : Int) - a.toNat)
/-- `SubFlags`: signed overflow of `b - a` (R202). -/
def subV (a b : Word) : Bool := signedOut (b.toInt - a.toInt)
/-- `MulFlags`: unsigned overflow of the product (R202). -/
def mulC (a b : Word) : Bool := unsignedOut ((a.toNat : Int) * b.toNat)
/-- `MulFlags`: signed overflow of the product (R202). -/
def mulV (a b : Word) : Bool := signedOut (a.toInt * b.toInt)

/-- `SDiv` (R214, D4): the quotient of `b` by `a`, rounded toward zero; 0x80000000 by -1 wraps to 0x80000000. -/
def sdivWord (a b : Word) : Word := BitVec.ofInt 32 (b.toInt.tdiv a.toInt)
/-- The one signed overflow of a division (R214). -/
def divV (a b : Word) : Bool := signedOut (b.toInt.tdiv a.toInt)
/-- `SRem` (R214): what the quotient leaves of `b`. -/
def sremWord (a b : Word) : Word := b - sdivWord a b * a
/-- `UD` (R214). -/
def udivWord (a b : Word) : Word := BitVec.ofNat 32 (b.toNat / a.toNat)
/-- `UR` (R214). -/
def uremWord (a b : Word) : Word := BitVec.ofNat 32 (b.toNat % a.toNat)

/-- The shift count: the low five bits of the source (R346). -/
def shiftCount (a : Word) : Nat := a.toNat % 32
/-- SHL: zeros enter at the low end (R340). -/
def shlWord (a b : Word) : Word := b <<< shiftCount a
/-- SHR: copies of the sign enter at the high end (R342). -/
def shrWord (a b : Word) : Word := b.sshiftRight (shiftCount a)
/-- USHR: zeros enter at the high end (R344). -/
def ushrWord (a b : Word) : Word := b >>> shiftCount a

/-- What an instruction does to F, C, V and E: `none` leaves a bit alone (R46). -/
structure FlagOut where
  v : Option Bool := none
  c : Option Bool := none
  f : Option Bool := none
  e : Option Bool := none
  deriving DecidableEq, Repr

/-- Whether any of the four bits is written. -/
def FlagOut.any (o : FlagOut) : Bool := o.v.isSome || o.c.isSome || o.f.isSome || o.e.isSome

/-- The PSW with those bits written. -/
def Psw.setFlags (p : Psw) (o : FlagOut) : Psw :=
  { p with v := o.v.getD p.v, c := o.c.getD p.c, f := o.f.getD p.f, e := o.e.getD p.e }

/-- The state with those bits written; the old PSW is what a read within two instructions may still see (R491). -/
def State.setFlags (s : State) (o : FlagOut) : State :=
  if o.any then { s with psw := s.psw.setFlags o, hazard := s.hazard.noteFlags s.psw } else s

/-- Whether a value does not fit a byte or half-word, signed or unsigned as the size says (R495). -/
def overflowsSize (z : Sz) (v : Word) : Bool :=
  match z with
  | .b => v != (v.extractLsb' 0 8).signExtend 32
  | .ub => v != (v.extractLsb' 0 8).zeroExtend 32
  | .h => v != (v.extractLsb' 0 16).signExtend 32
  | .uh => v != (v.extractLsb' 0 16).zeroExtend 32
  | .w => false

end Sys2Proof.Machine
end

