-- ==== Sys2Proof/Machine/Ops.lean ====
section
/-! DEFINITION. The event sequences of 60_exceptions.md and 70_reset_and_hazards.md: the frame every one of them pushes (R403),
taking an exception (R420), an interrupt (R410), an unimplemented or trapped instruction (R430, R431), the resets (R480, R481),
and the returns KRET and CRET (R312, R298); and how an instruction's computation becomes a step's outcome. -/

namespace Sys2Proof.Machine

/-! ## The event frame -/

/-- The vector table is read from external memory, never from the stack cache (R94, R404). -/
def vectorRead (lv : Level) (a : Word) : M Word := do
  let x ← translateAddr lv .read a
  physRead x.pa

/-- The part the sequences share (R310, R410, R420): the frame's words below ISP, then `ISP -= 16; SHAD = ISP`, then the vector,
then the PSW's low half cleared. The handler's text is fetched anew (R494, log entry 24). A fault of any access resets (R481). -/
def eventFrame (ident : Option Word) (epc vec : Word) : M Unit := do
  let s ← getS
  let lv := s.eventLevel
  guardReset do
    match ident with
    | some v => frameWrite lv (s.isp - 12) v
    | none => pure ()
    frameWrite lv (s.isp - 8) epc
    frameWrite lv (s.isp - 4) s.psw.toWord
  modS fun s => { s with isp := s.isp - 16, shad := s.isp - 16 }
  let t ← guardReset (vectorRead lv (s.vb + vec))
  modS fun s => { s with pc := textAddr t, psw := s.psw.cleared, oldSpace := none }

/-- The first steps of the exception and interrupt sequences: stores drained, CSP restored from SHAD (R410, R420). Where SHAD has
been written lower than SP, the stack cache words that come into the range hold no defined value: R37 and R90 do not speak of
them (DESIGN CHOICE, log entry 33). -/
def State.beginEvent (s : State) : State :=
  let s := s.drainAll
  let s := if s.psw.s then s.lowerSp s.shad s.msp else s
  { s.setCsp s.shad with recent := [], hazard := {} }

/-- What an exception writes in FAULT (R32, R423): the address of a data fault, nothing else. -/
def Exc.noteFault (e : Exc) (s : State) : State :=
  match e with
  | .dataRead va => { s with fault := va }
  | .dataWrite va => { s with fault := va }
  | _ => s

/-- TAKING AN EXCEPTION (R420): identifier, `epc` and PSW on the interrupt stack, the handler from `VB + 4`. -/
def exceptionSequence (e : Exc) (epc : Word) : M Unit := do
  others
  modS fun s => { (e.noteFault s).beginEvent with event := .exception }
  eventFrame (some e.id) epc 4

/-- The interrupt sequence (R410), with the vector's offset in the table. -/
def interruptSequence (vec : Word) : M Unit := do
  others
  let s ← getS
  modS fun s => s.beginEvent
  eventFrame none s.pc vec

/-! ## Reset -/

/-- What either reset does (R480): text and translation caches emptied, requests dropped, PSW, CONFIG and PC zero. -/
def State.resetCore (s : State) : State :=
  { s.flushTranslations with
    psw := {}
    config := {}
    pc := 0
    pfb := []
    ic := []
    ahead := []
    prefetches := []
    nmiPending := false
    t1Req := false
    t2Req := false
    tracePending := false
    lostStores := 0
    folded := none
    oldSpace := none
    recent := []
    hazard := {}
    event := .reset }

/-- The internal reset (R481): SHAD receives the PSW; no other register is written. -/
def State.internalReset (s : State) : State :=
  { s.resetCore with shad := quadAlign s.psw.toWord }

/-- The reset of the HRESET pin (R480, R51): SHAD 0, the store buffer lost, and every register the spec leaves undefined or
does not state a free value (log entry 3). Physical memory stays as it was: R51 calls it unspecified and a matter of the platform
(DESIGN CHOICE, log entry 35). -/
def State.externalReset (s : State) : State :=
  let w (i : Nat) : Word := Config.freeWord (s.draw + i)
  { s.resetCore with
    shad := 0
    storeBuf := []
    sp := quadAlign (w 0)
    msp := quadAlign (w 1)
    isp := quadAlign (w 2)
    vb := quadAlign (w 3)
    stb := w 4 &&& 0xFFFFF800
    fault := w 5
    timer1 := w 6
    timer2 := w 7
    sc := Vector.ofFn fun i : Fin 64 => w (8 + i.val)
    draw := s.draw + 72 }

/-! ## From a computation to an outcome -/

/-- What the end of an event sequence leaves: a fault inside it has become a reset (R481). -/
def finish {α : Type} : EStateM.Result Stop State α → Host.Outcome State Fault Refusal
  | .ok _ s => .next s
  | .error (.exc _) s => .next s.internalReset
  | .error .reset s => .next s.internalReset
  | .error (.refused r) _ => .refused r
  | .error (.fault f) _ => .fault f

/-- Running an instruction: an exception it raises is taken with its own address as the saved PC (R405). -/
def run (m : M Unit) (s : State) : Host.Outcome State Fault Refusal :=
  match m s with
  | .error (.exc e) s' => finish (exceptionSequence e s'.pc s')
  | r => finish r

/-! ## Unimplemented instructions and trapped niladics (R430, R431, D31) -/

/-- The shared sequence: PC to the word at CSP, the handler from the vector table; nothing else changes. Its faults are
ordinary exceptions with nothing changed, so every check comes first, the bus's answer to the store among them. It does not
drain the store buffer: R430 says it is no event processing sequence (DESIGN CHOICE, log entry 37). -/
def softTrap (vec : Word) : M Unit := do
  let s ← getS
  let p ← checkWrite s.level s.csp 4
  checkAnswer p.home
  let x ← translateAddr s.level .read (s.vb + vec)
  raiseIf (s.board.readAnswer x.pa == .busError) .busFault
  modS fun s => s.commit p s.pc
  let t ← physRead x.pa
  modS fun s => { s with pc := textAddr t, event := .softTrap }

/-- The unimplemented instruction sequence (R430). -/
def unimplementedSequence : M Unit := softTrap 12

/-- The trapped niladic sequence (R431). -/
def niladicSequence : M Unit := softTrap 8

/-! ## KCALL and the returns -/

/-- The KCALL sequence (R310) on an operand already read. It clears F, C, V and E (R46, R491). -/
def kernelCall (v next : Word) : M Unit := do
  others
  modS State.drainAll
  let s ← getS
  eventFrame (some v) next 0
  modS fun t => t.noteFlags s.psw

/-- What KRET and CRET load at their end (R312, R298): PSW, PC, ISP, and SHAD from the pointer the restored PSW selects. F, C,
V and E are written with the PSW (R46, R491). PC and VP are loaded together, so no text of the old space follows (R494 (b)). -/
def State.restore (s : State) (psw : Psw) (t : Word) : State :=
  let i := s.isp + 16
  { s with
    isp := i, psw := psw, pc := textAddr t, shad := if psw.s then s.sp else i, hazard := s.hazard.noteFlags s.psw
    oldSpace := none }

/-- RETURN FROM AN EVENT, KRET (R312, R413). -/
def kernelReturn : M Unit := do
  let s ← getS
  raiseIf s.psw.x .privilege
  let t ← guardReset (memReadW s.level (s.isp + 8))
  let w ← guardReset (memReadW s.level (s.isp + 12))
  others
  modS fun s => (s.restore (Psw.ofWord w) t).drainAll

/-- SP and MSP at the new stack, the old contents of the stack cache discarded (R298). -/
def State.switchStack (s : State) (v : Word) : State := { s with sp := v, msp := v }

/-- MSP at its final value (R298); words brought into the range without a fill hold no defined value (R90). -/
def State.settleMsp (s : State) (m : Word) : State :=
  let s' := if s.msp < m then s.scForget s.msp (m - s.msp).toNat else s
  { s' with msp := m }

/-- RETURN FROM AN EVENT WITH CONTEXT, CRET (R298): the new SP, MSP, PC and PSW come from the interrupt stack, and the stack
cache is filled under the restored PSW (D27). -/
def contextReturn : M Unit := do
  let s ← getS
  raiseIf s.psw.x .privilege
  refuseIf (!s.scOk) .stackCacheBounds
  let sp ← guardReset (memReadW s.level s.isp)
  let m ← guardReset (memReadW s.level (s.isp + 4))
  let t ← guardReset (memReadW s.level (s.isp + 8))
  let w ← guardReset (memReadW s.level (s.isp + 12))
  let p := Psw.ofWord w
  modS fun s => s.switchStack (quadAlign sp)
  if p.s then
    whileM 16 (fun s => decide (s.msp < quadAlign m) && decide (s.msp - s.sp < 256)) (fillQuad ⟨p.vp, p.x⟩)
  others
  modS fun s => ((s.settleMsp (quadAlign m)).restore p t).drainAll

end Sys2Proof.Machine
end

