-- ==== Sys2Proof/Machine/Operands.lean ====
section
/-! DEFINITION. Operands (30_encoding.md R142, R160 to R174, 44_program_control.md R285) and the shapes the instructions share
(R167, R436): checks found at decoding, then the source, the destination, every check of the write, the zero divisor, the
write, the flags, the pc. -/

namespace Sys2Proof.Machine

/-! ## From a form to its operands -/

/-- The bytes of an operand size (R161). -/
def szBytes : Sz → Nat
  | .b => 1 | .ub => 1 | .h => 2 | .uh => 2 | .w => 4

/-- An operand value extended to 32 bits by its size (R165). -/
def szExtend (z : Sz) (v : Word) : Word :=
  match z with
  | .b => (v.extractLsb' 0 8).signExtend 32
  | .ub => (v.extractLsb' 0 8).zeroExtend 32
  | .h => (v.extractLsb' 0 16).signExtend 32
  | .uh => (v.extractLsb' 0 16).zeroExtend 32
  | .w => v

/-- An operand as the encoding and the stack pointer give it, before any memory is read (R164). -/
inductive Arg
  | imm (v : Word)
  | mem (ea : Word) (z : Sz)
  /-- stack offset indirect: the address of the pointer word -/
  | ptr (p : Word) (z : Sz)
  | reg (c : BitVec 4)
  deriving DecidableEq, Repr

/-- The operand of a mode and an extended field (R164, R171). -/
def argOf (s : State) (k : Prefix) (m : Mode) (x : Word) : Arg :=
  if k = .cpu ∧ m.isReg = true then .reg (x.extractLsb' 0 4)
  else
    match m with
    | .imm => .imm x
    | .mem .abs z => .mem x z
    | .mem .stk z => .mem (s.csp + x) z
    | .mem .ind z => .ptr (s.csp + x) z

/-- `Ext16` (R163): an absolute address is extended by CONFIG's PC extension bit, every other field by its sign. -/
def ext16 (s : State) (m : Mode) (f : BitVec 16) : Word :=
  match m with
  | .mem .abs _ => if s.config.px then s.pc.extractLsb' 29 3 ++ (0#13 ++ f) else f.zeroExtend 32
  | _ => f.signExtend 32

/-- The operand of a one-parcel field (R142). -/
def shortArg (s : State) : Short → Arg
  | .imm5 f => .imm (f.signExtend 32)
  | .uimm5 f => .imm (f.zeroExtend 32)
  | .wai5 f => .imm (f.zeroExtend 32 * 4)
  | .stk5 f => .mem (s.csp + f.zeroExtend 32 * 4) .w
  | .istk5 f => .ptr (s.csp + f.zeroExtend 32 * 4) .w

/-- The source operand of a dyadic form; an illegal form has none. -/
def srcArg (s : State) (k : Prefix) : Dyadic → Arg
  | .p1 a _ => shortArg s a
  | .p3 sm _ a _ => argOf s k sm (ext16 s sm a)
  | .p5 sm _ a _ => argOf s k sm a
  | .illegal _ _ _ => .imm 0

/-- The destination operand of a dyadic form; an illegal form has none. -/
def dstArg (s : State) (k : Prefix) : Dyadic → Arg
  | .p1 _ d => shortArg s d
  | .p3 _ dm _ d => argOf s k dm (ext16 s dm d)
  | .p5 _ dm _ d => argOf s k dm d
  | .illegal _ _ _ => .imm 0

/-- Whether an operand is a register. -/
def Arg.isReg : Arg → Bool
  | .reg _ => true
  | _ => false

/-- Whether an operand names a register that does not exist (R173). -/
def Arg.noReg : Arg → Bool
  | .reg c => (Reg.ofCode c).isNone
  | _ => false

/-- Whether the addresses an operand shows before any access are aligned (R436): the operand's own, or its pointer word's. -/
def Arg.alignedNow : Arg → Bool
  | .mem ea z => aligned ea (szBytes z)
  | .ptr p _ => aligned p 4
  | _ => true

/-! ## Resolved operands -/

/-- `Opd` (R160). -/
inductive Opd
  | imm (v : Word)
  | mem (ea : Word) (z : Sz)
  | reg (r : Reg)
  deriving DecidableEq, Repr

/-- `Resolve` (R164): an indirect operand's pointer is read as data; a register number is already checked. -/
def resolve (lv : Level) : Arg → M Opd
  | .imm v => pure (.imm v)
  | .mem ea z => pure (.mem ea z)
  | .ptr p z => do
    let ea ← memReadW lv p
    pure (.mem ea z)
  | .reg c =>
    match Reg.ofCode c with
    | some r => pure (.reg r)
    | none => raise .unimplReg

/-- The untruncated results that a read of these bytes may still see (R495): those of the last two instructions, where the
reader is one of those the rule lists. An instruction in between that stores to the same bytes does not end it, a case R495 does not
speak of (DESIGN CHOICE, log entry 17). -/
def State.lateWides (s : State) (late : Wide → Bool) (ea : Word) (n : Nat) : List Word :=
  (s.recent.filterMap Hazard.wide).filterMap fun w =>
    if w.ea = ea ∧ w.bytes = n ∧ late w = true then some w.val else none

/-- `rd` (R165), with the truncation hazard of R495. -/
def readOpd (lv : Level) (late : Wide → Bool) : Opd → M Word
  | .imm v => pure v
  | .mem ea z => do
    let v ← memRead lv ea (szBytes z)
    let s ← getS
    openWord (szExtend z v) (s.lateWides late ea (szBytes z))
  | .reg r => readReg r

/-- Where a checked destination write goes (R166). -/
inductive Target
  | slot (p : Slot)
  | reg (r : Reg)
  deriving DecidableEq, Repr

/-- Every check of a destination write; a register's privilege check is the last (R436 step 10). -/
def checkDst (lv : Level) : Opd → M Target
  | .imm _ => raise .illegal
  | .mem ea z => do
    let p ← checkWrite lv ea (szBytes z)
    pure (.slot p)
  | .reg r => do
    raiseIf lv.user .privilege
    pure (.reg r)

/-- `wr` of a checked destination (R166). -/
def storeDst (t : Target) (v : Word) : M Unit :=
  match t with
  | .slot p => modS fun s => s.commit p v
  | .reg r => writeReg r v

/-! ## Shared steps of the dyadic instructions -/

/-- The instructions R495 lists as readers of an untruncated result whatever their destination. -/
def readsWideOp : DyOp → Bool
  | .div | .div3 | .rem | .rem3 | .udiv | .urem | .shr | .shr3 | .ushr | .ushr3 => true
  | _ => false

/-- The instructions whose sub-word result may be seen untruncated: ADD, SHL, MUL and their three-operand forms, the list of R495.
MOV, whose sub-word store truncates too, is none of them: corner case (e) of R260 is read as a pointer to R495 for MOV as the
reader of such a result (DESIGN CHOICE, log entry 17). -/
def leavesWideOp : DyOp → Bool
  | .add | .shl | .mul | .add3 | .shl3 | .mul3 => true
  | _ => false

/-- Whether a reader with a destination of `n` bytes may see an untruncated result (R495). -/
def lateOp (op : DyOp) (n : Nat) (w : Wide) : Bool := readsWideOp op || decide (w.bytes < n)

/-- The bytes of a destination operand. -/
def Arg.bytes : Arg → Nat
  | .mem _ z => szBytes z
  | .ptr _ z => szBytes z
  | _ => 4

/-- What decoding finds, in order of priority (R167 step 1, R436): a mode the instruction rejects, a register that does not
exist, two register reads (U6), and a misaligned address among those already known; `srcUsed` is whether the source operand
itself is accessed (MOVA's is not). -/
def precheck (k : Prefix) (op : DyOp) (f : Dyadic) (src dst : Arg) (srcAligned : Bool) : M Unit := do
  raiseIf (!f.accepted k op) .illegal
  raiseIf (src.noReg || dst.noReg) .unimplReg
  refuseIf (src.isReg && dst.isReg && op.readsDst) .twoRegisterReads
  raiseIf (!(srcAligned && dst.alignedNow)) .alignment

/-- `pc <- next_pc` for an instruction of `n` bytes (R153). -/
def advance (n : Word) : M Unit := modS fun s => { s with pc := s.pc + n }

/-- The length of a dyadic instruction with its prefix. -/
def dyadicSize (k : Prefix) (f : Dyadic) : Word := k.len + f.len

/-- What an operation makes of its operands. -/
structure AluOut where
  val : Word
  flags : FlagOut := {}
  /-- whether the result is stored (R362) -/
  store : Bool := true
  /-- a zero divisor -/
  zdiv : Bool := false
  /-- the flags are written before the result (R360, R361), not after it (R167) -/
  flagsFirst : Bool := false
  deriving DecidableEq, Repr

/-- What a result that does not fit a byte or half-word destination leaves for the next two instructions (R495). The destination
of ADD3, SHL3 and MUL3 is the operand of their destination field (log entry 17). -/
def State.noteWide (s : State) (op : DyOp) (d : Opd) (v : Word) : State :=
  match d with
  | .mem ea z =>
    if leavesWideOp op && overflowsSize z v then
      { s with hazard := { s.hazard with wide := some ⟨ea, szBytes z, v⟩ } }
    else s
  | _ => s

/-- A two-operand instruction `op src, dst` (R167): the destination is read if the operation uses it, checked, written. Where TADD
or TSUB writes its flags first and its result then goes to PSW inside the window of R491, what `writePsw` may leave in place of
the written bits are those flags (DESIGN CHOICE, log entry 16). -/
def dyadicToDst (op : DyOp) (k : Prefix) (f : Dyadic) (alu : Word → Word → AluOut) : M Unit := do
  let s ← getS
  let lv := s.level
  let sa := srcArg s k f
  let da := dstArg s k f
  precheck k op f sa da sa.alignedNow
  let src ← resolve lv sa
  let a ← readOpd lv (lateOp op da.bytes) src
  let dst ← resolve lv da
  let b ← if op.readsDst then readOpd lv (lateOp op da.bytes) dst else pure 0
  let t ← checkDst lv dst
  let r := alu a b
  raiseIf r.zdiv .zeroDivide
  if r.flagsFirst then modS fun s => s.setFlags r.flags
  if r.store then storeDst t r.val
  if !r.flagsFirst then modS fun s => s.setFlags r.flags
  modS fun s => s.noteWide op dst r.val
  advance (dyadicSize k f)

/-- An instruction whose mnemonic ends in 3: both operands read, the accumulator written (R25). -/
def dyadicToAcc (op : DyOp) (k : Prefix) (f : Dyadic) (alu : Word → Word → AluOut) : M Unit := do
  let s ← getS
  let lv := s.level
  let sa := srcArg s k f
  let da := dstArg s k f
  precheck k op f sa da sa.alignedNow
  let src ← resolve lv sa
  let a ← readOpd lv (lateOp op 4) src
  let dst ← resolve lv da
  let b ← readOpd lv (lateOp op 4) dst
  let p ← checkWrite lv s.accAddr 4
  let r := alu a b
  raiseIf r.zdiv .zeroDivide
  modS fun s => ((s.commit p r.val).setFlags r.flags).noteWide op dst r.val
  advance (dyadicSize k f)

/-- A compare: both operands read, F written (R233). It has no destination, so only R495's first case could concern it. -/
def dyadicCompare (op : DyOp) (k : Prefix) (f : Dyadic) (rel : Word → Word → Bool) : M Unit := do
  let s ← getS
  let lv := s.level
  let sa := srcArg s k f
  let da := dstArg s k f
  precheck k op f sa da sa.alignedNow
  let src ← resolve lv sa
  let a ← readOpd lv (lateOp op 0) src
  let dst ← resolve lv da
  let b ← readOpd lv (lateOp op 0) dst
  modS fun s => s.setFlags { f := some (rel a b) }
  advance (dyadicSize k f)

/-- The store buffer is emptied; a store the bus refused is reported here, before the instruction has changed anything (R108,
D13, R426, D33). -/
def drainPoint : M Unit := do
  others
  modS State.drainAll
  let s ← getS
  if s.lostStores = 0 then pure ()
  else do
    modS fun s => { s with lostStores := s.lostStores - 1 }
    raise .busFault

/-- The pipeline cleared of results still on their way (R108): no later instruction sees an untruncated one (R495). The windows of
R491 and R493 stay open, so an ADDI, ANDI or ORI that names PSW or SHAD may still find an open value: R491 and R493 count
instructions, and the spec does not say whether the clearing ends them too (DESIGN CHOICE, log entry 16). -/
def State.settleWides (s : State) : State := { s with recent := s.recent.map fun h => { h with wide := none } }

/-- The bus error a read of this home will meet, raised before the read is made: what answers an address is the platform's and no
state's (D7), so the fault of a locked read is known before the locked pair begins (R203). No access is made here. -/
def readFault : Home → M Unit
  | .sc _ => pure ()
  | .phys pa => do
    let s ← getS
    raiseIf (s.board.readAnswer pa == .busError) .busFault

/-- The same for the place a checked destination is written to. -/
def Target.readFault : Target → M Unit
  | .slot p => Machine.readFault p.home
  | .reg _ => pure ()

/-- Every fault of a destination that is read and written, in the order of R167 (3) and (4): its read's, translation and bus error,
then its write's. The place the write goes to is the one the locked read reads; another agent may have moved the page between the
two checks, so its answer is looked at too. -/
def checkBoth (lv : Level) (o : Opd) : M Target := do
  match o with
  | .mem ea z => do
    alignCheck ea (szBytes z)
    let h ← findHome lv .read ea
    readFault h
  | _ => pure ()
  let t ← checkDst lv o
  t.readFault
  pure t

/-- The operand size of a resolved operand. -/
def Opd.size : Opd → Sz
  | .mem _ z => z
  | _ => .w

/-- The locked read of a checked destination (R107), from the very place its write goes to. -/
def readTarget (z : Sz) : Target → M Word
  | .slot p => do
    let w ← homeWord p.home
    pure (szExtend z ((w >>> p.shift) &&& lowMask (szBytes z)))
  | .reg r => readReg r

/-- A computation run for what it does; an exception it would raise is left to a later access. -/
def attempt {α : Type} (m : M α) : M Unit := fun s =>
  match m s with
  | .ok _ t => .ok () t
  | .error (.exc _) t => .ok () t
  | .error e t => .error e t

/-- ADDI, ANDI, ORI (R203, R243, R246): every fault of the source and the destination first and the accumulator checked, then one
indivisible read and write of the destination with nothing between them, the write at the bus before any other agent acts
(R107), then the destination's old value to the accumulator, which is in memory too before the next instruction starts
(R108); that access is at the user or kernel level of the moment, a PSW just written included (R114). Where the accumulator cannot
be written the exception comes with that last store, the destination already changed (U13). A new CONFIG is in force from the next
instruction only (R494). -/
def interlocked (op : DyOp) (k : Prefix) (f : Dyadic) (alu : Word → Word → Word) : M Unit := do
  let s ← getS
  let lv := s.level
  let sa := srcArg s k f
  let da := dstArg s k f
  precheck k op f sa da sa.alignedNow
  drainPoint
  modS State.settleWides
  let src ← resolve lv sa
  let a ← readOpd lv (fun _ => false) src
  let dst ← resolve lv da
  let t ← checkBoth lv dst
  attempt (checkWrite lv s.accAddr 4)
  others
  let hidden ← undisturbed do
    let v ← readTarget dst.size t
    storeDst t (alu a v)
    modS State.drainAll
    pure v
  let now ← getS
  let p ← underConfig s.config (checkWrite { lv with user := now.psw.x } s.accAddr 4)
  others
  modS fun s => (s.commit p hidden).drainAll
  advance (dyadicSize k f)

/-- The address of a memory operand, the operand itself not read (R165, R262). -/
def addrOf (lv : Level) : Arg → M Word
  | .mem ea _ => pure ea
  | .ptr p _ => memReadW lv p
  | .imm v => pure v
  | .reg c => pure (c.zeroExtend 32)

/-- Whether the pointer word of an address-only operand is aligned; the operand itself is not accessed (R262). -/
def Arg.pointerAligned : Arg → Bool
  | .ptr p _ => aligned p 4
  | _ => true

/-- MOVA (R262): the source's address goes to the destination. -/
def moveAddress (k : Prefix) (f : Dyadic) : M Unit := do
  let s ← getS
  let lv := s.level
  let sa := srcArg s k f
  let da := dstArg s k f
  precheck k .mova f sa da sa.pointerAligned
  let a ← addrOf lv sa
  let dst ← resolve lv da
  let t ← checkDst lv dst
  storeDst t a
  advance (dyadicSize k f)

/-- The words DQM moves, by its destination mode; none for a mode that names neither size (R263). -/
def dqmWords : Mode → Option Nat
  | .mem _ .b => some 2
  | .mem _ .w => some 4
  | _ => none

/-- The destination mode of a long form. -/
def dmodeOf : Dyadic → Mode
  | .p3 _ dm _ _ => dm
  | .p5 _ dm _ _ => dm
  | .illegal _ _ dm => dm
  | .p1 _ _ => .imm

/-- Whether a block operand's address, or its pointer's, is aligned as far as it is known (R263, R436). -/
def Arg.blockAligned (n : Nat) : Arg → Bool
  | .mem ea _ => aligned ea n
  | .ptr p _ => aligned p 4
  | _ => true

/-- The source words of DQM: a constant repeated, or a block read in ascending order (R263). -/
def dqmSource (lv : Level) (n : Nat) : Opd → M (List Word)
  | .mem ea _ => do
    let h ← findHome lv .read ea
    readBlock h n
  | .imm v => pure (List.replicate n v)
  | .reg _ => raise .illegal

/-- The alignment of a resolved block operand (R263). -/
def Opd.blockAligned (n : Nat) : Opd → Bool
  | .mem ea _ => aligned ea n
  | _ => true

/-- The alignment of a block operand whose address came from memory is checked when its pointer has been read (R436). -/
def resolveBlock (lv : Level) (n : Nat) (x : Arg) : M Opd := do
  let o ← resolve lv x
  raiseIf (!o.blockAligned n) .alignment
  pure o

/-- DQM (R263): every word is read before any is written; in memory each side is one bus transfer (R105). -/
def blockMove (k : Prefix) (f : Dyadic) : M Unit := do
  let s ← getS
  let lv := s.level
  let sa := srcArg s k f
  let da := dstArg s k f
  raiseIf (!f.accepted k .dqm) .illegal
  match dqmWords (dmodeOf f) with
  | none => raise .alignment
  | some n => do
    raiseIf (!(sa.blockAligned (4 * n) && da.blockAligned (4 * n))) .alignment
    let src ← resolveBlock lv (4 * n) sa
    let dst ← resolveBlock lv (4 * n) da
    let ws ← dqmSource lv n src
    match dst with
    | .mem ea _ => do
      let h ← findHome lv .write ea
      modS fun s => s.writeBlock h n ws
      advance (dyadicSize k f)
    | _ => raise .illegal

/-! ## Operands of the monadic instructions -/

/-- The `word32` operand (R169). -/
def wordArg (s : State) (m : WordMode) (x : Word) : Arg := argOf s .none m.toMode x

/-- The value of a `word32` operand. -/
def wordValue (lv : Level) (s : State) (m : WordMode) (x : Word) : M Word := do
  raiseIf (!(wordArg s m x).alignedNow) .alignment
  let o ← resolve lv (wordArg s m x)
  readOpd lv (fun _ => false) o

/-- `Target1` (R285): the one-parcel jump's target. -/
def target1 (s : State) (f : BitVec 10) : Word := s.pc + f.signExtend 32 * 2

/-- `Target` (R285): the three-parcel jump's target; an indirection word is read as data. -/
def target3 (lv : Level) (s : State) (m : FlowMode) (x : Word) : M Word :=
  match m with
  | .absInd => memReadW lv x
  | .stkInd => memReadW lv (s.csp + x)
  | .pcRel => pure (s.pc + x)
  | .abs => pure x

/-- The PC loaded with a target, bit 0 dropped (R45). -/
def jumpTo (t : Word) : M Unit := modS fun s => { s with pc := textAddr t }

/-- What ENTER, RETURN, CALL and POPN leave for the next two instructions: the SHAD they found (R493). -/
def noteShad (old : Word) : M Unit := modS fun s => { s with hazard := { s.hazard with shad := some old } }

end Sys2Proof.Machine
end

