-- ==== Sys2Proof/Machine/Compare.lean ====
section
/-! DEFINITION. The compare instructions (41_compare.md R230 to R233). -/

namespace Sys2Proof.Machine

/-- CMPEQ (R230). -/
def cmpeqM (k : Prefix) (f : Dyadic) : M Unit := dyadicCompare .cmpeq k f (fun a b => decide (a = b))
/-- The meaning of CMPEQ. -/
def execCmpeq (f : Dyadic) (s : State) : Host.Outcome State Fault Refusal := run (cmpeqM .none f) s

/-- CMPGT: the source is the greater, signed (R231). -/
def cmpgtM (k : Prefix) (f : Dyadic) : M Unit := dyadicCompare .cmpgt k f (fun a b => decide (b.toInt < a.toInt))
/-- The meaning of CMPGT. -/
def execCmpgt (f : Dyadic) (s : State) : Host.Outcome State Fault Refusal := run (cmpgtM .none f) s

/-- CMPHI: the source is the greater, unsigned (R232). -/
def cmphiM (k : Prefix) (f : Dyadic) : M Unit := dyadicCompare .cmphi k f (fun a b => decide (b.toNat < a.toNat))
/-- The meaning of CMPHI. -/
def execCmphi (f : Dyadic) (s : State) : Host.Outcome State Fault Refusal := run (cmphiM .none f) s

end Sys2Proof.Machine
end

