-- ==== Sys2Proof/Machine/Logical.lean ====
section
/-! DEFINITION. The logical instructions (42_logical.md R240 to R248). None touches the PSW (R242). -/

namespace Sys2Proof.Machine

/-- A bitwise result, no flag. -/
def aluOf (g : Word → Word → Word) (a b : Word) : AluOut := { val := g a b }

/-- AND (R240). -/
def andM (k : Prefix) (f : Dyadic) : M Unit := dyadicToDst .and k f (aluOf (· &&& ·))
/-- The meaning of AND. -/
def execAnd (f : Dyadic) (s : State) : Host.Outcome State Fault Refusal := run (andM .none f) s

/-- AND3 (R241). -/
def and3M (k : Prefix) (f : Dyadic) : M Unit := dyadicToAcc .and3 k f (aluOf (· &&& ·))
/-- The meaning of AND3. -/
def execAnd3 (f : Dyadic) (s : State) : Host.Outcome State Fault Refusal := run (and3M .none f) s

/-- ANDI (R243). -/
def andiM (k : Prefix) (f : Dyadic) : M Unit := interlocked .andi k f (· &&& ·)
/-- The meaning of ANDI. -/
def execAndi (f : Dyadic) (s : State) : Host.Outcome State Fault Refusal := run (andiM .none f) s

/-- OR (R244). -/
def orM (k : Prefix) (f : Dyadic) : M Unit := dyadicToDst .or k f (aluOf (· ||| ·))
/-- The meaning of OR. -/
def execOr (f : Dyadic) (s : State) : Host.Outcome State Fault Refusal := run (orM .none f) s

/-- OR3 (R245). -/
def or3M (k : Prefix) (f : Dyadic) : M Unit := dyadicToAcc .or3 k f (aluOf (· ||| ·))
/-- The meaning of OR3. -/
def execOr3 (f : Dyadic) (s : State) : Host.Outcome State Fault Refusal := run (or3M .none f) s

/-- ORI (R246). -/
def oriM (k : Prefix) (f : Dyadic) : M Unit := interlocked .ori k f (· ||| ·)
/-- The meaning of ORI. -/
def execOri (f : Dyadic) (s : State) : Host.Outcome State Fault Refusal := run (oriM .none f) s

/-- XOR (R247). -/
def xorM (k : Prefix) (f : Dyadic) : M Unit := dyadicToDst .xor k f (aluOf (· ^^^ ·))
/-- The meaning of XOR. -/
def execXor (f : Dyadic) (s : State) : Host.Outcome State Fault Refusal := run (xorM .none f) s

/-- XOR3 (R248). -/
def xor3M (k : Prefix) (f : Dyadic) : M Unit := dyadicToAcc .xor3 k f (aluOf (· ^^^ ·))
/-- The meaning of XOR3. -/
def execXor3 (f : Dyadic) (s : State) : Host.Outcome State Fault Refusal := run (xor3M .none f) s

end Sys2Proof.Machine
end

