-- ==== Sys2Proof/Machine/Move.lean ====
section
/-! DEFINITION. The move instructions (43_move.md R260 to R264). None touches the PSW flags. -/

namespace Sys2Proof.Machine

/-- MOV (R260, R261). -/
def movM (k : Prefix) (f : Dyadic) : M Unit := dyadicToDst .mov k f fun a _ => { val := a }
/-- The meaning of MOV. -/
def execMov (f : Dyadic) (s : State) : Host.Outcome State Fault Refusal := run (movM .none f) s

/-- MOVA (R262). -/
def movaM (k : Prefix) (f : Dyadic) : M Unit := moveAddress k f
/-- The meaning of MOVA. -/
def execMova (f : Dyadic) (s : State) : Host.Outcome State Fault Refusal := run (movaM .none f) s

/-- DQM (R263). -/
def dqmM (k : Prefix) (f : Dyadic) : M Unit := blockMove k f
/-- The meaning of DQM. -/
def execDqm (f : Dyadic) (s : State) : Host.Outcome State Fault Refusal := run (dqmM .none f) s

/-- LDRAA (R264): a jump's target goes to the accumulator as it is, bit 0 kept. -/
def ldraaM (k : Prefix) (f : Monadic Empty FlowMode) : M Unit :=
  match f with
  | .illegal _ => raise .illegal
  | .p3 m x => do
    let s ← getS
    let t ← target3 s.level s m x
    let p ← checkWrite s.level s.accAddr 4
    modS fun s => s.commit p t
    advance (k.len + 6)
/-- The meaning of LDRAA. -/
def execLdraa (f : Monadic Empty FlowMode) (s : State) : Host.Outcome State Fault Refusal := run (ldraaM .none f) s

end Sys2Proof.Machine
end

