-- ==== Sys2Proof/Machine/Other.lean ====
section
/-! DEFINITION. The other instructions (47_other.md R370 to R386) and the codes with no instruction (R430, R431, R433). -/

namespace Sys2Proof.Machine

/-- The meaning of NOP (R370). -/
def execNop (s : State) : Host.Outcome State Fault Refusal := run (advance 2) s

/-- CLRE (R373). -/
def clreM : M Unit := do
  modS fun s => s.setFlags { e := some false }
  advance 2
/-- The meaning of CLRE. -/
def execClre (s : State) : Host.Outcome State Fault Refusal := run clreM s

/-- TESTC (R374). -/
def testcM : M Unit := do
  modS fun s => s.setFlags { f := some s.psw.c, c := some false }
  advance 2
/-- The meaning of TESTC. -/
def execTestc (s : State) : Host.Outcome State Fault Refusal := run testcM s

/-- TESTV (R375). -/
def testvM : M Unit := do
  modS fun s => s.setFlags { f := some s.psw.v, v := some false }
  advance 2
/-- The meaning of TESTV. -/
def execTestv (s : State) : Host.Outcome State Fault Refusal := run testvM s

/-- Whether the text of a line is older than memory. -/
def State.oldLine (s : State) (l : PfbLine) : Bool :=
  l.w0 != s.physWord l.pa || l.w1 != s.physWord (l.pa + 4) || l.w2 != s.physWord (l.pa + 8) || l.w3 != s.physWord (l.pa + 12)

/-- A line as a FLUSHI leaves it: marked if its text is old. -/
def State.age (s : State) (l : PfbLine) : PfbLine := { l with aged := l.aged || s.oldLine l }

/-- The prefetch registers without the lines that both kinds of flush have found old: R132 leaves old text possible until both, and
D16 covers the registers too. -/
def keepAhead (l : List AheadLine) : List AheadLine := l.filter fun e => !(e.flushed && e.line.aged)

/-- Whether the lower double-word of a quad-word being read is older than memory. -/
def State.oldHalf (s : State) (r : TextRead) (h : LowerHalf) : Bool :=
  h.w0 != s.physWord (quadAlign r.pa) || h.w1 != s.physWord (quadAlign r.pa + 4)

/-- A read under way as a FLUSHI leaves it: the text it holds is marked if it is old. -/
def State.agePrefetch (s : State) : Prefetch → Prefetch
  | .upper r h => .upper r { h with aged := h.aged || s.oldHalf r h }
  | p => p

/-- A read under way as a flush of the lines `gone` of the prefetch buffer leaves it: the text it holds of one is marked if it is
old. -/
def State.markPrefetch (s : State) (gone : PfbLine → Bool) : Prefetch → Prefetch
  | .upper r h => .upper r { h with flushed := h.flushed || (gone (r.line h 0 0) && s.oldHalf r h) }
  | p => p

/-- A read under way that holds text which both kinds of flush have found old. -/
def Prefetch.stale : Prefetch → Bool
  | .upper _ h => h.flushed && h.aged
  | _ => false

/-- The decoded instruction cache emptied (R382). Old text that the prefetch buffer, the prefetch registers and a read under way still
hold is marked, so that it is not decoded again into the cache just flushed, and in the registers and the read goes if the other flush
has found it old too (R132, D16; log entry 15). -/
def State.flushInstrs (s : State) : State :=
  { s with
    ic := []
    pfb := s.pfb.map s.age
    ahead := keepAhead (s.ahead.map fun e => { e with line := s.age e.line })
    prefetches := (s.prefetches.map s.agePrefetch).filter fun p => !p.stale }

/-- Lines of the prefetch buffer dropped (R383, R384); of the same lines in the prefetch registers and in the reads under way the old
ones are marked, and go if a FLUSHI has found them old too (R132, D16; log entry 15). The decoded instruction cache is not touched. -/
def State.flushLines (s : State) (gone : PfbLine → Bool) : State :=
  { s with
    pfb := s.pfb.filter fun l => !gone l
    ahead := keepAhead (s.ahead.map fun e => { e with flushed := e.flushed || (gone e.line && s.oldLine e.line) })
    prefetches := (s.prefetches.map (s.markPrefetch gone)).filter fun p => !p.stale }

/-- FLUSHI (R382). -/
def flushiM : M Unit := do
  modS State.flushInstrs
  advance 2
/-- The meaning of FLUSHI. -/
def execFlushi (s : State) : Host.Outcome State Fault Refusal := run flushiM s

/-- FLUSHP (R383): the whole prefetch buffer. -/
def flushpM : M Unit := do
  modS fun s => s.flushLines fun _ => true
  advance 2
/-- The meaning of FLUSHP. -/
def execFlushp (s : State) : Host.Outcome State Fault Refusal := run flushpM s

/-- The meaning of FLUSHD (R380): the unimplemented instruction sequence. -/
def execFlushd (s : State) : Host.Outcome State Fault Refusal := run unimplementedSequence s

/-- FLUSHDCE (R381): the operand is not accessed. -/
def flushdceM (m : Mode) : M Unit := do
  raiseIf (!m.isWord) .illegal
  unimplementedSequence
/-- The meaning of FLUSHDCE. -/
def execFlushdce (m : Mode) (s : State) : Host.Outcome State Fault Refusal := run (flushdceM m) s

/-- The address FLUSHPTE and FLUSHPBE name; immediate mode names none (U16). The operand itself is not read. -/
def flushAddr (f : Monadic Empty WordMode) : M Word := do
  let s ← getS
  match f with
  | .illegal _ => raise .illegal
  | .p3 m x => do
    refuseIf (m == .imm) .flushImmediate
    raiseIf (!(wordArg s m x).pointerAligned) .alignment
    addrOf s.level (wordArg s m x)

/-- FLUSHPTE (R385). -/
def flushpteM (k : Prefix) (f : Monadic Empty WordMode) : M Unit := do
  let a ← flushAddr f
  modS fun s => s.flushPage a
  advance (k.len + 6)
/-- The meaning of FLUSHPTE. -/
def execFlushpte (f : Monadic Empty WordMode) (s : State) : Host.Outcome State Fault Refusal := run (flushpteM .none f) s

/-- The physical address of a quad-word that a fetch or a data access of the address finds, its level apart; nothing of what
finding it does is kept. -/
def State.quadPa (s : State) (k : Kind) (a : Word) : Option Word :=
  match peek (translateAddr ⟨s.psw.vp, false⟩ k a) s with
  | .ok x _ => some (quadAlign x.pa)
  | .error _ _ => none

/-- Whether a line is the quad-word at an address (R384): taken as a virtual address, through its translation and so under any
other virtual address of the same memory, or taken as a physical one (N33; log entry 21). -/
def State.holdsQuad (s : State) (a : Word) (l : PfbLine) : Bool :=
  l.pa == quadAlign a || quadAlign l.va == quadAlign a || s.quadPa .text a == some l.pa || s.quadPa .read a == some l.pa

/-- The prefetch buffer without the quad-word at an address (R384). -/
def State.flushQuadText (s : State) (a : Word) : State := s.flushLines (s.holdsQuad a)

/-- FLUSHPBE (R384). -/
def flushpbeM (k : Prefix) (f : Monadic Empty WordMode) : M Unit := do
  let a ← flushAddr f
  modS fun s => s.flushQuadText a
  advance (k.len + 6)
/-- The meaning of FLUSHPBE. -/
def execFlushpbe (f : Monadic Empty WordMode) (s : State) : Host.Outcome State Fault Refusal := run (flushpbeM .none f) s

/-- An unimplemented code (R152, R430, R433): a monadic one with a non-word mode, or any after a CPU prefix with a mode or a
pair of modes outside Table 1-22, is an illegal instruction; every other runs the unimplemented instruction sequence. -/
def unimplementedM (k : Prefix) (u : Unimpl) : M Unit := do
  match u with
  | .monadic m => raiseIf (!m.isWord) .illegal
  | .dyadic _ _ sm dm => raiseIf (k == .cpu && !cpuUnimplLegal sm dm) .illegal
  | _ => pure ()
  unimplementedSequence
/-- The meaning of an unimplemented code. -/
def execUnimplemented (u : Unimpl) (s : State) : Host.Outcome State Fault Refusal := run (unimplementedM .none u) s

/-- A trapped niladic (R386, R431): its nine low bits are stored nowhere. -/
def niladicM (_n : BitVec 9) : M Unit := niladicSequence
/-- The meaning of a trapped niladic. -/
def execNiladicTrap (n : BitVec 9) (s : State) : Host.Outcome State Fault Refusal := run (niladicM n) s

end Sys2Proof.Machine
end

