-- ==== Sys2Proof/Machine/ProgramControl.lean ====
section
/-! DEFINITION. The program control instructions (44_program_control.md R280 to R312). -/

namespace Sys2Proof.Machine

/-! ## Jumps -/

/-- The target of a jump or call; an illegal mode is rejected (R285, R175). -/
def flowTarget (lv : Level) (s : State) : Monadic (BitVec 10) FlowMode → M Word
  | .p1 f => pure (target1 s f)
  | .p3 m x => target3 lv s m x
  | .illegal _ => raise .illegal

/-- JMP (R280). -/
def jmpM (f : Monadic (BitVec 10) FlowMode) : M Unit := do
  let s ← getS
  let t ← flowTarget s.level s f
  jumpTo t
/-- The meaning of JMP. -/
def execJmp (f : Monadic (BitVec 10) FlowMode) (s : State) : Host.Outcome State Fault Refusal := run (jmpM f) s

/-- The mode of a conditional jump is not indirect (R175, U12). -/
def indirectFlow : Monadic (BitVec 10) FlowMode → Bool
  | .p3 .absInd _ => true
  | .p3 .stkInd _ => true
  | _ => false

/-- A conditional jump (R281 to R284): taken when F is `want`. -/
def jumpIf (want : Bool) (k : Prefix) (f : Monadic (BitVec 10) FlowMode) : M Unit := do
  let s ← getS
  refuseIf (indirectFlow f) .indirectConditionalJump
  let t ← flowTarget s.level s f
  if s.psw.f == want then jumpTo t else advance (k.len + f.len)

/-- JMPFN (R281). -/
def jmpfnM (k : Prefix) (f : Monadic (BitVec 10) FlowMode) : M Unit := jumpIf false k f
/-- The meaning of JMPFN. -/
def execJmpfn (f : Monadic (BitVec 10) FlowMode) (s : State) : Host.Outcome State Fault Refusal := run (jmpfnM .none f) s

/-- JMPFY (R282). -/
def jmpfyM (k : Prefix) (f : Monadic (BitVec 10) FlowMode) : M Unit := jumpIf false k f
/-- The meaning of JMPFY. -/
def execJmpfy (f : Monadic (BitVec 10) FlowMode) (s : State) : Host.Outcome State Fault Refusal := run (jmpfyM .none f) s

/-- JMPTN (R283). -/
def jmptnM (k : Prefix) (f : Monadic (BitVec 10) FlowMode) : M Unit := jumpIf true k f
/-- The meaning of JMPTN. -/
def execJmptn (f : Monadic (BitVec 10) FlowMode) (s : State) : Host.Outcome State Fault Refusal := run (jmptnM .none f) s

/-- JMPTY (R284). -/
def jmptyM (k : Prefix) (f : Monadic (BitVec 10) FlowMode) : M Unit := jumpIf true k f
/-- The meaning of JMPTY. -/
def execJmpty (f : Monadic (BitVec 10) FlowMode) (s : State) : Host.Outcome State Fault Refusal := run (jmptyM .none f) s

/-! ## The calling sequence -/

/-- The address of the indirection word of a call, if it has one. -/
def indirection (s : State) : Monadic (BitVec 10) FlowMode → Option Word
  | .p3 .absInd x => some x
  | .p3 .stkInd x => some (s.csp + x)
  | _ => none

/-- The word a checked store is about to replace. -/
def State.peek (s : State) : Home → Word
  | .sc a => s.scWord a
  | .phys pa => s.physWord pa

/-- Whether a form has a mode its instruction rejects. -/
def isIllegal {F N : Type} : Monadic F N → Bool
  | .illegal _ => true
  | _ => false

/-- CALL (R292): the return address is stored at CSP first and stays there if the indirection word faults, its alignment
apart, which is known and checked before any access (R436; log entry 12). Where the indirection word is that very word, the
target is its old or its new content (U14). -/
def callM (k : Prefix) (f : Monadic (BitVec 10) FlowMode) : M Unit := do
  let s ← getS
  raiseIf (isIllegal f) .illegal
  raiseIf ((indirection s f).any fun a => !aligned a 4) .alignment
  let p ← checkWrite s.level s.csp 4
  let s1 ← getS
  modS fun s' => s'.commit p (s.pc + (k.len + f.len))
  let t ← flowTarget s.level s f
  let t ← if indirection s f = some s.csp then openWord t [s1.peek p.home] else pure t
  noteShad s.shad
  jumpTo t
/-- The meaning of CALL. -/
def execCall (f : Monadic (BitVec 10) FlowMode) (s : State) : Host.Outcome State Fault Refusal := run (callM .none f) s

/-- The offset of RETURN and POPN: the one-parcel field is a count of quad-words (R294, R302). -/
def popOffset : Monadic (BitVec 8) Unit → Word
  | .p1 f => f.zeroExtend 32 * 16
  | .p3 _ x => x
  | .illegal _ => 0

/-- "Set CSP" and SHAD to a new pointer; where SP is the CSP and passes MSP, the stack cache is empty at the new SP (R294). -/
def State.popTo (s : State) (v : Word) : State :=
  { s.setCsp v with shad := v, msp := if s.psw.s && decide (s.msp < v) then v else s.msp }

/-- RETURN (R294). -/
def retM (f : Monadic (BitVec 8) Unit) : M Unit := do
  let s ← getS
  raiseIf (isIllegal f || (popOffset f).msb) .illegal
  refuseIf (!s.scOk) .stackCacheBounds
  let t ← memReadW s.level (s.csp + popOffset f)
  modS fun s => s.popTo (s.csp + quadAlign (popOffset f))
  noteShad s.shad
  jumpTo t
/-- The meaning of RETURN. -/
def execRet (f : Monadic (BitVec 8) Unit) (s : State) : Host.Outcome State Fault Refusal := run (retM f) s

/-- POPN (R302): no memory is read. -/
def popnM (k : Prefix) (f : Monadic (BitVec 8) Unit) : M Unit := do
  let s ← getS
  raiseIf (isIllegal f || (popOffset f).msb) .illegal
  refuseIf (!s.scOk) .stackCacheBounds
  modS fun s => s.popTo (s.csp + quadAlign (popOffset f))
  noteShad s.shad
  advance (k.len + f.len)
/-- The meaning of POPN. -/
def execPopn (f : Monadic (BitVec 8) Unit) (s : State) : Host.Outcome State Fault Refusal := run (popnM .none f) s

/-- The end of ENTER (R300): SP, MSP and SHAD at their new values; words of the new frame that come into the stack cache
hold no defined value (R90). -/
def State.enterAt (s : State) (target m : Word) : State :=
  { s.lowerSp target m with sp := target, msp := m, shad := target }

/-- ENTER with the interrupt stack current (R300). -/
def enterIsp (lv : Level) (target : Word) : M Unit := do
  checkStore lv target
  modS fun s => { s with isp := target, shad := target }

/-- ENTER in a mode other than stack offset (R300): the whole stack cache is flushed and left empty at the target. -/
def enterReplace (lv : Level) (target : Word) : M Unit := do
  whileM 17 (fun s => decide (s.shad < s.msp)) (flushQuad lv)
  checkStore lv target
  modS fun s => { s with sp := target, msp := target, shad := target }

/-- ENTER in stack offset mode (R300): quad-words are flushed until no more than SCSIZE bytes are held; the target and, if MSP
moves, the highest quad-word still held are checked (D26). -/
def enterOffset (lv : Level) (target : Word) : M Unit := do
  let s ← getS
  whileM 17 (fun s => decide (s.msp - s.shad ≠ 0) && decide (256 < s.msp - target)) (flushQuad lv)
  let s1 ← getS
  let m := if 256 < s.msp - target then (if target + 256 < s1.msp then target + 256 else s1.msp) else s1.msp
  checkStore lv target
  if m ≠ s.msp then checkStore lv (m - 16)
  modS fun s => s.enterAt target m

/-- The end of every ENTER: E set, the hazard of R493 noted. -/
def enterEnd (old : Word) (n : Word) : M Unit := do
  modS fun s => s.setFlags { e := some true }
  noteShad old
  advance n

/-- The offset of a one-parcel ENTER: one-filled and scaled by 16 (R142). -/
def enterField (f : BitVec 8) : Word := (0xFFFFFF#24 ++ f) * 16

/-- The body of ENTER once its target is known. -/
def enterTo (offsetMode : Bool) (target : Word) : M Unit := do
  let s ← getS
  if s.psw.s then
    (if offsetMode then enterOffset s.level (quadAlign target) else enterReplace s.level (quadAlign target))
  else enterIsp s.level (quadAlign target)

/-- The new pointer of ENTER and CATCH in a mode other than stack offset, from the tables of R300 and R296: the immediate, or
the one word at the absolute address or at `base + x`. -/
def replaceTarget (lv : Level) (base : Word) (m : WordMode) (x : Word) : M Word :=
  match m with
  | .imm => pure x
  | .abs => memReadW lv x
  | .ind => memReadW lv (base + x)
  | .stk => pure (base + x)

/-- ENTER (R300). -/
def enterM (k : Prefix) (f : Monadic (BitVec 8) WordMode) : M Unit := do
  let s ← getS
  match f with
  | .illegal _ => raise .illegal
  | .p1 g => do
    refuseIf (!s.scOk) .stackCacheBounds
    enterTo true (s.csp + enterField g)
    enterEnd s.shad (k.len + 2)
  | .p3 .stk x => do
    raiseIf (!x.msb) .illegal
    refuseIf (!s.scOk) .stackCacheBounds
    refuseIf (decide (-256 ≤ x.toInt)) .enterShortOffset
    enterTo true (s.csp + x)
    enterEnd s.shad (k.len + 6)
  | .p3 m x => do
    refuseIf (!s.scOk) .stackCacheBounds
    let target ← replaceTarget s.level s.csp m x
    enterTo false target
    enterEnd s.shad (k.len + 6)
/-- The meaning of ENTER. -/
def execEnter (f : Monadic (BitVec 8) WordMode) (s : State) : Host.Outcome State Fault Refusal := run (enterM .none f) s

/-- The value CATCH fills up to (R296): an offset from SP, or what the table of its modes names. -/
def catchTarget (s : State) : Monadic (BitVec 8) WordMode → M Word
  | .p1 g => pure (s.sp + g.zeroExtend 32 * 16)
  | .p3 m x => replaceTarget s.level s.sp m x
  | .illegal _ => raise .illegal

/-- CATCH (R296): a no-op while ISP is the CSP. -/
def catchScM (k : Prefix) (f : Monadic (BitVec 8) WordMode) : M Unit := do
  let s ← getS
  raiseIf (isIllegal f) .illegal
  refuseIf (!s.scOk) .stackCacheBounds
  if s.psw.s then do
    let t ← catchTarget s f
    whileM 16 (fun s => decide (s.msp < t) && decide (s.msp - s.sp < 256)) (fillQuad s.level)
  advance (k.len + f.len)
/-- The meaning of CATCH. -/
def execCatch (f : Monadic (BitVec 8) WordMode) (s : State) : Host.Outcome State Fault Refusal := run (catchScM .none f) s

/-! ## Kernel entry and return -/

/-- KCALL (R310): the operand's faults are ordinary exceptions, all that follows is the KCALL sequence. -/
def kcallM (k : Prefix) (f : Monadic (BitVec 10) WordMode) : M Unit := do
  let s ← getS
  match f with
  | .illegal _ => raise .illegal
  | .p1 g => kernelCall (g.zeroExtend 32 * 4) (s.pc + (k.len + 2))
  | .p3 m x => do
    let v ← wordValue s.level s m x
    kernelCall v (s.pc + (k.len + 6))
/-- The meaning of KCALL. -/
def execKcall (f : Monadic (BitVec 10) WordMode) (s : State) : Host.Outcome State Fault Refusal := run (kcallM .none f) s

/-- The meaning of KRET (R312). -/
def execKret (s : State) : Host.Outcome State Fault Refusal := run kernelReturn s

/-- The meaning of CRET (R298). -/
def execCret (s : State) : Host.Outcome State Fault Refusal := run contextReturn s

end Sys2Proof.Machine
end

