-- ==== Sys2Proof/Machine/Shift.lean ====
section
/-! DEFINITION. The shift instructions (45_shift.md R340 to R346). None touches the PSW (R346). -/

namespace Sys2Proof.Machine

/-- A shifted result, no flag. -/
def aluShift (g : Word → Word → Word) (a b : Word) : AluOut := { val := g a b }

/-- SHL (R340). -/
def shlM (k : Prefix) (f : Dyadic) : M Unit := dyadicToDst .shl k f (aluShift shlWord)
/-- The meaning of SHL. -/
def execShl (f : Dyadic) (s : State) : Host.Outcome State Fault Refusal := run (shlM .none f) s

/-- SHL3 (R341). -/
def shl3M (k : Prefix) (f : Dyadic) : M Unit := dyadicToAcc .shl3 k f (aluShift shlWord)
/-- The meaning of SHL3. -/
def execShl3 (f : Dyadic) (s : State) : Host.Outcome State Fault Refusal := run (shl3M .none f) s

/-- SHR (R342). -/
def shrM (k : Prefix) (f : Dyadic) : M Unit := dyadicToDst .shr k f (aluShift shrWord)
/-- The meaning of SHR. -/
def execShr (f : Dyadic) (s : State) : Host.Outcome State Fault Refusal := run (shrM .none f) s

/-- SHR3 (R343). -/
def shr3M (k : Prefix) (f : Dyadic) : M Unit := dyadicToAcc .shr3 k f (aluShift shrWord)
/-- The meaning of SHR3. -/
def execShr3 (f : Dyadic) (s : State) : Host.Outcome State Fault Refusal := run (shr3M .none f) s

/-- USHR (R344). -/
def ushrM (k : Prefix) (f : Dyadic) : M Unit := dyadicToDst .ushr k f (aluShift ushrWord)
/-- The meaning of USHR. -/
def execUshr (f : Dyadic) (s : State) : Host.Outcome State Fault Refusal := run (ushrM .none f) s

/-- USHR3 (R345). -/
def ushr3M (k : Prefix) (f : Dyadic) : M Unit := dyadicToAcc .ushr3 k f (aluShift ushrWord)
/-- The meaning of USHR3. -/
def execUshr3 (f : Dyadic) (s : State) : Host.Outcome State Fault Refusal := run (ushr3M .none f) s

end Sys2Proof.Machine
end

