-- ==== Sys2Proof/Machine/Arithmetic.lean ====
section
/-! DEFINITION. The arithmetic instructions (40_arithmetic.md R200 to R215). Each is one definition over the shared shapes. -/

namespace Sys2Proof.Machine

/-- ADD (R200, R202). -/
def aluAdd (a b : Word) : AluOut := { val := a + b, flags := { v := some (addV a b), c := some (addC a b) } }
/-- SUB: the destination less the source (R204, R202). -/
def aluSub (a b : Word) : AluOut := { val := b - a, flags := { v := some (subV a b), c := some (subC a b) } }
/-- MUL (R206, R202). -/
def aluMul (a b : Word) : AluOut := { val := a * b, flags := { v := some (mulV a b), c := some (mulC a b) } }
/-- DIV: V written, C left alone (R208). -/
def aluDiv (a b : Word) : AluOut := { val := sdivWord a b, flags := { v := some (divV a b) }, zdiv := a == 0 }
/-- REM: V cleared, C left alone (R210). -/
def aluRem (a b : Word) : AluOut := { val := sremWord a b, flags := { v := some false }, zdiv := a == 0 }
/-- UDIV: C cleared, V left alone (R212). -/
def aluUdiv (a b : Word) : AluOut := { val := udivWord a b, flags := { c := some false }, zdiv := a == 0 }
/-- UREM: C cleared, V left alone (R213). -/
def aluUrem (a b : Word) : AluOut := { val := uremWord a b, flags := { c := some false }, zdiv := a == 0 }

/-- ADD (R200). -/
def addM (k : Prefix) (f : Dyadic) : M Unit := dyadicToDst .add k f aluAdd
/-- The meaning of ADD. -/
def execAdd (f : Dyadic) (s : State) : Host.Outcome State Fault Refusal := run (addM .none f) s

/-- ADD3 (R201). -/
def add3M (k : Prefix) (f : Dyadic) : M Unit := dyadicToAcc .add3 k f aluAdd
/-- The meaning of ADD3. -/
def execAdd3 (f : Dyadic) (s : State) : Host.Outcome State Fault Refusal := run (add3M .none f) s

/-- ADDI (R203). -/
def addiM (k : Prefix) (f : Dyadic) : M Unit := interlocked .addi k f (fun a b => b + a)
/-- The meaning of ADDI. -/
def execAddi (f : Dyadic) (s : State) : Host.Outcome State Fault Refusal := run (addiM .none f) s

/-- SUB (R204). -/
def subM (k : Prefix) (f : Dyadic) : M Unit := dyadicToDst .sub k f aluSub
/-- The meaning of SUB. -/
def execSub (f : Dyadic) (s : State) : Host.Outcome State Fault Refusal := run (subM .none f) s

/-- SUB3 (R205). -/
def sub3M (k : Prefix) (f : Dyadic) : M Unit := dyadicToAcc .sub3 k f aluSub
/-- The meaning of SUB3. -/
def execSub3 (f : Dyadic) (s : State) : Host.Outcome State Fault Refusal := run (sub3M .none f) s

/-- MUL (R206). -/
def mulM (k : Prefix) (f : Dyadic) : M Unit := dyadicToDst .mul k f aluMul
/-- The meaning of MUL. -/
def execMul (f : Dyadic) (s : State) : Host.Outcome State Fault Refusal := run (mulM .none f) s

/-- MUL3 (R207). -/
def mul3M (k : Prefix) (f : Dyadic) : M Unit := dyadicToAcc .mul3 k f aluMul
/-- The meaning of MUL3. -/
def execMul3 (f : Dyadic) (s : State) : Host.Outcome State Fault Refusal := run (mul3M .none f) s

/-- DIV (R208). -/
def divM (k : Prefix) (f : Dyadic) : M Unit := dyadicToDst .div k f aluDiv
/-- The meaning of DIV. -/
def execDiv (f : Dyadic) (s : State) : Host.Outcome State Fault Refusal := run (divM .none f) s

/-- DIV3 (R209). -/
def div3M (k : Prefix) (f : Dyadic) : M Unit := dyadicToAcc .div3 k f aluDiv
/-- The meaning of DIV3. -/
def execDiv3 (f : Dyadic) (s : State) : Host.Outcome State Fault Refusal := run (div3M .none f) s

/-- REM (R210). -/
def remM (k : Prefix) (f : Dyadic) : M Unit := dyadicToDst .rem k f aluRem
/-- The meaning of REM. -/
def execRem (f : Dyadic) (s : State) : Host.Outcome State Fault Refusal := run (remM .none f) s

/-- REM3 (R211). -/
def rem3M (k : Prefix) (f : Dyadic) : M Unit := dyadicToAcc .rem3 k f aluRem
/-- The meaning of REM3. -/
def execRem3 (f : Dyadic) (s : State) : Host.Outcome State Fault Refusal := run (rem3M .none f) s

/-- UDIV (R212). -/
def udivM (k : Prefix) (f : Dyadic) : M Unit := dyadicToDst .udiv k f aluUdiv
/-- The meaning of UDIV. -/
def execUdiv (f : Dyadic) (s : State) : Host.Outcome State Fault Refusal := run (udivM .none f) s

/-- UREM (R213). -/
def uremM (k : Prefix) (f : Dyadic) : M Unit := dyadicToDst .urem k f aluUrem
/-- The meaning of UREM. -/
def execUrem (f : Dyadic) (s : State) : Host.Outcome State Fault Refusal := run (uremM .none f) s

end Sys2Proof.Machine
end

