-- ==== Sys2Proof/Machine/Tagged.lean ====
section
/-! DEFINITION. The tagged instructions (46_tagged.md R360 to R362). -/

namespace Sys2Proof.Machine

/-- Whether a tag is non-zero (R362). -/
def tagged (a b : Word) : Bool := a &&& 3 != 0 || b &&& 3 != 0

/-- The tagged form of an operation (R362): with a tag set, F is set and nothing else; with both clear, C and V are the
operation's, F is its V, and an overflowing result is not stored. The flags come before the result (R360, R361), so a result
that goes to PSW stands as it is. -/
def aluTagged (op : Word → Word → AluOut) (v : Word → Word → Bool) (a b : Word) : AluOut :=
  if tagged a b then { val := 0, flags := { f := some true }, store := false }
  else { val := (op a b).val, flags := { (op a b).flags with f := some (v a b) }, store := !v a b, flagsFirst := true }

/-- TADD (R360). -/
def taddM (k : Prefix) (f : Dyadic) : M Unit := dyadicToDst .tadd k f (aluTagged aluAdd addV)
/-- The meaning of TADD. -/
def execTadd (f : Dyadic) (s : State) : Host.Outcome State Fault Refusal := run (taddM .none f) s

/-- TSUB (R361). -/
def tsubM (k : Prefix) (f : Dyadic) : M Unit := dyadicToDst .tsub k f (aluTagged aluSub subV)
/-- The meaning of TSUB. -/
def execTsub (f : Dyadic) (s : State) : Host.Outcome State Fault Refusal := run (tsubM .none f) s

end Sys2Proof.Machine
end

