-- ==== Sys2Proof/Machine/Cpu.lean ====
section
/-! DEFINITION. The CPU prefix (47_other.md R371, 30_encoding.md R170 to R174): the instruction after it, with mode 0x7 a control
register, one instruction with it, two bytes longer. -/

namespace Sys2Proof.Machine

/-- A dyadic instruction by its mnemonic, with or without a prefix. -/
def dyadicM (op : DyOp) (k : Prefix) (f : Dyadic) : M Unit :=
  match op with
  | .ori => oriM k f | .andi => andiM k f | .addi => addiM k f | .mova => movaM k f | .urem => uremM k f
  | .mov => movM k f | .dqm => dqmM k f | .tadd => taddM k f | .tsub => tsubM k f
  | .cmpgt => cmpgtM k f | .cmphi => cmphiM k f | .cmpeq => cmpeqM k f
  | .sub => subM k f | .or => orM k f | .and => andM k f | .add => addM k f | .xor => xorM k f | .rem => remM k f
  | .mul => mulM k f | .div => divM k f | .shr => shrM k f | .ushr => ushrM k f | .shl => shlM k f | .udiv => udivM k f
  | .sub3 => sub3M k f | .or3 => or3M k f | .and3 => and3M k f | .add3 => add3M k f | .xor3 => xor3M k f
  | .rem3 => rem3M k f | .mul3 => mul3M k f | .div3 => div3M k f | .shr3 => shr3M k f | .ushr3 => ushr3M k f
  | .shl3 => shl3M k f

/-- A `word32` instruction by its mnemonic, after a prefix. -/
def wordM (op : WordOp) (f : Monadic Empty WordMode) : M Unit :=
  match op with
  | .kcall => kcallM .cpu f.widen
  | .catchSc => catchScM .cpu f.widen
  | .enter => enterM .cpu f.widen
  | .flushpte => flushpteM .cpu f
  | .flushpbe => flushpbeM .cpu f

/-- A transfer by its mnemonic, after a prefix. -/
def flowM (op : FlowOp) (f : Monadic Empty FlowMode) : M Unit :=
  match op with
  | .call => callM .cpu f.widen
  | .jmp => jmpM f.widen
  | .jmpfn => jmpfnM .cpu f.widen
  | .jmpfy => jmpfyM .cpu f.widen
  | .jmptn => jmptnM .cpu f.widen
  | .jmpty => jmptyM .cpu f.widen
  | .ldraa => ldraaM .cpu f

/-- RETURN or POPN after a prefix. -/
def stackM (op : StkOp) (f : Monadic Empty Unit) : M Unit :=
  match op with
  | .ret => retM f.widen
  | .popn => popnM .cpu f.widen

/-- The instruction a CPU prefix stands before (R371); before a one-parcel instruction it is not described (U11, D17). -/
def cpuM (b : CpuBody) : M Unit :=
  match b with
  | .dyadic op f => dyadicM op .cpu f
  | .word op f => wordM op f
  | .flow op f => flowM op f
  | .stack op f => stackM op f
  | .flushdce m => flushdceM m
  | .unimplemented u => unimplementedM .cpu u
  | .oneParcel _ => stop (.refused .cpuBeforeOneParcel)

/-- The meaning of CPU. -/
def execCpu (b : CpuBody) (s : State) : Host.Outcome State Fault Refusal := run (cpuM b) s

end Sys2Proof.Machine
end

