-- ==== Sys2Proof/Machine/Dispatch.lean ====
section
/-! DEFINITION. The dispatch: one arm per constructor of Instr, each one direct call of the instruction's meaning. -/

namespace Sys2Proof.Machine

def exec (i : Instr) (s : State) : Host.Outcome State Fault Refusal :=
  match i with
  | .ori f => Sys2Proof.Machine.execOri f s
  | .andi f => Sys2Proof.Machine.execAndi f s
  | .addi f => Sys2Proof.Machine.execAddi f s
  | .mova f => Sys2Proof.Machine.execMova f s
  | .urem f => Sys2Proof.Machine.execUrem f s
  | .mov f => Sys2Proof.Machine.execMov f s
  | .dqm f => Sys2Proof.Machine.execDqm f s
  | .tadd f => Sys2Proof.Machine.execTadd f s
  | .tsub f => Sys2Proof.Machine.execTsub f s
  | .cmpgt f => Sys2Proof.Machine.execCmpgt f s
  | .cmphi f => Sys2Proof.Machine.execCmphi f s
  | .cmpeq f => Sys2Proof.Machine.execCmpeq f s
  | .sub f => Sys2Proof.Machine.execSub f s
  | .or f => Sys2Proof.Machine.execOr f s
  | .and f => Sys2Proof.Machine.execAnd f s
  | .add f => Sys2Proof.Machine.execAdd f s
  | .xor f => Sys2Proof.Machine.execXor f s
  | .rem f => Sys2Proof.Machine.execRem f s
  | .mul f => Sys2Proof.Machine.execMul f s
  | .div f => Sys2Proof.Machine.execDiv f s
  | .shr f => Sys2Proof.Machine.execShr f s
  | .ushr f => Sys2Proof.Machine.execUshr f s
  | .shl f => Sys2Proof.Machine.execShl f s
  | .udiv f => Sys2Proof.Machine.execUdiv f s
  | .sub3 f => Sys2Proof.Machine.execSub3 f s
  | .or3 f => Sys2Proof.Machine.execOr3 f s
  | .and3 f => Sys2Proof.Machine.execAnd3 f s
  | .add3 f => Sys2Proof.Machine.execAdd3 f s
  | .xor3 f => Sys2Proof.Machine.execXor3 f s
  | .rem3 f => Sys2Proof.Machine.execRem3 f s
  | .mul3 f => Sys2Proof.Machine.execMul3 f s
  | .div3 f => Sys2Proof.Machine.execDiv3 f s
  | .shr3 f => Sys2Proof.Machine.execShr3 f s
  | .ushr3 f => Sys2Proof.Machine.execUshr3 f s
  | .shl3 f => Sys2Proof.Machine.execShl3 f s
  | .kcall f => Sys2Proof.Machine.execKcall f s
  | .call f => Sys2Proof.Machine.execCall f s
  | .ret f => Sys2Proof.Machine.execRet f s
  | .jmp f => Sys2Proof.Machine.execJmp f s
  | .jmpfn f => Sys2Proof.Machine.execJmpfn f s
  | .jmpfy f => Sys2Proof.Machine.execJmpfy f s
  | .jmptn f => Sys2Proof.Machine.execJmptn f s
  | .jmpty f => Sys2Proof.Machine.execJmpty f s
  | .catchSc f => Sys2Proof.Machine.execCatch f s
  | .enter f => Sys2Proof.Machine.execEnter f s
  | .ldraa f => Sys2Proof.Machine.execLdraa f s
  | .flushpte f => Sys2Proof.Machine.execFlushpte f s
  | .flushpbe f => Sys2Proof.Machine.execFlushpbe f s
  | .flushdce m => Sys2Proof.Machine.execFlushdce m s
  | .popn f => Sys2Proof.Machine.execPopn f s
  | .cpu b => Sys2Proof.Machine.execCpu b s
  | .kret => Sys2Proof.Machine.execKret s
  | .nop => Sys2Proof.Machine.execNop s
  | .flushi => Sys2Proof.Machine.execFlushi s
  | .flushp => Sys2Proof.Machine.execFlushp s
  | .cret => Sys2Proof.Machine.execCret s
  | .flushd => Sys2Proof.Machine.execFlushd s
  | .testv => Sys2Proof.Machine.execTestv s
  | .testc => Sys2Proof.Machine.execTestc s
  | .clre => Sys2Proof.Machine.execClre s
  | .unimplemented u => Sys2Proof.Machine.execUnimplemented u s
  | .niladicTrap n => Sys2Proof.Machine.execNiladicTrap n s

end Sys2Proof.Machine
end

