-- ==== Sys2Proof/Machine/Fetch.lean ====
section
/-! DEFINITION. Instruction fetch (20_memory.md R98, R99, R131, R132): the text caches, which no store updates, and decoding. -/

namespace Sys2Proof.Machine

/-- The quad-word of text at an address as a line, and the word at the address: two double-word transfers, with other agents before
each and none inside one (R131, R105, D8), the lower one first (DESIGN CHOICE, log entry 10). -/
def readLine (va pa : Word) : M (PfbLine × Word) := do
  others
  let lo ← getS
  others
  let hi ← getS
  let r : TextRead := ⟨va, pa, false, false⟩
  pure (r.line (lo.lowerHalf pa) (hi.physWord (quadAlign pa + 8)) (hi.physWord (quadAlign pa + 12)),
    (if pa.getLsbD 3 then hi else lo).physWord pa)

/-- Keeping a line in the prefetch buffer. -/
def keepText (cacheable : Bool) (l : PfbLine) : M Unit := fun s =>
  match s.config.pbe with
  | true => .ok () (s.keepLine cacheable l)
  | false => .ok () s

/-- Text found under the translation mode in PSW, the old one at an end. -/
def inNewSpace {α : Type} (m : Level → M α) : M α := do
  modS fun s => { s with oldSpace := none }
  let s ← getS
  m s.level

/-- Text found in the space of translation mode `vp`, where that space has it; if not, in the new one. -/
def inOldSpace {α : Type} (vp : Bool) (m : Level → M α) : M α := fun s =>
  match m ⟨vp, s.psw.x⟩ s with
  | .error (.exc _) _ => inNewSpace m s
  | r => r

/-- Text found at the level in PSW. After a direct write of PSW.VP it comes from either space (R494 (b), U23): from the old one as
long as the coin says so and that space has it, since it was prefetched there, then from the new one for good (DESIGN CHOICE,
log entry 24). -/
def inEitherSpace {α : Type} (m : Level → M α) : M α := do
  let s ← getS
  match s.oldSpace with
  | none => m s.level
  | some vp => do
    let old ← flip
    if old then inOldSpace vp m else inNewSpace m

/-- `Fetch` (R99): every fetch is translated, and answered by the prefetch registers, the prefetch buffer or memory. -/
def fetchParcelAt (a : Word) (lv : Level) : M Text := do
  let x ← translateAddr lv .text a
  let s ← getS
  match s.chipText x.pa with
  | some p => pure p
  | none =>
    if s.ramQuad x.pa then do
      let l ← readLine a x.pa
      keepText x.cacheable l.1
      pure ⟨parcelOf a l.2, false⟩
    else do
      let w ← physRead x.pa
      pure ⟨parcelOf a w, false⟩

/-- `Fetch` of the parcel at a text address (R99, R494). -/
def fetchParcel (a : Word) : M Text := inEitherSpace (fetchParcelAt a)

/-- The parcels of the instruction at a text address. -/
def fetchText (a : Word) : M (List Text) := instrText fun i => fetchParcel (parcelAddr a i)

/-- The entry of the decoded instruction cache for an address, if the cache is enabled (R48). -/
def State.icHit (s : State) (a : Word) : Option IcEntry :=
  if s.config.ice then s.ic.find? fun e => e.va == a else none

/-- The instruction its parcels are. -/
def decoded (ps : List Parcel) : M Instr :=
  match decode ps with
  | .ok (i, _) => pure i
  | .error _ => stop (.fault .textTruncated)

/-- The translations of `n` parcels from a text address on, for their faults (R99). -/
def translateText : Nat → Word → M Unit
  | 0, _ => pure ()
  | n + 1, a => do
    let _ ← inEitherSpace fun lv => translateAddr lv .text a
    translateText n (a + 2)

/-- The instruction at the pc. A hit of the decoded instruction cache gives its text, which may be old (R48); its addresses are
translated and checked like those of any fetch (R99). -/
def fetch : M Instr := do
  let s ← getS
  match s.icHit s.pc with
  | some e => do
    translateText e.parcels.length s.pc
    decoded e.parcels
  | none => do
    let ts ← fetchText s.pc
    let i ← decoded (ts.map Text.parcel)
    modS fun t => t.keepInstr s.pc ts
    pure i

/-- The text caches emptied, if the hardware keeps no text (R132 allows the new text at any time). -/
def State.dropText (s : State) : State :=
  if s.cur.keepText then s else { s with pfb := [], ic := [], ahead := [] }

end Sys2Proof.Machine
end

