-- ==== Sys2Proof/Machine/Boundary.lean ====
section
/-! DEFINITION. What happens between instructions (60_exceptions.md R406 to R411, R435, R436, R440 to R443, R450 to R453): the
outside world's part, interrupts, tracing, the timers, folding; and how a step is put together from them. -/

namespace Sys2Proof.Machine

/-! ## The outside world before an instruction -/

/-- The interrupt lines sampled; a change to 000 is an NMI (R408, D32). -/
def State.sampleLines (s : State) : State :=
  { s with lastIl := s.cur.il, nmiPending := s.nmiPending || (s.cur.il == 0 && s.lastIl != 0) }

/-- All that may happen before an instruction; the same may happen before each of its accesses (`others`, R131, D8). The event of the
step before is over. -/
def State.openBoundary (s : State) : State :=
  s.cur.start.foldl State.act { s.sampleLines with event := .none }.dropText

/-! ## Interrupts -/

/-- A request the processor can accept (R406, R409). -/
inductive Request
  | nmi
  | line (level : BitVec 3)
  | timer1
  | timer2
  deriving DecidableEq, Repr

/-- Whether a maskable level is accepted (R407). -/
def Psw.accepts (p : Psw) (level : BitVec 3) : Bool := decide (level.toNat < p.ipl.toNat)

/-- The request taken at this boundary (R407, R409, D30): NMI, external level 1, Timer1, Timer2, external levels 2 to 6. -/
def State.request (s : State) : Option Request :=
  if s.cur.defer then none
  else if s.nmiPending then some .nmi
  else if s.cur.il == 1 && s.psw.accepts 1 then some (.line 1)
  else if s.t1Req && s.psw.accepts 1 then some .timer1
  else if s.t2Req && s.psw.accepts 1 then some .timer2
  else if s.cur.il != 0 && s.cur.il != 7 && s.psw.accepts s.cur.il then some (.line s.cur.il)
  else none

/-- The vector's offset in the table (R409). -/
def Request.vector : Request → Word
  | .nmi => 16
  | .line k => 16 + 4 * k.zeroExtend 32
  | .timer1 => 44
  | .timer2 => 48

/-- The request answered (R410), and a due trace exception dropped (R443, D29). -/
def State.answer (s : State) (r : Request) : State :=
  let s := { s with tracePending := false }
  match r with
  | .nmi => { s with nmiPending := false }
  | .line _ => s
  | .timer1 => { s with t1Req := false }
  | .timer2 => { s with t2Req := false }

/-! ## Kinds of instruction -/

/-- A one-parcel jump, the kind that may be folded (R442). -/
def shortJump : Instr → Option (JumpOp × BitVec 10)
  | .jmp (.p1 f) => some (.jmp, f)
  | .jmpfn (.p1 f) => some (.jmpfn, f)
  | .jmpfy (.p1 f) => some (.jmpfy, f)
  | .jmptn (.p1 f) => some (.jmptn, f)
  | .jmpty (.p1 f) => some (.jmpty, f)
  | _ => none

/-- The instruction a folded jump is. -/
def FoldedJump.instr (j : FoldedJump) : Instr :=
  match j.op with
  | .jmp => .jmp (.p1 j.field)
  | .jmpfn => .jmpfn (.p1 j.field)
  | .jmpfy => .jmpfy (.p1 j.field)
  | .jmptn => .jmptn (.p1 j.field)
  | .jmpty => .jmpty (.p1 j.field)

/-- A one- or three-parcel dyadic form. -/
def notFive : Dyadic → Bool
  | .p1 _ _ => true
  | .p3 _ _ _ _ => true
  | _ => false

/-- The form of a dyadic instruction. -/
def dyadicForm : Instr → Option Dyadic
  | .ori f | .andi f | .addi f | .mova f | .urem f | .mov f | .dqm f | .tadd f | .tsub f | .cmpgt f | .cmphi f
  | .cmpeq f | .sub f | .or f | .and f | .add f | .xor f | .rem f | .mul f | .div f | .shr f | .ushr f | .shl f
  | .udiv f | .sub3 f | .or3 f | .and3 f | .add3 f | .xor3 f | .rem3 f | .mul3 f | .div3 f | .shr3 f | .ushr3 f
  | .shl3 f => some f
  | _ => none

/-- An instruction a one-parcel jump may be folded into (R442). -/
def foldable (i : Instr) : Bool :=
  match i with
  | .nop | .flushi | .flushp | .testv | .testc | .clre => true
  | _ => match dyadicForm i with
    | some f => notFive f
    | none => false

/-- KCALL, KRET and CRET are never traced (R440). -/
def untraceable : Instr → Bool
  | .kcall _ | .kret | .cret => true
  | .cpu (.word .kcall _) => true
  | _ => false

/-- CALL, RETURN and the jumps end a basic block (R441). -/
def blockEnd : Instr → Bool
  | .call _ | .ret _ | .jmp _ | .jmpfn _ | .jmpfy _ | .jmptn _ | .jmpty _ => true
  | .cpu (.flow .ldraa _) => false
  | .cpu (.flow _ _) => true
  | .cpu (.stack .ret _) => true
  | _ => false

/-! ## After an instruction -/

/-- Whether a trace exception is due (R440, R441), with the trace bits sampled as the instruction began. -/
def traceDue (i : Instr) (ev : StepEvent) (ti tb : Bool) : Bool :=
  match ev with
  | .none => !untraceable i && (ti || (tb && blockEnd i))
  | .softTrap => ti
  | _ => false

/-- The clock cycles of a step: a positive number, free (R451, D20). -/
def State.stepCycles (s : State) : Nat := 1 + Config.cycles s.draw

/-- The clock cycles of a step that ended in this state which a timer with this K bit counts (R451): all of them, or with K set those
at kernel level. A step that goes from one level to the other has a free share of them there, which may be none or all, since the
spec fixes no cycle count (DESIGN CHOICE, log entry 5). -/
def State.timerCycles (s old : State) (k : Bool) : Nat :=
  match k, old.psw.x, s.psw.x with
  | true, true, true => 0
  | true, true, false | true, false, true => min (Config.kernelCycles s.draw) s.stepCycles
  | _, _, _ => s.stepCycles

/-- The timers at the end of a step (R451, R453): `old` is the state it began in, whose CONFIG is in force (R494); `counted` is
whether an instruction counts. With K set nothing counts at user level: an instruction is judged by the level it began at, also where
it ends at the other (KRET, CRET, a write of PSW), a case R451 and R452 leave open (DESIGN CHOICE, log entry 28). A step that resets
leaves no request (R453, R480; log entry 28). -/
def State.tickTimers (s old : State) (counted : Bool) : State :=
  let g := old.config
  let one := if counted then 1 else 0
  let n1 := if g.t1ev then (if g.t1k && old.psw.x then 0 else one)
    else s.timerCycles old g.t1k
  let n2 := if g.t2ev = 0 then s.timerCycles old g.t2k
    else if g.t2ev = 1 && !(g.t2k && old.psw.x) then one else 0
  let open2 := g.t2ev != 0 && g.t2ev != 1 && g.t2ev != 31 && !(g.t2k && old.psw.x && s.psw.x)
  let live := s.event != .reset
  { s with
    timer1 := s.timer1 + BitVec.ofNat 32 n1
    t1Req := s.t1Req || (live && g.t1i && decide (2 ^ 32 ≤ s.timer1.toNat + n1))
    timer2 := if open2 then Config.freeWord (s.draw + 1) else s.timer2 + BitVec.ofNat 32 n2
    t2Req := s.t2Req ||
      (live && g.t2i && (if open2 then Config.coin (s.draw + 2) else decide (2 ^ 32 ≤ s.timer2.toNat + n2)))
    draw := s.draw + 3 }

/-- The hazards of the instruction join those of the last two (R491, R493, R495); an exception or reset has cleared them. An
unimplemented instruction or trapped niladic sequence clears none: the trapped opcode counts as one instruction, and a window still
open reaches into its handler (DESIGN CHOICE, log entry 16; the rules speak of instructions alone). -/
def State.pushHazard (s : State) : State :=
  match s.event with
  | .exception => s
  | .reset => s
  | _ => { s with recent := (s.hazard :: s.recent).take 2, hazard := {} }

/-- The end of every step: stores drain (R128), the script moves on. -/
def State.closeStep (s : State) : State :=
  let s := s.drainTo s.cur.hold
  { s with env := s.env.tail }

/-- The end of a step that ran an event sequence. -/
def State.retireEvent (s old : State) : State := (s.tickTimers old false).closeStep

/-- A one-parcel jump after the instruction, folded into it if the hardware does so (R442, D28): fetched here, once, so that nothing
can come between the two halves of the pair. -/
def State.foldNext (s : State) (i : Instr) (ti : Bool) : Option State :=
  if s.cur.fold && foldable i && s.event == .none then
    match fetch s with
    | .ok j s' => (shortJump j).map fun p => { s' with folded := some ⟨p.1, p.2, ti⟩, tracePending := false }
    | .error _ _ => none
  else none

/-- The end of a step that ran an instruction. `pair` is the TI sampled for the pair where the instruction is a folded jump. -/
def State.retire (s old : State) (i : Instr) (pair : Option Bool) : State :=
  let ti := pair.getD old.psw.ti
  let counted := s.event == .none && pair.isNone
  let s := (s.tickTimers old counted).pushHazard
  let s := { s with tracePending := traceDue i s.event ti old.psw.tb }
  ((if pair.isNone then s.foldNext i ti else none).getD s).closeStep

/-! ## The step -/

/-- An outcome with its next state changed. -/
def mapNext (g : State → State) : Host.Outcome State Fault Refusal → Host.Outcome State Fault Refusal
  | .next s => .next (g s)
  | .fault r => .fault r
  | .refused r => .refused r

/-- A step that runs an event sequence. -/
def eventStep (m : M Unit) (s : State) : Host.Outcome State Fault Refusal :=
  mapNext (fun t => t.retireEvent s) (finish (m s))

/-- The words each turn of the loop of R424 reads: the vector, and the words that hold the handler's first instruction, at most 12
bytes from `pc` on. -/
def State.loopReads (s : State) (pc : Word) : List Word := [s.vb + 4, pc, pc + 4, pc + 8, pc + 10]

/-- The exception of a fetch has led to the very address that could not be fetched, in physical mode, with no bus error on any
write, no NMI pending and a silent outside world in the step that began in `old` and from then on: the endless loop of R424 (U17). What
else R424 leaves open is the model's choice (DESIGN CHOICE, log entry 45). A word that each turn reads and a device answers, the vector
at VB + 4 or a word of the handler's text, is drawn anew each turn (D7), so the loop may end: it is not reported, the turns run on step
by step. Nor is a turn in which text may still come from the space before a direct write of PSW.VP (R494). That the frames in the end
overwrite the vector or the text is left out of account. -/
def State.looping (s old : State) : Bool :=
  s.event == .exception && s.pc == old.pc && !s.psw.vp && s.board.regions.all (fun r => r.wr != .busError) &&
    (s.loopReads old.pc).all (fun a => s.board.readAnswer a != .device) && !s.nmiPending && old.env.isEmpty && old.oldSpace.isNone

/-- A step that began in `old` and whose fetch failed: an exception of the instruction that cannot be fetched, or the loop that nothing
ends (R424). -/
def fetchStep (e : Exc) (old s : State) : Host.Outcome State Fault Refusal :=
  match finish (exceptionSequence e s.pc s) with
  | .next t => if t.looping old then .fault .handlerLoop else .next (t.retireEvent s)
  | r => r

/-- A step that fetches and executes. -/
def instrStep (s : State) : Host.Outcome State Fault Refusal :=
  match fetch s with
  | .ok i s1 => mapNext (fun t => t.retire s i none) (exec i { s1 with hazard := {}, event := .none })
  | .error (.exc e) s1 => fetchStep e s s1
  | .error e s1 => finish (α := Unit) (.error e s1)

/-- The step of a folded jump (R442): it is already fetched and nothing happens before it, but that the interrupt lines are
sampled as in every step (R408). -/
def foldedStep (j : FoldedJump) (s : State) : Host.Outcome State Fault Refusal :=
  let s := { s.sampleLines with folded := none }
  mapNext (fun t => t.retire s j.instr (some j.ti)) (exec j.instr { s with hazard := {}, event := .none })

/-- One step (R435, R436): reset; at a boundary an interrupt, a due trace exception, the exception of a lost store; otherwise
an instruction. A folded jump follows its instruction with nothing in between. The interrupt lines are sampled in each of them. -/
def stepOnce (s : State) : Host.Outcome State Fault Refusal :=
  if s.cur.hreset then .next { s.sampleLines.externalReset with env := s.env.tail }
  else
    match s.folded with
    | some j => foldedStep j s
    | none =>
      let s := s.openBoundary
      match s.request with
      | some r => eventStep (interruptSequence r.vector) (s.answer r)
      | none =>
        if s.tracePending then eventStep (exceptionSequence .trace s.pc) { s with tracePending := false }
        else if s.lostStores ≠ 0 then
          eventStep (exceptionSequence .busFault s.pc) { s with lostStores := s.lostStores - 1 }
        else instrStep s

/-! ## Placing an instruction where the next step fetches it -/

/-- A parcel stored as text at a virtual address, where that address has a translation. -/
def State.placeParcel (s : State) (a : Word) (p : Parcel) : State :=
  match translateAddr s.level .text a s with
  | .ok x _ => { s with mem := (s.mem.set x.pa.toNat (p.extractLsb' 8 8)).set (x.pa.toNat + 1) (p.extractLsb' 0 8) }
  | .error _ _ => s

/-- Parcels stored as text one after the other. -/
def State.placeText (s : State) (a : Word) : List Parcel → State
  | [] => s
  | p :: r => (s.placeParcel a p).placeText (a + 2) r

/-- Nothing between the state and its next instruction: no cached text, no pending event, a quiet outside world. -/
def State.quietNow (s : State) : State :=
  { s.drainAll with
    pfb := []
    ic := []
    ahead := []
    prefetches := []
    nmiPending := false
    t1Req := false
    t2Req := false
    tracePending := false
    lostStores := 0
    folded := none
    oldSpace := none
    env := [] }

end Sys2Proof.Machine
end

