-- ==== Sys2Proof/Machine/Step.lean ====
section
/-! DEFINITION. The step of the machine, and a state whose next step runs a given instruction word. -/

namespace Sys2Proof.Machine

/-- One step of the machine (R435, R436). -/
def step (s : State) : Host.Outcome State Fault Refusal := stepOnce s

/-- The state with the instruction of `nbits` bits `w` (numbered as spec/opcode_table.json numbers them) stored as text at the
pc, so that the next step fetches and runs it. -/
def State.withFetchWord (s : State) (nbits w : Nat) : State := s.quietNow.placeText s.pc (tableParcels nbits w)

end Sys2Proof.Machine
end

