-- ==== Sys2Proof/Safety.lean ====
section
/-! DEFINITION. The terms the claims are stated in: which states are well formed, what a data access finds when nothing stands
in its way (a stack cache hit, translation off, or a cached translation that allows it, with memory answering), and what an
instruction leaves alone. Each is a plain function of the state, with no fault, no walk of the tables and no free value. -/

namespace Sys2Proof.Machine

/-! ## Well-formed states -/

/-- What every step keeps: memory in canonical form, the PC even (R45), the stack pointers, SHAD and VB quad-aligned (R30), STB
with its reserved bits clear (R41), the caches no larger than R5 gives them, with three lines to a set and one instruction to a
slot (R48), the store buffer's addresses word addresses, and no more than two instructions remembered for the hazards. -/
structure State.Inv (s : State) : Prop where
  mem : s.mem.wf = true
  pc : textAddr s.pc = s.pc
  sp : quadAlign s.sp = s.sp
  msp : quadAlign s.msp = s.msp
  isp : quadAlign s.isp = s.isp
  shad : quadAlign s.shad = s.shad
  vb : quadAlign s.vb = s.vb
  stb : s.stb &&& 0xFFFFF800 = s.stb
  textTlb : s.textTlb.length ≤ tlbSize
  dataTlb : s.dataTlb.length ≤ tlbSize
  pfb : ∀ i : Fin pfbSets, (s.pfb.filter fun l => Config.pfbSet l.pa == i).length ≤ pfbWays
  ic : ∀ i : Fin icSize, (s.ic.filter fun e => Config.icSlot e.va == i).length ≤ 1
  storeBuf : ∀ b ∈ s.storeBuf, ∀ t ∈ b, wordAddr t.pa = t.pa
  recent : s.recent.length ≤ 2

/-- No other agent acts in the middle of this step. -/
def State.alone (s : State) : Bool := s.cur.between.isEmpty

/-! ## What an access finds -/

/-- The physical address of an access that needs no walk: the address itself with translation off (R110), or what a cached
translation that allows the access gives (R114, R120). -/
def State.trans? (s : State) (lv : Level) (k : Kind) (a : Word) : Option Word :=
  if lv.vp then
    match s.lookup k a with
    | some e => if s.alone && e.allows lv.user k a then some (e.xlat a).pa else none
    | none => none
  else some a

/-- The home of a data access that needs no walk: a stack cache hit with the invariant of R23 (R86), or external memory
at the translated address (R87). -/
def State.home? (s : State) (lv : Level) (k : Kind) (a : Word) : Option Home :=
  if s.scHit a then (if s.scOk then some (.sc a) else none) else (s.trans? lv k a).map .phys

/-- Memory answers a read at a physical address, with no other agent before it. -/
def State.reads (s : State) (pa : Word) : Bool := s.alone && s.board.readAnswer pa == .ram

/-- The word at a home, where memory answers. -/
def State.word? (s : State) : Home → Option Word
  | .sc a => some (s.scWord a)
  | .phys pa => if s.reads pa then some (s.physWord pa) else none

/-- `MemRead` of an aligned operand, zero-extended (R96). -/
def State.load? (s : State) (lv : Level) (a : Word) (n : Nat) : Option Word :=
  if aligned a n then
    ((s.home? lv .read a).bind s.word?).map (lanesOf (s.little lv.user) a n)
  else none

/-- Where `MemWrite` of an aligned operand goes (R97). -/
def State.slot? (s : State) (lv : Level) (a : Word) (n : Nat) : Option Slot :=
  if aligned a n then
    (s.home? lv .write a).map fun h => ⟨h, laneMask (s.little lv.user) a n, laneShift (s.little lv.user) a n⟩
  else none

/-- `Resolve` (R164): an operand with its pointer read. -/
def State.opd? (s : State) : Arg → Option Opd
  | .imm v => some (.imm v)
  | .mem ea z => some (.mem ea z)
  | .ptr p z => (s.load? s.level p 4).map fun ea => .mem ea z
  | .reg c => (Reg.ofCode c).map .reg

/-- `rd` (R165). -/
def State.value? (s : State) : Opd → Option Word
  | .imm v => some v
  | .mem ea z => (s.load? s.level ea (szBytes z)).map (szExtend z)
  | .reg r => some (r.get s)

/-- Where `wr` goes (R166): a register only at kernel level (R44). -/
def State.target? (s : State) : Opd → Option Target
  | .imm _ => none
  | .mem ea z => (s.slot? s.level ea (szBytes z)).map .slot
  | .reg r => if s.psw.x then none else some (.reg r)

/-- A register written, with no hazard in the way (R30, R33, R39, R41, R44, D12). -/
def State.setReg (s : State) (r : Reg) (v : Word) : State :=
  match r with
  | .msp => s.writeMsp (quadAlign v)
  | .isp => { s with isp := quadAlign v, shad := if s.psw.s then s.shad else quadAlign v }
  | .sp => { s with sp := quadAlign v, msp := quadAlign v, shad := if s.psw.s then quadAlign v else s.shad }
  | .config => { s with config := Cfg.ofWord v }
  | .psw => { s with
      psw := Psw.ofWord v, hazard := s.hazard.noteFlags s.psw, oldSpace := s.leaveSpace (Psw.ofWord v).vp }
  | .shad => { s with shad := quadAlign v }
  | .vb => { s with vb := quadAlign v }
  | .stb => { s with
      stb := v &&& 0xFFFFF800, textTlb := [], dataTlb := [], textNpsr := none, dataNpsr := none
      prefetches := s.prefetches.filter fun p => !p.midWalk }
  | .fault => { s with fault := v }
  | .id => s
  | .timer1 => { s with timer1 := v }
  | .timer2 => { s with timer2 := v }

/-- `wr` (R166). -/
def State.put (s : State) (t : Target) (v : Word) : State :=
  match t with
  | .slot p => s.commit p v
  | .reg r => s.setReg r v

/-- The lanes of an access (the table of R83): the byte order (true for little-endian), the bytes, the two low address bits, and the
lowest bit of the word the access uses. -/
def laneTable : List (Bool × Nat × Nat × Nat) :=
  [(false, 1, 0, 24), (false, 1, 1, 16), (false, 1, 2, 8), (false, 1, 3, 0), (false, 2, 0, 16), (false, 2, 2, 0), (false, 4, 0, 0),
    (true, 1, 0, 0), (true, 1, 1, 8), (true, 1, 2, 16), (true, 1, 3, 24), (true, 2, 0, 0), (true, 2, 2, 16), (true, 4, 0, 0)]

/-! ## Operands of an instruction -/

/-- A dyadic instruction with or without a CPU prefix. -/
def dyadicInstr (k : Prefix) (op : DyOp) (f : Dyadic) : Instr :=
  match k with
  | .none => op.instr f
  | .cpu => .cpu (.dyadic op f)

/-- The value of the source operand. -/
def State.src? (s : State) (k : Prefix) (f : Dyadic) : Option Word := (s.opd? (srcArg s k f)).bind s.value?

/-- The destination operand. -/
def State.dst? (s : State) (k : Prefix) (f : Dyadic) : Option Opd := s.opd? (dstArg s k f)

/-- Whether both operands are registers (U6). -/
def twoRegs (s : State) (k : Prefix) (f : Dyadic) : Bool := (srcArg s k f).isReg && (dstArg s k f).isReg

/-- The accumulator's slot (R25). -/
def State.acc? (s : State) : Option Slot := s.slot? s.level s.accAddr 4

/-- The address of a memory operand, the operand itself not read (R262, R385). -/
def State.addr? (s : State) : Arg → Option Word
  | .mem ea _ => some ea
  | .ptr p _ => s.load? s.level p 4
  | _ => none

/-- The value of a `word32` operand (R169). -/
def State.word32? (s : State) (m : WordMode) (x : Word) : Option Word := (s.opd? (wordArg s m x)).bind s.value?

/-- The source words of a DQM of `n` words (R263). -/
def State.block? (s : State) (n : Nat) : Opd → Option (List Word)
  | .imm v => some (List.replicate n v)
  | .mem ea _ =>
    if aligned ea (4 * n) then (s.home? s.level .read ea).bind fun h => (blockIdx n).mapM fun i => s.word? (h.plus i)
    else none
  | .reg _ => none

/-- Where a DQM of `n` words stores (R263). -/
def State.blockHome? (s : State) (n : Nat) : Opd → Option Home
  | .mem ea _ => if aligned ea (4 * n) then s.home? s.level .write ea else none
  | _ => none

/-- An instruction with a monadic operand, with or without a CPU prefix; the one-parcel forms take none. -/
def prefixed {F M : Type} (k : Prefix) (plain : Monadic F M → Instr) (body : Monadic Empty M → CpuBody)
    (f : Monadic F M) : Option Instr :=
  match k, f with
  | .none, f => some (plain f)
  | .cpu, .p3 m x => some (.cpu (body (.p3 m x)))
  | .cpu, .illegal m => some (.cpu (body (.illegal m)))
  | .cpu, .p1 _ => none

/-- The target of a jump, a call or LDRAA (R285). -/
def State.flow? {F : Type} (s : State) (short : F → Word) : Monadic F FlowMode → Option Word
  | .p1 f => some (short f)
  | .p3 .pcRel x => some (s.pc + x)
  | .p3 .abs x => some x
  | .p3 .absInd x => s.load? s.level x 4
  | .p3 .stkInd x => s.load? s.level (s.csp + x) 4
  | .illegal _ => none

/-- `Target1` (R285): the field counts parcels from the jump itself. -/
def State.near (s : State) (f : BitVec 10) : Word := s.pc + BitVec.ofInt 32 (2 * f.toInt)

/-- The new pointer of ENTER and CATCH in a mode other than stack offset (R300, R296). -/
def State.replace? (s : State) (base : Word) : WordMode → Word → Option Word
  | .imm, x => some x
  | .abs, x => s.load? s.level x 4
  | .ind, x => s.load? s.level (base + x) 4
  | .stk, _ => none

/-- The store check of ENTER, CATCH and CRET passes with nothing to walk (R95). -/
def State.storeOk (s : State) (lv : Level) (a : Word) : Bool :=
  (s.trans? lv (.check s.board.checkMarks) a).isSome

/-- Where an event sequence stores a word of its frame: no bus error answers there (R403, R481). -/
def State.frameHome? (s : State) (lv : Level) (a : Word) : Option Home :=
  if aligned a 4 then
    match s.home? lv .write a with
    | some (.phys pa) => if s.board.writeAnswer pa = .busError then none else some (.phys pa)
    | r => r
  else none

/-- The physical address of a word that is read past the stack cache, where memory answers (R94, R404). -/
def State.vector? (s : State) (lv : Level) (a : Word) : Option Word :=
  (s.trans? lv .read a).bind fun pa => if s.reads pa then some pa else none

/-- The state after an event sequence has written its frame and loaded its vector (R310, R410, R420): `hs` are the homes of
the words below ISP, `ws` the words. -/
def State.entered (s : State) (hs : List (Home × Word)) (va : Word) : State :=
  let u := hs.foldl (fun u h => u.homeWrite h.1 0xFFFFFFFF h.2) s
  { u with isp := s.isp - 16, shad := s.isp - 16, psw := s.psw.cleared, pc := textAddr (u.physWord va), oldSpace := none }

/-- The number of turns of a loop whose condition on the number of turns made is `c`. -/
def turns (c : Nat → Prop) (n : Nat) : Prop := (∀ j < n, c j) ∧ ¬ c n

/-- The quad-word a CATCH or CRET brings in can be brought in: its store check passes and memory answers (R92). -/
def State.quadIn? (s : State) (lv : Level) (q : Word) : Option Word :=
  if s.storeOk lv q then
    (s.trans? lv .read q).bind fun pa =>
      if (blockIdx 4).all fun i => s.reads (pa + BitVec.ofNat 32 (4 * i)) then some pa else none
  else none

/-- The quad-word an ENTER flushes can be flushed: its translation passes and no bus error answers (R91). -/
def State.quadOut? (s : State) (lv : Level) (q : Word) : Option Word :=
  (s.trans? lv .write q).bind fun pa =>
    if (blockIdx 4).all fun i => s.board.writeAnswer (pa + BitVec.ofNat 32 (4 * i)) != .busError then some pa
    else none

/-- The conditions under which a step runs an instruction: no reset, no fold in progress, no request taken, no trace exception
and no lost store due. -/
abbrev State.runsNext (s : State) : Prop :=
  s.cur.hreset = false ∧ s.folded = none ∧ s.openBoundary.request = none ∧ s.openBoundary.tracePending = false ∧
    s.openBoundary.lostStores = 0

/-! ## Hazards of the operands -/

/-- No hazard meets a register: the last two instructions wrote no F, C, V or E for PSW (R491), and none of them was ENTER, RETURN,
CALL or POPN for SHAD (R493). -/
def State.regSettled (s : State) : Reg → Bool
  | .psw => s.oldPsws.isEmpty
  | .shad => s.oldShads.isEmpty
  | _ => true

/-- No hazard meets an operand: of a memory operand, none of the last two instructions left a result there that this reader may see
untruncated (R495). -/
def State.settled (s : State) (late : Wide → Bool) : Opd → Bool
  | .imm _ => true
  | .mem ea z => (s.lateWides late ea (szBytes z)).isEmpty
  | .reg r => s.regSettled r

/-- The untruncated results an instruction may see, by what it writes (R495): its destination operand, nothing (a compare), or the
accumulator, a word. ADDI, ANDI and ORI clear the pipeline first (R108) and see none. -/
def lateFor (op : DyOp) (da : Arg) : Wide → Bool :=
  match op with
  | .addi | .andi | .ori => fun _ => false
  | .cmpeq | .cmpgt | .cmphi => lateOp op 0
  | op => lateOp op (if op.writesDst then da.bytes else 4)

/-- No hazard meets an instruction's source operand. -/
def State.srcSettled (s : State) (op : DyOp) (k : Prefix) (f : Dyadic) : Bool :=
  (s.opd? (srcArg s k f)).all (s.settled (lateFor op (dstArg s k f)))

/-- No hazard meets an instruction's destination operand. -/
def State.dstSettled (s : State) (op : DyOp) (k : Prefix) (f : Dyadic) : Bool :=
  (s.dst? k f).all (s.settled (lateFor op (dstArg s k f)))

/-- No hazard of R491, R493 or R495 meets an operand of an instruction, whatever the last two instructions left for others. -/
abbrev State.unhindered (s : State) (op : DyOp) (k : Prefix) (f : Dyadic) : Prop :=
  s.srcSettled op k f = true ∧ s.dstSettled op k f = true

/-! ## Operands that are ready -/

/-- Both operands of a two-operand instruction can be read and the destination written: the conditions under which it executes
normally. -/
abbrev DstReady (op : DyOp) (k : Prefix) (f : Dyadic) (s : State) (a b : Word) (d : Opd) (t : Target) : Prop :=
  s.unhindered op k f ∧ f.accepted k op = true ∧ twoRegs s k f = false ∧ s.src? k f = some a ∧ s.dst? k f = some d ∧
    s.value? d = some b ∧ s.target? d = some t

/-- The source can be read and the destination written. -/
abbrev MoveReady (op : DyOp) (k : Prefix) (f : Dyadic) (s : State) (a : Word) (d : Opd) (t : Target) : Prop :=
  s.unhindered op k f ∧ f.accepted k op = true ∧ s.src? k f = some a ∧ s.dst? k f = some d ∧ s.target? d = some t

/-- Both operands can be read and the accumulator written. -/
abbrev AccReady (op : DyOp) (k : Prefix) (f : Dyadic) (s : State) (a b : Word) (d : Opd) (p : Slot) : Prop :=
  s.unhindered op k f ∧ f.accepted k op = true ∧ twoRegs s k f = false ∧ s.src? k f = some a ∧ s.dst? k f = some d ∧
    s.value? d = some b ∧ s.acc? = some p

/-- Both operands can be read. -/
abbrev ReadReady (op : DyOp) (k : Prefix) (f : Dyadic) (s : State) (a b : Word) : Prop :=
  s.unhindered op k f ∧ f.accepted k op = true ∧ twoRegs s k f = false ∧ s.src? k f = some a ∧
    (s.dst? k f).bind s.value? = some b

/-- The state an interlocked instruction reads its operands in: the store buffer drained (D13), no untruncated result on its way
(R108). -/
def State.lockStart (s : State) : State := s.drainAll.settleWides

/-- The state in which an interlocked instruction has written its destination, drained before and after. -/
def State.locked (s : State) (t : Target) (v : Word) : State := (s.lockStart.put t v).drainAll

/-- The level of an interlocked instruction's last store, the accumulator's: user or kernel as PSW then says (R114). -/
def State.accLevel (s : State) (t : Target) (v : Word) : Level := { s.level with user := (s.locked t v).psw.x }

/-- With the store buffer drained, no store lost and no hazard of PSW or SHAD at an operand, both operands of an interlocked
instruction can be read and the destination written, and the accumulator before that and after it, still under the old CONFIG. -/
abbrev LockReady (op : DyOp) (k : Prefix) (f : Dyadic) (s : State) (alu : Word → Word → Word) (a b : Word) (d : Opd)
    (t : Target) (p : Slot) : Prop :=
  s.lockStart.unhindered op k f ∧ s.alone = true ∧ f.accepted k op = true ∧ twoRegs s k f = false ∧ s.lockStart.lostStores = 0 ∧
    s.lockStart.src? k f = some a ∧ s.lockStart.dst? k f = some d ∧ s.lockStart.value? d = some b ∧
    s.lockStart.target? d = some t ∧ s.lockStart.acc?.isSome = true ∧
    ({ s.locked t (alu a b) with config := s.config }).slot? (s.accLevel t (alu a b)) s.accAddr 4 = some p

/-- An instruction `op src, dst` leaves `val` of its operands in the destination and sets the flags `fl`, where `ok` holds of
the source. -/
def WritesDst (op : DyOp) (val : Word → Word → Word) (fl : Word → Word → FlagOut) (ok : Word → Prop) : Prop :=
  ∀ (k : Prefix) (f : Dyadic) (s : State) (a b : Word) (d : Opd) (t : Target), DstReady op k f s a b d t → ok a →
    exec (dyadicInstr k op f) s =
      .next { ((s.put t (val a b)).setFlags (fl a b)).noteWide op d (val a b) with pc := s.pc + (k.len + f.len) }

/-- An instruction leaves `val` of its operands in the accumulator and sets the flags `fl`, where `ok` holds of the source. -/
def WritesAcc (op : DyOp) (val : Word → Word → Word) (fl : Word → Word → FlagOut) (ok : Word → Prop) : Prop :=
  ∀ (k : Prefix) (f : Dyadic) (s : State) (a b : Word) (d : Opd) (p : Slot), AccReady op k f s a b d p → ok a →
    exec (dyadicInstr k op f) s =
      .next { ((s.commit p (val a b)).setFlags (fl a b)).noteWide op d (val a b) with pc := s.pc + (k.len + f.len) }

/-- A compare leaves its relation in F. -/
def SetsF (op : DyOp) (rel : Word → Word → Prop) : Prop :=
  ∀ (k : Prefix) (f : Dyadic) (s : State) (a b : Word), ReadReady op k f s a b →
    ∃ v : Bool, (v = true ↔ rel a b) ∧
      exec (dyadicInstr k op f) s =
        .next { s with
          psw := { s.psw with f := v }, hazard := s.hazard.noteFlags s.psw, pc := s.pc + (k.len + f.len) }

/-- An interlocked instruction changes the destination in memory and leaves its old value in the accumulator; both stores have
reached the bus when it ends. -/
def Interlocked (op : DyOp) (alu : Word → Word → Word) : Prop :=
  ∀ (k : Prefix) (f : Dyadic) (s : State) (a b : Word) (d : Opd) (t : Target) (p : Slot),
    LockReady op k f s alu a b d t p →
      exec (dyadicInstr k op f) s =
        .next { ((s.locked t (alu a b)).commit p b).drainAll with pc := s.pc + (k.len + f.len) }

/-- The new pointer of an ENTER: an offset from the current stack pointer, or the value its mode names (R300). -/
def enterPointer (s : State) (f : Monadic (BitVec 8) WordMode) (offset : Bool) (v : Word) : Prop :=
  (offset = true ∧ ((∃ g, f = .p1 g ∧ v = s.csp + BitVec.ofInt 32 (16 * ((g.toNat : Int) - 256))) ∨
      ∃ x, f = .p3 .stk x ∧ x.toInt < -256 ∧ v = s.csp + x)) ∨
  (offset = false ∧ ∃ m x, f = .p3 m x ∧ s.replace? s.csp m x = some v)

/-- An exception of an instruction is taken, its address the saved PC (R405). -/
def takes (e : Exc) (s : State) : Host.Outcome State Fault Refusal := finish (exceptionSequence e s.pc s)

/-! ## Flushed text -/

/-- An instruction that flushes the quad-word at a physical address from the prefetch buffer (R132): FLUSHP, or FLUSHPBE of it, of the
address itself or of one that translates to it. -/
def flushesQuad (i : Instr) (s : State) (q : Word) : Prop :=
  i = .flushp ∨ ∃ (k : Prefix) (m : WordMode) (x a : Word), prefixed k .flushpbe (.word .flushpbe) (.p3 m x) = some i ∧
    s.addr? (wordArg s m x) = some a ∧
      (q = a &&& 0xFFFFFFF0 ∨ ∃ (kind : Kind) (pa : Word), (kind = .text ∨ kind = .read) ∧
        s.trans? ⟨s.psw.vp, false⟩ kind a = some pa ∧ q = pa &&& 0xFFFFFFF0)

/-! ## Misaligned operands -/

/-- An operand shows a misaligned address before any access: its own for an operand of so many bytes, or its pointer word's
(R85, R436). -/
def Arg.skew (bytes : Sz → Nat) : Arg → Prop
  | .mem ea z => ea.toNat % bytes z ≠ 0
  | .ptr p _ => p.toNat % 4 ≠ 0
  | _ => False

/-- The bytes MOVA accesses at its source are none, every other instruction's are the operand's size (R262). -/
def srcBytes (op : DyOp) (z : Sz) : Nat := if op = .mova then 1 else szBytes z

/-- The indirection word of a transfer (R285). -/
def State.flowWord? (s : State) : FlowMode → Word → Option Word
  | .absInd, x => some x
  | .stkInd, x => some (s.csp + x)
  | _, _ => none

/-- The operand word of ENTER and CATCH in the modes that read one (R300, R296). -/
def operandWord? (base : Word) : WordMode → Word → Option Word
  | .abs, x => some x
  | .ind, x => some (base + x)
  | _, _ => none

/-- A dyadic instruction but DQM with a misaligned address known from the encoding and the stack pointers, pointer words
included. -/
def MisalignedKnown : Prop :=
  ∀ (k : Prefix) (op : DyOp) (f : Dyadic) (s : State), op ≠ .dqm → f.accepted k op = true →
    (srcArg s k f).noReg = false → (dstArg s k f).noReg = false →
    (srcArg s k f).skew (srcBytes op) ∨ (dstArg s k f).skew szBytes → exec (dyadicInstr k op f) s = takes .alignment s

/-- A dyadic instruction but DQM whose pointer gives a misaligned address: the source's, or the destination's after a source that
can be read. -/
def MisalignedPointee : Prop :=
  ∀ (k : Prefix) (op : DyOp) (f : Dyadic) (s : State) (p ea : Word) (z : Sz), op ≠ .dqm → f.accepted k op = true →
    (op ∈ [.addi, .andi, .ori] → s.storeBuf = [] ∧ s.lostStores = 0 ∧ s.alone = true) →
    s.load? s.level p 4 = some ea → ea.toNat % szBytes z ≠ 0 →
    (op ≠ .mova ∧ srcArg s k f = .ptr p z ∧ (dstArg s k f).noReg = false ∧ ¬(dstArg s k f).skew szBytes) ∨
      (dstArg s k f = .ptr p z ∧
          if op = .mova then (s.addr? (srcArg s k f)).isSome = true
          else s.srcSettled op k f = true ∧ (s.src? k f).isSome = true) →
      exec (dyadicInstr k op f) s = takes .alignment s

/-- DQM: a destination mode that names neither of its sizes; an operand, or a pointer word, whose known address is misaligned; a
pointer that gives a misaligned address, the destination's after an aligned source. -/
def MisalignedBlock : Prop :=
  ∀ (k : Prefix) (f : Dyadic) (s : State), f.accepted k .dqm = true →
    (∀ (b : Base) (z : Sz), dmodeOf f = .mem b z → z ≠ .b → z ≠ .w → exec (dyadicInstr k .dqm f) s = takes .alignment s) ∧
    ∀ n : Nat, (∃ b : Base, dmodeOf f = .mem b .b ∧ n = 8) ∨ (∃ b : Base, dmodeOf f = .mem b .w ∧ n = 16) →
      ((srcArg s k f).skew (fun _ => n) ∨ (dstArg s k f).skew (fun _ => n) →
        exec (dyadicInstr k .dqm f) s = takes .alignment s) ∧
      ∀ (p ea : Word) (z : Sz), s.load? s.level p 4 = some ea → ea.toNat % n ≠ 0 →
        (srcArg s k f = .ptr p z ∧ ¬(dstArg s k f).skew (fun _ => n)) ∨
          (dstArg s k f = .ptr p z ∧
            ∃ o : Opd, s.opd? (srcArg s k f) = some o ∧ ∀ (a : Word) (y : Sz), o = .mem a y → a.toNat % n = 0) →
          exec (dyadicInstr k .dqm f) s = takes .alignment s

/-- The monadic instructions: the indirection word of CALL, JMP and LDRAA, the operand and the pointer word of KCALL and what its
pointer gives, the operand word of ENTER and CATCH, the return slot of RETURN, the pointer word of FLUSHPTE and FLUSHPBE. -/
def MisalignedWord : Prop :=
  ∀ (k : Prefix) (i : Instr) (s : State) (x a : Word), a.toNat % 4 ≠ 0 →
    (∀ m : FlowMode, s.flowWord? m x = some a →
      prefixed k .call (.flow .call) (.p3 m x) = some i ∨ prefixed k .jmp (.flow .jmp) (.p3 m x) = some i ∨
        prefixed k .ldraa (.flow .ldraa) (.p3 m x) = some i → exec i s = takes .alignment s) ∧
    (∀ m : WordMode, wordArg s m x = .mem a .w ∨ wordArg s m x = .ptr a .w ∨
        (∃ p : Word, wordArg s m x = .ptr p .w ∧ s.load? s.level p 4 = some a) →
      prefixed k .kcall (.word .kcall) (.p3 m x) = some i → exec i s = takes .alignment s) ∧
    (∀ m : WordMode, s.scOk = true →
      (operandWord? s.csp m x = some a ∧ prefixed k .enter (.word .enter) (.p3 m x) = some i) ∨
        (operandWord? s.sp m x = some a ∧ s.psw.s = true ∧ prefixed k .catchSc (.word .catchSc) (.p3 m x) = some i) →
      exec i s = takes .alignment s) ∧
    (s.scOk = true → 0 ≤ x.toInt → a = s.csp + x → prefixed k .ret (.stack .ret) (.p3 () x) = some i →
      exec i s = takes .alignment s) ∧
    (a = s.csp + x → prefixed k .flushpte (.word .flushpte) (.p3 .ind x) = some i ∨
        prefixed k .flushpbe (.word .flushpbe) (.p3 .ind x) = some i → exec i s = takes .alignment s)

/-! ## What stays the same -/

/-- Whether a checked write may change a byte of physical memory. -/
def Slot.covers (p : Slot) (a : Word) : Bool :=
  match p.home with
  | .sc _ => false
  | .phys pa => wordAddr a == wordAddr pa && p.mask.extractLsb' (24 - 8 * (a.toNat % 4)) 8 != 0

/-- Whether a checked write may change a word of the stack cache. -/
def Slot.coversSc (p : Slot) (i : Fin 64) : Bool :=
  match p.home with
  | .sc a => scIdx a == i
  | .phys _ => false

/-- Every byte of physical memory outside a slot, and every word of the stack cache outside it, is unchanged. -/
def sameOutside (p : Slot) (s t : State) : Prop :=
  (∀ a : Word, p.covers a = false → t.physByte a = s.physByte a) ∧
  (∀ i : Fin 64, p.coversSc i = false → t.sc.get i = s.sc.get i)

/-- All of physical memory and the stack cache is unchanged. -/
def sameMemory (s t : State) : Prop := (∀ a : Word, t.physByte a = s.physByte a) ∧ t.sc = s.sc

/-- The control registers but PC and PSW are unchanged. -/
def sameRegs (s t : State) : Prop :=
  t.config = s.config ∧ t.sp = s.sp ∧ t.msp = s.msp ∧ t.isp = s.isp ∧ t.shad = s.shad ∧ t.vb = s.vb ∧ t.stb = s.stb ∧
    t.fault = s.fault ∧ t.timer1 = s.timer1 ∧ t.timer2 = s.timer2

/-- What a write of one control register leaves (R44): every other register but PC and PSW, with SP also MSP written, with SP or
ISP also SHAD if that one is the current stack pointer, with STB the cached translations and the walks under way, with PSW the space of
the text that follows (R494); the text caches and requests stay. -/
def sameButReg (r : Reg) (s t : State) : Prop :=
  (r ≠ .config → t.config = s.config) ∧ (r ≠ .sp → t.sp = s.sp) ∧ (r ≠ .msp → r ≠ .sp → t.msp = s.msp) ∧
    (r ≠ .isp → t.isp = s.isp) ∧
    (r ≠ .shad → ¬(r = .sp ∧ s.psw.s = true) → ¬(r = .isp ∧ s.psw.s = false) → t.shad = s.shad) ∧
    (r ≠ .vb → t.vb = s.vb) ∧
    (r ≠ .stb → t.stb = s.stb ∧ t.textTlb = s.textTlb ∧ t.dataTlb = s.dataTlb ∧ t.textNpsr = s.textNpsr ∧
      t.dataNpsr = s.dataNpsr ∧ t.prefetches = s.prefetches) ∧
    (r ≠ .fault → t.fault = s.fault) ∧ (r ≠ .psw → t.oldSpace = s.oldSpace) ∧
    (r ≠ .timer1 → t.timer1 = s.timer1) ∧ (r ≠ .timer2 → t.timer2 = s.timer2) ∧
    t.pfb = s.pfb ∧ t.ic = s.ic ∧ t.nmiPending = s.nmiPending ∧ t.t1Req = s.t1Req ∧ t.t2Req = s.t2Req

/-- The state no program sees directly is unchanged: translations, text caches, prefetches under way, pending events, the platform. -/
def sameHidden (s t : State) : Prop :=
  t.textTlb = s.textTlb ∧ t.dataTlb = s.dataTlb ∧ t.textNpsr = s.textNpsr ∧ t.dataNpsr = s.dataNpsr ∧ t.pfb = s.pfb ∧
    t.ic = s.ic ∧ t.ahead = s.ahead ∧ t.prefetches = s.prefetches ∧ t.lastIl = s.lastIl ∧ t.nmiPending = s.nmiPending ∧
    t.t1Req = s.t1Req ∧ t.t2Req = s.t2Req ∧ t.tracePending = s.tracePending ∧ t.lostStores = s.lostStores ∧ t.oldSpace = s.oldSpace ∧
    t.board = s.board ∧ t.env = s.env

end Sys2Proof.Machine
end

