-- ==== Sys2Proof/WellFormed.lean ====
section
/-! DEFINITION. Which instructions have an encoding: each form's operand types and modes are ones its mnemonic takes, an
illegal form's are ones it rejects, and an unimplemented code is one the opcode maps mark so. -/

namespace Sys2Proof

/-- A dyadic form of the mnemonic, before or after no prefix: the one-parcel pair is in Table 1-15; a long form's modes
are taken, an illegal form's rejected. -/
def Dyadic.wf (k : Prefix) (op : DyOp) : Dyadic → Bool
  | .p1 s d => k == .none && op.shortOk s d
  | .p3 sm dm _ _ => op.legal k sm dm
  | .p5 sm dm _ _ => op.legal k sm dm
  | .illegal _ sm dm => !op.legal k sm dm

/-- A monadic form of the mnemonic: an illegal form's mode is one the mnemonic rejects. -/
def Monadic.wf {F M : Type} (op : MonOp) : Monadic F M → Bool
  | .p1 _ => true
  | .p3 _ _ => true
  | .illegal m => !op.takes m

/-- An unimplemented one-parcel or long encoding. -/
def Unimpl.wf : Unimpl → Bool
  | .p1 op _ => op == 0x08 || op == 0x09 || op == 0x0C
  | .niladic sc => sc == 0x007 || (0x00B ≤ sc.toNat && sc.toNat < 0x200)
  | .monadic _ => true
  | .dyadic five op _ _ => (DyOp.ofCode op).isNone && (five || op != 0)

/-- An unimplemented encoding of three or five parcels, the kind a CPU prefix can stand before. -/
def Unimpl.isLong : Unimpl → Bool
  | .monadic _ => true
  | .dyadic _ _ _ _ => true
  | _ => false

/-- What a CPU prefix can stand before; a one-parcel body is any parcel with bit 15 clear. -/
def CpuBody.wf : CpuBody → Bool
  | .dyadic op f => f.wf .cpu op
  | .word op f => f.wf (.word op)
  | .flow op f => f.wf (.flow op)
  | .stack op f => f.wf (.stack op)
  | .flushdce _ => true
  | .unimplemented u => u.isLong && u.wf
  | .oneParcel p => !p.getLsbD 15

/-- The well-formed instructions. -/
def Instr.wf : Instr → Bool
  | .ori f => f.wf .none .ori
  | .andi f => f.wf .none .andi
  | .addi f => f.wf .none .addi
  | .mova f => f.wf .none .mova
  | .urem f => f.wf .none .urem
  | .mov f => f.wf .none .mov
  | .dqm f => f.wf .none .dqm
  | .tadd f => f.wf .none .tadd
  | .tsub f => f.wf .none .tsub
  | .cmpgt f => f.wf .none .cmpgt
  | .cmphi f => f.wf .none .cmphi
  | .cmpeq f => f.wf .none .cmpeq
  | .sub f => f.wf .none .sub
  | .or f => f.wf .none .or
  | .and f => f.wf .none .and
  | .add f => f.wf .none .add
  | .xor f => f.wf .none .xor
  | .rem f => f.wf .none .rem
  | .mul f => f.wf .none .mul
  | .div f => f.wf .none .div
  | .shr f => f.wf .none .shr
  | .ushr f => f.wf .none .ushr
  | .shl f => f.wf .none .shl
  | .udiv f => f.wf .none .udiv
  | .sub3 f => f.wf .none .sub3
  | .or3 f => f.wf .none .or3
  | .and3 f => f.wf .none .and3
  | .add3 f => f.wf .none .add3
  | .xor3 f => f.wf .none .xor3
  | .rem3 f => f.wf .none .rem3
  | .mul3 f => f.wf .none .mul3
  | .div3 f => f.wf .none .div3
  | .shr3 f => f.wf .none .shr3
  | .ushr3 f => f.wf .none .ushr3
  | .shl3 f => f.wf .none .shl3
  | .kcall f => f.wf (.word .kcall)
  | .call f => f.wf (.flow .call)
  | .ret f => f.wf (.stack .ret)
  | .jmp f => f.wf (.flow .jmp)
  | .jmpfn f => f.wf (.flow .jmpfn)
  | .jmpfy f => f.wf (.flow .jmpfy)
  | .jmptn f => f.wf (.flow .jmptn)
  | .jmpty f => f.wf (.flow .jmpty)
  | .catchSc f => f.wf (.word .catchSc)
  | .enter f => f.wf (.word .enter)
  | .ldraa f => f.wf (.flow .ldraa)
  | .flushpte f => f.wf (.word .flushpte)
  | .flushpbe f => f.wf (.word .flushpbe)
  | .flushdce _ => true
  | .popn f => f.wf (.stack .popn)
  | .cpu b => b.wf
  | .kret | .nop | .flushi | .flushp | .cret | .flushd | .testv | .testc | .clre => true
  | .unimplemented u => u.wf
  | .niladicTrap _ => true

end Sys2Proof
end

