-- ==== Sys2Proof/Certificates/Slice0/Obligations.lean ====
section
/-! DEFINITION. The statements about the machine. Each holds for every state and operands its premises admit; the readiness
premises are those of Safety.lean: the operands can be read and the destination written with no walk of the tables, no bus
error and no hazard that meets the instruction's own operands, whatever the last two instructions left for others. -/

open Sys2Proof Sys2Proof.Machine

/-! ## Encoding -/

/-- A few words written out from the encoding tables decode to the instructions they stand for. That the first word's source field
lies above its destination field is the model's choice (G1, log entry 32, PRESUMED). -/
def Obligations.DecodeSamples : Prop :=
  decode [0x5022] = .ok (.add (.p1 (.imm5 1) (.stk5 2)), []) ∧
  decode [0xA0FD, 0x0001, 0x0008] = .ok (.sub (.p3 .imm (.mem .stk .w) 1 8), []) ∧
  decode [0xC6FC, 0x1234, 0x5678, 0x0010, 0x0000] = .ok (.mov (.p5 .imm (.mem .abs .w) 0x12345678 0x00100000), []) ∧
  decode [0x80E3, 0x0000, 0x1000] = .ok (.jmp (.p3 .pcRel 0x1000), []) ∧
  decode [0x08FE] = .ok (.enter (.p1 0xFE), []) ∧
  decode [0x2C00, 0xA3F7, 0x0010, 0x0006] =
    .ok (.cpu (.dyadic .add (.p3 .imm (.mem .stk .uh) 0x10 6)), []) ∧
  decode [0x2E34] = .ok (.niladicTrap 0x34, [])

/-- Decoding the encoding of a well-formed instruction gives it back, whatever text follows. -/
def Obligations.DecodeEncode : Prop :=
  ∀ (i : Instr) (rest : List Parcel), i.wf = true → decode (encode i ++ rest) = .ok (i, rest)

/-- What the decoder reads is well formed, and its encoding is exactly the text it was read from. -/
def Obligations.EncodeDecode : Prop :=
  ∀ (ps rest : List Parcel) (i : Instr), decode ps = .ok (i, rest) → i.wf = true ∧ encode i ++ rest = ps

/-! ## The step -/

/-- With nothing between the state and its next instruction, the step is `exec` of the instruction the parcels at the pc decode
to, followed by what ends every instruction; the parcels are those fetched, or, where the decoded instruction cache holds the
pc, the cached ones, once every parcel's address has been translated. That the cache keeps parcels and that its hit is translated
like any fetch is the model's reading (log entries 44 and 14). -/
def Obligations.StepRunsDecoded : Prop :=
  ∀ (s : State) (rest : List Parcel) (i : Instr), s.runsNext →
    (∀ (u : State) (ts : List Text), s.openBoundary.icHit s.openBoundary.pc = none →
      fetchText s.openBoundary.pc s.openBoundary = .ok ts u → decode (ts.map Text.parcel) = .ok (i, rest) →
        i.wf = true ∧
        step s = mapNext (fun t => t.retire s.openBoundary i none)
          (exec i { u.keepInstr s.openBoundary.pc ts with hazard := {}, event := .none })) ∧
    (∀ (u : State) (e : IcEntry), s.openBoundary.icHit s.openBoundary.pc = some e →
      translateText e.parcels.length s.openBoundary.pc s.openBoundary = .ok () u → decode e.parcels = .ok (i, rest) →
        step s = mapNext (fun t => t.retire s.openBoundary i none) (exec i { u with hazard := {}, event := .none }))

/-- Every step keeps a well-formed state well formed. -/
def Obligations.StepKeepsInv : Prop := ∀ s t : State, s.Inv → step s = .next t → t.Inv

/-- The state after reset is well formed. -/
def Obligations.ResetInv : Prop := State.reset.Inv

/-- No step changes the parameters of the board. -/
def Obligations.StepKeepsBoard : Prop := ∀ s t : State, step s = .next t → t.board = s.board

/-- No instruction that completes at user level, KCALL apart, changes a control register other than the stack pointers and
SHAD, or a bit of PSW other than E, V, C and F. -/
def Obligations.UserKeepsControl : Prop :=
  ∀ (i : Instr) (s t : State), s.psw.x = true → untraceable i = false → exec i s = .next t →
    t.event ≠ .exception → t.event ≠ .reset →
      t.config = s.config ∧ t.vb = s.vb ∧ t.stb = s.stb ∧ t.fault = s.fault ∧ t.timer1 = s.timer1 ∧
      t.timer2 = s.timer2 ∧ t.psw = { s.psw with e := t.psw.e, v := t.psw.v, c := t.psw.c, f := t.psw.f }

/-! ## Reset -/

/-- What the spec says of the state right after the HRESET pin's reset. That no NMI and no timer request is pending are the spec's
own decisions D32 and D20 (log entries 27 and 35). -/
def Obligations.ResetValues : Prop :=
  State.reset.pc = 0 ∧ State.reset.psw.toWord = 0 ∧ State.reset.config.toWord = 0 ∧ State.reset.shad = 0 ∧
  State.reset.textTlb = [] ∧ State.reset.dataTlb = [] ∧ State.reset.textNpsr = none ∧ State.reset.dataNpsr = none ∧
  State.reset.pfb = [] ∧ State.reset.ic = [] ∧ State.reset.nmiPending = false ∧ State.reset.t1Req = false ∧
  State.reset.t2Req = false

/-- Either reset flushes both TLBs, both nonpaged segment registers and the text caches, drops the pending NMI and the timer
requests and zeroes PC, PSW and CONFIG: the step with HRESET asserted, in any state, with SHAD zero, and an instruction whose
computation ends in the internal reset, with the PSW in SHAD. The spec states the flushes (R122, R480), the registers (R480)
and, as its decisions D32 and D20, the requests; that HRESET leaves memory untouched is the model's choice (R51 calls it a matter
of the platform; log entry 35). -/
def Obligations.ResetSequence : Prop :=
  (∀ s : State, s.cur.hreset = true → ∃ t : State, step s = .next t ∧
    t.pc = 0 ∧ t.psw.toWord = 0 ∧ t.config.toWord = 0 ∧ t.shad = 0 ∧ t.textTlb = [] ∧ t.dataTlb = [] ∧
    t.textNpsr = none ∧ t.dataNpsr = none ∧ t.pfb = [] ∧ t.ic = [] ∧ t.nmiPending = false ∧ t.t1Req = false ∧
    t.t2Req = false ∧ t.mem = s.mem) ∧
  ∀ (m : M Unit) (s u : State), m s = .error .reset u → ∃ t : State, run m s = .next t ∧
    t.pc = 0 ∧ t.psw.toWord = 0 ∧ t.config.toWord = 0 ∧ t.shad = quadAlign u.psw.toWord ∧ t.textTlb = [] ∧ t.dataTlb = [] ∧
    t.textNpsr = none ∧ t.dataNpsr = none ∧ t.pfb = [] ∧ t.ic = [] ∧ t.nmiPending = false ∧ t.t1Req = false ∧
    t.t2Req = false

/-- A kernel-level KRET that cannot read either word of its frame, whatever the fault (misaligned, translation, a bus error in
the walk or on the word), resets the processor: SHAD receives the PSW, then PSW, CONFIG and PC become zero, and every other control
register and the stack cache stay as they were; so does memory but for what the reads themselves did to it (marks of a walk, other
agents). The last clauses name faults for which the premise holds: a word at either place that answers with a bus error, and a
segment whose table entry is not valid or cannot be read. -/
def Obligations.FrameFaultResets : Prop :=
  ∀ s : State, s.psw.x = false →
    (∀ (u : State) (e : Exc),
      (memReadW s.level (s.isp + 8) s = .error (.exc e) u ∨
        ∃ (t : Word) (w : State), memReadW s.level (s.isp + 8) s = .ok t w ∧ memReadW s.level (s.isp + 12) w = .error (.exc e) u) →
      ∃ t : State, exec .kret s = .next t ∧ t.shad = quadAlign s.psw.toWord ∧ t.psw.toWord = 0 ∧ t.config.toWord = 0 ∧
        t.pc = 0 ∧ t.sp = s.sp ∧ t.msp = s.msp ∧ t.isp = s.isp ∧ t.vb = s.vb ∧ t.stb = s.stb ∧ t.fault = s.fault ∧
        t.timer1 = s.timer1 ∧ t.timer2 = s.timer2 ∧ t.sc = s.sc ∧ t.mem = u.mem) ∧
    ∀ a : Word, a = s.isp + 8 ∨ (a = s.isp + 12 ∧ (s.load? s.level (s.isp + 8) 4).isSome = true) → aligned a 4 = true →
      s.alone = true →
      ((∃ pa, s.home? s.level .read a = some (.phys pa) ∧ s.board.readAnswer pa = .busError) ∨
        (s.scHit a = false ∧ s.psw.vp = true ∧ s.lookup .read a = none ∧
          (s.board.readAnswer (steAddr s.stb a) = .busError ∨
            (s.board.readAnswer (steAddr s.stb a) = .ram ∧ (s.mem.readWord (steAddr s.stb a)).getLsbD 0 = false)))) →
      ∃ t : State, exec .kret s = .next t ∧ t.event = .reset ∧ t.shad = quadAlign s.psw.toWord ∧ t.pc = 0 ∧ t.mem = s.mem

/-! ## Results in the destination -/

/-- ADD, SUB and MUL: the 32-bit result in the destination, C the unsigned and V the signed overflow of the word result. -/
def Obligations.ArithmeticResult : Prop :=
  WritesDst .add (fun a b => a + b)
    (fun a b => { v := some (decide (a.toInt + b.toInt < -2147483648 ∨ 2147483647 < a.toInt + b.toInt)),
                  c := some (decide (0xFFFFFFFF < a.toNat + b.toNat)) }) (fun _ => True) ∧
  WritesDst .sub (fun a b => b - a)
    (fun a b => { v := some (decide (b.toInt - a.toInt < -2147483648 ∨ 2147483647 < b.toInt - a.toInt)),
                  c := some (decide (b.toNat < a.toNat)) }) (fun _ => True) ∧
  WritesDst .mul (fun a b => a * b)
    (fun a b => { v := some (decide (a.toInt * b.toInt < -2147483648 ∨ 2147483647 < a.toInt * b.toInt)),
                  c := some (decide (0xFFFFFFFF < a.toNat * b.toNat)) }) (fun _ => True)

/-- DIV, REM, UDIV and UREM by a divisor that is not zero: DIV and REM write V and leave C, UDIV and UREM clear C and leave V.
The rounding of the signed quotient toward zero is the spec's own decision D4. -/
def Obligations.DivideResult : Prop :=
  WritesDst .div (fun a b => BitVec.ofInt 32 (b.toInt.tdiv a.toInt))
    (fun a b => { v := some (decide (b = 0x80000000#32 ∧ a = 0xFFFFFFFF#32)) }) (fun a => a ≠ 0) ∧
  WritesDst .rem (fun a b => BitVec.ofInt 32 (b.toInt.tmod a.toInt)) (fun _ _ => { v := some false }) (fun a => a ≠ 0) ∧
  WritesDst .udiv (fun a b => BitVec.ofNat 32 (b.toNat / a.toNat)) (fun _ _ => { c := some false }) (fun a => a ≠ 0) ∧
  WritesDst .urem (fun a b => BitVec.ofNat 32 (b.toNat % a.toNat)) (fun _ _ => { c := some false }) (fun a => a ≠ 0)

/-- AND, OR and XOR: the bitwise result, no flag. -/
def Obligations.LogicalResult : Prop :=
  WritesDst .and (fun a b => a &&& b) (fun _ _ => {}) (fun _ => True) ∧
  WritesDst .or (fun a b => a ||| b) (fun _ _ => {}) (fun _ => True) ∧
  WritesDst .xor (fun a b => a ^^^ b) (fun _ _ => {}) (fun _ => True)

/-- SHL, SHR and USHR by the low five bits of the source, no flag. -/
def Obligations.ShiftResult : Prop :=
  WritesDst .shl (fun a b => BitVec.ofNat 32 (b.toNat * 2 ^ (a.toNat % 32))) (fun _ _ => {}) (fun _ => True) ∧
  WritesDst .shr (fun a b => BitVec.ofInt 32 (b.toInt / 2 ^ (a.toNat % 32))) (fun _ _ => {}) (fun _ => True) ∧
  WritesDst .ushr (fun a b => BitVec.ofNat 32 (b.toNat / 2 ^ (a.toNat % 32))) (fun _ _ => {}) (fun _ => True)

/-- TADD and TSUB: with a tag set only F is set and nothing is stored; with both clear C, V and F are written, and then the result
is stored unless it overflows. -/
def Obligations.TaggedResult : Prop :=
  ∀ (k : Prefix) (f : Sys2Proof.Dyadic) (s : State) (a b : Word) (d : Opd) (t : Target) (sub : Bool),
    DstReady (if sub then .tsub else .tadd) k f s a b d t →
      let r : Word := if sub then b - a else a + b
      let n : Int := if sub then b.toInt - a.toInt else a.toInt + b.toInt
      let c : Bool := if sub then decide (b.toNat < a.toNat) else decide (0xFFFFFFFF < a.toNat + b.toNat)
      let out : Prop := n < -2147483648 ∨ 2147483647 < n
      let flagged (v : Bool) : State :=
        { s with psw := { s.psw with c := c, v := v, f := v }, hazard := s.hazard.noteFlags s.psw }
      exec (dyadicInstr k (if sub then .tsub else .tadd) f) s =
        .next
          (if a.toNat % 4 ≠ 0 ∨ b.toNat % 4 ≠ 0 then
            { s with
              psw := { s.psw with f := true }, hazard := s.hazard.noteFlags s.psw, pc := s.pc + (k.len + f.len) }
          else if out then { flagged true with pc := s.pc + (k.len + f.len) }
          else { (flagged false).put t r with pc := s.pc + (k.len + f.len) })

/-- MOV leaves the source's value in the destination, MOVA the source operand's address, the operand itself not read; no flag
is written. A register destination has the effects of writing that register; that a write of PSW notes the PSW it found for R491
(`noteFlags`) is log entry 16, DEDUCED from R46. A word written to PSW or CONFIG has its fields at the bits of R36 and R31 and is read back with bits 3:0 and 15:0 of it clear. That the reserved bits 31:17 of PSW are read back as they
were written is the model's choice (U5, log entry 23), that the low bits drop what is written its reading of R36 and U4 (log entry
30). -/
def Obligations.MoveResult : Prop :=
  (∀ (k : Prefix) (f : Sys2Proof.Dyadic) (s : State) (a : Word) (d : Opd) (t : Target),
    (MoveReady .mov k f s a d t →
      exec (dyadicInstr k .mov f) s = .next { s.put t a with pc := s.pc + (k.len + f.len) }) ∧
    (f.accepted k .mova = true → s.addr? (srcArg s k f) = some a → s.dst? k f = some d → s.target? d = some t →
      exec (dyadicInstr k .mova f) s = .next { s.put t a with pc := s.pc + (k.len + f.len) })) ∧
  (∀ w : Word, Psw.ofWord w =
      { rsv := w.extractLsb' 17 15, vp := w.getLsbD 16, ul := w.getLsbD 15, ipl := w.extractLsb' 12 3, e := w.getLsbD 11,
        x := w.getLsbD 10, s := w.getLsbD 9, tb := w.getLsbD 8, ti := w.getLsbD 7, v := w.getLsbD 6, c := w.getLsbD 5,
        f := w.getLsbD 4 } ∧
    (Psw.ofWord w).toWord = w &&& 0xFFFFFFF0) ∧
  (∀ p : Psw, Psw.ofWord p.toWord = p) ∧
  (∀ w : Word, Cfg.ofWord w =
      { t2i := w.getLsbD 31, t2k := w.getLsbD 30, t2ev := w.extractLsb' 25 5, t1i := w.getLsbD 24, t1k := w.getLsbD 23,
        t1ev := w.getLsbD 22, pm := w.getLsbD 21, pbe := w.getLsbD 20, ice := w.getLsbD 19, sce := w.getLsbD 18,
        px := w.getLsbD 17, kl := w.getLsbD 16 } ∧
    (Cfg.ofWord w).toWord = w &&& 0xFFFF0000) ∧
  ∀ c : Cfg, Cfg.ofWord c.toWord = c

/-- An instruction with a memory destination leaves every byte of memory and every word of the stack cache outside it, every
control register but PC and PSW, and every flag the spec does not name for it. -/
def Obligations.MemoryDestinationFrame : Prop :=
  ∀ (op : DyOp) (k : Prefix) (f : Sys2Proof.Dyadic) (s t : State) (a b : Word) (d : Opd) (p : Slot),
    op ∈ [.add, .sub, .mul, .div, .rem, .udiv, .urem, .and, .or, .xor, .shl, .shr, .ushr, .tadd, .tsub] →
    DstReady op k f s a b d (.slot p) → (op ∈ [.div, .rem, .udiv, .urem] → a ≠ 0) →
    exec (dyadicInstr k op f) s = .next t →
      sameOutside p s t ∧ sameRegs s t ∧ sameHidden s t ∧ t.mem = s.mem ∧
      t.psw = { s.psw with v := t.psw.v, c := t.psw.c, f := t.psw.f } ∧
      (op ∈ [.udiv, .urem, .and, .or, .xor, .shl, .shr, .ushr] → t.psw.v = s.psw.v) ∧
      (op ∈ [.div, .rem, .and, .or, .xor, .shl, .shr, .ushr] → t.psw.c = s.psw.c) ∧
      (op ∉ [.tadd, .tsub] → t.psw.f = s.psw.f)

/-- MOV and MOVA to memory leave everything else as it was, the whole PSW with it. -/
def Obligations.MoveFrame : Prop :=
  ∀ (k : Prefix) (f : Sys2Proof.Dyadic) (s t : State) (a : Word) (d : Opd) (p : Slot),
    (MoveReady .mov k f s a d (.slot p) ∧ exec (dyadicInstr k .mov f) s = .next t) ∨
      (f.accepted k .mova = true ∧ s.addr? (srcArg s k f) = some a ∧ s.dst? k f = some d ∧
        s.target? d = some (.slot p) ∧ exec (dyadicInstr k .mova f) s = .next t) →
      sameOutside p s t ∧ sameRegs s t ∧ sameHidden s t ∧ t.mem = s.mem ∧ t.psw = s.psw

/-- An instruction with a register destination stores nothing; it changes that register, with SP also MSP, with SP and ISP
SHAD if that one is the current stack pointer, with STB the cached translations and the walks under way, and the flags the spec names for it. A write
of ID changes no register. ADDI, ANDI and ORI do the same, write no flag, and store one word, the accumulator's; the store
buffer is drained first (D13, log entries 13 and 27). That this accumulator is the one of the old stack pointer, also where SP, ISP
or PSW is the destination, is the model's choice (R203 leaves it open; log entry 18); SHAD following SP and ISP is the spec's own
decision D12 (log entry 27). -/
def Obligations.RegisterDestinationFrame : Prop :=
  (∀ (op : DyOp) (f : Sys2Proof.Dyadic) (s t : State) (a b : Word) (d : Opd) (r : Reg),
    op ∈ [.add, .sub, .mul, .div, .rem, .udiv, .urem, .and, .or, .xor, .shl, .shr, .ushr, .tadd, .tsub, .mov] →
    (if op = .mov then MoveReady .mov .cpu f s a d (.reg r) else DstReady op .cpu f s a b d (.reg r)) →
    (op ∈ [.div, .rem, .udiv, .urem] → a ≠ 0) → exec (.cpu (.dyadic op f)) s = .next t →
      (∀ q : Word, t.physByte q = s.physByte q) ∧ (r ≠ .msp → t.sc = s.sc) ∧ sameButReg r s t ∧
      (r ≠ .psw → t.psw = { s.psw with v := t.psw.v, c := t.psw.c, f := t.psw.f } ∧
        (op ∈ [.udiv, .urem, .and, .or, .xor, .shl, .shr, .ushr, .mov] → t.psw.v = s.psw.v) ∧
        (op ∈ [.div, .rem, .and, .or, .xor, .shl, .shr, .ushr, .mov] → t.psw.c = s.psw.c) ∧
        (op ∉ [.tadd, .tsub] → t.psw.f = s.psw.f))) ∧
  ∀ (op : DyOp) (alu : Word → Word → Word) (f : Sys2Proof.Dyadic) (s t : State) (a b : Word) (d : Opd) (r : Reg) (p : Slot),
    (op, alu) ∈ [(DyOp.addi, (· + ·)), (.andi, (· &&& ·)), (.ori, (· ||| ·))] → s.mem.wf = true →
    LockReady op .cpu f s alu a b d (.reg r) p → exec (.cpu (.dyadic op f)) s = .next t →
      (∀ q : Word, p.covers q = false → t.physByte q = s.drainAll.physByte q) ∧
      (r ≠ .msp → ∀ i : Fin 64, p.coversSc i = false → t.sc.get i = s.sc.get i) ∧ sameButReg r s t ∧
      (r ≠ .psw → t.psw = s.psw)

/-! ## Results in the accumulator -/

/-- ADD3, SUB3, MUL3, DIV3 and REM3: the result in the accumulator, the flags those of the two-operand instruction. The rounding
of the signed quotient toward zero is the spec's own decision D4 (log entry 27). -/
def Obligations.AccumulatorArithmetic : Prop :=
  WritesAcc .add3 (fun a b => a + b)
    (fun a b => { v := some (decide (a.toInt + b.toInt < -2147483648 ∨ 2147483647 < a.toInt + b.toInt)),
                  c := some (decide (0xFFFFFFFF < a.toNat + b.toNat)) }) (fun _ => True) ∧
  WritesAcc .sub3 (fun a b => b - a)
    (fun a b => { v := some (decide (b.toInt - a.toInt < -2147483648 ∨ 2147483647 < b.toInt - a.toInt)),
                  c := some (decide (b.toNat < a.toNat)) }) (fun _ => True) ∧
  WritesAcc .mul3 (fun a b => a * b)
    (fun a b => { v := some (decide (a.toInt * b.toInt < -2147483648 ∨ 2147483647 < a.toInt * b.toInt)),
                  c := some (decide (0xFFFFFFFF < a.toNat * b.toNat)) }) (fun _ => True) ∧
  WritesAcc .div3 (fun a b => BitVec.ofInt 32 (b.toInt.tdiv a.toInt))
    (fun a b => { v := some (decide (b = 0x80000000#32 ∧ a = 0xFFFFFFFF#32)) }) (fun a => a ≠ 0) ∧
  WritesAcc .rem3 (fun a b => BitVec.ofInt 32 (b.toInt.tmod a.toInt)) (fun _ _ => { v := some false }) (fun a => a ≠ 0)

/-- AND3, OR3, XOR3, SHL3, SHR3 and USHR3: the result in the accumulator, no flag. -/
def Obligations.AccumulatorLogicShift : Prop :=
  WritesAcc .and3 (fun a b => a &&& b) (fun _ _ => {}) (fun _ => True) ∧
  WritesAcc .or3 (fun a b => a ||| b) (fun _ _ => {}) (fun _ => True) ∧
  WritesAcc .xor3 (fun a b => a ^^^ b) (fun _ _ => {}) (fun _ => True) ∧
  WritesAcc .shl3 (fun a b => BitVec.ofNat 32 (b.toNat * 2 ^ (a.toNat % 32))) (fun _ _ => {}) (fun _ => True) ∧
  WritesAcc .shr3 (fun a b => BitVec.ofInt 32 (b.toInt / 2 ^ (a.toNat % 32))) (fun _ _ => {}) (fun _ => True) ∧
  WritesAcc .ushr3 (fun a b => BitVec.ofNat 32 (b.toNat / 2 ^ (a.toNat % 32))) (fun _ _ => {}) (fun _ => True)

/-- LDRAA: a jump's target in the accumulator as it is computed, no flag. -/
def Obligations.LoadRelativeAddress : Prop :=
  ∀ (k : Prefix) (i : Instr) (f : Monadic Empty FlowMode) (s : State) (t : Word) (p : Slot),
    prefixed k .ldraa (.flow .ldraa) f = some i → s.flow? Empty.elim f = some t → s.acc? = some p →
      exec i s = .next { s.commit p t with pc := s.pc + (k.len + 6) }

/-- An instruction that writes the accumulator leaves every byte outside it, every control register but PC and PSW, and every
flag the spec does not name for it. -/
def Obligations.AccumulatorFrame : Prop :=
  ∀ (op : DyOp) (k : Prefix) (f : Sys2Proof.Dyadic) (s t : State) (a b : Word) (d : Opd) (p : Slot),
    op ∈ [.add3, .sub3, .mul3, .div3, .rem3, .and3, .or3, .xor3, .shl3, .shr3, .ushr3] →
    AccReady op k f s a b d p → (op ∈ [.div3, .rem3] → a ≠ 0) → exec (dyadicInstr k op f) s = .next t →
      sameOutside p s t ∧ sameRegs s t ∧ sameHidden s t ∧ t.mem = s.mem ∧
      t.psw = { s.psw with v := t.psw.v, c := t.psw.c } ∧
      (op ∈ [.and3, .or3, .xor3, .shl3, .shr3, .ushr3] → t.psw.v = s.psw.v) ∧
      (op ∈ [.div3, .rem3, .and3, .or3, .xor3, .shl3, .shr3, .ushr3] → t.psw.c = s.psw.c)

/-! ## Compares, flag tests, jumps -/

/-- CMPEQ, CMPGT and CMPHI: F alone is written, with source first in the relation; nothing is stored. -/
def Obligations.CompareResult : Prop :=
  SetsF .cmpeq (fun a b => a = b) ∧ SetsF .cmpgt (fun a b => b.toInt < a.toInt) ∧ SetsF .cmphi (fun a b => b.toNat < a.toNat)

/-- NOP changes nothing but the pc; CLRE clears E; TESTC and TESTV move C and V to F and clear them. Each is one parcel. The last
three also note the PSW they found for the hazard of R491; that all writers of these bits do is the model's reading (log entry 16). -/
def Obligations.FlagInstructions : Prop :=
  encode .nop = [0x2C02] ∧ encode .clre = [0x2C0A] ∧ encode .testc = [0x2C09] ∧ encode .testv = [0x2C08] ∧
  ∀ s : State,
    exec .nop s = .next { s with pc := s.pc + 2 } ∧
    exec .clre s = .next { s with
      psw := { s.psw with e := false }, hazard := s.hazard.noteFlags s.psw, pc := s.pc + 2 } ∧
    exec .testc s = .next { s with
      psw := { s.psw with f := s.psw.c, c := false }, hazard := s.hazard.noteFlags s.psw, pc := s.pc + 2 } ∧
    exec .testv s = .next { s with
      psw := { s.psw with f := s.psw.v, v := false }, hazard := s.hazard.noteFlags s.psw, pc := s.pc + 2 }

/-- JMP goes to its target; the conditional jumps go there when F has the value they name and otherwise to the next
instruction; bit 0 of the target is dropped. Nothing else changes. -/
def Obligations.JumpResult : Prop :=
  ∀ (k : Prefix) (i : Instr) (f : Monadic (BitVec 10) FlowMode) (s : State) (t : Word), s.flow? s.near f = some t →
    (prefixed k .jmp (.flow .jmp) f = some i → exec i s = .next { s with pc := t &&& 0xFFFFFFFE }) ∧
    (indirectFlow f = false →
      (prefixed k .jmpfn (.flow .jmpfn) f = some i ∨ prefixed k .jmpfy (.flow .jmpfy) f = some i →
        exec i s = .next { s with pc := if s.psw.f = false then t &&& 0xFFFFFFFE else s.pc + (k.len + f.len) }) ∧
      (prefixed k .jmptn (.flow .jmptn) f = some i ∨ prefixed k .jmpty (.flow .jmpty) f = some i →
        exec i s = .next { s with pc := if s.psw.f = true then t &&& 0xFFFFFFFE else s.pc + (k.len + f.len) }))

/-! ## The calling sequence -/

/-- CALL stores the return address at the current stack pointer and goes to its target, read after the store; where the
indirection word is the word just stored, the target is its old or its new content (U14). -/
def Obligations.CallResult : Prop :=
  ∀ (k : Prefix) (i : Instr) (f : Monadic (BitVec 10) FlowMode) (s : State) (p : Slot) (t : Word),
    prefixed k .call (.flow .call) f = some i → s.slot? s.level s.csp 4 = some p →
    (s.commit p (s.pc + (k.len + f.len))).flow? s.near f = some t →
      ∃ (u : Word) (n : Nat), (u = t ∨ (indirection s f = some s.csp ∧ u = s.peek p.home)) ∧
        (indirection s f ≠ some s.csp → n = s.draw) ∧
        exec i s = .next { s.commit p (s.pc + (k.len + f.len)) with
          pc := u &&& 0xFFFFFFFE, draw := n, hazard := { s.hazard with shad := some s.shad } }

/-- RETURN goes to the word at the current stack pointer plus its offset; RETURN and POPN move the pointer, and SHAD, up by the
offset without its low four bits, and an MSP passed by SP follows it. POPN reads no memory. -/
def Obligations.ReturnPopResult : Prop :=
  ∀ (k : Prefix) (i : Instr) (f : Monadic (BitVec 8) Unit) (s : State) (o : Word),
    (f = .p3 () o ∨ ∃ g, f = .p1 g ∧ o = BitVec.ofNat 32 (16 * g.toNat)) → 0 ≤ o.toInt → s.scOk = true →
      let popped (pc : Word) : State :=
        if s.psw.s then
          { s with
            sp := s.sp + (o &&& 0xFFFFFFF0), shad := s.sp + (o &&& 0xFFFFFFF0)
            msp := if s.msp.toNat < (s.sp + (o &&& 0xFFFFFFF0)).toNat then s.sp + (o &&& 0xFFFFFFF0) else s.msp
            pc := pc, hazard := { s.hazard with shad := some s.shad } }
        else
          { s with
            isp := s.isp + (o &&& 0xFFFFFFF0), shad := s.isp + (o &&& 0xFFFFFFF0)
            pc := pc, hazard := { s.hazard with shad := some s.shad } }
      (prefixed k .ret (.stack .ret) f = some i → ∀ t : Word, s.load? s.level (s.csp + o) 4 = some t →
        exec i s = .next (popped (t &&& 0xFFFFFFFE))) ∧
      (prefixed k .popn (.stack .popn) f = some i → exec i s = .next (popped (s.pc + (k.len + f.len))))

/-- ENTER on the interrupt stack sets ISP and SHAD to the new pointer without its low four bits, and E; it moves no data and
leaves SP and MSP alone. ENTER writes E and so notes the PSW it found for R491 (`noteFlags`). -/
def Obligations.EnterInterruptStack : Prop :=
  ∀ (k : Prefix) (i : Instr) (f : Monadic (BitVec 8) WordMode) (s : State) (o : Bool) (v : Word),
    prefixed k .enter (.word .enter) f = some i → s.psw.s = false → s.scOk = true → enterPointer s f o v →
    s.storeOk s.level (v &&& 0xFFFFFFF0) = true →
      exec i s = .next { s with
        isp := v &&& 0xFFFFFFF0, shad := v &&& 0xFFFFFFF0, psw := { s.psw with e := true }
        hazard := { s.hazard.noteFlags s.psw with shad := some s.shad }, pc := s.pc + (k.len + f.len) }

/-- ENTER in a mode other than stack offset, on the user stack, stores every quad-word of the stack cache, highest first, and
sets SP, MSP and SHAD to the new pointer; nothing is held in the stack cache then. `pa` gives the translated address of each
quad-word. ENTER writes E and so notes the PSW it found for R491 (`noteFlags`). -/
def Obligations.EnterReplace : Prop :=
  ∀ (k : Prefix) (i : Instr) (f : Monadic (BitVec 8) WordMode) (s : State) (v : Word) (n : Nat) (pa : Nat → Word),
    prefixed k .enter (.word .enter) f = some i → s.psw.s = true → s.scOk = true → s.shad = s.sp →
    enterPointer s f false v → s.msp = s.sp + BitVec.ofNat 32 (16 * n) → n ≤ 16 →
    (∀ j < n, s.quadOut? s.level (s.msp - BitVec.ofNat 32 (16 * (j + 1))) = some (pa j)) →
    s.storeOk s.level (v &&& 0xFFFFFFF0) = true →
      exec i s = .next { s with
        storeBuf := s.storeBuf ++
          (List.range n).map fun j => s.quadStores (s.msp - BitVec.ofNat 32 (16 * (j + 1))) (pa j)
        sp := v &&& 0xFFFFFFF0, msp := v &&& 0xFFFFFFF0, shad := v &&& 0xFFFFFFF0, psw := { s.psw with e := true }
        hazard := { s.hazard.noteFlags s.psw with shad := some s.shad }, pc := s.pc + (k.len + f.len) }

/-- ENTER in stack offset mode on the user stack stores quad-words from the top of the stack cache while any is held and more
than 256 bytes would lie between the new pointer and MSP, then sets SP and SHAD to the new pointer, MSP to what is still held
(at most 256 bytes above it), and E. The words still held keep their values; words of the new frame have none. That the new MSP is
checked at the highest quad-word still held, `m - 16`, is the spec's own decision D26 (log entry 27). ENTER writes E and so
notes the PSW it found for R491 (`noteFlags`). -/
def Obligations.EnterOffset : Prop :=
  ∀ (k : Prefix) (i : Instr) (f : Monadic (BitVec 8) WordMode) (s : State) (p v m : Word) (n : Nat) (pa : Nat → Word),
    prefixed k .enter (.word .enter) f = some i → s.psw.s = true → s.scOk = true → s.shad = s.sp → s.sp.toNat % 16 = 0 →
    s.msp.toNat % 16 = 0 → enterPointer s f true p → v = p &&& 0xFFFFFFF0 → v.toNat ≤ s.sp.toNat → v.toNat + 256 < 2 ^ 32 →
    turns (fun j => s.msp - BitVec.ofNat 32 (16 * j) ≠ s.sp ∧ v.toNat + 256 < (s.msp - BitVec.ofNat 32 (16 * j)).toNat) n →
    m = (if v.toNat + 256 < (s.msp - BitVec.ofNat 32 (16 * n)).toNat then v + 256
      else s.msp - BitVec.ofNat 32 (16 * n)) →
    (∀ j < n, s.quadOut? s.level (s.msp - BitVec.ofNat 32 (16 * (j + 1))) = some (pa j)) →
    s.storeOk s.level v = true → (m ≠ s.msp → s.storeOk s.level (m - 16) = true) →
      ∃ (sc : Vector Word 64) (d : Nat),
        exec i s = .next { s with
          storeBuf := s.storeBuf ++
            (List.range n).map fun j => s.quadStores (s.msp - BitVec.ofNat 32 (16 * (j + 1))) (pa j)
          sc := sc, draw := d, sp := v, msp := m, shad := v, psw := { s.psw with e := true }
          hazard := { s.hazard.noteFlags s.psw with shad := some s.shad }, pc := s.pc + (k.len + f.len) } ∧
        ∀ a : Word, s.sp ≤ a → a < m → sc.get (scIdx a) = s.scWord a

/-- CATCH does nothing on the interrupt stack; on the user stack it brings in quad-words at MSP while MSP is below its target
and fewer than 256 bytes are held, and raises MSP by 16 for each. The words held already keep their values. `pa` gives the
translated address of each quad-word. That the store check is made at each quad-word brought in (`quadIn?`) is the spec's own decision
D26 (log entry 27). -/
def Obligations.CatchResult : Prop :=
  ∀ (k : Prefix) (i : Instr) (f : Monadic (BitVec 8) WordMode) (s : State) (v : Word) (n : Nat) (pa : Nat → Word),
    prefixed k .catchSc (.word .catchSc) f = some i → isIllegal f = false → s.scOk = true → s.sp.toNat % 16 = 0 →
    s.msp.toNat % 16 = 0 → s.sp.toNat + 256 < 2 ^ 32 →
    (s.psw.s = true → (∃ g, f = .p1 g ∧ v = s.sp + BitVec.ofNat 32 (16 * g.toNat)) ∨ (∃ x, f = .p3 .stk x ∧ v = s.sp + x) ∨
      ∃ m x, f = .p3 m x ∧ s.replace? s.sp m x = some v) →
    (if s.psw.s then
        turns (fun j => s.msp.toNat + 16 * j < v.toNat ∧ s.msp.toNat + 16 * j - s.sp.toNat < 256) n
      else n = 0) →
    (∀ j < n, s.quadIn? s.level (s.msp + BitVec.ofNat 32 (16 * j)) = some (pa j)) →
      ∃ sc : Vector Word 64,
        exec i s = .next { s with
          sc := sc, msp := s.msp + BitVec.ofNat 32 (16 * n), pc := s.pc + (k.len + f.len) } ∧
        (∀ a : Word, s.sp ≤ a → a < s.msp → sc.get (scIdx a) = s.scWord a) ∧
        ∀ j < n, ∀ w < 4, sc.get (scIdx (s.msp + BitVec.ofNat 32 (16 * j + 4 * w))) =
          s.physWord (pa j + BitVec.ofNat 32 (4 * w))

/-! ## Kernel entry and return -/

/-- KCALL drains the store buffer, pushes its operand, the address of the next instruction and the PSW on the interrupt stack,
and goes to the handler at VB with the low half of the PSW clear. The drain is the spec's own decision D13 (log entries 13
and 27). Two clauses of the next state are the model's: that no text of an old space follows (`entered` ends the window of R494 (b),
which names KRET and CRET alone: log entry 24, DESIGN CHOICE), and that KCALL, as a writer of F, C, V and E, notes the PSW it found for
R491 (`noteFlags`: log entry 16, DEDUCED from R46). -/
def Obligations.KernelCallResult : Prop :=
  ∀ (k : Prefix) (i : Instr) (f : Monadic (BitVec 10) WordMode) (s u : State) (v va : Word) (h1 h2 h3 : Home),
    prefixed k .kcall (.word .kcall) f = some i → s.alone = true →
    ((∃ g, f = .p1 g ∧ v = BitVec.ofNat 32 (4 * g.toNat)) ∨ ∃ m x, f = .p3 m x ∧ s.word32? m x = some v) →
    u = s.drainAll → u.frameHome? u.eventLevel (u.isp - 12) = some h1 → u.frameHome? u.eventLevel (u.isp - 8) = some h2 →
    u.frameHome? u.eventLevel (u.isp - 4) = some h3 → u.vector? u.eventLevel u.vb = some va →
      exec i s = .next ((u.entered [(h1, v), (h2, s.pc + (k.len + f.len)), (h3, s.psw.toWord)] va).noteFlags s.psw)

/-- KRET at kernel level takes PC and PSW from the interrupt stack, raises ISP by 16, reloads SHAD from the stack pointer the
restored PSW selects, leaves no text of an old space to follow (R494), and drains the store buffer (the spec's own decision D13, log
entries 13 and 27). That KRET, as a writer of F, C, V and E, notes the PSW it found for R491 (`noteFlags`) is log entry 16, DEDUCED
from R46. -/
def Obligations.KernelReturnResult : Prop :=
  ∀ (s : State) (t w : Word), s.psw.x = false → s.alone = true → s.load? s.level (s.isp + 8) 4 = some t →
    s.load? s.level (s.isp + 12) 4 = some w →
      exec .kret s = .next (State.drainAll { s with
        isp := s.isp + 16, psw := Psw.ofWord w, pc := t &&& 0xFFFFFFFE, hazard := s.hazard.noteFlags s.psw, oldSpace := none
        shad := if w.getLsbD 9 then s.sp else s.isp + 16 })

/-- CRET at kernel level takes SP, MSP, PC and PSW from the interrupt stack, brings the stack cache in where the restored PSW
selects SP, and ends as KRET does. `pa` gives the translated address of each quad-word. The drain of the store buffer, the
store check at each quad-word brought in (`quadIn?`) and the fill under the restored PSW are the spec's own decisions D13, D26 and
D27 (log entries 13 and 27). That CRET, as a writer of F, C, V and E, notes the PSW it found for R491 (`noteFlags`) is log entry 16,
DEDUCED from R46. -/
def Obligations.ContextReturnResult : Prop :=
  ∀ (s : State) (p0 m0 p m t w : Word) (n : Nat) (pa : Nat → Word), s.psw.x = false → s.scOk = true →
    s.alone = true → s.load? s.level s.isp 4 = some p0 → s.load? s.level (s.isp + 4) 4 = some m0 → s.load? s.level (s.isp + 8) 4 = some t →
    s.load? s.level (s.isp + 12) 4 = some w → p = p0 &&& 0xFFFFFFF0 → m = m0 &&& 0xFFFFFFF0 → m = p + BitVec.ofNat 32 (16 * n) → n ≤ 16 →
    p.toNat + 256 < 2 ^ 32 →
    (w.getLsbD 9 = true →
      ∀ j < n, s.quadIn? ⟨w.getLsbD 16, w.getLsbD 10⟩ (p + BitVec.ofNat 32 (16 * j)) = some (pa j)) →
      ∃ (sc : Vector Word 64) (d : Nat),
        exec .cret s = .next (State.drainAll { s with
          sp := p, msp := m, isp := s.isp + 16, psw := Psw.ofWord w, pc := t &&& 0xFFFFFFFE, sc := sc, draw := d
          hazard := s.hazard.noteFlags s.psw, oldSpace := none
          shad := if w.getLsbD 9 then p else s.isp + 16 }) ∧
        (w.getLsbD 9 = true → d = s.draw ∧ ∀ j < n, ∀ x < 4,
          sc.get (scIdx (p + BitVec.ofNat 32 (16 * j + 4 * x))) = s.physWord (pa j + BitVec.ofNat 32 (4 * x)))

/-! ## Interlocked, block and cache instructions -/

/-- ADDI, ANDI and ORI: after the store buffer is drained the destination is changed, then its old value goes to the
accumulator; both have reached the bus at the end; no flag is written. The drain before is the spec's own decision D13 (log
entries 13 and 27). That the accumulator is the one of the old stack pointer, also where SP, ISP or PSW is the destination, is the
model's choice (R203 leaves it open; log entry 18). -/
def Obligations.InterlockedResult : Prop :=
  Interlocked .addi (fun a b => a + b) ∧ Interlocked .andi (fun a b => a &&& b) ∧ Interlocked .ori (fun a b => a ||| b)

/-- ADDI, ANDI and ORI on memory leave every byte outside the destination and the accumulator as the drained store buffer left
it (D13, log entries 13 and 27), and every control register but the PC; no store of theirs is left in the buffer, and none is
lost where no bus error answers. -/
def Obligations.InterlockedFrame : Prop :=
  ∀ (op : DyOp) (alu : Word → Word → Word) (k : Prefix) (f : Sys2Proof.Dyadic) (s t : State) (a b : Word) (d : Opd) (p q : Slot),
    (op, alu) ∈ [(DyOp.addi, (· + ·)), (.andi, (· &&& ·)), (.ori, (· ||| ·))] →
    s.mem.wf = true → LockReady op k f s alu a b d (.slot q) p → exec (dyadicInstr k op f) s = .next t →
      (∀ x : Word, q.covers x = false → p.covers x = false → t.physByte x = s.drainAll.physByte x) ∧
      (∀ x : Fin 64, q.coversSc x = false → p.coversSc x = false → t.sc.get x = s.sc.get x) ∧
      sameRegs s t ∧ sameHidden { s with lostStores := t.lostStores } t ∧ t.psw = s.psw ∧ t.storeBuf = [] ∧
      ((∀ x : Word, q.home = .phys x ∨ p.home = .phys x → s.board.writeAnswer x ≠ .busError) → t.lostStores = 0)

/-- DQM moves its words in ascending order, in memory as one transfer; no flag is written. That all are read before any is stored
is the spec's own decision D5 (log entry 27). -/
def Obligations.BlockMoveResult : Prop :=
  ∀ (k : Prefix) (f : Sys2Proof.Dyadic) (s : State) (n : Nat) (ws : List Word) (d : Opd) (h : Home),
    f.accepted k .dqm = true → dqmWords (dmodeOf f) = some n → (s.opd? (srcArg s k f)).bind (s.block? n) = some ws →
    s.dst? k f = some d → s.blockHome? n d = some h →
      exec (dyadicInstr k .dqm f) s = .next { s.writeBlock h n ws with pc := s.pc + (k.len + f.len) }

/-- After a DQM to memory each word of the destination reads as the word moved there, every other byte, the stack cache, every
control register but the PC and the whole PSW are as they were. -/
def Obligations.BlockMoveFrame : Prop :=
  ∀ (k : Prefix) (f : Sys2Proof.Dyadic) (s t : State) (n : Nat) (ws : List Word) (d : Opd) (pa : Word),
    f.accepted k .dqm = true → dqmWords (dmodeOf f) = some n → (s.opd? (srcArg s k f)).bind (s.block? n) = some ws →
    s.dst? k f = some d → s.blockHome? n d = some (.phys pa) → wordAddr pa = pa → exec (dyadicInstr k .dqm f) s = .next t →
      (∀ i < n, ∃ w : Word, ws[i]? = some w ∧ t.physWord (pa + BitVec.ofNat 32 (4 * i)) = w) ∧
      (∀ a : Word, (∀ i < n, wordAddr a ≠ pa + BitVec.ofNat 32 (4 * i)) → t.physByte a = s.physByte a) ∧
      t.mem = s.mem ∧ t.sc = s.sc ∧ sameRegs s t ∧ sameHidden s t ∧ t.psw = s.psw

/-- FLUSHI empties the decoded instruction cache and FLUSHP the prefetch buffer; FLUSHPBE drops the lines that hold the quad-word
of its address, found by virtual address, by the physical address it translates to, or taken as a physical address (the model's
choice, log entry 21), and no other; the buffer's flushes leave the instruction cache alone. Text in the prefetch
registers, or read by half on its way there, goes when a flush of each kind has found it older than memory. After a FLUSHI and a
FLUSHP, or a FLUSHPBE of its quad-word, one right after the other in either order, the chip holds no old text of a quad-word (D16).
That text found old is marked is the model's way to R132 (log entry 15). -/
def Obligations.TextFlush : Prop :=
  (∀ s : State,
    exec .flushi s =
      .next { s with
        ic := [], pfb := s.pfb.map fun l => { l with aged := l.aged || s.oldLine l }
        ahead := (s.ahead.map fun e => { e with line := { e.line with aged := e.line.aged || s.oldLine e.line } }).filter
          fun e => !(e.flushed && e.line.aged)
        prefetches := (s.prefetches.map fun p => match p with
          | .upper r h => .upper r { h with aged := h.aged || s.oldHalf r h }
          | p => p).filter fun p => !p.stale
        pc := s.pc + 2 } ∧
    exec .flushp s =
      .next { s with
        pfb := []
        ahead := (s.ahead.map fun e => { e with flushed := e.flushed || s.oldLine e.line }).filter
          fun e => !(e.flushed && e.line.aged)
        prefetches := (s.prefetches.map fun p => match p with
          | .upper r h => .upper r { h with flushed := h.flushed || s.oldHalf r h }
          | p => p).filter fun p => !p.stale
        pc := s.pc + 2 } ∧
    ∀ (k : Prefix) (i : Instr) (m : WordMode) (x a : Word),
      prefixed k .flushpbe (.word .flushpbe) (.p3 m x) = some i → s.addr? (wordArg s m x) = some a →
        ∃ gone : PfbLine → Bool,
          exec i s =
            .next { s with
              pfb := s.pfb.filter fun l => !gone l
              ahead := (s.ahead.map fun e => { e with flushed := e.flushed || (gone e.line && s.oldLine e.line) }).filter
                fun e => !(e.flushed && e.line.aged)
              prefetches := (s.prefetches.map fun p => match p with
                | .upper r h => .upper r { h with flushed := h.flushed || (gone (r.line h 0 0) && s.oldHalf r h) }
                | p => p).filter fun p => !p.stale
              pc := s.pc + (k.len + 6) } ∧
          (∀ l : PfbLine, gone l = false → l.pa ≠ a &&& 0xFFFFFFF0 ∧ l.va &&& 0xFFFFFFF0 ≠ a &&& 0xFFFFFFF0 ∧
            ∀ (kind : Kind) (pa : Word), kind = .text ∨ kind = .read → s.trans? ⟨s.psw.vp, false⟩ kind a = some pa →
              l.pa ≠ pa &&& 0xFFFFFFF0) ∧
          (∀ l : PfbLine, gone l = true → l.pa = a &&& 0xFFFFFFF0 ∨ l.va &&& 0xFFFFFFF0 = a &&& 0xFFFFFFF0 ∨
            ∃ (kind : Kind) (x : Xlat) (t : State), (kind = .text ∨ kind = .read) ∧
              translateAddr ⟨s.psw.vp, false⟩ kind a (s.setBetween []) = .ok x t ∧ l.pa = x.pa &&& 0xFFFFFFF0) ∧
          (s.psw.vp = false → ∀ l : PfbLine,
            gone l = (l.pa == a &&& 0xFFFFFFF0 || l.va &&& 0xFFFFFFF0 == a &&& 0xFFFFFFF0))) ∧
  ∀ (i : Instr) (s t u : State) (q : Word),
    (exec .flushi s = .next t ∧ flushesQuad i t q ∧ exec i t = .next u) ∨
      (flushesQuad i s q ∧ exec i s = .next t ∧ exec .flushi t = .next u) →
      u.ic = [] ∧ (∀ l ∈ u.pfb, l.pa ≠ q) ∧ (∀ e ∈ u.ahead, e.line.pa = q → u.oldLine e.line = false) ∧
        ∀ (r : TextRead) (h : LowerHalf), .upper r h ∈ u.prefetches → quadAlign r.pa = q → u.oldHalf r h = false

/-- FLUSHPTE drops the page of its address from both TLBs and invalidates both nonpaged segment registers, at either level, and
changes nothing else but the pc: the tables in memory stay. Then no access to that page, of text or data, finds a cached translation,
so each is walked; and no prefetch is left in the middle of a walk of that page, which would load one afterwards. -/
def Obligations.TranslationFlush : Prop :=
  ∀ (k : Prefix) (i : Instr) (m : WordMode) (x a : Word) (s : State),
    prefixed k .flushpte (.word .flushpte) (.p3 m x) = some i → s.addr? (wordArg s m x) = some a →
      ∃ t : State, exec i s = .next t ∧
        t = { s with
          textTlb := s.textTlb.filter fun e => e.vpn != a.extractLsb' 12 20
          dataTlb := s.dataTlb.filter fun e => e.vpn != a.extractLsb' 12 20
          textNpsr := none, dataNpsr := none, pc := s.pc + (k.len + 6)
          prefetches := s.prefetches.filter fun p => !p.walksPage (a.extractLsb' 12 20) } ∧
        (∀ va ste : Word, .page va ste ∈ t.prefetches → va.extractLsb' 12 20 ≠ a.extractLsb' 12 20) ∧
        ∀ (kind : Kind) (va : Word), va.extractLsb' 12 20 = a.extractLsb' 12 20 → t.lookup kind va = none

/-- FLUSHD, FLUSHDCE with a word mode and the unimplemented codes store their own address at the current stack pointer and go to
the handler at VB + 12, the trapped niladics to the one at VB + 8; nothing else changes. A bus error on that store is the bus fault
exception with nothing changed (the spec's own decision D31, log entry 37). -/
def Obligations.SoftTrapResult : Prop :=
  ∀ (i : Instr) (s : State) (p : Slot) (n va : Word),
    ((n = 12 ∧ (i = .flushd ∨ (∃ m, m.isWord = true ∧ (i = .flushdce m ∨ i = .cpu (.flushdce m))) ∨
        (∃ c l, i = .unimplemented (.p1 c l)) ∨ (∃ c, i = .unimplemented (.niladic c)) ∨
        (∃ m, m.isWord = true ∧ (i = .unimplemented (.monadic m) ∨ i = .cpu (.unimplemented (.monadic m)))) ∨
        (∃ g c x y, i = .unimplemented (.dyadic g c x y)) ∨
        (∃ g c x y, cpuUnimplLegal x y = true ∧ i = .cpu (.unimplemented (.dyadic g c x y))))) ∨
      (n = 8 ∧ ∃ c, i = .niladicTrap c)) →
    s.slot? s.level s.csp 4 = some p →
      ((∀ x : Word, p.home = .phys x → s.board.writeAnswer x ≠ .busError) → s.vector? s.level (s.vb + n) = some va →
        exec i s =
          .next { s.commit p s.pc with pc := (s.commit p s.pc).physWord va &&& 0xFFFFFFFE, event := .softTrap }) ∧
      ((∃ x : Word, p.home = .phys x ∧ s.board.writeAnswer x = .busError) → exec i s = takes .busFault s)

/-- CALL, FLUSHD, FLUSHDCE, the unimplemented codes and the trapped niladics store one word at the current stack pointer and
leave every byte outside it, every control register but the PC and the whole PSW. That FLUSHD, FLUSHDCE, the unimplemented codes
and the trapped niladics drain no buffered store, so that memory itself is as it was, is the model's choice (log entry 37): R411
counts their sequences among the event sequences, R430 says they are none. -/
def Obligations.ReturnSlotFrame : Prop :=
  ∀ (i : Instr) (s t : State) (p : Slot), s.slot? s.level s.csp 4 = some p → s.event = .none →
    ((∃ f, i = .call f) ∨ i = .flushd ∨ (∃ m, i = .flushdce m) ∨ (∃ u, i = .unimplemented u) ∨ ∃ n, i = .niladicTrap n) →
    s.psw.vp = false → s.alone = true → (∀ a : Word, s.board.readAnswer a = .ram) → exec i s = .next t → t.event ≠ .exception →
      t.event ≠ .reset → sameOutside p s t ∧ sameRegs s t ∧ sameHidden s t ∧ t.psw = s.psw ∧ t.mem = s.mem

/-! ## Accesses -/

/-- A value stored and loaded again at the same home comes back truncated to its size. The load takes and the store replaces the
lanes R83's table gives for the size, the low address bits and the byte order of the level, and the store keeps the other bits of the
word. That the word is what a switch of the byte order leaves unchanged is the spec's own decision D1. -/
def Obligations.StoreThenLoad : Prop :=
  ∀ (s : State) (lv : Level) (a v w : Word) (n : Nat) (p : Slot), n = 1 ∨ n = 2 ∨ n = 4 →
    s.slot? lv a n = some p → s.home? lv .read a = some p.home → s.word? p.home = some w →
      (s.commit p v).load? lv a n = some (BitVec.ofNat 32 (v.toNat % 2 ^ (8 * n))) ∧
      ∀ low : Nat, (if lv.user then s.psw.ul else s.config.kl, n, a.toNat % 4, low) ∈ laneTable →
        s.load? lv a n = some (BitVec.ofNat 32 (w.toNat / 2 ^ low % 2 ^ (8 * n))) ∧
        ∃ x : Word, (s.commit p v).word? p.home = some x ∧
          ∀ j < 32, x.getLsbD j = if low ≤ j ∧ j < low + 8 * n then v.getLsbD (j - low) else w.getLsbD j

/-- Stores that leave the store buffer for memory change no word the processor reads, and once all have left, memory itself
holds what the processor reads. -/
def Obligations.DrainKeepsReads : Prop :=
  ∀ (s : State) (n : Nat), s.Inv → (∀ b ∈ s.storeBuf, ∀ t ∈ b, s.board.writeAnswer t.pa = .ram) →
    (∀ a : Word, (s.drainTo n).physByte a = s.physByte a) ∧ (s.drainTo n).storeBuf.length ≤ n ∧
    ∀ a : Word, s.drainAll.mem.readWord a = s.physWord a

/-- An aligned data access of a byte, half-word or word in the range of the enabled stack cache goes to it, without translation
and without memory: a read gives the lanes of its word register that R83's table names, a write changes those lanes alone and is read
back truncated to its size. That the register's index is `a[7:2]` and that the range counts whatever PSW.S is are the spec's own
decisions D3 and D2 (log entries 26 and 27). -/
def Obligations.StackCacheHit : Prop :=
  ∀ (s : State) (lv : Level) (a : Word) (n : Nat), s.config.sce = true → s.sp ≤ a → a < s.msp → s.scOk = true →
    n = 1 ∨ n = 2 ∨ n = 4 → a.toNat % n = 0 →
      (∃ low : Nat, (if lv.user then s.psw.ul else s.config.kl, n, a.toNat % 4, low) ∈ laneTable) ∧
      (∀ low : Nat, (if lv.user then s.psw.ul else s.config.kl, n, a.toNat % 4, low) ∈ laneTable →
        memRead lv a n s = .ok (BitVec.ofNat 32 ((s.sc.get (scIdx a)).toNat / 2 ^ low % 2 ^ (8 * n))) s ∧
        ∃ p : Slot, checkWrite lv a n s = .ok p s ∧ ∀ (v : Word), ∀ j < 32, ((s.commit p v).sc.get (scIdx a)).getLsbD j =
          if low ≤ j ∧ j < low + 8 * n then v.getLsbD (j - low) else (s.sc.get (scIdx a)).getLsbD j) ∧
      (n = 4 → memRead lv a n s = .ok (s.sc.get (scIdx a)) s) ∧
      ∃ p : Slot, checkWrite lv a n s = .ok p s ∧ ∀ v : Word,
        s.commit p v = { s with sc := (s.commit p v).sc } ∧
        (∀ i : Fin 64, i ≠ scIdx a → (s.commit p v).sc.get i = s.sc.get i) ∧
        memRead lv a n (s.commit p v) = .ok (BitVec.ofNat 32 (v.toNat % 2 ^ (8 * n))) (s.commit p v)

/-- A walk of a valid paged translation of a page the level may use sets R, and M for a write, in the table entry, keeps its other
bits, and gives the frame of the entry. A store check needs a writable page like a write; whether it sets the two bits is open (U9),
here the board's (log entry 19). -/
def Obligations.WalkSetsMarks : Prop :=
  ∀ (s : State) (user : Bool) (k : Kind) (va ste pte : Word),
    s.mem.wf = true → s.alone = true → s.lookup k va = none →
    (∀ a : Word, s.board.readAnswer a = .ram ∧ s.board.writeAnswer a = .ram) →
    ste = s.mem.readWord (steAddr s.stb va) → ste.getLsbD 0 = true → ste.getLsbD 3 = false →
    pte = s.mem.readWord (pteAddr ste va) → pte.getLsbD 0 = true → (user = true → pte.getLsbD 2 = true) →
    (k = .write ∨ k = .check true ∨ k = .check false → pte.getLsbD 1 = true) →
      ∃ (t : State) (x : Xlat), translateAddr ⟨true, user⟩ k va s = .ok x t ∧
        x.pa = pte.extractLsb' 12 20 ++ va.extractLsb' 0 12 ∧
        t.mem.readWord (pteAddr ste va) = pte ||| (if k = .check false then 0 else if k = .write ∨ k = .check true then 0x18 else 0x8) ∧
        ∀ a : Word, wordAddr a ≠ wordAddr (pteAddr ste va) → t.mem.readWord a = s.mem.readWord a

/-- An access that its page or segment does not allow is a fault: 0x7 for text, 0x8 for a data read and for a store check, 0x9 for a
data write. It is not allowed where the table entry is invalid, at user level where its U bit is clear, for a write or a store check
at either level where its W bit is clear, and beyond the segment's bound. It changes no memory and caches no page. The entry may be
cached or walked: for a write a page whose cached M is clear is walked. That W binds the kernel too and that an offset beyond the
bound has no valid mapping are marked in R114 as the spec's own derivations. -/
def Obligations.WriteProtection : Prop :=
  ∀ (s : State) (user : Bool) (k : Kind) (va : Word) (x : Exc), s.alone = true →
    x = (match k with | .text => .fetchFault | .read => .dataRead va | .write => .dataWrite va | .check _ => .dataRead va) →
    (∀ e : TlbEntry, s.lookup k va = some (.page e) → (k.writes = true ∧ e.w = false) ∨ (user = true ∧ e.u = false) →
      translateAddr ⟨true, user⟩ k va s = .error (.exc x) s) ∧
    (∀ e : Npsr, s.lookup k va = some (.seg e) →
      (k.writes = true ∧ e.w = false) ∨ (user = true ∧ e.u = false) ∨ e.bound.toNat < (va.extractLsb' 12 10).toNat →
        translateAddr ⟨true, user⟩ k va s = .error (.exc x) s) ∧
    ∀ ste : Word, s.lookup k va = none → s.board.readAnswer (steAddr s.stb va) = .ram →
      ste = s.mem.readWord (steAddr s.stb va) →
      (ste.getLsbD 0 = false → translateAddr ⟨true, user⟩ k va s = .error (.exc x) s) ∧
      (∀ pte : Word, ste.getLsbD 0 = true → ste.getLsbD 3 = false → s.board.readAnswer (pteAddr ste va) = .ram →
        pte = s.mem.readWord (pteAddr ste va) →
        pte.getLsbD 0 = false ∨ (k.writes = true ∧ pte.getLsbD 1 = false) ∨ (user = true ∧ pte.getLsbD 2 = false) →
          translateAddr ⟨true, user⟩ k va s = .error (.exc x) s) ∧
      (ste.getLsbD 0 = true → ste.getLsbD 3 = true →
        (k.writes = true ∧ ste.getLsbD 1 = false) ∨ (user = true ∧ ste.getLsbD 2 = false) ∨
          (ste.extractLsb' 12 10).toNat < (va.extractLsb' 12 10).toNat →
        ∃ u : State, translateAddr ⟨true, user⟩ k va s = .error (.exc x) u ∧ u.mem = s.mem ∧ u.textTlb = s.textTlb ∧
          u.dataTlb = s.dataTlb)

/-! ## Exceptions and interrupts -/

/-- Taking an exception in physical mode: the identifier of Table 1-26, saved PC and PSW below ISP, ISP and SHAD 16 lower, the
handler from VB + 4, the low half of the PSW clear; no other byte of memory and no other register changes but the current stack pointer, restored
from SHAD, and FAULT, which a data fault writes. The stack cache keeps its words unless SHAD is lower than SP. -/
def Obligations.ExceptionEntry : Prop :=
  ∀ (s u : State) (e : Exc) (epc : Word), s.psw.vp = false → s.alone = true → s.storeBuf = [] → u = s.setCsp s.shad →
    u.isp.toNat % 16 = 0 →
    (∀ i : Word, i = 4 ∨ i = 8 ∨ i = 12 → u.scHit (u.isp - i) = false ∧ s.board.writeAnswer (u.isp - i) = .ram) →
    s.board.readAnswer (s.vb + 4) = .ram →
      ∃ t : State, exceptionSequence e epc s = .ok () t ∧
        t.physWord (u.isp - 12) = (match e with
          | .zeroDivide => 0x1 | .trace => 0x2 | .illegal => 0x3 | .alignment => 0x4 | .privilege => 0x5 | .unimplReg => 0x6
          | .fetchFault => 0x7 | .dataRead _ => 0x8 | .dataWrite _ => 0x9 | .busFault => 0xA | .walkFault => 0xB) ∧
        t.physWord (u.isp - 8) = epc ∧ t.physWord (u.isp - 4) = s.psw.toWord ∧
        (∀ a : Word, wordAddr a ≠ u.isp - 12 → wordAddr a ≠ u.isp - 8 → wordAddr a ≠ u.isp - 4 →
          t.physByte a = s.physByte a) ∧
        t.pc = textAddr (t.physWord (s.vb + 4)) ∧ t.psw.toWord = s.psw.toWord &&& 0xFFFF0000 ∧ t.isp = u.isp - 16 ∧
        t.shad = u.isp - 16 ∧ t.sp = u.sp ∧ t.msp = s.msp ∧
        ((s.psw.s = true → s.sp ≤ s.shad) → t.sc = s.sc) ∧ t.config = s.config ∧ t.vb = s.vb ∧ t.stb = s.stb ∧
        t.timer1 = s.timer1 ∧ t.timer2 = s.timer2 ∧
        t.fault = (match e with | .dataRead va => va | .dataWrite va => va | _ => s.fault)

/-- An interrupt taken, in physical mode with the stack cache disabled, nothing buffered, SHAD equal to the current stack pointer
and all of memory RAM: saved PC and PSW lie 8 and 4 bytes below ISP, ISP and SHAD are 16 lower, the low half of the PSW is clear and
the pc comes from the request's vector; every other byte of memory is as it was. A KRET right after it leaves PC, PSW, both stack
pointers and SHAD as they were. -/
def Obligations.KretUndoesInterrupt : Prop :=
  ∀ (s : State) (q : Request), s.psw.vp = false → s.config.sce = false → s.storeBuf = [] → s.shad = s.csp → s.alone = true →
    s.isp.toNat % 16 = 0 → s.pc.toNat % 2 = 0 → (∀ a : Word, s.board.readAnswer a = .ram ∧ s.board.writeAnswer a = .ram) →
      ∃ t r : State, interruptSequence q.vector s = .ok () t ∧ t.physWord (s.isp - 8) = s.pc ∧
        t.physWord (s.isp - 4) = s.psw.toWord ∧ t.isp = s.isp - 16 ∧ t.shad = s.isp - 16 ∧
        t.psw.toWord = s.psw.toWord &&& 0xFFFF0000 ∧ t.pc = t.physWord (s.vb + q.vector) &&& 0xFFFFFFFE ∧
        (∀ a : Word, wordAddr a ≠ s.isp - 8 → wordAddr a ≠ s.isp - 4 → t.physByte a = s.physByte a) ∧
        exec .kret t = .next r ∧ r.pc = s.pc ∧ r.psw = s.psw ∧ r.isp = s.isp ∧ r.sp = s.sp ∧ r.shad = s.shad ∧
        r.msp = s.msp ∧ r.sc = s.sc

/-- A mode an instruction rejects is the illegal instruction exception: for every dyadic mnemonic, for the monadic ones, for
RETURN and POPN with a negative offset, for ENTER with an offset that is not negative, for FLUSHDCE and the unimplemented codes,
with a prefix and without. The codes a dyadic instruction rejects: 0xF as the destination of an instruction that writes it
(R176), after a prefix every code outside Table 1-22 (R171), as MOVA's source all but 0xC to 0xE, as DQM's source all below 0xC, and a
register of either (R262, R263); a monadic one: all below 0xC; an unimplemented code after a prefix: every code outside Table 1-22, and
0x7 twice (R152). That an immediate destination is one of them, the modes outside Table 1-22 after a prefix, and the
monadic modes below 0xC are the spec's own decisions D23, D24 and D25 (log entry 27). -/
def Obligations.IllegalForms : Prop :=
  ∀ s : State,
    (∀ (k : Prefix) (op : DyOp) (f : Sys2Proof.Dyadic), f.accepted k op = false → exec (dyadicInstr k op f) s = takes .illegal s) ∧
    (∀ (k : Prefix) (i : Instr) (m : Mode),
      prefixed k .kcall (.word .kcall) (.illegal m) = some i ∨ prefixed k .enter (.word .enter) (.illegal m) = some i ∨
        prefixed k .catchSc (.word .catchSc) (.illegal m) = some i ∨ prefixed k .call (.flow .call) (.illegal m) = some i ∨
        prefixed k .jmp (.flow .jmp) (.illegal m) = some i ∨ prefixed k .jmpfn (.flow .jmpfn) (.illegal m) = some i ∨
        prefixed k .jmpfy (.flow .jmpfy) (.illegal m) = some i ∨ prefixed k .jmptn (.flow .jmptn) (.illegal m) = some i ∨
        prefixed k .jmpty (.flow .jmpty) (.illegal m) = some i ∨ prefixed k .ldraa (.flow .ldraa) (.illegal m) = some i ∨
        prefixed k .ret (.stack .ret) (.illegal m) = some i ∨ prefixed k .popn (.stack .popn) (.illegal m) = some i ∨
        prefixed k .flushpte (.word .flushpte) (.illegal m) = some i ∨
        prefixed k .flushpbe (.word .flushpbe) (.illegal m) = some i → exec i s = takes .illegal s) ∧
    (∀ (k : Prefix) (i : Instr) (o : Word), o.toInt < 0 →
      prefixed k .ret (.stack .ret) (.p3 () o) = some i ∨ prefixed k .popn (.stack .popn) (.p3 () o) = some i →
        exec i s = takes .illegal s) ∧
    (∀ (k : Prefix) (i : Instr) (o : Word), 0 ≤ o.toInt → prefixed k .enter (.word .enter) (.p3 .stk o) = some i →
      exec i s = takes .illegal s) ∧
    (∀ m : Mode, m.isWord = false →
      exec (.flushdce m) s = takes .illegal s ∧ exec (.unimplemented (.monadic m)) s = takes .illegal s ∧
        exec (.cpu (.flushdce m)) s = takes .illegal s ∧ exec (.cpu (.unimplemented (.monadic m))) s = takes .illegal s) ∧
    (∀ (g : Bool) (c : BitVec 6) (x y : Mode), cpuUnimplLegal x y = false →
      exec (.cpu (.unimplemented (.dyadic g c x y))) s = takes .illegal s) ∧
    (∀ (k : Prefix) (op : DyOp) (f : Sys2Proof.Dyadic) (sm dm : Mode) (x y : Word),
      (∃ u v : BitVec 16, f = .p3 sm dm u v) ∨ f = .p5 sm dm x y →
        (f.accepted k op = false ↔
          (k = .cpu ∧ (sm.code ∉ [0x7, 0xC, 0xD, 0xE, 0xF] ∨ dm.code ∉ [0x7, 0xC, 0xD, 0xE, 0xF])) ∨
          (dm.code = 0xF ∧ op ∈ [.add, .sub, .mul, .div, .rem, .udiv, .urem, .and, .or, .xor, .shl, .shr, .ushr, .mov, .mova,
            .addi, .andi, .ori, .tadd, .tsub, .dqm]) ∨
          (op = .mova ∧ (sm.code ∉ [0xC, 0xD, 0xE] ∨ (k = .cpu ∧ dm.code = 0x7))) ∨
          (op = .dqm ∧ (sm.code ∉ [0xC, 0xD, 0xE, 0xF] ∨ (k = .cpu ∧ dm.code = 0x7))))) ∧
    (∀ (five : Bool) (k : Prefix) (op : DyOp) (sm dm : Mode) (x y : Word),
      (Sys2Proof.Dyadic.illegal five sm dm).wf k op = true ↔ (Sys2Proof.Dyadic.p5 sm dm x y).accepted k op = false) ∧
    (∀ m : Mode, m.isWord = false ↔ m.code.toNat < 0xC) ∧
    ∀ x y : Mode, cpuUnimplLegal x y = false ↔
      x.code ∉ [0x7, 0xC, 0xD, 0xE, 0xF] ∨ y.code ∉ [0x7, 0xC, 0xD, 0xE, 0xF] ∨ (x.code = 0x7 ∧ y.code = 0x7)

/-- The register mode after a prefix: a number without a register is the unimplemented register exception, whichever operand
names it; at user level registers are read as at kernel level, each number reading its register (R172), ID as the mask's word
(R33), and writing one is a privilege violation with nothing written. -/
def Obligations.RegisterMode : Prop :=
  (∀ (op : DyOp) (f : Sys2Proof.Dyadic) (s : State) (c : BitVec 4), f.accepted .cpu op = true →
    c = 0x0 ∨ c = 0xD ∨ c = 0xE ∨ c = 0xF → srcArg s .cpu f = .reg c ∨ dstArg s .cpu f = .reg c →
      exec (.cpu (.dyadic op f)) s = takes .unimplReg s) ∧
  (∀ (op : DyOp) (f : Sys2Proof.Dyadic) (s : State) (a : Word) (r : Reg), s.psw.x = true → op.writesDst = true →
    s.srcSettled op .cpu f = true → f.accepted .cpu op = true →
    (op.readsDst = true → s.dstSettled op .cpu f = true ∧ twoRegs s .cpu f = false) →
    s.src? .cpu f = some a → s.dst? .cpu f = some (.reg r) →
    (op ∈ [.addi, .andi, .ori] → s.storeBuf = [] ∧ s.lostStores = 0 ∧ s.alone = true) →
      exec (.cpu (.dyadic op f)) s = takes .privilege s) ∧
  ∀ (f : Sys2Proof.Dyadic) (s : State) (c : BitVec 4) (a : Word) (d : Opd) (t : Target),
    srcArg s .cpu f = .reg c → MoveReady .mov .cpu f s a d t →
      exec (.cpu (.dyadic .mov f)) s = .next { s.put t a with pc := s.pc + (2 + f.len) } ∧
      (c, a) ∈ [(0x1#4, s.msp), (0x2, s.isp), (0x3, s.sp), (0x4, s.config.toWord), (0x5, s.psw.toWord), (0x6, s.shad),
        (0x7, s.vb), (0x8, s.stb), (0x9, s.fault), (0xA, if s.board.maskTwo then 0x1000003B else 0x0000003B),
        (0xB, s.timer1), (0xC, s.timer2)]

/-- At user level KRET and CRET are privilege violations, with nothing written. -/
def Obligations.PrivilegeViolation : Prop :=
  ∀ s : State, s.psw.x = true → exec .kret s = takes .privilege s ∧ exec .cret s = takes .privilege s

/-- A misaligned address is the alignment exception, with nothing changed, with a prefix and without. Of a two-operand
instruction: an operand's own address, a pointer word's, or the address a pointer gives (for ADDI, ANDI and ORI with nothing in the
store buffer); MOVA's source itself is not accessed. Of DQM: 8- and 16-byte operands, and a destination mode that names neither
size. Of the others: the indirection word of CALL, JMP and LDRAA, KCALL's operand and pointer, the operand word of ENTER and CATCH,
RETURN's slot, the pointer of FLUSHPTE and FLUSHPBE. The order of the checks is the spec's own derivation (R436, log entry 12). -/
def Obligations.MisalignedOperand : Prop := MisalignedKnown ∧ MisalignedPointee ∧ MisalignedBlock ∧ MisalignedWord

/-- A divisor of zero is the zero-divide exception once the operands can be read and the result stored; nothing is written. -/
def Obligations.ZeroDivide : Prop :=
  (∀ (op : DyOp) (k : Prefix) (f : Sys2Proof.Dyadic) (s : State) (b : Word) (d : Opd) (t : Target),
    op ∈ [.div, .rem, .udiv, .urem] → DstReady op k f s 0 b d t → exec (dyadicInstr k op f) s = takes .zeroDivide s) ∧
  ∀ (op : DyOp) (k : Prefix) (f : Sys2Proof.Dyadic) (s : State) (b : Word) (d : Opd) (p : Slot),
    op ∈ [.div3, .rem3] → AccReady op k f s 0 b d p → exec (dyadicInstr k op f) s = takes .zeroDivide s

/-- At a boundary where the hardware takes requests: an NMI is taken whatever IPL is, a line of level 1 to 6 exactly when it is
below IPL and no NMI, level-1 line or timer goes before it, a timer while the lines are at 000 or 111 when IPL is above 1, and
with none of them no request is taken, and none but an NMI with IPL at most 1. Each request has its place in the vector table. A step
whose boundary takes one answers it, which clears the NMI's or that timer's pending flag (R453, R408) and drops a due trace exception
(the spec's own decision D29), runs the interrupt sequence of R410 with its vector, and ends as an event's step. That a
timer goes before a line of level 2 to 6 is the spec's own decision D30, and that lines at 000 with no NMI pending give no request of
their own and leave the timers' its decision D32 (log entry 27). -/
def Obligations.InterruptAcceptance : Prop :=
  (∀ (s : State) (r : Request), s.cur.hreset = false → s.folded = none → s.openBoundary.request = some r →
    step s = mapNext (fun t => t.retireEvent s.openBoundary)
      (finish (interruptSequence r.vector { s.openBoundary with
        tracePending := false
        nmiPending := if r = .nmi then false else s.openBoundary.nmiPending
        t1Req := if r = .timer1 then false else s.openBoundary.t1Req
        t2Req := if r = .timer2 then false else s.openBoundary.t2Req }))) ∧
  ∀ s : State, s.cur.defer = false →
    (s.nmiPending = true → s.request = some .nmi) ∧
    (s.nmiPending = false → ∀ k : BitVec 3, s.cur.il = k → k ≠ 0 → k ≠ 7 →
      (k = 1 → (s.request = some (.line 1) ↔ 1 < s.psw.ipl.toNat)) ∧
      (k ≠ 1 → s.t1Req = false → s.t2Req = false → (s.request = some (.line k) ↔ k.toNat < s.psw.ipl.toNat)) ∧
      (k ≠ 1 → s.t1Req = true → 1 < s.psw.ipl.toNat → s.request = some .timer1) ∧
      (k ≠ 1 → s.t1Req = false → s.t2Req = true → 1 < s.psw.ipl.toNat → s.request = some .timer2) ∧
      (s.psw.ipl.toNat ≤ 1 → s.request = none)) ∧
    (s.nmiPending = false → s.cur.il = 0 ∨ s.cur.il = 7 →
      (s.t1Req = false → s.t2Req = false → s.request = none) ∧
      (s.t1Req = true → 1 < s.psw.ipl.toNat → s.request = some .timer1) ∧
      (s.t1Req = false → s.t2Req = true → 1 < s.psw.ipl.toNat → s.request = some .timer2) ∧
      (s.psw.ipl.toNat ≤ 1 → s.request = none)) ∧
    Request.vector .nmi = 16 ∧ Request.vector .timer1 = 44 ∧ Request.vector .timer2 = 48 ∧
    ∀ k : BitVec 3, Request.vector (.line k) = BitVec.ofNat 32 (16 + 4 * k.toNat)

/-- A due trace exception is taken before the next instruction when no interrupt is: the step is the exception sequence with
that instruction's address, followed by what ends an event's step. A jump folded into the instruction before it runs as it was
fetched with that one, nothing before it but the sampling of the lines, and is traced with the TI its pair began with; that the pair
is two steps is the model's arrangement (log entry 29). The trace exception is due where TI was set as the instruction began (the
spec's own decision D18), or TB was and the instruction is CALL, RETURN or a jump; of a pair only after the second half; never after
KCALL, KRET, CRET, an exception or a reset; after an unimplemented or niladic sequence where TI was set (R432 (d)). With neither an
interrupt nor a trace exception due, a store that the bus refused is reported: the bus fault exception with the address of the
instruction that is next (R426; that this is the boundary is the script's choice of the delay the decision D33 leaves open). -/
def Obligations.TraceTaken : Prop :=
  (∀ s : State, s.cur.hreset = false → s.folded = none → s.openBoundary.request = none →
    s.openBoundary.tracePending = true →
      step s = mapNext (fun t => t.retireEvent s.openBoundary)
        (finish (exceptionSequence .trace s.openBoundary.pc { s.openBoundary with tracePending := false }))) ∧
  (∀ (s : State) (j : FoldedJump), s.cur.hreset = false → s.folded = some j →
    step s = mapNext (fun t => t.retire { s.sampleLines with folded := none } j.instr (some j.ti))
      (exec j.instr { s.sampleLines with folded := none, hazard := {}, event := .none })) ∧
  (∀ s : State, s.cur.hreset = false → s.folded = none → s.openBoundary.request = none →
    s.openBoundary.tracePending = false → s.openBoundary.lostStores ≠ 0 →
      step s = mapNext (fun t => t.retireEvent s.openBoundary) (finish (exceptionSequence .busFault s.openBoundary.pc
        { s.openBoundary with lostStores := s.openBoundary.lostStores - 1 }))) ∧
  (∀ (s old : State) (i : Instr) (pair : Option Bool), s.folded = none →
    ((s.retire old i pair).tracePending = true ↔ (s.retire old i pair).folded = none ∧
      traceDue i s.event (pair.getD old.psw.ti) old.psw.tb = true) ∧
    ∀ j : FoldedJump, (s.retire old i pair).folded = some j → pair = none ∧ j.ti = old.psw.ti) ∧
  ∀ i : Instr,
    (∀ ti tb : Bool, traceDue i .none true tb = !untraceable i ∧
      traceDue i .none false tb = (tb && blockEnd i && !untraceable i) ∧ traceDue i .softTrap ti tb = ti ∧
      traceDue i .exception ti tb = false ∧ traceDue i .reset ti tb = false) ∧
    (untraceable i = true ↔ i = .kret ∨ i = .cret ∨ ∃ k f, prefixed k .kcall (.word .kcall) f = some i) ∧
    (blockEnd i = true ↔ (∃ k f, prefixed k .ret (.stack .ret) f = some i) ∨ ∃ k f,
      prefixed k .call (.flow .call) f = some i ∨ prefixed k .jmp (.flow .jmp) f = some i ∨
        prefixed k .jmpfn (.flow .jmpfn) f = some i ∨ prefixed k .jmpfy (.flow .jmpfy) f = some i ∨
        prefixed k .jmptn (.flow .jmptn) f = some i ∨ prefixed k .jmpty (.flow .jmpty) f = some i)

/-- A timer counting instructions (Timer1 with EV 1, Timer2 with EV 00001) advances by one at the end of a step whose instruction
completed (no exception, no unimplemented or niladic sequence, no reset, no folded branch), not at user level with its K bit set, and
requests its interrupt on the overflow if its I bit is set; a step that ran an event sequence leaves both as they were. Timer2 with EV
11111 never advances and requests nothing. The request flag is the spec's own decision D20 (log entry 27). That the CONFIG in force is
the one the step began with, and that K judges an instruction by the level it began at, also a KRET, a CRET or a write of PSW that
ends at the other, are log entry 28's DESIGN CHOICE: R451 looks at the level when the tick occurs and R452 puts the tick at the end. -/
def Obligations.TimerCounts : Prop :=
  ∀ s old : State,
    (old.config.t1ev = true → (∀ (i : Instr) (pair : Option Bool),
      let n : Nat := if s.event = .none ∧ pair = none ∧ ¬(old.config.t1k = true ∧ old.psw.x = true) then 1 else 0
      (s.retire old i pair).timer1 = s.timer1 + BitVec.ofNat 32 n ∧
      ((s.retire old i pair).t1Req = true ↔
        s.t1Req = true ∨ (old.config.t1i = true ∧ n = 1 ∧ s.timer1 = 0xFFFFFFFF))) ∧
    (s.retireEvent old).timer1 = s.timer1 ∧ (s.retireEvent old).t1Req = s.t1Req) ∧
    (old.config.t2ev = 0b00001 → (∀ (i : Instr) (pair : Option Bool),
      let n : Nat := if s.event = .none ∧ pair = none ∧ ¬(old.config.t2k = true ∧ old.psw.x = true) then 1 else 0
      (s.retire old i pair).timer2 = s.timer2 + BitVec.ofNat 32 n ∧
      ((s.retire old i pair).t2Req = true ↔
        s.t2Req = true ∨ (old.config.t2i = true ∧ n = 1 ∧ s.timer2 = 0xFFFFFFFF))) ∧
    (s.retireEvent old).timer2 = s.timer2 ∧ (s.retireEvent old).t2Req = s.t2Req) ∧
    (old.config.t2ev = 0b11111 →
      (∀ (i : Instr) (pair : Option Bool),
        (s.retire old i pair).timer2 = s.timer2 ∧ (s.retire old i pair).t2Req = s.t2Req) ∧
      (s.retireEvent old).timer2 = s.timer2 ∧ (s.retireEvent old).t2Req = s.t2Req)

/-! ## Stops -/

/-- What the spec gives no effect stops under a name of its own: two register reads (U6), a prefix before one parcel (U11), an
indirect conditional jump (U12), a short three-parcel ENTER (U15), an immediate FLUSHPTE or FLUSHPBE (U16), a stack cache
out of bounds (U1), and an exception handler whose own first fetch raises the exception that leads to it, in physical mode with no
bus error on a write, no device at the vector or in the handler's text, and a silent outside world (U17, R424; which states count as the
loop is the model's choice, log entry 45). -/
def Obligations.Refusals : Prop :=
  ∀ s : State,
    (∀ (op : DyOp) (f : Sys2Proof.Dyadic) (c e : BitVec 4) (q r : Reg), op ≠ .dqm → op.readsDst = true → f.accepted .cpu op = true →
      srcArg s .cpu f = .reg c → dstArg s .cpu f = .reg e → Reg.ofCode c = some q → Reg.ofCode e = some r →
        exec (.cpu (.dyadic op f)) s = .refused .twoRegisterReads) ∧
    (∀ p : Parcel, exec (.cpu (.oneParcel p)) s = .refused .cpuBeforeOneParcel) ∧
    (∀ (k : Prefix) (i : Instr) (f : Monadic (BitVec 10) FlowMode), indirectFlow f = true →
      prefixed k .jmpfn (.flow .jmpfn) f = some i ∨ prefixed k .jmpfy (.flow .jmpfy) f = some i ∨
        prefixed k .jmptn (.flow .jmptn) f = some i ∨ prefixed k .jmpty (.flow .jmpty) f = some i →
        exec i s = .refused .indirectConditionalJump) ∧
    (∀ (k : Prefix) (i : Instr) (x : Word), s.scOk = true → -256 ≤ x.toInt → x.toInt < 0 →
      prefixed k .enter (.word .enter) (.p3 .stk x) = some i → exec i s = .refused .enterShortOffset) ∧
    (∀ (k : Prefix) (i : Instr) (x : Word), prefixed k .flushpte (.word .flushpte) (.p3 .imm x) = some i ∨
      prefixed k .flushpbe (.word .flushpbe) (.p3 .imm x) = some i → exec i s = .refused .flushImmediate) ∧
    (s.scOk = false → ∀ g : BitVec 8, exec (.enter (.p1 g)) s = .refused .stackCacheBounds ∧
      exec (.catchSc (.p1 g)) s = .refused .stackCacheBounds ∧ exec (.popn (.p1 g)) s = .refused .stackCacheBounds ∧
      exec (.ret (.p1 g)) s = .refused .stackCacheBounds) ∧
    ∀ (u t : State) (e : Exc), s.runsNext → fetch s.openBoundary = .error (.exc e) u →
      exceptionSequence e u.pc u = .ok () t → t.pc = s.pc → t.psw.vp = false →
      (∀ r ∈ s.board.regions, r.wr ≠ .busError) →
      (∀ a ∈ [s.vb + 4, s.pc, s.pc + 4, s.pc + 8, s.pc + 10], s.board.readAnswer a ≠ .device) →
      t.nmiPending = false → s.env = [] → s.oldSpace = none → step s = .fault .handlerLoop
end

