-- ==== Sys2Proof/Laws/Run.lean ====
section
/-! SUPPORT. How the primitives of a computation run, as rewriting rules, and how `run` ends one. -/

namespace Sys2Proof.Laws

open Sys2Proof.Machine

variable {α β : Type}

@[simp] theorem getS_run (s : State) : getS s = .ok s s := rfl
@[simp] theorem modS_run (g : State → State) (s : State) : modS g s = .ok () (g s) := rfl
@[simp] theorem stop_run (e : Stop) (s : State) : (stop e : M α) s = .error e s := rfl
@[simp] theorem raise_run (e : Exc) (s : State) : (raise e : M α) s = .error (.exc e) s := rfl
@[simp] theorem pure_run (a : α) (s : State) : (pure a : M α) s = .ok a s := rfl

@[simp] theorem bind_run (m : M α) (g : α → M β) (s : State) :
    (m >>= g) s = match m s with | .ok a s' => g a s' | .error e s' => .error e s' := by
  show EStateM.bind m g s = _
  unfold EStateM.bind
  cases m s <;> rfl

@[simp] theorem map_run (m : M α) (g : α → β) (s : State) :
    (g <$> m) s = match m s with | .ok a s' => .ok (g a) s' | .error e s' => .error e s' := by
  show EStateM.map g m s = _
  unfold EStateM.map
  cases m s <;> rfl

@[simp] theorem level_vp (s : State) : s.level.vp = s.psw.vp := rfl
@[simp] theorem level_user (s : State) : s.level.user = s.psw.x := rfl

@[simp] theorem raiseIf_false (e : Exc) (s : State) : raiseIf false e s = .ok () s := rfl
@[simp] theorem raiseIf_true (e : Exc) (s : State) : raiseIf true e s = .error (.exc e) s := rfl
@[simp] theorem refuseIf_false (r : Refusal) (s : State) : refuseIf false r s = .ok () s := rfl
@[simp] theorem refuseIf_true (r : Refusal) (s : State) : refuseIf true r s = .error (.refused r) s := rfl

@[simp] theorem advance_run (n : Word) (s : State) : advance n s = .ok () { s with pc := s.pc + n } := rfl
@[simp] theorem jumpTo_run (t : Word) (s : State) : jumpTo t s = .ok () { s with pc := textAddr t } := rfl
@[simp] theorem noteShad_run (w : Word) (s : State) :
    noteShad w s = .ok () { s with hazard := { s.hazard with shad := some w } } := rfl

/-! ## Other agents -/

/-- With no other agent in the middle of the step nothing happens before an access. -/
theorem others_eq {s : State} (h : s.alone = true) : s.others = s := by
  have h : s.cur.between = [] := by simpa [State.alone] using h
  simp [State.others, h]

/-- The turn of the other agents is a change of the state and nothing else. -/
theorem others_modS (s : State) : others s = .ok () s.others := by
  unfold others
  split
  · simp [State.others, *]
  · rfl

theorem others_run {s : State} (h : s.alone = true) : others s = .ok () s := by
  rw [others_modS, others_eq h]

/-- Setting what is set already. -/
theorem setBetween_self (s : State) : s.setBetween s.cur.between = s := by
  unfold State.setBetween State.cur
  cases h : s.env with
  | nil => rfl
  | cons e r =>
    cases s
    simp only at h
    subst h
    rfl

theorem setBetween_nil {s : State} (h : s.alone = true) : s.setBetween [] = s := by
  have h : s.cur.between = [] := by simpa [State.alone] using h
  have e := setBetween_self s
  rwa [h] at e

/-- A locked computation in which no agent acts anyway. -/
theorem undisturbed_ok {m : M α} {s t : State} {a : α} (hs : s.alone = true) (ht : t.alone = true) (h : m s = .ok a t) :
    undisturbed m s = .ok a t := by
  have e : s.cur.between = [] := by simpa [State.alone] using hs
  simp [undisturbed, setBetween_nil hs, h, e, setBetween_nil ht]

/-- A computation under another CONFIG that leaves the state as it is. -/
theorem underConfig_ok {m : M α} {s : State} {c : Cfg} {a : α} (h : m { s with config := c } = .ok a { s with config := c }) :
    underConfig c m s = .ok a s := by
  simp [underConfig, h]

/-- A computation that succeeds raises nothing to leave to a later access. -/
theorem attempt_ok {m : M α} {s t : State} {a : α} (h : m s = .ok a t) : attempt m s = .ok () t := by
  simp [attempt, h]

/-- A computation that succeeds is the next state. -/
theorem run_ok {m : M Unit} {s t : State} (h : m s = .ok () t) : run m s = .next t := by
  simp [run, h, finish]

/-- A computation that refuses is the refusal. -/
theorem run_refused {m : M Unit} {s t : State} {r : Refusal} (h : m s = .error (.refused r) t) :
    run m s = .refused r := by
  simp [run, h, finish]

/-- A computation that raises is the exception sequence, with the PC it stands at. -/
theorem run_exc {m : M Unit} {s t : State} {e : Exc} (h : m s = .error (.exc e) t) :
    run m s = finish (exceptionSequence e t.pc t) := by
  simp [run, h]

/-- A computation that resets is the internal reset. -/
theorem run_reset {m : M Unit} {s t : State} (h : m s = .error .reset t) : run m s = .next t.internalReset := by
  simp [run, h, finish]

/-- An access of an event sequence that succeeds is unchanged by the guard. -/
theorem guardReset_ok {m : M α} {s t : State} {a : α} (h : m s = .ok a t) : guardReset m s = .ok a t := by
  simp [guardReset, h]

/-- An exception of an access of an event sequence is a reset (R481). -/
theorem guardReset_exc {m : M α} {s t : State} {e : Exc} (h : m s = .error (.exc e) t) :
    guardReset m s = .error .reset t := by
  simp [guardReset, h]

end Sys2Proof.Laws
end

