-- ==== Sys2Proof/Laws/Access.lean ====
section
/-! SUPPORT. What the shared accesses and operand steps do when nothing stands in their way: one lemma for each operation. -/

namespace Sys2Proof.Laws

open Sys2Proof.Machine

variable {s : State} {k : Kind} {a v : Word} {n : Nat} {h : Home} {o : Opd} {p : Slot} {t : Target}

/-- Translation off is the identity (R110). -/
theorem translate_off (lv : Level) (hv : lv.vp = false) : translateAddr lv k a s = .ok ⟨a, false⟩ s := by
  simp [translateAddr, hv]

/-- A cached translation that allows the access is used as it is (R114, R120). -/
theorem translate_hit {e : Entry} (lv : Level) (hv : lv.vp = true) (hs : s.alone = true) (hl : s.lookup k a = some e)
    (ha : e.allows lv.user k a = true) : translateAddr lv k a s = .ok (e.xlat a) s := by
  simp [translateAddr, hv, others_run hs, hl, ha]

theorem translate_ok {lv : Level} {pa : Word} (h : s.trans? lv k a = some pa) :
    ∃ c, translateAddr lv k a s = .ok ⟨pa, c⟩ s := by
  unfold State.trans? at h
  cases hv : lv.vp with
  | false =>
    simp [hv] at h
    exact ⟨false, by rw [translate_off lv hv, h]⟩
  | true =>
    simp only [hv] at h
    cases hl : s.lookup k a with
    | none => simp [hl] at h
    | some e =>
      simp [hl] at h
      obtain ⟨⟨hs, ha⟩, rfl⟩ := h
      exact ⟨(e.xlat a).cacheable, translate_hit lv hv hs hl ha⟩

theorem findHome_ok {lv : Level} (hh : s.home? lv k a = some h) : findHome lv k a s = .ok h s := by
  unfold State.home? at hh
  unfold findHome
  cases hsc : s.scHit a
  · simp only [hsc, Bool.false_eq_true, if_false, Option.map_eq_some_iff] at hh
    obtain ⟨pa, hp, rfl⟩ := hh
    obtain ⟨c, ht⟩ := translate_ok hp
    simp [hsc, ht]
  · cases hok : s.scOk <;> simp [hsc, hok] at hh
    simp [hsc, hok, hh]

/-- A read that memory answers (R81). -/
theorem wordRead_ok {pa : Word} (hr : s.reads pa = true) : wordRead pa s = .ok (s.physWord pa) s := by
  simp only [State.reads, Bool.and_eq_true, beq_iff_eq] at hr
  simp [wordRead, hr.2]

theorem alone_of_reads {pa : Word} (hr : s.reads pa = true) : s.alone = true := by
  simp only [State.reads, Bool.and_eq_true] at hr
  exact hr.1

theorem physRead_ok {pa : Word} (hr : s.reads pa = true) : physRead pa s = .ok (s.physWord pa) s := by
  simp [physRead, others_run (alone_of_reads hr), wordRead_ok hr]

theorem homeRead_ok (hw : s.word? h = some v) : homeRead h s = .ok v s := by
  cases h with
  | sc a => simpa [State.word?, homeRead] using hw
  | phys pa =>
    simp only [State.word?, Option.ite_none_right_eq_some] at hw
    simpa [homeRead, physRead_ok hw.1] using hw.2

theorem homeWord_ok (hw : s.word? h = some v) : homeWord h s = .ok v s := by
  cases h with
  | sc a => simpa [State.word?, homeWord] using hw
  | phys pa =>
    simp only [State.word?, Option.ite_none_right_eq_some] at hw
    simpa [homeWord, wordRead_ok hw.1] using hw.2

theorem alignCheck_ok (ha : aligned a n = true) : alignCheck a n s = .ok () s := by
  simp [alignCheck, ha]

theorem memRead_ok {lv : Level} (hl : s.load? lv a n = some v) : memRead lv a n s = .ok v s := by
  unfold State.load? at hl
  split at hl
  case isFalse => simp at hl
  case isTrue ha =>
    simp only [Option.map_eq_some_iff, Option.bind_eq_some_iff] at hl
    obtain ⟨w, ⟨h, hh, hw⟩, rfl⟩ := hl
    simp [memRead, alignCheck_ok ha, findHome_ok hh, homeRead_ok hw]

theorem checkWrite_ok {lv : Level} (hs : s.slot? lv a n = some p) : checkWrite lv a n s = .ok p s := by
  unfold State.slot? at hs
  split at hs
  case isFalse => simp at hs
  case isTrue ha =>
    simp only [Option.map_eq_some_iff] at hs
    obtain ⟨h, hh, rfl⟩ := hs
    simp [checkWrite, alignCheck_ok ha, findHome_ok hh]

theorem resolve_ok {x : Arg} (ho : s.opd? x = some o) : resolve s.level x s = .ok o s := by
  cases x with
  | imm v => simpa [State.opd?, resolve] using ho
  | mem ea z => simpa [State.opd?, resolve] using ho
  | ptr q z =>
    simp only [State.opd?, Option.map_eq_some_iff] at ho
    obtain ⟨ea, hl, rfl⟩ := ho
    simp [resolve, memReadW, memRead_ok hl]
  | reg c =>
    simp only [State.opd?, Option.map_eq_some_iff] at ho
    obtain ⟨r, hr, rfl⟩ := ho
    simp [resolve, hr]

theorem openBit_nil (b : Bool) : openBit b [] s = .ok b s := by simp [openBit]
theorem openWord_nil (w : Word) : openWord w [] s = .ok w s := by simp [openWord]

/-- A register that no hazard meets reads as it is (R491, R493). -/
theorem readReg_ok {r : Reg} (hc : s.regSettled r = true) : readReg r s = .ok (r.get s) s := by
  cases r <;> simp_all [State.regSettled, readReg, readPsw, readShad, openBit_nil, openWord_nil, Reg.get]

/-- An operand that no hazard meets reads as it is (R165, R495). -/
theorem readOpd_ok {late : Wide → Bool} (hc : s.settled late o = true) (hv : s.value? o = some v) :
    readOpd s.level late o s = .ok v s := by
  cases o with
  | imm w => simpa [State.value?, readOpd] using hv
  | mem ea z =>
    simp only [State.value?, Option.map_eq_some_iff] at hv
    obtain ⟨w, hl, rfl⟩ := hv
    have : s.lateWides late ea (szBytes z) = [] := by simpa [State.settled] using hc
    simp [readOpd, memRead_ok hl, this, openWord_nil]
  | reg r =>
    simp only [State.value?, Option.some.injEq] at hv
    simp [readOpd, readReg_ok (r := r) hc, hv]

theorem checkDst_ok (ht : s.target? o = some t) : checkDst s.level o s = .ok t s := by
  cases o with
  | imm w => simp [State.target?] at ht
  | mem ea z =>
    simp only [State.target?, Option.map_eq_some_iff] at ht
    obtain ⟨q, hq, rfl⟩ := ht
    simp [checkDst, checkWrite_ok hq]
  | reg r =>
    simp only [State.target?, Option.ite_none_left_eq_some, Option.some.injEq] at ht
    obtain ⟨hx, rfl⟩ := ht
    simp [checkDst, hx]

/-- A register that no hazard meets takes the value written (R491, R493). -/
theorem writeReg_ok {r : Reg} (hc : s.regSettled r = true) (v : Word) : writeReg r v s = .ok () (s.setReg r v) := by
  cases r <;> simp_all [State.regSettled, writeReg, State.setReg, writePsw, writeShad, openBit_nil, openWord_nil,
    State.flushTranslations]

/-- What no hazard meets as an operand, no hazard meets as a destination. -/
theorem target_settled {late : Wide → Bool} (hc : s.settled late o = true) (ht : s.target? o = some t) :
    ∀ r, t = .reg r → s.regSettled r = true := by
  rintro r rfl
  cases o with
  | reg q =>
    simp only [State.target?, Option.ite_none_left_eq_some, Option.some.injEq, Target.reg.injEq] at ht
    exact ht.2 ▸ hc
  | _ => simp [State.target?] at ht

theorem storeDst_ok (hc : ∀ r, t = .reg r → s.regSettled r = true) (v : Word) : storeDst t v s = .ok () (s.put t v) := by
  cases t with
  | slot p => rfl
  | reg r => exact writeReg_ok (hc r rfl) v

/-- A read and a write that need no walk find one place. -/
theorem home_read_write {lv : Level} {h' : Home} (hr : s.home? lv .read a = some h) (hw : s.home? lv .write a = some h') :
    h = h' := by
  unfold State.home? at hr hw
  cases hsc : s.scHit a
  · simp only [hsc, Bool.false_eq_true, if_false, Option.map_eq_some_iff] at hr hw
    obtain ⟨x, hx, rfl⟩ := hr
    obtain ⟨y, hy, rfl⟩ := hw
    unfold State.trans? at hx hy
    cases hv : lv.vp
    · simp [hv] at hx hy
      rw [← hx, ← hy]
    · have hl : ∀ e, s.lookup .write a = some e → s.lookup .read a = some e := by
        intro e he
        unfold State.lookup at he ⊢
        simp only [State.tlb, State.npsr, Kind.writes] at he ⊢
        split
        · rename_i e' h1
          simp only [h1] at he
          split at he <;> simp_all
        · rename_i h1
          simpa [h1] using he
      cases hlw : s.lookup .write a with
      | none => simp [hv, hlw] at hy
      | some e =>
        simp [hv, hlw, hl e hlw] at hx hy
        rw [← hx.2, ← hy.2]
  · cases hok : s.scOk <;> simp [hsc, hok] at hr hw
    rw [← hr, ← hw]

/-- A home that can be read shows no bus error. -/
theorem readFault_ok (hw : s.word? h = some w) : readFault h s = .ok () s := by
  cases h with
  | sc a => rfl
  | phys pa =>
    have : s.board.readAnswer pa = .ram := by
      simp only [State.word?, State.reads, Bool.and_eq_true, beq_iff_eq, Option.ite_none_right_eq_some] at hw
      exact hw.1.2
    simp [readFault, this, show (Answer.ram == Answer.busError) = false from rfl]

/-- A readable and writable destination passes every check of an interlocked instruction (R203). -/
theorem checkBoth_ok (hv : s.value? o = some v) (ht : s.target? o = some t) : checkBoth s.level o s = .ok t s := by
  cases o with
  | mem ea z =>
    simp only [State.value?, State.load?] at hv
    split at hv
    case isFalse => simp at hv
    case isTrue hal =>
      simp only [Option.map_eq_some_iff, Option.bind_eq_some_iff] at hv
      obtain ⟨_, ⟨_, ⟨h, hh, hw⟩, -⟩, -⟩ := hv
      obtain ⟨p, hp, rfl⟩ : ∃ p, s.slot? s.level ea (szBytes z) = some p ∧ Target.slot p = t := by
        simpa [State.target?] using ht
      have hp' : p.home = h := by
        simp only [State.slot?, hal, if_true, Option.map_eq_some_iff] at hp
        obtain ⟨h', hh', rfl⟩ := hp
        exact (home_read_write hh hh').symm
      simp [checkBoth, alignCheck_ok hal, findHome_ok hh, checkDst_ok ht, Target.readFault, hp', readFault_ok hw]
  | imm w => simp [State.target?] at ht
  | reg r =>
    obtain ⟨-, rfl⟩ : s.psw.x = false ∧ Target.reg r = t := by simpa [State.target?] using ht
    simp [checkBoth, checkDst_ok ht, Target.readFault]

/-- The locked read finds the operand's value (R107). -/
theorem readTarget_ok {late : Wide → Bool} (hc : s.settled late o = true) (hv : s.value? o = some v) (ht : s.target? o = some t) :
    readTarget o.size t s = .ok v s := by
  cases o with
  | imm w => simp [State.target?] at ht
  | mem ea z =>
    simp only [State.value?, State.load?] at hv
    simp only [State.target?, State.slot?] at ht
    split at hv
    case isFalse => simp at hv
    case isTrue hal =>
      simp only [hal, if_true, Option.map_map, Option.map_eq_some_iff] at ht
      simp only [Option.map_eq_some_iff, Option.bind_eq_some_iff] at hv
      obtain ⟨_, ⟨w, ⟨h, hh, hw⟩, rfl⟩, rfl⟩ := hv
      obtain ⟨h', hh', rfl⟩ := ht
      obtain rfl := home_read_write hh hh'
      simp [readTarget, homeWord_ok hw, Opd.size, lanesOf]
  | reg r =>
    simp only [State.target?, Option.ite_none_left_eq_some, Option.some.injEq] at ht
    simp only [State.value?, Option.some.injEq] at hv
    obtain ⟨-, rfl⟩ := ht
    simp [readTarget, readReg_ok (r := r) hc, hv]

/-- An aligned operand passes the alignment check made at decoding (R436). -/
theorem alignedNow_of_opd {x : Arg} (ho : s.opd? x = some o) (hb : ∀ ea z, o = .mem ea z → aligned ea (szBytes z) = true) :
    x.alignedNow = true := by
  cases x with
  | imm v => rfl
  | reg c => rfl
  | mem ea z =>
    simp only [State.opd?, Option.some.injEq] at ho
    exact hb ea z ho.symm
  | ptr q z =>
    simp only [State.opd?, Option.map_eq_some_iff] at ho
    obtain ⟨ea, hl, -⟩ := ho
    unfold State.load? at hl
    split at hl
    case isTrue h => exact h
    case isFalse => simp at hl

theorem aligned_of_load {lv : Level} (hl : s.load? lv a n = some v) : aligned a n = true := by
  unfold State.load? at hl
  split at hl
  case isTrue h => exact h
  case isFalse => simp at hl

theorem aligned_of_slot {lv : Level} (hs : s.slot? lv a n = some p) : aligned a n = true := by
  unfold State.slot? at hs
  split at hs
  case isTrue h => exact h
  case isFalse => simp at hs

theorem noReg_of_opd {x : Arg} (ho : s.opd? x = some o) : x.noReg = false := by
  cases x with
  | reg c =>
    simp only [State.opd?, Option.map_eq_some_iff] at ho
    obtain ⟨r, hr, -⟩ := ho
    simp [Arg.noReg, hr]
  | _ => rfl

theorem aligned_of_value (hv : s.value? o = some v) : ∀ ea z, o = .mem ea z → aligned ea (szBytes z) = true := by
  rintro ea z rfl
  simp only [State.value?, Option.map_eq_some_iff] at hv
  obtain ⟨w, hl, -⟩ := hv
  exact aligned_of_load hl

theorem aligned_of_target (ht : s.target? o = some t) : ∀ ea z, o = .mem ea z → aligned ea (szBytes z) = true := by
  rintro ea z rfl
  simp only [State.target?, Option.map_eq_some_iff] at ht
  obtain ⟨q, hq, -⟩ := ht
  exact aligned_of_slot hq

/-- Decoding finds nothing wrong (R167 step 1). -/
theorem precheck_ok {q : Prefix} {op : DyOp} {f : Dyadic} {x y : Arg} {al : Bool} (hf : f.accepted q op = true)
    (hx : x.noReg = false) (hy : y.noReg = false) (h2 : (x.isReg && y.isReg && op.readsDst) = false) (ha : al = true)
    (hb : y.alignedNow = true) : precheck q op f x y al s = .ok () s := by
  simp [precheck, hf, hx, hy, h2, ha, hb]

end Sys2Proof.Laws
end

