-- ==== Sys2Proof/Laws/Control.lean ====
section
/-! SUPPORT. Targets of jumps (R285), and the one meaning each instruction with a monadic operand has with and without a CPU
prefix (R371). -/

namespace Sys2Proof.Laws

open Sys2Proof.Machine

/-- A text address as a mask (R45). -/
theorem textAddr_and (t : Word) : textAddr t = t &&& 0xFFFFFFFE := rfl

/-- The three-parcel target where its indirection word can be read (R285). -/
theorem target3_ok {s : State} {m : FlowMode} {x t : Word} {F} {g : F → Word} (h : s.flow? g (.p3 m x) = some t) :
    target3 s.level s m x s = .ok t s := by
  cases m <;> simp only [State.flow?] at h
  · exact memRead_ok h
  · exact memRead_ok h
  · simp [target3]; exact Option.some.inj h
  · simp [target3]; exact Option.some.inj h

/-- The one-parcel target counts parcels from the jump itself (R285). -/
theorem near_eq (s : State) (f : BitVec 10) : target1 s f = s.near f := by
  unfold target1 State.near
  congr 1
  apply BitVec.eq_of_toInt_eq
  rw [BitVec.toInt_mul, BitVec.toInt_ofInt, BitVec.toInt_signExtend]
  have h1 := BitVec.le_toInt f; have h2 := BitVec.toInt_lt (x := f)
  simp at h1 h2 ⊢
  rw [Int.bmod_eq_of_le (n := f.toInt) (m := 1024) (by omega) (by omega), Int.mul_comm]

/-- The target of a jump or call (R285). -/
theorem flowTarget_ok {s : State} {f : Monadic (BitVec 10) FlowMode} {t : Word} (h : s.flow? s.near f = some t) :
    flowTarget s.level s f s = .ok t s := by
  cases f with
  | p1 f => simp only [State.flow?, Option.some.injEq] at h; simp [flowTarget, near_eq, h]
  | p3 m x => exact target3_ok h
  | illegal m => simp [State.flow?] at h

/-- An instruction with a monadic operand is its plain form or stands after a CPU prefix (R371). -/
theorem prefixed_cases {F M : Type} {k : Prefix} {plain : Monadic F M → Instr} {body : Monadic Empty M → CpuBody} {f : Monadic F M}
    {i : Instr} (h : prefixed k plain body f = some i) :
    (k = .none ∧ i = plain f) ∨ (k = .cpu ∧ ∃ g : Monadic Empty M, g.widen = f ∧ i = .cpu (body g)) := by
  cases k with
  | none => simp [prefixed] at h; exact .inl ⟨rfl, h.symm⟩
  | cpu =>
    right
    cases f with
    | p1 f => simp [prefixed] at h
    | p3 m x => simp [prefixed] at h; exact ⟨rfl, .p3 m x, rfl, h.symm⟩
    | illegal m => simp [prefixed] at h; exact ⟨rfl, .illegal m, rfl, h.symm⟩

/-- Each such instruction runs one meaning, with or without a prefix. -/
theorem exec_kcall {k f i s} (h : prefixed k .kcall (.word .kcall) f = some i) : exec i s = run (kcallM k f) s := by
  rcases prefixed_cases h with ⟨rfl, rfl⟩ | ⟨rfl, g, rfl, rfl⟩ <;> rfl
theorem exec_enter {k f i s} (h : prefixed k .enter (.word .enter) f = some i) : exec i s = run (enterM k f) s := by
  rcases prefixed_cases h with ⟨rfl, rfl⟩ | ⟨rfl, g, rfl, rfl⟩ <;> rfl
theorem exec_catch {k f i s} (h : prefixed k .catchSc (.word .catchSc) f = some i) : exec i s = run (catchScM k f) s := by
  rcases prefixed_cases h with ⟨rfl, rfl⟩ | ⟨rfl, g, rfl, rfl⟩ <;> rfl
theorem exec_call {k f i s} (h : prefixed k .call (.flow .call) f = some i) : exec i s = run (callM k f) s := by
  rcases prefixed_cases h with ⟨rfl, rfl⟩ | ⟨rfl, g, rfl, rfl⟩ <;> rfl
theorem exec_jmp {k f i s} (h : prefixed k .jmp (.flow .jmp) f = some i) : exec i s = run (jmpM f) s := by
  rcases prefixed_cases h with ⟨rfl, rfl⟩ | ⟨rfl, g, rfl, rfl⟩ <;> rfl
theorem exec_jmpfn {k f i s} (h : prefixed k .jmpfn (.flow .jmpfn) f = some i) : exec i s = run (jumpIf false k f) s := by
  rcases prefixed_cases h with ⟨rfl, rfl⟩ | ⟨rfl, g, rfl, rfl⟩ <;> rfl
theorem exec_jmpfy {k f i s} (h : prefixed k .jmpfy (.flow .jmpfy) f = some i) : exec i s = run (jumpIf false k f) s := by
  rcases prefixed_cases h with ⟨rfl, rfl⟩ | ⟨rfl, g, rfl, rfl⟩ <;> rfl
theorem exec_jmptn {k f i s} (h : prefixed k .jmptn (.flow .jmptn) f = some i) : exec i s = run (jumpIf true k f) s := by
  rcases prefixed_cases h with ⟨rfl, rfl⟩ | ⟨rfl, g, rfl, rfl⟩ <;> rfl
theorem exec_jmpty {k f i s} (h : prefixed k .jmpty (.flow .jmpty) f = some i) : exec i s = run (jumpIf true k f) s := by
  rcases prefixed_cases h with ⟨rfl, rfl⟩ | ⟨rfl, g, rfl, rfl⟩ <;> rfl
theorem exec_ret {k f i s} (h : prefixed k .ret (.stack .ret) f = some i) : exec i s = run (retM f) s := by
  rcases prefixed_cases h with ⟨rfl, rfl⟩ | ⟨rfl, g, rfl, rfl⟩ <;> rfl
theorem exec_popn {k f i s} (h : prefixed k .popn (.stack .popn) f = some i) : exec i s = run (popnM k f) s := by
  rcases prefixed_cases h with ⟨rfl, rfl⟩ | ⟨rfl, g, rfl, rfl⟩ <;> rfl
theorem widen_empty {M : Type} (g : Monadic Empty M) : (g.widen : Monadic Empty M) = g := by
  rcases g with g | _ | _
  · exact g.elim
  · rfl
  · rfl
theorem exec_ldraa {k f i s} (h : prefixed k .ldraa (.flow .ldraa) f = some i) : exec i s = run (ldraaM k f) s := by
  rcases prefixed_cases h with ⟨rfl, rfl⟩ | ⟨rfl, g, rfl, rfl⟩
  · rfl
  · rw [widen_empty]; rfl
theorem exec_flushpte {k f i s} (h : prefixed k .flushpte (.word .flushpte) f = some i) : exec i s = run (flushpteM k f) s := by
  rcases prefixed_cases h with ⟨rfl, rfl⟩ | ⟨rfl, g, rfl, rfl⟩
  · rfl
  · rw [widen_empty]; rfl
theorem exec_flushpbe {k f i s} (h : prefixed k .flushpbe (.word .flushpbe) f = some i) : exec i s = run (flushpbeM k f) s := by
  rcases prefixed_cases h with ⟨rfl, rfl⟩ | ⟨rfl, g, rfl, rfl⟩
  · rfl
  · rw [widen_empty]; rfl

theorem flow_illegal {s : State} {g : BitVec 10 → Word} {f : Monadic (BitVec 10) FlowMode} {t : Word}
    (h : s.flow? g f = some t) : isIllegal f = false := by
  cases f <;> simp_all [State.flow?, isIllegal]

end Sys2Proof.Laws
end

