-- ==== Sys2Proof/Laws/State.lean ====
section
/-! SUPPORT. Which fields each named update of the state leaves alone: one lemma for each field, so that no proof unfolds an
update. -/

namespace Sys2Proof.Laws

open Sys2Proof.Machine

/-! ## Only these fields change -/

theorem setFlags_eq (s : State) (o : FlagOut) :
    s.setFlags o = { s with psw := (s.setFlags o).psw, hazard := (s.setFlags o).hazard } := by
  unfold State.setFlags; split <;> rfl

theorem noteWide_eq (s : State) (op : DyOp) (d : Opd) (v : Word) :
    s.noteWide op d v = { s with hazard := (s.noteWide op d v).hazard } := by
  unfold State.noteWide; split
  · split <;> rfl
  · rfl

theorem setCsp_eq (s : State) (v : Word) : s.setCsp v = { s with sp := (s.setCsp v).sp, isp := (s.setCsp v).isp } := by
  unfold State.setCsp; split <;> rfl

theorem scForget_eq (s : State) (lo : Word) (n : Nat) :
    s.scForget lo n = { s with sc := (s.scForget lo n).sc, draw := s.draw + 64 } := by
  unfold State.scForget; rfl

theorem homeWrite_eq (s : State) (h : Home) (m v : Word) :
    s.homeWrite h m v = { s with storeBuf := (s.homeWrite h m v).storeBuf, sc := (s.homeWrite h m v).sc } := by
  cases h <;> rfl

theorem lowerSp_eq (s : State) (v m : Word) :
    s.lowerSp v m = { s with sc := (s.lowerSp v m).sc, draw := (s.lowerSp v m).draw } := by
  unfold State.lowerSp; dsimp only; generalize (if s.sp < m then s.sp else m) = top; split <;> rfl

theorem scWriteWords_eq (s : State) (a : Word) (is : List Nat) (ws : List Word) :
    s.scWriteWords a is ws = { s with sc := (s.scWriteWords a is ws).sc } := by
  induction is generalizing s ws with
  | nil => rfl
  | cons i r ih =>
    cases ws with
    | nil => rfl
    | cons w ws => exact ih (s.scMerge (a + BitVec.ofNat 32 (4 * i)) 0xFFFFFFFF w) ws

theorem writeBlock_eq (s : State) (h : Home) (k : Nat) (ws : List Word) :
    s.writeBlock h k ws = { s with storeBuf := (s.writeBlock h k ws).storeBuf, sc := (s.writeBlock h k ws).sc } := by
  cases h with
  | sc a =>
    have h := scWriteWords_eq s a (blockIdx k) ws
    have hb : (s.writeBlock (.sc a) k ws).storeBuf = s.storeBuf := (congrArg State.storeBuf h :)
    rw [hb]; exact h
  | phys pa => rfl

/-- What one drained transfer changes (R105, R426). -/
theorem drainTransfer_eq (s : State) (b : List Store) :
    s.drainTransfer b = { s with mem := (s.drainTransfer b).mem, lostStores := (s.drainTransfer b).lostStores } := by
  induction b generalizing s with
  | nil => rfl
  | cons t r ih =>
    unfold State.drainTransfer
    split
    · have h := ih { s with mem := s.mem.writeLanes t.pa t.mask t.val }
      exact h
    · exact ih s
    · rfl

theorem foldl_drainTransfer_eq (s : State) (l : List (List Store)) :
    l.foldl State.drainTransfer s =
      { s with mem := (l.foldl State.drainTransfer s).mem, lostStores := (l.foldl State.drainTransfer s).lostStores } := by
  induction l generalizing s with
  | nil => rfl
  | cons b r ih =>
    have h := ih (s.drainTransfer b)
    rw [drainTransfer_eq] at h
    rw [List.foldl_cons, drainTransfer_eq]
    exact h

/-- Draining changes memory, the buffer and the count of lost stores, nothing else (R128). -/
theorem drainTo_eq (s : State) (n : Nat) :
    s.drainTo n =
      { s with
        mem := (s.drainTo n).mem, storeBuf := s.storeBuf.drop (s.storeBuf.length - n)
        lostStores := (s.drainTo n).lostStores } := by
  have h := foldl_drainTransfer_eq s (s.storeBuf.take (s.storeBuf.length - n))
  unfold State.drainTo
  dsimp only
  rw [h]

/-! ## One bus transfer joins the buffer. -/

@[simp] theorem enqueueBlock_pc (s : State) (b : List Store) : (s.enqueueBlock b).pc = s.pc := rfl
@[simp] theorem enqueueBlock_psw (s : State) (b : List Store) : (s.enqueueBlock b).psw = s.psw := rfl
@[simp] theorem enqueueBlock_config (s : State) (b : List Store) : (s.enqueueBlock b).config = s.config := rfl
@[simp] theorem enqueueBlock_sp (s : State) (b : List Store) : (s.enqueueBlock b).sp = s.sp := rfl
@[simp] theorem enqueueBlock_msp (s : State) (b : List Store) : (s.enqueueBlock b).msp = s.msp := rfl
@[simp] theorem enqueueBlock_isp (s : State) (b : List Store) : (s.enqueueBlock b).isp = s.isp := rfl
@[simp] theorem enqueueBlock_shad (s : State) (b : List Store) : (s.enqueueBlock b).shad = s.shad := rfl
@[simp] theorem enqueueBlock_vb (s : State) (b : List Store) : (s.enqueueBlock b).vb = s.vb := rfl
@[simp] theorem enqueueBlock_stb (s : State) (b : List Store) : (s.enqueueBlock b).stb = s.stb := rfl
@[simp] theorem enqueueBlock_fault (s : State) (b : List Store) : (s.enqueueBlock b).fault = s.fault := rfl
@[simp] theorem enqueueBlock_timer1 (s : State) (b : List Store) : (s.enqueueBlock b).timer1 = s.timer1 := rfl
@[simp] theorem enqueueBlock_timer2 (s : State) (b : List Store) : (s.enqueueBlock b).timer2 = s.timer2 := rfl
@[simp] theorem enqueueBlock_sc (s : State) (b : List Store) : (s.enqueueBlock b).sc = s.sc := rfl
@[simp] theorem enqueueBlock_mem (s : State) (b : List Store) : (s.enqueueBlock b).mem = s.mem := rfl
@[simp] theorem enqueueBlock_textTlb (s : State) (b : List Store) : (s.enqueueBlock b).textTlb = s.textTlb := rfl
@[simp] theorem enqueueBlock_dataTlb (s : State) (b : List Store) : (s.enqueueBlock b).dataTlb = s.dataTlb := rfl
@[simp] theorem enqueueBlock_textNpsr (s : State) (b : List Store) : (s.enqueueBlock b).textNpsr = s.textNpsr := rfl
@[simp] theorem enqueueBlock_dataNpsr (s : State) (b : List Store) : (s.enqueueBlock b).dataNpsr = s.dataNpsr := rfl
@[simp] theorem enqueueBlock_pfb (s : State) (b : List Store) : (s.enqueueBlock b).pfb = s.pfb := rfl
@[simp] theorem enqueueBlock_ic (s : State) (b : List Store) : (s.enqueueBlock b).ic = s.ic := rfl
@[simp] theorem enqueueBlock_ahead (s : State) (b : List Store) : (s.enqueueBlock b).ahead = s.ahead := rfl
@[simp] theorem enqueueBlock_prefetches (s : State) (b : List Store) : (s.enqueueBlock b).prefetches = s.prefetches := rfl
@[simp] theorem enqueueBlock_lastIl (s : State) (b : List Store) : (s.enqueueBlock b).lastIl = s.lastIl := rfl
@[simp] theorem enqueueBlock_nmiPending (s : State) (b : List Store) : (s.enqueueBlock b).nmiPending = s.nmiPending := rfl
@[simp] theorem enqueueBlock_t1Req (s : State) (b : List Store) : (s.enqueueBlock b).t1Req = s.t1Req := rfl
@[simp] theorem enqueueBlock_t2Req (s : State) (b : List Store) : (s.enqueueBlock b).t2Req = s.t2Req := rfl
@[simp] theorem enqueueBlock_tracePending (s : State) (b : List Store) : (s.enqueueBlock b).tracePending = s.tracePending :=
  rfl
@[simp] theorem enqueueBlock_lostStores (s : State) (b : List Store) : (s.enqueueBlock b).lostStores = s.lostStores := rfl
@[simp] theorem enqueueBlock_folded (s : State) (b : List Store) : (s.enqueueBlock b).folded = s.folded := rfl
@[simp] theorem enqueueBlock_oldSpace (s : State) (b : List Store) : (s.enqueueBlock b).oldSpace = s.oldSpace := rfl
@[simp] theorem enqueueBlock_recent (s : State) (b : List Store) : (s.enqueueBlock b).recent = s.recent := rfl
@[simp] theorem enqueueBlock_hazard (s : State) (b : List Store) : (s.enqueueBlock b).hazard = s.hazard := rfl
@[simp] theorem enqueueBlock_event (s : State) (b : List Store) : (s.enqueueBlock b).event = s.event := rfl
@[simp] theorem enqueueBlock_draw (s : State) (b : List Store) : (s.enqueueBlock b).draw = s.draw := rfl
@[simp] theorem enqueueBlock_board (s : State) (b : List Store) : (s.enqueueBlock b).board = s.board := rfl
@[simp] theorem enqueueBlock_env (s : State) (b : List Store) : (s.enqueueBlock b).env = s.env := rfl
@[simp] theorem enqueueBlock_alone (s : State) (b : List Store) : (s.enqueueBlock b).alone = s.alone :=
  congrArg (fun e : List Env => (e.headD {}).between.isEmpty) (enqueueBlock_env s b)

/-! ## One store joins the buffer. -/

@[simp] theorem enqueue_pc (s : State) (pa m v : Word) : (s.enqueue pa m v).pc = s.pc := rfl
@[simp] theorem enqueue_psw (s : State) (pa m v : Word) : (s.enqueue pa m v).psw = s.psw := rfl
@[simp] theorem enqueue_config (s : State) (pa m v : Word) : (s.enqueue pa m v).config = s.config := rfl
@[simp] theorem enqueue_sp (s : State) (pa m v : Word) : (s.enqueue pa m v).sp = s.sp := rfl
@[simp] theorem enqueue_msp (s : State) (pa m v : Word) : (s.enqueue pa m v).msp = s.msp := rfl
@[simp] theorem enqueue_isp (s : State) (pa m v : Word) : (s.enqueue pa m v).isp = s.isp := rfl
@[simp] theorem enqueue_shad (s : State) (pa m v : Word) : (s.enqueue pa m v).shad = s.shad := rfl
@[simp] theorem enqueue_vb (s : State) (pa m v : Word) : (s.enqueue pa m v).vb = s.vb := rfl
@[simp] theorem enqueue_stb (s : State) (pa m v : Word) : (s.enqueue pa m v).stb = s.stb := rfl
@[simp] theorem enqueue_fault (s : State) (pa m v : Word) : (s.enqueue pa m v).fault = s.fault := rfl
@[simp] theorem enqueue_timer1 (s : State) (pa m v : Word) : (s.enqueue pa m v).timer1 = s.timer1 := rfl
@[simp] theorem enqueue_timer2 (s : State) (pa m v : Word) : (s.enqueue pa m v).timer2 = s.timer2 := rfl
@[simp] theorem enqueue_sc (s : State) (pa m v : Word) : (s.enqueue pa m v).sc = s.sc := rfl
@[simp] theorem enqueue_mem (s : State) (pa m v : Word) : (s.enqueue pa m v).mem = s.mem := rfl
@[simp] theorem enqueue_textTlb (s : State) (pa m v : Word) : (s.enqueue pa m v).textTlb = s.textTlb := rfl
@[simp] theorem enqueue_dataTlb (s : State) (pa m v : Word) : (s.enqueue pa m v).dataTlb = s.dataTlb := rfl
@[simp] theorem enqueue_textNpsr (s : State) (pa m v : Word) : (s.enqueue pa m v).textNpsr = s.textNpsr := rfl
@[simp] theorem enqueue_dataNpsr (s : State) (pa m v : Word) : (s.enqueue pa m v).dataNpsr = s.dataNpsr := rfl
@[simp] theorem enqueue_pfb (s : State) (pa m v : Word) : (s.enqueue pa m v).pfb = s.pfb := rfl
@[simp] theorem enqueue_ic (s : State) (pa m v : Word) : (s.enqueue pa m v).ic = s.ic := rfl
@[simp] theorem enqueue_ahead (s : State) (pa m v : Word) : (s.enqueue pa m v).ahead = s.ahead := rfl
@[simp] theorem enqueue_prefetches (s : State) (pa m v : Word) : (s.enqueue pa m v).prefetches = s.prefetches := rfl
@[simp] theorem enqueue_lastIl (s : State) (pa m v : Word) : (s.enqueue pa m v).lastIl = s.lastIl := rfl
@[simp] theorem enqueue_nmiPending (s : State) (pa m v : Word) : (s.enqueue pa m v).nmiPending = s.nmiPending := rfl
@[simp] theorem enqueue_t1Req (s : State) (pa m v : Word) : (s.enqueue pa m v).t1Req = s.t1Req := rfl
@[simp] theorem enqueue_t2Req (s : State) (pa m v : Word) : (s.enqueue pa m v).t2Req = s.t2Req := rfl
@[simp] theorem enqueue_tracePending (s : State) (pa m v : Word) : (s.enqueue pa m v).tracePending = s.tracePending := rfl
@[simp] theorem enqueue_lostStores (s : State) (pa m v : Word) : (s.enqueue pa m v).lostStores = s.lostStores := rfl
@[simp] theorem enqueue_folded (s : State) (pa m v : Word) : (s.enqueue pa m v).folded = s.folded := rfl
@[simp] theorem enqueue_oldSpace (s : State) (pa m v : Word) : (s.enqueue pa m v).oldSpace = s.oldSpace := rfl
@[simp] theorem enqueue_recent (s : State) (pa m v : Word) : (s.enqueue pa m v).recent = s.recent := rfl
@[simp] theorem enqueue_hazard (s : State) (pa m v : Word) : (s.enqueue pa m v).hazard = s.hazard := rfl
@[simp] theorem enqueue_event (s : State) (pa m v : Word) : (s.enqueue pa m v).event = s.event := rfl
@[simp] theorem enqueue_draw (s : State) (pa m v : Word) : (s.enqueue pa m v).draw = s.draw := rfl
@[simp] theorem enqueue_board (s : State) (pa m v : Word) : (s.enqueue pa m v).board = s.board := rfl
@[simp] theorem enqueue_env (s : State) (pa m v : Word) : (s.enqueue pa m v).env = s.env := rfl
@[simp] theorem enqueue_alone (s : State) (pa m v : Word) : (s.enqueue pa m v).alone = s.alone :=
  congrArg (fun e : List Env => (e.headD {}).between.isEmpty) (enqueue_env s pa m v)

/-! ## Stores reach the bus. -/

@[simp] theorem drainTo_pc (s : State) (n : Nat) : (s.drainTo n).pc = s.pc := (congrArg State.pc (drainTo_eq s n) :)
@[simp] theorem drainTo_psw (s : State) (n : Nat) : (s.drainTo n).psw = s.psw := (congrArg State.psw (drainTo_eq s n) :)
@[simp] theorem drainTo_config (s : State) (n : Nat) : (s.drainTo n).config = s.config :=
  (congrArg State.config (drainTo_eq s n) :)
@[simp] theorem drainTo_sp (s : State) (n : Nat) : (s.drainTo n).sp = s.sp := (congrArg State.sp (drainTo_eq s n) :)
@[simp] theorem drainTo_msp (s : State) (n : Nat) : (s.drainTo n).msp = s.msp := (congrArg State.msp (drainTo_eq s n) :)
@[simp] theorem drainTo_isp (s : State) (n : Nat) : (s.drainTo n).isp = s.isp := (congrArg State.isp (drainTo_eq s n) :)
@[simp] theorem drainTo_shad (s : State) (n : Nat) : (s.drainTo n).shad = s.shad := (congrArg State.shad (drainTo_eq s n) :)
@[simp] theorem drainTo_vb (s : State) (n : Nat) : (s.drainTo n).vb = s.vb := (congrArg State.vb (drainTo_eq s n) :)
@[simp] theorem drainTo_stb (s : State) (n : Nat) : (s.drainTo n).stb = s.stb := (congrArg State.stb (drainTo_eq s n) :)
@[simp] theorem drainTo_fault (s : State) (n : Nat) : (s.drainTo n).fault = s.fault :=
  (congrArg State.fault (drainTo_eq s n) :)
@[simp] theorem drainTo_timer1 (s : State) (n : Nat) : (s.drainTo n).timer1 = s.timer1 :=
  (congrArg State.timer1 (drainTo_eq s n) :)
@[simp] theorem drainTo_timer2 (s : State) (n : Nat) : (s.drainTo n).timer2 = s.timer2 :=
  (congrArg State.timer2 (drainTo_eq s n) :)
@[simp] theorem drainTo_sc (s : State) (n : Nat) : (s.drainTo n).sc = s.sc := (congrArg State.sc (drainTo_eq s n) :)
@[simp] theorem drainTo_textTlb (s : State) (n : Nat) : (s.drainTo n).textTlb = s.textTlb :=
  (congrArg State.textTlb (drainTo_eq s n) :)
@[simp] theorem drainTo_dataTlb (s : State) (n : Nat) : (s.drainTo n).dataTlb = s.dataTlb :=
  (congrArg State.dataTlb (drainTo_eq s n) :)
@[simp] theorem drainTo_textNpsr (s : State) (n : Nat) : (s.drainTo n).textNpsr = s.textNpsr :=
  (congrArg State.textNpsr (drainTo_eq s n) :)
@[simp] theorem drainTo_dataNpsr (s : State) (n : Nat) : (s.drainTo n).dataNpsr = s.dataNpsr :=
  (congrArg State.dataNpsr (drainTo_eq s n) :)
@[simp] theorem drainTo_pfb (s : State) (n : Nat) : (s.drainTo n).pfb = s.pfb := (congrArg State.pfb (drainTo_eq s n) :)
@[simp] theorem drainTo_ic (s : State) (n : Nat) : (s.drainTo n).ic = s.ic := (congrArg State.ic (drainTo_eq s n) :)
@[simp] theorem drainTo_ahead (s : State) (n : Nat) : (s.drainTo n).ahead = s.ahead :=
  (congrArg State.ahead (drainTo_eq s n) :)
@[simp] theorem drainTo_prefetches (s : State) (n : Nat) : (s.drainTo n).prefetches = s.prefetches :=
  (congrArg State.prefetches (drainTo_eq s n) :)
@[simp] theorem drainTo_lastIl (s : State) (n : Nat) : (s.drainTo n).lastIl = s.lastIl :=
  (congrArg State.lastIl (drainTo_eq s n) :)
@[simp] theorem drainTo_nmiPending (s : State) (n : Nat) : (s.drainTo n).nmiPending = s.nmiPending :=
  (congrArg State.nmiPending (drainTo_eq s n) :)
@[simp] theorem drainTo_t1Req (s : State) (n : Nat) : (s.drainTo n).t1Req = s.t1Req :=
  (congrArg State.t1Req (drainTo_eq s n) :)
@[simp] theorem drainTo_t2Req (s : State) (n : Nat) : (s.drainTo n).t2Req = s.t2Req :=
  (congrArg State.t2Req (drainTo_eq s n) :)
@[simp] theorem drainTo_tracePending (s : State) (n : Nat) : (s.drainTo n).tracePending = s.tracePending :=
  (congrArg State.tracePending (drainTo_eq s n) :)
@[simp] theorem drainTo_folded (s : State) (n : Nat) : (s.drainTo n).folded = s.folded :=
  (congrArg State.folded (drainTo_eq s n) :)
@[simp] theorem drainTo_oldSpace (s : State) (n : Nat) : (s.drainTo n).oldSpace = s.oldSpace :=
  (congrArg State.oldSpace (drainTo_eq s n) :)
@[simp] theorem drainTo_recent (s : State) (n : Nat) : (s.drainTo n).recent = s.recent :=
  (congrArg State.recent (drainTo_eq s n) :)
@[simp] theorem drainTo_hazard (s : State) (n : Nat) : (s.drainTo n).hazard = s.hazard :=
  (congrArg State.hazard (drainTo_eq s n) :)
@[simp] theorem drainTo_event (s : State) (n : Nat) : (s.drainTo n).event = s.event :=
  (congrArg State.event (drainTo_eq s n) :)
@[simp] theorem drainTo_draw (s : State) (n : Nat) : (s.drainTo n).draw = s.draw := (congrArg State.draw (drainTo_eq s n) :)
@[simp] theorem drainTo_board (s : State) (n : Nat) : (s.drainTo n).board = s.board :=
  (congrArg State.board (drainTo_eq s n) :)
@[simp] theorem drainTo_env (s : State) (n : Nat) : (s.drainTo n).env = s.env := (congrArg State.env (drainTo_eq s n) :)
@[simp] theorem drainTo_alone (s : State) (n : Nat) : (s.drainTo n).alone = s.alone :=
  congrArg (fun e : List Env => (e.headD {}).between.isEmpty) (drainTo_env s n)

/-! ## Every store reaches the bus. -/

@[simp] theorem drainAll_pc (s : State) : (s.drainAll).pc = s.pc := drainTo_pc s 0
@[simp] theorem drainAll_psw (s : State) : (s.drainAll).psw = s.psw := drainTo_psw s 0
@[simp] theorem drainAll_config (s : State) : (s.drainAll).config = s.config := drainTo_config s 0
@[simp] theorem drainAll_sp (s : State) : (s.drainAll).sp = s.sp := drainTo_sp s 0
@[simp] theorem drainAll_msp (s : State) : (s.drainAll).msp = s.msp := drainTo_msp s 0
@[simp] theorem drainAll_isp (s : State) : (s.drainAll).isp = s.isp := drainTo_isp s 0
@[simp] theorem drainAll_shad (s : State) : (s.drainAll).shad = s.shad := drainTo_shad s 0
@[simp] theorem drainAll_vb (s : State) : (s.drainAll).vb = s.vb := drainTo_vb s 0
@[simp] theorem drainAll_stb (s : State) : (s.drainAll).stb = s.stb := drainTo_stb s 0
@[simp] theorem drainAll_fault (s : State) : (s.drainAll).fault = s.fault := drainTo_fault s 0
@[simp] theorem drainAll_timer1 (s : State) : (s.drainAll).timer1 = s.timer1 := drainTo_timer1 s 0
@[simp] theorem drainAll_timer2 (s : State) : (s.drainAll).timer2 = s.timer2 := drainTo_timer2 s 0
@[simp] theorem drainAll_sc (s : State) : (s.drainAll).sc = s.sc := drainTo_sc s 0
@[simp] theorem drainAll_textTlb (s : State) : (s.drainAll).textTlb = s.textTlb := drainTo_textTlb s 0
@[simp] theorem drainAll_dataTlb (s : State) : (s.drainAll).dataTlb = s.dataTlb := drainTo_dataTlb s 0
@[simp] theorem drainAll_textNpsr (s : State) : (s.drainAll).textNpsr = s.textNpsr := drainTo_textNpsr s 0
@[simp] theorem drainAll_dataNpsr (s : State) : (s.drainAll).dataNpsr = s.dataNpsr := drainTo_dataNpsr s 0
@[simp] theorem drainAll_pfb (s : State) : (s.drainAll).pfb = s.pfb := drainTo_pfb s 0
@[simp] theorem drainAll_ic (s : State) : (s.drainAll).ic = s.ic := drainTo_ic s 0
@[simp] theorem drainAll_ahead (s : State) : (s.drainAll).ahead = s.ahead := drainTo_ahead s 0
@[simp] theorem drainAll_prefetches (s : State) : (s.drainAll).prefetches = s.prefetches := drainTo_prefetches s 0
@[simp] theorem drainAll_lastIl (s : State) : (s.drainAll).lastIl = s.lastIl := drainTo_lastIl s 0
@[simp] theorem drainAll_nmiPending (s : State) : (s.drainAll).nmiPending = s.nmiPending := drainTo_nmiPending s 0
@[simp] theorem drainAll_t1Req (s : State) : (s.drainAll).t1Req = s.t1Req := drainTo_t1Req s 0
@[simp] theorem drainAll_t2Req (s : State) : (s.drainAll).t2Req = s.t2Req := drainTo_t2Req s 0
@[simp] theorem drainAll_tracePending (s : State) : (s.drainAll).tracePending = s.tracePending := drainTo_tracePending s 0
@[simp] theorem drainAll_folded (s : State) : (s.drainAll).folded = s.folded := drainTo_folded s 0
@[simp] theorem drainAll_oldSpace (s : State) : (s.drainAll).oldSpace = s.oldSpace := drainTo_oldSpace s 0
@[simp] theorem drainAll_recent (s : State) : (s.drainAll).recent = s.recent := drainTo_recent s 0
@[simp] theorem drainAll_hazard (s : State) : (s.drainAll).hazard = s.hazard := drainTo_hazard s 0
@[simp] theorem drainAll_event (s : State) : (s.drainAll).event = s.event := drainTo_event s 0
@[simp] theorem drainAll_draw (s : State) : (s.drainAll).draw = s.draw := drainTo_draw s 0
@[simp] theorem drainAll_board (s : State) : (s.drainAll).board = s.board := drainTo_board s 0
@[simp] theorem drainAll_env (s : State) : (s.drainAll).env = s.env := drainTo_env s 0
@[simp] theorem drainAll_alone (s : State) : (s.drainAll).alone = s.alone :=
  congrArg (fun e : List Env => (e.headD {}).between.isEmpty) (drainAll_env s)

/-! ## Lanes of a stack cache word. -/

@[simp] theorem scMerge_pc (s : State) (a m v : Word) : (s.scMerge a m v).pc = s.pc := rfl
@[simp] theorem scMerge_psw (s : State) (a m v : Word) : (s.scMerge a m v).psw = s.psw := rfl
@[simp] theorem scMerge_config (s : State) (a m v : Word) : (s.scMerge a m v).config = s.config := rfl
@[simp] theorem scMerge_sp (s : State) (a m v : Word) : (s.scMerge a m v).sp = s.sp := rfl
@[simp] theorem scMerge_msp (s : State) (a m v : Word) : (s.scMerge a m v).msp = s.msp := rfl
@[simp] theorem scMerge_isp (s : State) (a m v : Word) : (s.scMerge a m v).isp = s.isp := rfl
@[simp] theorem scMerge_shad (s : State) (a m v : Word) : (s.scMerge a m v).shad = s.shad := rfl
@[simp] theorem scMerge_vb (s : State) (a m v : Word) : (s.scMerge a m v).vb = s.vb := rfl
@[simp] theorem scMerge_stb (s : State) (a m v : Word) : (s.scMerge a m v).stb = s.stb := rfl
@[simp] theorem scMerge_fault (s : State) (a m v : Word) : (s.scMerge a m v).fault = s.fault := rfl
@[simp] theorem scMerge_timer1 (s : State) (a m v : Word) : (s.scMerge a m v).timer1 = s.timer1 := rfl
@[simp] theorem scMerge_timer2 (s : State) (a m v : Word) : (s.scMerge a m v).timer2 = s.timer2 := rfl
@[simp] theorem scMerge_mem (s : State) (a m v : Word) : (s.scMerge a m v).mem = s.mem := rfl
@[simp] theorem scMerge_storeBuf (s : State) (a m v : Word) : (s.scMerge a m v).storeBuf = s.storeBuf := rfl
@[simp] theorem scMerge_textTlb (s : State) (a m v : Word) : (s.scMerge a m v).textTlb = s.textTlb := rfl
@[simp] theorem scMerge_dataTlb (s : State) (a m v : Word) : (s.scMerge a m v).dataTlb = s.dataTlb := rfl
@[simp] theorem scMerge_textNpsr (s : State) (a m v : Word) : (s.scMerge a m v).textNpsr = s.textNpsr := rfl
@[simp] theorem scMerge_dataNpsr (s : State) (a m v : Word) : (s.scMerge a m v).dataNpsr = s.dataNpsr := rfl
@[simp] theorem scMerge_pfb (s : State) (a m v : Word) : (s.scMerge a m v).pfb = s.pfb := rfl
@[simp] theorem scMerge_ic (s : State) (a m v : Word) : (s.scMerge a m v).ic = s.ic := rfl
@[simp] theorem scMerge_ahead (s : State) (a m v : Word) : (s.scMerge a m v).ahead = s.ahead := rfl
@[simp] theorem scMerge_prefetches (s : State) (a m v : Word) : (s.scMerge a m v).prefetches = s.prefetches := rfl
@[simp] theorem scMerge_lastIl (s : State) (a m v : Word) : (s.scMerge a m v).lastIl = s.lastIl := rfl
@[simp] theorem scMerge_nmiPending (s : State) (a m v : Word) : (s.scMerge a m v).nmiPending = s.nmiPending := rfl
@[simp] theorem scMerge_t1Req (s : State) (a m v : Word) : (s.scMerge a m v).t1Req = s.t1Req := rfl
@[simp] theorem scMerge_t2Req (s : State) (a m v : Word) : (s.scMerge a m v).t2Req = s.t2Req := rfl
@[simp] theorem scMerge_tracePending (s : State) (a m v : Word) : (s.scMerge a m v).tracePending = s.tracePending := rfl
@[simp] theorem scMerge_lostStores (s : State) (a m v : Word) : (s.scMerge a m v).lostStores = s.lostStores := rfl
@[simp] theorem scMerge_folded (s : State) (a m v : Word) : (s.scMerge a m v).folded = s.folded := rfl
@[simp] theorem scMerge_oldSpace (s : State) (a m v : Word) : (s.scMerge a m v).oldSpace = s.oldSpace := rfl
@[simp] theorem scMerge_recent (s : State) (a m v : Word) : (s.scMerge a m v).recent = s.recent := rfl
@[simp] theorem scMerge_hazard (s : State) (a m v : Word) : (s.scMerge a m v).hazard = s.hazard := rfl
@[simp] theorem scMerge_event (s : State) (a m v : Word) : (s.scMerge a m v).event = s.event := rfl
@[simp] theorem scMerge_draw (s : State) (a m v : Word) : (s.scMerge a m v).draw = s.draw := rfl
@[simp] theorem scMerge_board (s : State) (a m v : Word) : (s.scMerge a m v).board = s.board := rfl
@[simp] theorem scMerge_env (s : State) (a m v : Word) : (s.scMerge a m v).env = s.env := rfl
@[simp] theorem scMerge_alone (s : State) (a m v : Word) : (s.scMerge a m v).alone = s.alone :=
  congrArg (fun e : List Env => (e.headD {}).between.isEmpty) (scMerge_env s a m v)

/-! ## Lanes of the word at a home. -/

@[simp] theorem homeWrite_pc (s : State) (h : Home) (m v : Word) : (s.homeWrite h m v).pc = s.pc :=
  (congrArg State.pc (homeWrite_eq s h m v) :)
@[simp] theorem homeWrite_psw (s : State) (h : Home) (m v : Word) : (s.homeWrite h m v).psw = s.psw :=
  (congrArg State.psw (homeWrite_eq s h m v) :)
@[simp] theorem homeWrite_config (s : State) (h : Home) (m v : Word) : (s.homeWrite h m v).config = s.config :=
  (congrArg State.config (homeWrite_eq s h m v) :)
@[simp] theorem homeWrite_sp (s : State) (h : Home) (m v : Word) : (s.homeWrite h m v).sp = s.sp :=
  (congrArg State.sp (homeWrite_eq s h m v) :)
@[simp] theorem homeWrite_msp (s : State) (h : Home) (m v : Word) : (s.homeWrite h m v).msp = s.msp :=
  (congrArg State.msp (homeWrite_eq s h m v) :)
@[simp] theorem homeWrite_isp (s : State) (h : Home) (m v : Word) : (s.homeWrite h m v).isp = s.isp :=
  (congrArg State.isp (homeWrite_eq s h m v) :)
@[simp] theorem homeWrite_shad (s : State) (h : Home) (m v : Word) : (s.homeWrite h m v).shad = s.shad :=
  (congrArg State.shad (homeWrite_eq s h m v) :)
@[simp] theorem homeWrite_vb (s : State) (h : Home) (m v : Word) : (s.homeWrite h m v).vb = s.vb :=
  (congrArg State.vb (homeWrite_eq s h m v) :)
@[simp] theorem homeWrite_stb (s : State) (h : Home) (m v : Word) : (s.homeWrite h m v).stb = s.stb :=
  (congrArg State.stb (homeWrite_eq s h m v) :)
@[simp] theorem homeWrite_fault (s : State) (h : Home) (m v : Word) : (s.homeWrite h m v).fault = s.fault :=
  (congrArg State.fault (homeWrite_eq s h m v) :)
@[simp] theorem homeWrite_timer1 (s : State) (h : Home) (m v : Word) : (s.homeWrite h m v).timer1 = s.timer1 :=
  (congrArg State.timer1 (homeWrite_eq s h m v) :)
@[simp] theorem homeWrite_timer2 (s : State) (h : Home) (m v : Word) : (s.homeWrite h m v).timer2 = s.timer2 :=
  (congrArg State.timer2 (homeWrite_eq s h m v) :)
@[simp] theorem homeWrite_mem (s : State) (h : Home) (m v : Word) : (s.homeWrite h m v).mem = s.mem :=
  (congrArg State.mem (homeWrite_eq s h m v) :)
@[simp] theorem homeWrite_textTlb (s : State) (h : Home) (m v : Word) : (s.homeWrite h m v).textTlb = s.textTlb :=
  (congrArg State.textTlb (homeWrite_eq s h m v) :)
@[simp] theorem homeWrite_dataTlb (s : State) (h : Home) (m v : Word) : (s.homeWrite h m v).dataTlb = s.dataTlb :=
  (congrArg State.dataTlb (homeWrite_eq s h m v) :)
@[simp] theorem homeWrite_textNpsr (s : State) (h : Home) (m v : Word) : (s.homeWrite h m v).textNpsr = s.textNpsr :=
  (congrArg State.textNpsr (homeWrite_eq s h m v) :)
@[simp] theorem homeWrite_dataNpsr (s : State) (h : Home) (m v : Word) : (s.homeWrite h m v).dataNpsr = s.dataNpsr :=
  (congrArg State.dataNpsr (homeWrite_eq s h m v) :)
@[simp] theorem homeWrite_pfb (s : State) (h : Home) (m v : Word) : (s.homeWrite h m v).pfb = s.pfb :=
  (congrArg State.pfb (homeWrite_eq s h m v) :)
@[simp] theorem homeWrite_ic (s : State) (h : Home) (m v : Word) : (s.homeWrite h m v).ic = s.ic :=
  (congrArg State.ic (homeWrite_eq s h m v) :)
@[simp] theorem homeWrite_ahead (s : State) (h : Home) (m v : Word) : (s.homeWrite h m v).ahead = s.ahead :=
  (congrArg State.ahead (homeWrite_eq s h m v) :)
@[simp] theorem homeWrite_prefetches (s : State) (h : Home) (m v : Word) : (s.homeWrite h m v).prefetches = s.prefetches :=
  (congrArg State.prefetches (homeWrite_eq s h m v) :)
@[simp] theorem homeWrite_lastIl (s : State) (h : Home) (m v : Word) : (s.homeWrite h m v).lastIl = s.lastIl :=
  (congrArg State.lastIl (homeWrite_eq s h m v) :)
@[simp] theorem homeWrite_nmiPending (s : State) (h : Home) (m v : Word) : (s.homeWrite h m v).nmiPending = s.nmiPending :=
  (congrArg State.nmiPending (homeWrite_eq s h m v) :)
@[simp] theorem homeWrite_t1Req (s : State) (h : Home) (m v : Word) : (s.homeWrite h m v).t1Req = s.t1Req :=
  (congrArg State.t1Req (homeWrite_eq s h m v) :)
@[simp] theorem homeWrite_t2Req (s : State) (h : Home) (m v : Word) : (s.homeWrite h m v).t2Req = s.t2Req :=
  (congrArg State.t2Req (homeWrite_eq s h m v) :)
@[simp] theorem homeWrite_tracePending (s : State) (h : Home) (m v : Word) : (s.homeWrite h m v).tracePending = s.tracePending :=
  (congrArg State.tracePending (homeWrite_eq s h m v) :)
@[simp] theorem homeWrite_lostStores (s : State) (h : Home) (m v : Word) : (s.homeWrite h m v).lostStores = s.lostStores :=
  (congrArg State.lostStores (homeWrite_eq s h m v) :)
@[simp] theorem homeWrite_folded (s : State) (h : Home) (m v : Word) : (s.homeWrite h m v).folded = s.folded :=
  (congrArg State.folded (homeWrite_eq s h m v) :)
@[simp] theorem homeWrite_oldSpace (s : State) (h : Home) (m v : Word) : (s.homeWrite h m v).oldSpace = s.oldSpace :=
  (congrArg State.oldSpace (homeWrite_eq s h m v) :)
@[simp] theorem homeWrite_recent (s : State) (h : Home) (m v : Word) : (s.homeWrite h m v).recent = s.recent :=
  (congrArg State.recent (homeWrite_eq s h m v) :)
@[simp] theorem homeWrite_hazard (s : State) (h : Home) (m v : Word) : (s.homeWrite h m v).hazard = s.hazard :=
  (congrArg State.hazard (homeWrite_eq s h m v) :)
@[simp] theorem homeWrite_event (s : State) (h : Home) (m v : Word) : (s.homeWrite h m v).event = s.event :=
  (congrArg State.event (homeWrite_eq s h m v) :)
@[simp] theorem homeWrite_draw (s : State) (h : Home) (m v : Word) : (s.homeWrite h m v).draw = s.draw :=
  (congrArg State.draw (homeWrite_eq s h m v) :)
@[simp] theorem homeWrite_board (s : State) (h : Home) (m v : Word) : (s.homeWrite h m v).board = s.board :=
  (congrArg State.board (homeWrite_eq s h m v) :)
@[simp] theorem homeWrite_env (s : State) (h : Home) (m v : Word) : (s.homeWrite h m v).env = s.env :=
  (congrArg State.env (homeWrite_eq s h m v) :)
@[simp] theorem homeWrite_alone (s : State) (h : Home) (m v : Word) : (s.homeWrite h m v).alone = s.alone :=
  congrArg (fun e : List Env => (e.headD {}).between.isEmpty) (homeWrite_env s h m v)

/-! ## A checked write. -/

@[simp] theorem commit_pc (s : State) (p : Slot) (v : Word) : (s.commit p v).pc = s.pc := homeWrite_pc s p.home p.mask _
@[simp] theorem commit_psw (s : State) (p : Slot) (v : Word) : (s.commit p v).psw = s.psw := homeWrite_psw s p.home p.mask _
@[simp] theorem commit_config (s : State) (p : Slot) (v : Word) : (s.commit p v).config = s.config :=
  homeWrite_config s p.home p.mask _
@[simp] theorem commit_sp (s : State) (p : Slot) (v : Word) : (s.commit p v).sp = s.sp := homeWrite_sp s p.home p.mask _
@[simp] theorem commit_msp (s : State) (p : Slot) (v : Word) : (s.commit p v).msp = s.msp := homeWrite_msp s p.home p.mask _
@[simp] theorem commit_isp (s : State) (p : Slot) (v : Word) : (s.commit p v).isp = s.isp := homeWrite_isp s p.home p.mask _
@[simp] theorem commit_shad (s : State) (p : Slot) (v : Word) : (s.commit p v).shad = s.shad :=
  homeWrite_shad s p.home p.mask _
@[simp] theorem commit_vb (s : State) (p : Slot) (v : Word) : (s.commit p v).vb = s.vb := homeWrite_vb s p.home p.mask _
@[simp] theorem commit_stb (s : State) (p : Slot) (v : Word) : (s.commit p v).stb = s.stb := homeWrite_stb s p.home p.mask _
@[simp] theorem commit_fault (s : State) (p : Slot) (v : Word) : (s.commit p v).fault = s.fault :=
  homeWrite_fault s p.home p.mask _
@[simp] theorem commit_timer1 (s : State) (p : Slot) (v : Word) : (s.commit p v).timer1 = s.timer1 :=
  homeWrite_timer1 s p.home p.mask _
@[simp] theorem commit_timer2 (s : State) (p : Slot) (v : Word) : (s.commit p v).timer2 = s.timer2 :=
  homeWrite_timer2 s p.home p.mask _
@[simp] theorem commit_mem (s : State) (p : Slot) (v : Word) : (s.commit p v).mem = s.mem := homeWrite_mem s p.home p.mask _
@[simp] theorem commit_textTlb (s : State) (p : Slot) (v : Word) : (s.commit p v).textTlb = s.textTlb :=
  homeWrite_textTlb s p.home p.mask _
@[simp] theorem commit_dataTlb (s : State) (p : Slot) (v : Word) : (s.commit p v).dataTlb = s.dataTlb :=
  homeWrite_dataTlb s p.home p.mask _
@[simp] theorem commit_textNpsr (s : State) (p : Slot) (v : Word) : (s.commit p v).textNpsr = s.textNpsr :=
  homeWrite_textNpsr s p.home p.mask _
@[simp] theorem commit_dataNpsr (s : State) (p : Slot) (v : Word) : (s.commit p v).dataNpsr = s.dataNpsr :=
  homeWrite_dataNpsr s p.home p.mask _
@[simp] theorem commit_pfb (s : State) (p : Slot) (v : Word) : (s.commit p v).pfb = s.pfb := homeWrite_pfb s p.home p.mask _
@[simp] theorem commit_ic (s : State) (p : Slot) (v : Word) : (s.commit p v).ic = s.ic := homeWrite_ic s p.home p.mask _
@[simp] theorem commit_ahead (s : State) (p : Slot) (v : Word) : (s.commit p v).ahead = s.ahead :=
  homeWrite_ahead s p.home p.mask _
@[simp] theorem commit_prefetches (s : State) (p : Slot) (v : Word) : (s.commit p v).prefetches = s.prefetches :=
  homeWrite_prefetches s p.home p.mask _
@[simp] theorem commit_lastIl (s : State) (p : Slot) (v : Word) : (s.commit p v).lastIl = s.lastIl :=
  homeWrite_lastIl s p.home p.mask _
@[simp] theorem commit_nmiPending (s : State) (p : Slot) (v : Word) : (s.commit p v).nmiPending = s.nmiPending :=
  homeWrite_nmiPending s p.home p.mask _
@[simp] theorem commit_t1Req (s : State) (p : Slot) (v : Word) : (s.commit p v).t1Req = s.t1Req :=
  homeWrite_t1Req s p.home p.mask _
@[simp] theorem commit_t2Req (s : State) (p : Slot) (v : Word) : (s.commit p v).t2Req = s.t2Req :=
  homeWrite_t2Req s p.home p.mask _
@[simp] theorem commit_tracePending (s : State) (p : Slot) (v : Word) : (s.commit p v).tracePending = s.tracePending :=
  homeWrite_tracePending s p.home p.mask _
@[simp] theorem commit_lostStores (s : State) (p : Slot) (v : Word) : (s.commit p v).lostStores = s.lostStores :=
  homeWrite_lostStores s p.home p.mask _
@[simp] theorem commit_folded (s : State) (p : Slot) (v : Word) : (s.commit p v).folded = s.folded :=
  homeWrite_folded s p.home p.mask _
@[simp] theorem commit_oldSpace (s : State) (p : Slot) (v : Word) : (s.commit p v).oldSpace = s.oldSpace :=
  homeWrite_oldSpace s p.home p.mask _
@[simp] theorem commit_recent (s : State) (p : Slot) (v : Word) : (s.commit p v).recent = s.recent :=
  homeWrite_recent s p.home p.mask _
@[simp] theorem commit_hazard (s : State) (p : Slot) (v : Word) : (s.commit p v).hazard = s.hazard :=
  homeWrite_hazard s p.home p.mask _
@[simp] theorem commit_event (s : State) (p : Slot) (v : Word) : (s.commit p v).event = s.event :=
  homeWrite_event s p.home p.mask _
@[simp] theorem commit_draw (s : State) (p : Slot) (v : Word) : (s.commit p v).draw = s.draw :=
  homeWrite_draw s p.home p.mask _
@[simp] theorem commit_board (s : State) (p : Slot) (v : Word) : (s.commit p v).board = s.board :=
  homeWrite_board s p.home p.mask _
@[simp] theorem commit_env (s : State) (p : Slot) (v : Word) : (s.commit p v).env = s.env := homeWrite_env s p.home p.mask _
@[simp] theorem commit_alone (s : State) (p : Slot) (v : Word) : (s.commit p v).alone = s.alone :=
  congrArg (fun e : List Env => (e.headD {}).between.isEmpty) (commit_env s p v)

/-! ## The flag hazard. -/

@[simp] theorem noteFlags_pc (s : State) (p : Psw) : (s.noteFlags p).pc = s.pc := rfl
@[simp] theorem noteFlags_psw (s : State) (p : Psw) : (s.noteFlags p).psw = s.psw := rfl
@[simp] theorem noteFlags_config (s : State) (p : Psw) : (s.noteFlags p).config = s.config := rfl
@[simp] theorem noteFlags_sp (s : State) (p : Psw) : (s.noteFlags p).sp = s.sp := rfl
@[simp] theorem noteFlags_msp (s : State) (p : Psw) : (s.noteFlags p).msp = s.msp := rfl
@[simp] theorem noteFlags_isp (s : State) (p : Psw) : (s.noteFlags p).isp = s.isp := rfl
@[simp] theorem noteFlags_shad (s : State) (p : Psw) : (s.noteFlags p).shad = s.shad := rfl
@[simp] theorem noteFlags_vb (s : State) (p : Psw) : (s.noteFlags p).vb = s.vb := rfl
@[simp] theorem noteFlags_stb (s : State) (p : Psw) : (s.noteFlags p).stb = s.stb := rfl
@[simp] theorem noteFlags_fault (s : State) (p : Psw) : (s.noteFlags p).fault = s.fault := rfl
@[simp] theorem noteFlags_timer1 (s : State) (p : Psw) : (s.noteFlags p).timer1 = s.timer1 := rfl
@[simp] theorem noteFlags_timer2 (s : State) (p : Psw) : (s.noteFlags p).timer2 = s.timer2 := rfl
@[simp] theorem noteFlags_sc (s : State) (p : Psw) : (s.noteFlags p).sc = s.sc := rfl
@[simp] theorem noteFlags_mem (s : State) (p : Psw) : (s.noteFlags p).mem = s.mem := rfl
@[simp] theorem noteFlags_storeBuf (s : State) (p : Psw) : (s.noteFlags p).storeBuf = s.storeBuf := rfl
@[simp] theorem noteFlags_textTlb (s : State) (p : Psw) : (s.noteFlags p).textTlb = s.textTlb := rfl
@[simp] theorem noteFlags_dataTlb (s : State) (p : Psw) : (s.noteFlags p).dataTlb = s.dataTlb := rfl
@[simp] theorem noteFlags_textNpsr (s : State) (p : Psw) : (s.noteFlags p).textNpsr = s.textNpsr := rfl
@[simp] theorem noteFlags_dataNpsr (s : State) (p : Psw) : (s.noteFlags p).dataNpsr = s.dataNpsr := rfl
@[simp] theorem noteFlags_pfb (s : State) (p : Psw) : (s.noteFlags p).pfb = s.pfb := rfl
@[simp] theorem noteFlags_ic (s : State) (p : Psw) : (s.noteFlags p).ic = s.ic := rfl
@[simp] theorem noteFlags_ahead (s : State) (p : Psw) : (s.noteFlags p).ahead = s.ahead := rfl
@[simp] theorem noteFlags_prefetches (s : State) (p : Psw) : (s.noteFlags p).prefetches = s.prefetches := rfl
@[simp] theorem noteFlags_lastIl (s : State) (p : Psw) : (s.noteFlags p).lastIl = s.lastIl := rfl
@[simp] theorem noteFlags_nmiPending (s : State) (p : Psw) : (s.noteFlags p).nmiPending = s.nmiPending := rfl
@[simp] theorem noteFlags_t1Req (s : State) (p : Psw) : (s.noteFlags p).t1Req = s.t1Req := rfl
@[simp] theorem noteFlags_t2Req (s : State) (p : Psw) : (s.noteFlags p).t2Req = s.t2Req := rfl
@[simp] theorem noteFlags_tracePending (s : State) (p : Psw) : (s.noteFlags p).tracePending = s.tracePending := rfl
@[simp] theorem noteFlags_lostStores (s : State) (p : Psw) : (s.noteFlags p).lostStores = s.lostStores := rfl
@[simp] theorem noteFlags_folded (s : State) (p : Psw) : (s.noteFlags p).folded = s.folded := rfl
@[simp] theorem noteFlags_oldSpace (s : State) (p : Psw) : (s.noteFlags p).oldSpace = s.oldSpace := rfl
@[simp] theorem noteFlags_recent (s : State) (p : Psw) : (s.noteFlags p).recent = s.recent := rfl
@[simp] theorem noteFlags_event (s : State) (p : Psw) : (s.noteFlags p).event = s.event := rfl
@[simp] theorem noteFlags_draw (s : State) (p : Psw) : (s.noteFlags p).draw = s.draw := rfl
@[simp] theorem noteFlags_board (s : State) (p : Psw) : (s.noteFlags p).board = s.board := rfl
@[simp] theorem noteFlags_env (s : State) (p : Psw) : (s.noteFlags p).env = s.env := rfl
@[simp] theorem noteFlags_alone (s : State) (p : Psw) : (s.noteFlags p).alone = s.alone :=
  congrArg (fun e : List Env => (e.headD {}).between.isEmpty) (noteFlags_env s p)

/-! ## The truncation hazards ended. -/

@[simp] theorem settleWides_pc (s : State) : (s.settleWides).pc = s.pc := rfl
@[simp] theorem settleWides_psw (s : State) : (s.settleWides).psw = s.psw := rfl
@[simp] theorem settleWides_config (s : State) : (s.settleWides).config = s.config := rfl
@[simp] theorem settleWides_sp (s : State) : (s.settleWides).sp = s.sp := rfl
@[simp] theorem settleWides_msp (s : State) : (s.settleWides).msp = s.msp := rfl
@[simp] theorem settleWides_isp (s : State) : (s.settleWides).isp = s.isp := rfl
@[simp] theorem settleWides_shad (s : State) : (s.settleWides).shad = s.shad := rfl
@[simp] theorem settleWides_vb (s : State) : (s.settleWides).vb = s.vb := rfl
@[simp] theorem settleWides_stb (s : State) : (s.settleWides).stb = s.stb := rfl
@[simp] theorem settleWides_fault (s : State) : (s.settleWides).fault = s.fault := rfl
@[simp] theorem settleWides_timer1 (s : State) : (s.settleWides).timer1 = s.timer1 := rfl
@[simp] theorem settleWides_timer2 (s : State) : (s.settleWides).timer2 = s.timer2 := rfl
@[simp] theorem settleWides_sc (s : State) : (s.settleWides).sc = s.sc := rfl
@[simp] theorem settleWides_mem (s : State) : (s.settleWides).mem = s.mem := rfl
@[simp] theorem settleWides_storeBuf (s : State) : (s.settleWides).storeBuf = s.storeBuf := rfl
@[simp] theorem settleWides_textTlb (s : State) : (s.settleWides).textTlb = s.textTlb := rfl
@[simp] theorem settleWides_dataTlb (s : State) : (s.settleWides).dataTlb = s.dataTlb := rfl
@[simp] theorem settleWides_textNpsr (s : State) : (s.settleWides).textNpsr = s.textNpsr := rfl
@[simp] theorem settleWides_dataNpsr (s : State) : (s.settleWides).dataNpsr = s.dataNpsr := rfl
@[simp] theorem settleWides_pfb (s : State) : (s.settleWides).pfb = s.pfb := rfl
@[simp] theorem settleWides_ic (s : State) : (s.settleWides).ic = s.ic := rfl
@[simp] theorem settleWides_ahead (s : State) : (s.settleWides).ahead = s.ahead := rfl
@[simp] theorem settleWides_prefetches (s : State) : (s.settleWides).prefetches = s.prefetches := rfl
@[simp] theorem settleWides_lastIl (s : State) : (s.settleWides).lastIl = s.lastIl := rfl
@[simp] theorem settleWides_nmiPending (s : State) : (s.settleWides).nmiPending = s.nmiPending := rfl
@[simp] theorem settleWides_t1Req (s : State) : (s.settleWides).t1Req = s.t1Req := rfl
@[simp] theorem settleWides_t2Req (s : State) : (s.settleWides).t2Req = s.t2Req := rfl
@[simp] theorem settleWides_tracePending (s : State) : (s.settleWides).tracePending = s.tracePending := rfl
@[simp] theorem settleWides_lostStores (s : State) : (s.settleWides).lostStores = s.lostStores := rfl
@[simp] theorem settleWides_folded (s : State) : (s.settleWides).folded = s.folded := rfl
@[simp] theorem settleWides_oldSpace (s : State) : (s.settleWides).oldSpace = s.oldSpace := rfl
@[simp] theorem settleWides_hazard (s : State) : (s.settleWides).hazard = s.hazard := rfl
@[simp] theorem settleWides_event (s : State) : (s.settleWides).event = s.event := rfl
@[simp] theorem settleWides_draw (s : State) : (s.settleWides).draw = s.draw := rfl
@[simp] theorem settleWides_board (s : State) : (s.settleWides).board = s.board := rfl
@[simp] theorem settleWides_env (s : State) : (s.settleWides).env = s.env := rfl
@[simp] theorem settleWides_alone (s : State) : (s.settleWides).alone = s.alone :=
  congrArg (fun e : List Env => (e.headD {}).between.isEmpty) (settleWides_env s)

/-! ## The flags an instruction writes. -/

@[simp] theorem setFlags_pc (s : State) (o : FlagOut) : (s.setFlags o).pc = s.pc := (congrArg State.pc (setFlags_eq s o) :)
@[simp] theorem setFlags_config (s : State) (o : FlagOut) : (s.setFlags o).config = s.config :=
  (congrArg State.config (setFlags_eq s o) :)
@[simp] theorem setFlags_sp (s : State) (o : FlagOut) : (s.setFlags o).sp = s.sp := (congrArg State.sp (setFlags_eq s o) :)
@[simp] theorem setFlags_msp (s : State) (o : FlagOut) : (s.setFlags o).msp = s.msp :=
  (congrArg State.msp (setFlags_eq s o) :)
@[simp] theorem setFlags_isp (s : State) (o : FlagOut) : (s.setFlags o).isp = s.isp :=
  (congrArg State.isp (setFlags_eq s o) :)
@[simp] theorem setFlags_shad (s : State) (o : FlagOut) : (s.setFlags o).shad = s.shad :=
  (congrArg State.shad (setFlags_eq s o) :)
@[simp] theorem setFlags_vb (s : State) (o : FlagOut) : (s.setFlags o).vb = s.vb := (congrArg State.vb (setFlags_eq s o) :)
@[simp] theorem setFlags_stb (s : State) (o : FlagOut) : (s.setFlags o).stb = s.stb :=
  (congrArg State.stb (setFlags_eq s o) :)
@[simp] theorem setFlags_fault (s : State) (o : FlagOut) : (s.setFlags o).fault = s.fault :=
  (congrArg State.fault (setFlags_eq s o) :)
@[simp] theorem setFlags_timer1 (s : State) (o : FlagOut) : (s.setFlags o).timer1 = s.timer1 :=
  (congrArg State.timer1 (setFlags_eq s o) :)
@[simp] theorem setFlags_timer2 (s : State) (o : FlagOut) : (s.setFlags o).timer2 = s.timer2 :=
  (congrArg State.timer2 (setFlags_eq s o) :)
@[simp] theorem setFlags_sc (s : State) (o : FlagOut) : (s.setFlags o).sc = s.sc := (congrArg State.sc (setFlags_eq s o) :)
@[simp] theorem setFlags_mem (s : State) (o : FlagOut) : (s.setFlags o).mem = s.mem :=
  (congrArg State.mem (setFlags_eq s o) :)
@[simp] theorem setFlags_storeBuf (s : State) (o : FlagOut) : (s.setFlags o).storeBuf = s.storeBuf :=
  (congrArg State.storeBuf (setFlags_eq s o) :)
@[simp] theorem setFlags_textTlb (s : State) (o : FlagOut) : (s.setFlags o).textTlb = s.textTlb :=
  (congrArg State.textTlb (setFlags_eq s o) :)
@[simp] theorem setFlags_dataTlb (s : State) (o : FlagOut) : (s.setFlags o).dataTlb = s.dataTlb :=
  (congrArg State.dataTlb (setFlags_eq s o) :)
@[simp] theorem setFlags_textNpsr (s : State) (o : FlagOut) : (s.setFlags o).textNpsr = s.textNpsr :=
  (congrArg State.textNpsr (setFlags_eq s o) :)
@[simp] theorem setFlags_dataNpsr (s : State) (o : FlagOut) : (s.setFlags o).dataNpsr = s.dataNpsr :=
  (congrArg State.dataNpsr (setFlags_eq s o) :)
@[simp] theorem setFlags_pfb (s : State) (o : FlagOut) : (s.setFlags o).pfb = s.pfb :=
  (congrArg State.pfb (setFlags_eq s o) :)
@[simp] theorem setFlags_ic (s : State) (o : FlagOut) : (s.setFlags o).ic = s.ic := (congrArg State.ic (setFlags_eq s o) :)
@[simp] theorem setFlags_ahead (s : State) (o : FlagOut) : (s.setFlags o).ahead = s.ahead :=
  (congrArg State.ahead (setFlags_eq s o) :)
@[simp] theorem setFlags_prefetches (s : State) (o : FlagOut) : (s.setFlags o).prefetches = s.prefetches :=
  (congrArg State.prefetches (setFlags_eq s o) :)
@[simp] theorem setFlags_lastIl (s : State) (o : FlagOut) : (s.setFlags o).lastIl = s.lastIl :=
  (congrArg State.lastIl (setFlags_eq s o) :)
@[simp] theorem setFlags_nmiPending (s : State) (o : FlagOut) : (s.setFlags o).nmiPending = s.nmiPending :=
  (congrArg State.nmiPending (setFlags_eq s o) :)
@[simp] theorem setFlags_t1Req (s : State) (o : FlagOut) : (s.setFlags o).t1Req = s.t1Req :=
  (congrArg State.t1Req (setFlags_eq s o) :)
@[simp] theorem setFlags_t2Req (s : State) (o : FlagOut) : (s.setFlags o).t2Req = s.t2Req :=
  (congrArg State.t2Req (setFlags_eq s o) :)
@[simp] theorem setFlags_tracePending (s : State) (o : FlagOut) : (s.setFlags o).tracePending = s.tracePending :=
  (congrArg State.tracePending (setFlags_eq s o) :)
@[simp] theorem setFlags_lostStores (s : State) (o : FlagOut) : (s.setFlags o).lostStores = s.lostStores :=
  (congrArg State.lostStores (setFlags_eq s o) :)
@[simp] theorem setFlags_folded (s : State) (o : FlagOut) : (s.setFlags o).folded = s.folded :=
  (congrArg State.folded (setFlags_eq s o) :)
@[simp] theorem setFlags_oldSpace (s : State) (o : FlagOut) : (s.setFlags o).oldSpace = s.oldSpace :=
  (congrArg State.oldSpace (setFlags_eq s o) :)
@[simp] theorem setFlags_recent (s : State) (o : FlagOut) : (s.setFlags o).recent = s.recent :=
  (congrArg State.recent (setFlags_eq s o) :)
@[simp] theorem setFlags_event (s : State) (o : FlagOut) : (s.setFlags o).event = s.event :=
  (congrArg State.event (setFlags_eq s o) :)
@[simp] theorem setFlags_draw (s : State) (o : FlagOut) : (s.setFlags o).draw = s.draw :=
  (congrArg State.draw (setFlags_eq s o) :)
@[simp] theorem setFlags_board (s : State) (o : FlagOut) : (s.setFlags o).board = s.board :=
  (congrArg State.board (setFlags_eq s o) :)
@[simp] theorem setFlags_env (s : State) (o : FlagOut) : (s.setFlags o).env = s.env :=
  (congrArg State.env (setFlags_eq s o) :)
@[simp] theorem setFlags_alone (s : State) (o : FlagOut) : (s.setFlags o).alone = s.alone :=
  congrArg (fun e : List Env => (e.headD {}).between.isEmpty) (setFlags_env s o)

/-! ## The truncation hazard. -/

@[simp] theorem noteWide_pc (s : State) (op : DyOp) (d : Opd) (v : Word) : (s.noteWide op d v).pc = s.pc :=
  (congrArg State.pc (noteWide_eq s op d v) :)
@[simp] theorem noteWide_psw (s : State) (op : DyOp) (d : Opd) (v : Word) : (s.noteWide op d v).psw = s.psw :=
  (congrArg State.psw (noteWide_eq s op d v) :)
@[simp] theorem noteWide_config (s : State) (op : DyOp) (d : Opd) (v : Word) : (s.noteWide op d v).config = s.config :=
  (congrArg State.config (noteWide_eq s op d v) :)
@[simp] theorem noteWide_sp (s : State) (op : DyOp) (d : Opd) (v : Word) : (s.noteWide op d v).sp = s.sp :=
  (congrArg State.sp (noteWide_eq s op d v) :)
@[simp] theorem noteWide_msp (s : State) (op : DyOp) (d : Opd) (v : Word) : (s.noteWide op d v).msp = s.msp :=
  (congrArg State.msp (noteWide_eq s op d v) :)
@[simp] theorem noteWide_isp (s : State) (op : DyOp) (d : Opd) (v : Word) : (s.noteWide op d v).isp = s.isp :=
  (congrArg State.isp (noteWide_eq s op d v) :)
@[simp] theorem noteWide_shad (s : State) (op : DyOp) (d : Opd) (v : Word) : (s.noteWide op d v).shad = s.shad :=
  (congrArg State.shad (noteWide_eq s op d v) :)
@[simp] theorem noteWide_vb (s : State) (op : DyOp) (d : Opd) (v : Word) : (s.noteWide op d v).vb = s.vb :=
  (congrArg State.vb (noteWide_eq s op d v) :)
@[simp] theorem noteWide_stb (s : State) (op : DyOp) (d : Opd) (v : Word) : (s.noteWide op d v).stb = s.stb :=
  (congrArg State.stb (noteWide_eq s op d v) :)
@[simp] theorem noteWide_fault (s : State) (op : DyOp) (d : Opd) (v : Word) : (s.noteWide op d v).fault = s.fault :=
  (congrArg State.fault (noteWide_eq s op d v) :)
@[simp] theorem noteWide_timer1 (s : State) (op : DyOp) (d : Opd) (v : Word) : (s.noteWide op d v).timer1 = s.timer1 :=
  (congrArg State.timer1 (noteWide_eq s op d v) :)
@[simp] theorem noteWide_timer2 (s : State) (op : DyOp) (d : Opd) (v : Word) : (s.noteWide op d v).timer2 = s.timer2 :=
  (congrArg State.timer2 (noteWide_eq s op d v) :)
@[simp] theorem noteWide_sc (s : State) (op : DyOp) (d : Opd) (v : Word) : (s.noteWide op d v).sc = s.sc :=
  (congrArg State.sc (noteWide_eq s op d v) :)
@[simp] theorem noteWide_mem (s : State) (op : DyOp) (d : Opd) (v : Word) : (s.noteWide op d v).mem = s.mem :=
  (congrArg State.mem (noteWide_eq s op d v) :)
@[simp] theorem noteWide_storeBuf (s : State) (op : DyOp) (d : Opd) (v : Word) : (s.noteWide op d v).storeBuf = s.storeBuf :=
  (congrArg State.storeBuf (noteWide_eq s op d v) :)
@[simp] theorem noteWide_textTlb (s : State) (op : DyOp) (d : Opd) (v : Word) : (s.noteWide op d v).textTlb = s.textTlb :=
  (congrArg State.textTlb (noteWide_eq s op d v) :)
@[simp] theorem noteWide_dataTlb (s : State) (op : DyOp) (d : Opd) (v : Word) : (s.noteWide op d v).dataTlb = s.dataTlb :=
  (congrArg State.dataTlb (noteWide_eq s op d v) :)
@[simp] theorem noteWide_textNpsr (s : State) (op : DyOp) (d : Opd) (v : Word) : (s.noteWide op d v).textNpsr = s.textNpsr :=
  (congrArg State.textNpsr (noteWide_eq s op d v) :)
@[simp] theorem noteWide_dataNpsr (s : State) (op : DyOp) (d : Opd) (v : Word) : (s.noteWide op d v).dataNpsr = s.dataNpsr :=
  (congrArg State.dataNpsr (noteWide_eq s op d v) :)
@[simp] theorem noteWide_pfb (s : State) (op : DyOp) (d : Opd) (v : Word) : (s.noteWide op d v).pfb = s.pfb :=
  (congrArg State.pfb (noteWide_eq s op d v) :)
@[simp] theorem noteWide_ic (s : State) (op : DyOp) (d : Opd) (v : Word) : (s.noteWide op d v).ic = s.ic :=
  (congrArg State.ic (noteWide_eq s op d v) :)
@[simp] theorem noteWide_ahead (s : State) (op : DyOp) (d : Opd) (v : Word) : (s.noteWide op d v).ahead = s.ahead :=
  (congrArg State.ahead (noteWide_eq s op d v) :)
@[simp] theorem noteWide_prefetches (s : State) (op : DyOp) (d : Opd) (v : Word) : (s.noteWide op d v).prefetches = s.prefetches :=
  (congrArg State.prefetches (noteWide_eq s op d v) :)
@[simp] theorem noteWide_lastIl (s : State) (op : DyOp) (d : Opd) (v : Word) : (s.noteWide op d v).lastIl = s.lastIl :=
  (congrArg State.lastIl (noteWide_eq s op d v) :)
@[simp] theorem noteWide_nmiPending (s : State) (op : DyOp) (d : Opd) (v : Word) : (s.noteWide op d v).nmiPending = s.nmiPending :=
  (congrArg State.nmiPending (noteWide_eq s op d v) :)
@[simp] theorem noteWide_t1Req (s : State) (op : DyOp) (d : Opd) (v : Word) : (s.noteWide op d v).t1Req = s.t1Req :=
  (congrArg State.t1Req (noteWide_eq s op d v) :)
@[simp] theorem noteWide_t2Req (s : State) (op : DyOp) (d : Opd) (v : Word) : (s.noteWide op d v).t2Req = s.t2Req :=
  (congrArg State.t2Req (noteWide_eq s op d v) :)
@[simp] theorem noteWide_tracePending (s : State) (op : DyOp) (d : Opd) (v : Word) : (s.noteWide op d v).tracePending = s.tracePending :=
  (congrArg State.tracePending (noteWide_eq s op d v) :)
@[simp] theorem noteWide_lostStores (s : State) (op : DyOp) (d : Opd) (v : Word) : (s.noteWide op d v).lostStores = s.lostStores :=
  (congrArg State.lostStores (noteWide_eq s op d v) :)
@[simp] theorem noteWide_folded (s : State) (op : DyOp) (d : Opd) (v : Word) : (s.noteWide op d v).folded = s.folded :=
  (congrArg State.folded (noteWide_eq s op d v) :)
@[simp] theorem noteWide_oldSpace (s : State) (op : DyOp) (d : Opd) (v : Word) : (s.noteWide op d v).oldSpace = s.oldSpace :=
  (congrArg State.oldSpace (noteWide_eq s op d v) :)
@[simp] theorem noteWide_recent (s : State) (op : DyOp) (d : Opd) (v : Word) : (s.noteWide op d v).recent = s.recent :=
  (congrArg State.recent (noteWide_eq s op d v) :)
@[simp] theorem noteWide_event (s : State) (op : DyOp) (d : Opd) (v : Word) : (s.noteWide op d v).event = s.event :=
  (congrArg State.event (noteWide_eq s op d v) :)
@[simp] theorem noteWide_draw (s : State) (op : DyOp) (d : Opd) (v : Word) : (s.noteWide op d v).draw = s.draw :=
  (congrArg State.draw (noteWide_eq s op d v) :)
@[simp] theorem noteWide_board (s : State) (op : DyOp) (d : Opd) (v : Word) : (s.noteWide op d v).board = s.board :=
  (congrArg State.board (noteWide_eq s op d v) :)
@[simp] theorem noteWide_env (s : State) (op : DyOp) (d : Opd) (v : Word) : (s.noteWide op d v).env = s.env :=
  (congrArg State.env (noteWide_eq s op d v) :)
@[simp] theorem noteWide_alone (s : State) (op : DyOp) (d : Opd) (v : Word) : (s.noteWide op d v).alone = s.alone :=
  congrArg (fun e : List Env => (e.headD {}).between.isEmpty) (noteWide_env s op d v)

/-! ## The current stack pointer. -/

@[simp] theorem setCsp_pc (s : State) (v : Word) : (s.setCsp v).pc = s.pc := (congrArg State.pc (setCsp_eq s v) :)
@[simp] theorem setCsp_psw (s : State) (v : Word) : (s.setCsp v).psw = s.psw := (congrArg State.psw (setCsp_eq s v) :)
@[simp] theorem setCsp_config (s : State) (v : Word) : (s.setCsp v).config = s.config :=
  (congrArg State.config (setCsp_eq s v) :)
@[simp] theorem setCsp_msp (s : State) (v : Word) : (s.setCsp v).msp = s.msp := (congrArg State.msp (setCsp_eq s v) :)
@[simp] theorem setCsp_shad (s : State) (v : Word) : (s.setCsp v).shad = s.shad := (congrArg State.shad (setCsp_eq s v) :)
@[simp] theorem setCsp_vb (s : State) (v : Word) : (s.setCsp v).vb = s.vb := (congrArg State.vb (setCsp_eq s v) :)
@[simp] theorem setCsp_stb (s : State) (v : Word) : (s.setCsp v).stb = s.stb := (congrArg State.stb (setCsp_eq s v) :)
@[simp] theorem setCsp_fault (s : State) (v : Word) : (s.setCsp v).fault = s.fault :=
  (congrArg State.fault (setCsp_eq s v) :)
@[simp] theorem setCsp_timer1 (s : State) (v : Word) : (s.setCsp v).timer1 = s.timer1 :=
  (congrArg State.timer1 (setCsp_eq s v) :)
@[simp] theorem setCsp_timer2 (s : State) (v : Word) : (s.setCsp v).timer2 = s.timer2 :=
  (congrArg State.timer2 (setCsp_eq s v) :)
@[simp] theorem setCsp_sc (s : State) (v : Word) : (s.setCsp v).sc = s.sc := (congrArg State.sc (setCsp_eq s v) :)
@[simp] theorem setCsp_mem (s : State) (v : Word) : (s.setCsp v).mem = s.mem := (congrArg State.mem (setCsp_eq s v) :)
@[simp] theorem setCsp_storeBuf (s : State) (v : Word) : (s.setCsp v).storeBuf = s.storeBuf :=
  (congrArg State.storeBuf (setCsp_eq s v) :)
@[simp] theorem setCsp_textTlb (s : State) (v : Word) : (s.setCsp v).textTlb = s.textTlb :=
  (congrArg State.textTlb (setCsp_eq s v) :)
@[simp] theorem setCsp_dataTlb (s : State) (v : Word) : (s.setCsp v).dataTlb = s.dataTlb :=
  (congrArg State.dataTlb (setCsp_eq s v) :)
@[simp] theorem setCsp_textNpsr (s : State) (v : Word) : (s.setCsp v).textNpsr = s.textNpsr :=
  (congrArg State.textNpsr (setCsp_eq s v) :)
@[simp] theorem setCsp_dataNpsr (s : State) (v : Word) : (s.setCsp v).dataNpsr = s.dataNpsr :=
  (congrArg State.dataNpsr (setCsp_eq s v) :)
@[simp] theorem setCsp_pfb (s : State) (v : Word) : (s.setCsp v).pfb = s.pfb := (congrArg State.pfb (setCsp_eq s v) :)
@[simp] theorem setCsp_ic (s : State) (v : Word) : (s.setCsp v).ic = s.ic := (congrArg State.ic (setCsp_eq s v) :)
@[simp] theorem setCsp_ahead (s : State) (v : Word) : (s.setCsp v).ahead = s.ahead :=
  (congrArg State.ahead (setCsp_eq s v) :)
@[simp] theorem setCsp_prefetches (s : State) (v : Word) : (s.setCsp v).prefetches = s.prefetches :=
  (congrArg State.prefetches (setCsp_eq s v) :)
@[simp] theorem setCsp_lastIl (s : State) (v : Word) : (s.setCsp v).lastIl = s.lastIl :=
  (congrArg State.lastIl (setCsp_eq s v) :)
@[simp] theorem setCsp_nmiPending (s : State) (v : Word) : (s.setCsp v).nmiPending = s.nmiPending :=
  (congrArg State.nmiPending (setCsp_eq s v) :)
@[simp] theorem setCsp_t1Req (s : State) (v : Word) : (s.setCsp v).t1Req = s.t1Req :=
  (congrArg State.t1Req (setCsp_eq s v) :)
@[simp] theorem setCsp_t2Req (s : State) (v : Word) : (s.setCsp v).t2Req = s.t2Req :=
  (congrArg State.t2Req (setCsp_eq s v) :)
@[simp] theorem setCsp_tracePending (s : State) (v : Word) : (s.setCsp v).tracePending = s.tracePending :=
  (congrArg State.tracePending (setCsp_eq s v) :)
@[simp] theorem setCsp_lostStores (s : State) (v : Word) : (s.setCsp v).lostStores = s.lostStores :=
  (congrArg State.lostStores (setCsp_eq s v) :)
@[simp] theorem setCsp_folded (s : State) (v : Word) : (s.setCsp v).folded = s.folded :=
  (congrArg State.folded (setCsp_eq s v) :)
@[simp] theorem setCsp_oldSpace (s : State) (v : Word) : (s.setCsp v).oldSpace = s.oldSpace :=
  (congrArg State.oldSpace (setCsp_eq s v) :)
@[simp] theorem setCsp_recent (s : State) (v : Word) : (s.setCsp v).recent = s.recent :=
  (congrArg State.recent (setCsp_eq s v) :)
@[simp] theorem setCsp_hazard (s : State) (v : Word) : (s.setCsp v).hazard = s.hazard :=
  (congrArg State.hazard (setCsp_eq s v) :)
@[simp] theorem setCsp_event (s : State) (v : Word) : (s.setCsp v).event = s.event :=
  (congrArg State.event (setCsp_eq s v) :)
@[simp] theorem setCsp_draw (s : State) (v : Word) : (s.setCsp v).draw = s.draw := (congrArg State.draw (setCsp_eq s v) :)
@[simp] theorem setCsp_board (s : State) (v : Word) : (s.setCsp v).board = s.board :=
  (congrArg State.board (setCsp_eq s v) :)
@[simp] theorem setCsp_env (s : State) (v : Word) : (s.setCsp v).env = s.env := (congrArg State.env (setCsp_eq s v) :)
@[simp] theorem setCsp_alone (s : State) (v : Word) : (s.setCsp v).alone = s.alone :=
  congrArg (fun e : List Env => (e.headD {}).between.isEmpty) (setCsp_env s v)

/-! ## Stack cache words with no defined value. -/

@[simp] theorem scForget_pc (s : State) (lo : Word) (n : Nat) : (s.scForget lo n).pc = s.pc :=
  (congrArg State.pc (scForget_eq s lo n) :)
@[simp] theorem scForget_psw (s : State) (lo : Word) (n : Nat) : (s.scForget lo n).psw = s.psw :=
  (congrArg State.psw (scForget_eq s lo n) :)
@[simp] theorem scForget_config (s : State) (lo : Word) (n : Nat) : (s.scForget lo n).config = s.config :=
  (congrArg State.config (scForget_eq s lo n) :)
@[simp] theorem scForget_sp (s : State) (lo : Word) (n : Nat) : (s.scForget lo n).sp = s.sp :=
  (congrArg State.sp (scForget_eq s lo n) :)
@[simp] theorem scForget_msp (s : State) (lo : Word) (n : Nat) : (s.scForget lo n).msp = s.msp :=
  (congrArg State.msp (scForget_eq s lo n) :)
@[simp] theorem scForget_isp (s : State) (lo : Word) (n : Nat) : (s.scForget lo n).isp = s.isp :=
  (congrArg State.isp (scForget_eq s lo n) :)
@[simp] theorem scForget_shad (s : State) (lo : Word) (n : Nat) : (s.scForget lo n).shad = s.shad :=
  (congrArg State.shad (scForget_eq s lo n) :)
@[simp] theorem scForget_vb (s : State) (lo : Word) (n : Nat) : (s.scForget lo n).vb = s.vb :=
  (congrArg State.vb (scForget_eq s lo n) :)
@[simp] theorem scForget_stb (s : State) (lo : Word) (n : Nat) : (s.scForget lo n).stb = s.stb :=
  (congrArg State.stb (scForget_eq s lo n) :)
@[simp] theorem scForget_fault (s : State) (lo : Word) (n : Nat) : (s.scForget lo n).fault = s.fault :=
  (congrArg State.fault (scForget_eq s lo n) :)
@[simp] theorem scForget_timer1 (s : State) (lo : Word) (n : Nat) : (s.scForget lo n).timer1 = s.timer1 :=
  (congrArg State.timer1 (scForget_eq s lo n) :)
@[simp] theorem scForget_timer2 (s : State) (lo : Word) (n : Nat) : (s.scForget lo n).timer2 = s.timer2 :=
  (congrArg State.timer2 (scForget_eq s lo n) :)
@[simp] theorem scForget_mem (s : State) (lo : Word) (n : Nat) : (s.scForget lo n).mem = s.mem :=
  (congrArg State.mem (scForget_eq s lo n) :)
@[simp] theorem scForget_storeBuf (s : State) (lo : Word) (n : Nat) : (s.scForget lo n).storeBuf = s.storeBuf :=
  (congrArg State.storeBuf (scForget_eq s lo n) :)
@[simp] theorem scForget_textTlb (s : State) (lo : Word) (n : Nat) : (s.scForget lo n).textTlb = s.textTlb :=
  (congrArg State.textTlb (scForget_eq s lo n) :)
@[simp] theorem scForget_dataTlb (s : State) (lo : Word) (n : Nat) : (s.scForget lo n).dataTlb = s.dataTlb :=
  (congrArg State.dataTlb (scForget_eq s lo n) :)
@[simp] theorem scForget_textNpsr (s : State) (lo : Word) (n : Nat) : (s.scForget lo n).textNpsr = s.textNpsr :=
  (congrArg State.textNpsr (scForget_eq s lo n) :)
@[simp] theorem scForget_dataNpsr (s : State) (lo : Word) (n : Nat) : (s.scForget lo n).dataNpsr = s.dataNpsr :=
  (congrArg State.dataNpsr (scForget_eq s lo n) :)
@[simp] theorem scForget_pfb (s : State) (lo : Word) (n : Nat) : (s.scForget lo n).pfb = s.pfb :=
  (congrArg State.pfb (scForget_eq s lo n) :)
@[simp] theorem scForget_ic (s : State) (lo : Word) (n : Nat) : (s.scForget lo n).ic = s.ic :=
  (congrArg State.ic (scForget_eq s lo n) :)
@[simp] theorem scForget_ahead (s : State) (lo : Word) (n : Nat) : (s.scForget lo n).ahead = s.ahead :=
  (congrArg State.ahead (scForget_eq s lo n) :)
@[simp] theorem scForget_prefetches (s : State) (lo : Word) (n : Nat) : (s.scForget lo n).prefetches = s.prefetches :=
  (congrArg State.prefetches (scForget_eq s lo n) :)
@[simp] theorem scForget_lastIl (s : State) (lo : Word) (n : Nat) : (s.scForget lo n).lastIl = s.lastIl :=
  (congrArg State.lastIl (scForget_eq s lo n) :)
@[simp] theorem scForget_nmiPending (s : State) (lo : Word) (n : Nat) : (s.scForget lo n).nmiPending = s.nmiPending :=
  (congrArg State.nmiPending (scForget_eq s lo n) :)
@[simp] theorem scForget_t1Req (s : State) (lo : Word) (n : Nat) : (s.scForget lo n).t1Req = s.t1Req :=
  (congrArg State.t1Req (scForget_eq s lo n) :)
@[simp] theorem scForget_t2Req (s : State) (lo : Word) (n : Nat) : (s.scForget lo n).t2Req = s.t2Req :=
  (congrArg State.t2Req (scForget_eq s lo n) :)
@[simp] theorem scForget_tracePending (s : State) (lo : Word) (n : Nat) : (s.scForget lo n).tracePending = s.tracePending :=
  (congrArg State.tracePending (scForget_eq s lo n) :)
@[simp] theorem scForget_lostStores (s : State) (lo : Word) (n : Nat) : (s.scForget lo n).lostStores = s.lostStores :=
  (congrArg State.lostStores (scForget_eq s lo n) :)
@[simp] theorem scForget_folded (s : State) (lo : Word) (n : Nat) : (s.scForget lo n).folded = s.folded :=
  (congrArg State.folded (scForget_eq s lo n) :)
@[simp] theorem scForget_oldSpace (s : State) (lo : Word) (n : Nat) : (s.scForget lo n).oldSpace = s.oldSpace :=
  (congrArg State.oldSpace (scForget_eq s lo n) :)
@[simp] theorem scForget_recent (s : State) (lo : Word) (n : Nat) : (s.scForget lo n).recent = s.recent :=
  (congrArg State.recent (scForget_eq s lo n) :)
@[simp] theorem scForget_hazard (s : State) (lo : Word) (n : Nat) : (s.scForget lo n).hazard = s.hazard :=
  (congrArg State.hazard (scForget_eq s lo n) :)
@[simp] theorem scForget_event (s : State) (lo : Word) (n : Nat) : (s.scForget lo n).event = s.event :=
  (congrArg State.event (scForget_eq s lo n) :)
@[simp] theorem scForget_board (s : State) (lo : Word) (n : Nat) : (s.scForget lo n).board = s.board :=
  (congrArg State.board (scForget_eq s lo n) :)
@[simp] theorem scForget_env (s : State) (lo : Word) (n : Nat) : (s.scForget lo n).env = s.env :=
  (congrArg State.env (scForget_eq s lo n) :)
@[simp] theorem scForget_alone (s : State) (lo : Word) (n : Nat) : (s.scForget lo n).alone = s.alone :=
  congrArg (fun e : List Env => (e.headD {}).between.isEmpty) (scForget_env s lo n)

/-! ## SP about to fall. -/

@[simp] theorem lowerSp_pc (s : State) (v m : Word) : (s.lowerSp v m).pc = s.pc := (congrArg State.pc (lowerSp_eq s v m) :)
@[simp] theorem lowerSp_psw (s : State) (v m : Word) : (s.lowerSp v m).psw = s.psw :=
  (congrArg State.psw (lowerSp_eq s v m) :)
@[simp] theorem lowerSp_config (s : State) (v m : Word) : (s.lowerSp v m).config = s.config :=
  (congrArg State.config (lowerSp_eq s v m) :)
@[simp] theorem lowerSp_sp (s : State) (v m : Word) : (s.lowerSp v m).sp = s.sp := (congrArg State.sp (lowerSp_eq s v m) :)
@[simp] theorem lowerSp_msp (s : State) (v m : Word) : (s.lowerSp v m).msp = s.msp :=
  (congrArg State.msp (lowerSp_eq s v m) :)
@[simp] theorem lowerSp_isp (s : State) (v m : Word) : (s.lowerSp v m).isp = s.isp :=
  (congrArg State.isp (lowerSp_eq s v m) :)
@[simp] theorem lowerSp_shad (s : State) (v m : Word) : (s.lowerSp v m).shad = s.shad :=
  (congrArg State.shad (lowerSp_eq s v m) :)
@[simp] theorem lowerSp_vb (s : State) (v m : Word) : (s.lowerSp v m).vb = s.vb := (congrArg State.vb (lowerSp_eq s v m) :)
@[simp] theorem lowerSp_stb (s : State) (v m : Word) : (s.lowerSp v m).stb = s.stb :=
  (congrArg State.stb (lowerSp_eq s v m) :)
@[simp] theorem lowerSp_fault (s : State) (v m : Word) : (s.lowerSp v m).fault = s.fault :=
  (congrArg State.fault (lowerSp_eq s v m) :)
@[simp] theorem lowerSp_timer1 (s : State) (v m : Word) : (s.lowerSp v m).timer1 = s.timer1 :=
  (congrArg State.timer1 (lowerSp_eq s v m) :)
@[simp] theorem lowerSp_timer2 (s : State) (v m : Word) : (s.lowerSp v m).timer2 = s.timer2 :=
  (congrArg State.timer2 (lowerSp_eq s v m) :)
@[simp] theorem lowerSp_mem (s : State) (v m : Word) : (s.lowerSp v m).mem = s.mem :=
  (congrArg State.mem (lowerSp_eq s v m) :)
@[simp] theorem lowerSp_storeBuf (s : State) (v m : Word) : (s.lowerSp v m).storeBuf = s.storeBuf :=
  (congrArg State.storeBuf (lowerSp_eq s v m) :)
@[simp] theorem lowerSp_textTlb (s : State) (v m : Word) : (s.lowerSp v m).textTlb = s.textTlb :=
  (congrArg State.textTlb (lowerSp_eq s v m) :)
@[simp] theorem lowerSp_dataTlb (s : State) (v m : Word) : (s.lowerSp v m).dataTlb = s.dataTlb :=
  (congrArg State.dataTlb (lowerSp_eq s v m) :)
@[simp] theorem lowerSp_textNpsr (s : State) (v m : Word) : (s.lowerSp v m).textNpsr = s.textNpsr :=
  (congrArg State.textNpsr (lowerSp_eq s v m) :)
@[simp] theorem lowerSp_dataNpsr (s : State) (v m : Word) : (s.lowerSp v m).dataNpsr = s.dataNpsr :=
  (congrArg State.dataNpsr (lowerSp_eq s v m) :)
@[simp] theorem lowerSp_pfb (s : State) (v m : Word) : (s.lowerSp v m).pfb = s.pfb :=
  (congrArg State.pfb (lowerSp_eq s v m) :)
@[simp] theorem lowerSp_ic (s : State) (v m : Word) : (s.lowerSp v m).ic = s.ic := (congrArg State.ic (lowerSp_eq s v m) :)
@[simp] theorem lowerSp_ahead (s : State) (v m : Word) : (s.lowerSp v m).ahead = s.ahead :=
  (congrArg State.ahead (lowerSp_eq s v m) :)
@[simp] theorem lowerSp_prefetches (s : State) (v m : Word) : (s.lowerSp v m).prefetches = s.prefetches :=
  (congrArg State.prefetches (lowerSp_eq s v m) :)
@[simp] theorem lowerSp_lastIl (s : State) (v m : Word) : (s.lowerSp v m).lastIl = s.lastIl :=
  (congrArg State.lastIl (lowerSp_eq s v m) :)
@[simp] theorem lowerSp_nmiPending (s : State) (v m : Word) : (s.lowerSp v m).nmiPending = s.nmiPending :=
  (congrArg State.nmiPending (lowerSp_eq s v m) :)
@[simp] theorem lowerSp_t1Req (s : State) (v m : Word) : (s.lowerSp v m).t1Req = s.t1Req :=
  (congrArg State.t1Req (lowerSp_eq s v m) :)
@[simp] theorem lowerSp_t2Req (s : State) (v m : Word) : (s.lowerSp v m).t2Req = s.t2Req :=
  (congrArg State.t2Req (lowerSp_eq s v m) :)
@[simp] theorem lowerSp_tracePending (s : State) (v m : Word) : (s.lowerSp v m).tracePending = s.tracePending :=
  (congrArg State.tracePending (lowerSp_eq s v m) :)
@[simp] theorem lowerSp_lostStores (s : State) (v m : Word) : (s.lowerSp v m).lostStores = s.lostStores :=
  (congrArg State.lostStores (lowerSp_eq s v m) :)
@[simp] theorem lowerSp_folded (s : State) (v m : Word) : (s.lowerSp v m).folded = s.folded :=
  (congrArg State.folded (lowerSp_eq s v m) :)
@[simp] theorem lowerSp_oldSpace (s : State) (v m : Word) : (s.lowerSp v m).oldSpace = s.oldSpace :=
  (congrArg State.oldSpace (lowerSp_eq s v m) :)
@[simp] theorem lowerSp_recent (s : State) (v m : Word) : (s.lowerSp v m).recent = s.recent :=
  (congrArg State.recent (lowerSp_eq s v m) :)
@[simp] theorem lowerSp_hazard (s : State) (v m : Word) : (s.lowerSp v m).hazard = s.hazard :=
  (congrArg State.hazard (lowerSp_eq s v m) :)
@[simp] theorem lowerSp_event (s : State) (v m : Word) : (s.lowerSp v m).event = s.event :=
  (congrArg State.event (lowerSp_eq s v m) :)
@[simp] theorem lowerSp_board (s : State) (v m : Word) : (s.lowerSp v m).board = s.board :=
  (congrArg State.board (lowerSp_eq s v m) :)
@[simp] theorem lowerSp_env (s : State) (v m : Word) : (s.lowerSp v m).env = s.env :=
  (congrArg State.env (lowerSp_eq s v m) :)
@[simp] theorem lowerSp_alone (s : State) (v m : Word) : (s.lowerSp v m).alone = s.alone :=
  congrArg (fun e : List Env => (e.headD {}).between.isEmpty) (lowerSp_env s v m)

/-! ## The translation caches emptied. -/

@[simp] theorem flushTranslations_pc (s : State) : (s.flushTranslations).pc = s.pc := rfl
@[simp] theorem flushTranslations_psw (s : State) : (s.flushTranslations).psw = s.psw := rfl
@[simp] theorem flushTranslations_config (s : State) : (s.flushTranslations).config = s.config := rfl
@[simp] theorem flushTranslations_sp (s : State) : (s.flushTranslations).sp = s.sp := rfl
@[simp] theorem flushTranslations_msp (s : State) : (s.flushTranslations).msp = s.msp := rfl
@[simp] theorem flushTranslations_isp (s : State) : (s.flushTranslations).isp = s.isp := rfl
@[simp] theorem flushTranslations_shad (s : State) : (s.flushTranslations).shad = s.shad := rfl
@[simp] theorem flushTranslations_vb (s : State) : (s.flushTranslations).vb = s.vb := rfl
@[simp] theorem flushTranslations_stb (s : State) : (s.flushTranslations).stb = s.stb := rfl
@[simp] theorem flushTranslations_fault (s : State) : (s.flushTranslations).fault = s.fault := rfl
@[simp] theorem flushTranslations_timer1 (s : State) : (s.flushTranslations).timer1 = s.timer1 := rfl
@[simp] theorem flushTranslations_timer2 (s : State) : (s.flushTranslations).timer2 = s.timer2 := rfl
@[simp] theorem flushTranslations_sc (s : State) : (s.flushTranslations).sc = s.sc := rfl
@[simp] theorem flushTranslations_mem (s : State) : (s.flushTranslations).mem = s.mem := rfl
@[simp] theorem flushTranslations_storeBuf (s : State) : (s.flushTranslations).storeBuf = s.storeBuf := rfl
@[simp] theorem flushTranslations_pfb (s : State) : (s.flushTranslations).pfb = s.pfb := rfl
@[simp] theorem flushTranslations_ic (s : State) : (s.flushTranslations).ic = s.ic := rfl
@[simp] theorem flushTranslations_ahead (s : State) : (s.flushTranslations).ahead = s.ahead := rfl
@[simp] theorem flushTranslations_lastIl (s : State) : (s.flushTranslations).lastIl = s.lastIl := rfl
@[simp] theorem flushTranslations_nmiPending (s : State) : (s.flushTranslations).nmiPending = s.nmiPending := rfl
@[simp] theorem flushTranslations_t1Req (s : State) : (s.flushTranslations).t1Req = s.t1Req := rfl
@[simp] theorem flushTranslations_t2Req (s : State) : (s.flushTranslations).t2Req = s.t2Req := rfl
@[simp] theorem flushTranslations_tracePending (s : State) : (s.flushTranslations).tracePending = s.tracePending := rfl
@[simp] theorem flushTranslations_lostStores (s : State) : (s.flushTranslations).lostStores = s.lostStores := rfl
@[simp] theorem flushTranslations_folded (s : State) : (s.flushTranslations).folded = s.folded := rfl
@[simp] theorem flushTranslations_oldSpace (s : State) : (s.flushTranslations).oldSpace = s.oldSpace := rfl
@[simp] theorem flushTranslations_recent (s : State) : (s.flushTranslations).recent = s.recent := rfl
@[simp] theorem flushTranslations_hazard (s : State) : (s.flushTranslations).hazard = s.hazard := rfl
@[simp] theorem flushTranslations_event (s : State) : (s.flushTranslations).event = s.event := rfl
@[simp] theorem flushTranslations_draw (s : State) : (s.flushTranslations).draw = s.draw := rfl
@[simp] theorem flushTranslations_board (s : State) : (s.flushTranslations).board = s.board := rfl
@[simp] theorem flushTranslations_env (s : State) : (s.flushTranslations).env = s.env := rfl
@[simp] theorem flushTranslations_alone (s : State) : (s.flushTranslations).alone = s.alone :=
  congrArg (fun e : List Env => (e.headD {}).between.isEmpty) (flushTranslations_env s)

/-! ## What KRET and CRET load. -/

@[simp] theorem restore_config (s : State) (p : Psw) (t : Word) : (s.restore p t).config = s.config := rfl
@[simp] theorem restore_sp (s : State) (p : Psw) (t : Word) : (s.restore p t).sp = s.sp := rfl
@[simp] theorem restore_msp (s : State) (p : Psw) (t : Word) : (s.restore p t).msp = s.msp := rfl
@[simp] theorem restore_vb (s : State) (p : Psw) (t : Word) : (s.restore p t).vb = s.vb := rfl
@[simp] theorem restore_stb (s : State) (p : Psw) (t : Word) : (s.restore p t).stb = s.stb := rfl
@[simp] theorem restore_fault (s : State) (p : Psw) (t : Word) : (s.restore p t).fault = s.fault := rfl
@[simp] theorem restore_timer1 (s : State) (p : Psw) (t : Word) : (s.restore p t).timer1 = s.timer1 := rfl
@[simp] theorem restore_timer2 (s : State) (p : Psw) (t : Word) : (s.restore p t).timer2 = s.timer2 := rfl
@[simp] theorem restore_sc (s : State) (p : Psw) (t : Word) : (s.restore p t).sc = s.sc := rfl
@[simp] theorem restore_mem (s : State) (p : Psw) (t : Word) : (s.restore p t).mem = s.mem := rfl
@[simp] theorem restore_storeBuf (s : State) (p : Psw) (t : Word) : (s.restore p t).storeBuf = s.storeBuf := rfl
@[simp] theorem restore_textTlb (s : State) (p : Psw) (t : Word) : (s.restore p t).textTlb = s.textTlb := rfl
@[simp] theorem restore_dataTlb (s : State) (p : Psw) (t : Word) : (s.restore p t).dataTlb = s.dataTlb := rfl
@[simp] theorem restore_textNpsr (s : State) (p : Psw) (t : Word) : (s.restore p t).textNpsr = s.textNpsr := rfl
@[simp] theorem restore_dataNpsr (s : State) (p : Psw) (t : Word) : (s.restore p t).dataNpsr = s.dataNpsr := rfl
@[simp] theorem restore_pfb (s : State) (p : Psw) (t : Word) : (s.restore p t).pfb = s.pfb := rfl
@[simp] theorem restore_ic (s : State) (p : Psw) (t : Word) : (s.restore p t).ic = s.ic := rfl
@[simp] theorem restore_ahead (s : State) (p : Psw) (t : Word) : (s.restore p t).ahead = s.ahead := rfl
@[simp] theorem restore_prefetches (s : State) (p : Psw) (t : Word) : (s.restore p t).prefetches = s.prefetches := rfl
@[simp] theorem restore_lastIl (s : State) (p : Psw) (t : Word) : (s.restore p t).lastIl = s.lastIl := rfl
@[simp] theorem restore_nmiPending (s : State) (p : Psw) (t : Word) : (s.restore p t).nmiPending = s.nmiPending := rfl
@[simp] theorem restore_t1Req (s : State) (p : Psw) (t : Word) : (s.restore p t).t1Req = s.t1Req := rfl
@[simp] theorem restore_t2Req (s : State) (p : Psw) (t : Word) : (s.restore p t).t2Req = s.t2Req := rfl
@[simp] theorem restore_tracePending (s : State) (p : Psw) (t : Word) : (s.restore p t).tracePending = s.tracePending := rfl
@[simp] theorem restore_lostStores (s : State) (p : Psw) (t : Word) : (s.restore p t).lostStores = s.lostStores := rfl
@[simp] theorem restore_folded (s : State) (p : Psw) (t : Word) : (s.restore p t).folded = s.folded := rfl
@[simp] theorem restore_recent (s : State) (p : Psw) (t : Word) : (s.restore p t).recent = s.recent := rfl
@[simp] theorem restore_event (s : State) (p : Psw) (t : Word) : (s.restore p t).event = s.event := rfl
@[simp] theorem restore_draw (s : State) (p : Psw) (t : Word) : (s.restore p t).draw = s.draw := rfl
@[simp] theorem restore_board (s : State) (p : Psw) (t : Word) : (s.restore p t).board = s.board := rfl
@[simp] theorem restore_env (s : State) (p : Psw) (t : Word) : (s.restore p t).env = s.env := rfl
@[simp] theorem restore_alone (s : State) (p : Psw) (t : Word) : (s.restore p t).alone = s.alone :=
  congrArg (fun e : List Env => (e.headD {}).between.isEmpty) (restore_env s p t)

/-! ## Words of the stack cache. -/

@[simp] theorem scWriteWords_pc (s : State) (a : Word) (is : List Nat) (ws : List Word) : (s.scWriteWords a is ws).pc = s.pc :=
  (congrArg State.pc (scWriteWords_eq s a is ws) :)
@[simp] theorem scWriteWords_psw (s : State) (a : Word) (is : List Nat) (ws : List Word) : (s.scWriteWords a is ws).psw = s.psw :=
  (congrArg State.psw (scWriteWords_eq s a is ws) :)
@[simp] theorem scWriteWords_config (s : State) (a : Word) (is : List Nat) (ws : List Word) : (s.scWriteWords a is ws).config = s.config :=
  (congrArg State.config (scWriteWords_eq s a is ws) :)
@[simp] theorem scWriteWords_sp (s : State) (a : Word) (is : List Nat) (ws : List Word) : (s.scWriteWords a is ws).sp = s.sp :=
  (congrArg State.sp (scWriteWords_eq s a is ws) :)
@[simp] theorem scWriteWords_msp (s : State) (a : Word) (is : List Nat) (ws : List Word) : (s.scWriteWords a is ws).msp = s.msp :=
  (congrArg State.msp (scWriteWords_eq s a is ws) :)
@[simp] theorem scWriteWords_isp (s : State) (a : Word) (is : List Nat) (ws : List Word) : (s.scWriteWords a is ws).isp = s.isp :=
  (congrArg State.isp (scWriteWords_eq s a is ws) :)
@[simp] theorem scWriteWords_shad (s : State) (a : Word) (is : List Nat) (ws : List Word) : (s.scWriteWords a is ws).shad = s.shad :=
  (congrArg State.shad (scWriteWords_eq s a is ws) :)
@[simp] theorem scWriteWords_vb (s : State) (a : Word) (is : List Nat) (ws : List Word) : (s.scWriteWords a is ws).vb = s.vb :=
  (congrArg State.vb (scWriteWords_eq s a is ws) :)
@[simp] theorem scWriteWords_stb (s : State) (a : Word) (is : List Nat) (ws : List Word) : (s.scWriteWords a is ws).stb = s.stb :=
  (congrArg State.stb (scWriteWords_eq s a is ws) :)
@[simp] theorem scWriteWords_fault (s : State) (a : Word) (is : List Nat) (ws : List Word) : (s.scWriteWords a is ws).fault = s.fault :=
  (congrArg State.fault (scWriteWords_eq s a is ws) :)
@[simp] theorem scWriteWords_timer1 (s : State) (a : Word) (is : List Nat) (ws : List Word) : (s.scWriteWords a is ws).timer1 = s.timer1 :=
  (congrArg State.timer1 (scWriteWords_eq s a is ws) :)
@[simp] theorem scWriteWords_timer2 (s : State) (a : Word) (is : List Nat) (ws : List Word) : (s.scWriteWords a is ws).timer2 = s.timer2 :=
  (congrArg State.timer2 (scWriteWords_eq s a is ws) :)
@[simp] theorem scWriteWords_mem (s : State) (a : Word) (is : List Nat) (ws : List Word) : (s.scWriteWords a is ws).mem = s.mem :=
  (congrArg State.mem (scWriteWords_eq s a is ws) :)
@[simp] theorem scWriteWords_storeBuf (s : State) (a : Word) (is : List Nat) (ws : List Word) : (s.scWriteWords a is ws).storeBuf = s.storeBuf :=
  (congrArg State.storeBuf (scWriteWords_eq s a is ws) :)
@[simp] theorem scWriteWords_textTlb (s : State) (a : Word) (is : List Nat) (ws : List Word) : (s.scWriteWords a is ws).textTlb = s.textTlb :=
  (congrArg State.textTlb (scWriteWords_eq s a is ws) :)
@[simp] theorem scWriteWords_dataTlb (s : State) (a : Word) (is : List Nat) (ws : List Word) : (s.scWriteWords a is ws).dataTlb = s.dataTlb :=
  (congrArg State.dataTlb (scWriteWords_eq s a is ws) :)
@[simp] theorem scWriteWords_textNpsr (s : State) (a : Word) (is : List Nat) (ws : List Word) : (s.scWriteWords a is ws).textNpsr = s.textNpsr :=
  (congrArg State.textNpsr (scWriteWords_eq s a is ws) :)
@[simp] theorem scWriteWords_dataNpsr (s : State) (a : Word) (is : List Nat) (ws : List Word) : (s.scWriteWords a is ws).dataNpsr = s.dataNpsr :=
  (congrArg State.dataNpsr (scWriteWords_eq s a is ws) :)
@[simp] theorem scWriteWords_pfb (s : State) (a : Word) (is : List Nat) (ws : List Word) : (s.scWriteWords a is ws).pfb = s.pfb :=
  (congrArg State.pfb (scWriteWords_eq s a is ws) :)
@[simp] theorem scWriteWords_ic (s : State) (a : Word) (is : List Nat) (ws : List Word) : (s.scWriteWords a is ws).ic = s.ic :=
  (congrArg State.ic (scWriteWords_eq s a is ws) :)
@[simp] theorem scWriteWords_ahead (s : State) (a : Word) (is : List Nat) (ws : List Word) : (s.scWriteWords a is ws).ahead = s.ahead :=
  (congrArg State.ahead (scWriteWords_eq s a is ws) :)
@[simp] theorem scWriteWords_prefetches (s : State) (a : Word) (is : List Nat) (ws : List Word) : (s.scWriteWords a is ws).prefetches = s.prefetches :=
  (congrArg State.prefetches (scWriteWords_eq s a is ws) :)
@[simp] theorem scWriteWords_lastIl (s : State) (a : Word) (is : List Nat) (ws : List Word) : (s.scWriteWords a is ws).lastIl = s.lastIl :=
  (congrArg State.lastIl (scWriteWords_eq s a is ws) :)
@[simp] theorem scWriteWords_nmiPending (s : State) (a : Word) (is : List Nat) (ws : List Word) : (s.scWriteWords a is ws).nmiPending = s.nmiPending :=
  (congrArg State.nmiPending (scWriteWords_eq s a is ws) :)
@[simp] theorem scWriteWords_t1Req (s : State) (a : Word) (is : List Nat) (ws : List Word) : (s.scWriteWords a is ws).t1Req = s.t1Req :=
  (congrArg State.t1Req (scWriteWords_eq s a is ws) :)
@[simp] theorem scWriteWords_t2Req (s : State) (a : Word) (is : List Nat) (ws : List Word) : (s.scWriteWords a is ws).t2Req = s.t2Req :=
  (congrArg State.t2Req (scWriteWords_eq s a is ws) :)
@[simp] theorem scWriteWords_tracePending (s : State) (a : Word) (is : List Nat) (ws : List Word) : (s.scWriteWords a is ws).tracePending = s.tracePending :=
  (congrArg State.tracePending (scWriteWords_eq s a is ws) :)
@[simp] theorem scWriteWords_lostStores (s : State) (a : Word) (is : List Nat) (ws : List Word) : (s.scWriteWords a is ws).lostStores = s.lostStores :=
  (congrArg State.lostStores (scWriteWords_eq s a is ws) :)
@[simp] theorem scWriteWords_folded (s : State) (a : Word) (is : List Nat) (ws : List Word) : (s.scWriteWords a is ws).folded = s.folded :=
  (congrArg State.folded (scWriteWords_eq s a is ws) :)
@[simp] theorem scWriteWords_oldSpace (s : State) (a : Word) (is : List Nat) (ws : List Word) : (s.scWriteWords a is ws).oldSpace = s.oldSpace :=
  (congrArg State.oldSpace (scWriteWords_eq s a is ws) :)
@[simp] theorem scWriteWords_recent (s : State) (a : Word) (is : List Nat) (ws : List Word) : (s.scWriteWords a is ws).recent = s.recent :=
  (congrArg State.recent (scWriteWords_eq s a is ws) :)
@[simp] theorem scWriteWords_hazard (s : State) (a : Word) (is : List Nat) (ws : List Word) : (s.scWriteWords a is ws).hazard = s.hazard :=
  (congrArg State.hazard (scWriteWords_eq s a is ws) :)
@[simp] theorem scWriteWords_event (s : State) (a : Word) (is : List Nat) (ws : List Word) : (s.scWriteWords a is ws).event = s.event :=
  (congrArg State.event (scWriteWords_eq s a is ws) :)
@[simp] theorem scWriteWords_draw (s : State) (a : Word) (is : List Nat) (ws : List Word) : (s.scWriteWords a is ws).draw = s.draw :=
  (congrArg State.draw (scWriteWords_eq s a is ws) :)
@[simp] theorem scWriteWords_board (s : State) (a : Word) (is : List Nat) (ws : List Word) : (s.scWriteWords a is ws).board = s.board :=
  (congrArg State.board (scWriteWords_eq s a is ws) :)
@[simp] theorem scWriteWords_env (s : State) (a : Word) (is : List Nat) (ws : List Word) : (s.scWriteWords a is ws).env = s.env :=
  (congrArg State.env (scWriteWords_eq s a is ws) :)
@[simp] theorem scWriteWords_alone (s : State) (a : Word) (is : List Nat) (ws : List Word) : (s.scWriteWords a is ws).alone = s.alone :=
  congrArg (fun e : List Env => (e.headD {}).between.isEmpty) (scWriteWords_env s a is ws)

/-! ## A block stored. -/

@[simp] theorem writeBlock_pc (s : State) (h : Home) (k : Nat) (ws : List Word) : (s.writeBlock h k ws).pc = s.pc :=
  (congrArg State.pc (writeBlock_eq s h k ws) :)
@[simp] theorem writeBlock_psw (s : State) (h : Home) (k : Nat) (ws : List Word) : (s.writeBlock h k ws).psw = s.psw :=
  (congrArg State.psw (writeBlock_eq s h k ws) :)
@[simp] theorem writeBlock_config (s : State) (h : Home) (k : Nat) (ws : List Word) : (s.writeBlock h k ws).config = s.config :=
  (congrArg State.config (writeBlock_eq s h k ws) :)
@[simp] theorem writeBlock_sp (s : State) (h : Home) (k : Nat) (ws : List Word) : (s.writeBlock h k ws).sp = s.sp :=
  (congrArg State.sp (writeBlock_eq s h k ws) :)
@[simp] theorem writeBlock_msp (s : State) (h : Home) (k : Nat) (ws : List Word) : (s.writeBlock h k ws).msp = s.msp :=
  (congrArg State.msp (writeBlock_eq s h k ws) :)
@[simp] theorem writeBlock_isp (s : State) (h : Home) (k : Nat) (ws : List Word) : (s.writeBlock h k ws).isp = s.isp :=
  (congrArg State.isp (writeBlock_eq s h k ws) :)
@[simp] theorem writeBlock_shad (s : State) (h : Home) (k : Nat) (ws : List Word) : (s.writeBlock h k ws).shad = s.shad :=
  (congrArg State.shad (writeBlock_eq s h k ws) :)
@[simp] theorem writeBlock_vb (s : State) (h : Home) (k : Nat) (ws : List Word) : (s.writeBlock h k ws).vb = s.vb :=
  (congrArg State.vb (writeBlock_eq s h k ws) :)
@[simp] theorem writeBlock_stb (s : State) (h : Home) (k : Nat) (ws : List Word) : (s.writeBlock h k ws).stb = s.stb :=
  (congrArg State.stb (writeBlock_eq s h k ws) :)
@[simp] theorem writeBlock_fault (s : State) (h : Home) (k : Nat) (ws : List Word) : (s.writeBlock h k ws).fault = s.fault :=
  (congrArg State.fault (writeBlock_eq s h k ws) :)
@[simp] theorem writeBlock_timer1 (s : State) (h : Home) (k : Nat) (ws : List Word) : (s.writeBlock h k ws).timer1 = s.timer1 :=
  (congrArg State.timer1 (writeBlock_eq s h k ws) :)
@[simp] theorem writeBlock_timer2 (s : State) (h : Home) (k : Nat) (ws : List Word) : (s.writeBlock h k ws).timer2 = s.timer2 :=
  (congrArg State.timer2 (writeBlock_eq s h k ws) :)
@[simp] theorem writeBlock_mem (s : State) (h : Home) (k : Nat) (ws : List Word) : (s.writeBlock h k ws).mem = s.mem :=
  (congrArg State.mem (writeBlock_eq s h k ws) :)
@[simp] theorem writeBlock_textTlb (s : State) (h : Home) (k : Nat) (ws : List Word) : (s.writeBlock h k ws).textTlb = s.textTlb :=
  (congrArg State.textTlb (writeBlock_eq s h k ws) :)
@[simp] theorem writeBlock_dataTlb (s : State) (h : Home) (k : Nat) (ws : List Word) : (s.writeBlock h k ws).dataTlb = s.dataTlb :=
  (congrArg State.dataTlb (writeBlock_eq s h k ws) :)
@[simp] theorem writeBlock_textNpsr (s : State) (h : Home) (k : Nat) (ws : List Word) : (s.writeBlock h k ws).textNpsr = s.textNpsr :=
  (congrArg State.textNpsr (writeBlock_eq s h k ws) :)
@[simp] theorem writeBlock_dataNpsr (s : State) (h : Home) (k : Nat) (ws : List Word) : (s.writeBlock h k ws).dataNpsr = s.dataNpsr :=
  (congrArg State.dataNpsr (writeBlock_eq s h k ws) :)
@[simp] theorem writeBlock_pfb (s : State) (h : Home) (k : Nat) (ws : List Word) : (s.writeBlock h k ws).pfb = s.pfb :=
  (congrArg State.pfb (writeBlock_eq s h k ws) :)
@[simp] theorem writeBlock_ic (s : State) (h : Home) (k : Nat) (ws : List Word) : (s.writeBlock h k ws).ic = s.ic :=
  (congrArg State.ic (writeBlock_eq s h k ws) :)
@[simp] theorem writeBlock_ahead (s : State) (h : Home) (k : Nat) (ws : List Word) : (s.writeBlock h k ws).ahead = s.ahead :=
  (congrArg State.ahead (writeBlock_eq s h k ws) :)
@[simp] theorem writeBlock_prefetches (s : State) (h : Home) (k : Nat) (ws : List Word) : (s.writeBlock h k ws).prefetches = s.prefetches :=
  (congrArg State.prefetches (writeBlock_eq s h k ws) :)
@[simp] theorem writeBlock_lastIl (s : State) (h : Home) (k : Nat) (ws : List Word) : (s.writeBlock h k ws).lastIl = s.lastIl :=
  (congrArg State.lastIl (writeBlock_eq s h k ws) :)
@[simp] theorem writeBlock_nmiPending (s : State) (h : Home) (k : Nat) (ws : List Word) : (s.writeBlock h k ws).nmiPending = s.nmiPending :=
  (congrArg State.nmiPending (writeBlock_eq s h k ws) :)
@[simp] theorem writeBlock_t1Req (s : State) (h : Home) (k : Nat) (ws : List Word) : (s.writeBlock h k ws).t1Req = s.t1Req :=
  (congrArg State.t1Req (writeBlock_eq s h k ws) :)
@[simp] theorem writeBlock_t2Req (s : State) (h : Home) (k : Nat) (ws : List Word) : (s.writeBlock h k ws).t2Req = s.t2Req :=
  (congrArg State.t2Req (writeBlock_eq s h k ws) :)
@[simp] theorem writeBlock_tracePending (s : State) (h : Home) (k : Nat) (ws : List Word) : (s.writeBlock h k ws).tracePending = s.tracePending :=
  (congrArg State.tracePending (writeBlock_eq s h k ws) :)
@[simp] theorem writeBlock_lostStores (s : State) (h : Home) (k : Nat) (ws : List Word) : (s.writeBlock h k ws).lostStores = s.lostStores :=
  (congrArg State.lostStores (writeBlock_eq s h k ws) :)
@[simp] theorem writeBlock_folded (s : State) (h : Home) (k : Nat) (ws : List Word) : (s.writeBlock h k ws).folded = s.folded :=
  (congrArg State.folded (writeBlock_eq s h k ws) :)
@[simp] theorem writeBlock_oldSpace (s : State) (h : Home) (k : Nat) (ws : List Word) : (s.writeBlock h k ws).oldSpace = s.oldSpace :=
  (congrArg State.oldSpace (writeBlock_eq s h k ws) :)
@[simp] theorem writeBlock_recent (s : State) (h : Home) (k : Nat) (ws : List Word) : (s.writeBlock h k ws).recent = s.recent :=
  (congrArg State.recent (writeBlock_eq s h k ws) :)
@[simp] theorem writeBlock_hazard (s : State) (h : Home) (k : Nat) (ws : List Word) : (s.writeBlock h k ws).hazard = s.hazard :=
  (congrArg State.hazard (writeBlock_eq s h k ws) :)
@[simp] theorem writeBlock_event (s : State) (h : Home) (k : Nat) (ws : List Word) : (s.writeBlock h k ws).event = s.event :=
  (congrArg State.event (writeBlock_eq s h k ws) :)
@[simp] theorem writeBlock_draw (s : State) (h : Home) (k : Nat) (ws : List Word) : (s.writeBlock h k ws).draw = s.draw :=
  (congrArg State.draw (writeBlock_eq s h k ws) :)
@[simp] theorem writeBlock_board (s : State) (h : Home) (k : Nat) (ws : List Word) : (s.writeBlock h k ws).board = s.board :=
  (congrArg State.board (writeBlock_eq s h k ws) :)
@[simp] theorem writeBlock_env (s : State) (h : Home) (k : Nat) (ws : List Word) : (s.writeBlock h k ws).env = s.env :=
  (congrArg State.env (writeBlock_eq s h k ws) :)
@[simp] theorem writeBlock_alone (s : State) (h : Home) (k : Nat) (ws : List Word) : (s.writeBlock h k ws).alone = s.alone :=
  congrArg (fun e : List Env => (e.headD {}).between.isEmpty) (writeBlock_env s h k ws)

/-! ## A register or a destination written -/

@[simp] theorem setReg_pc (s : State) (r : Reg) (v : Word) : (s.setReg r v).pc = s.pc := by
  cases r <;> simp only [State.setReg, State.writeMsp]
  split <;> simp
@[simp] theorem put_pc (s : State) (t : Target) (v : Word) : (s.put t v).pc = s.pc := by
  cases t <;> simp [State.put]
@[simp] theorem setReg_mem (s : State) (r : Reg) (v : Word) : (s.setReg r v).mem = s.mem := by
  cases r <;> simp only [State.setReg, State.writeMsp]
  split <;> simp
@[simp] theorem put_mem (s : State) (t : Target) (v : Word) : (s.put t v).mem = s.mem := by
  cases t <;> simp [State.put]
@[simp] theorem setReg_storeBuf (s : State) (r : Reg) (v : Word) : (s.setReg r v).storeBuf = s.storeBuf := by
  cases r <;> simp only [State.setReg, State.writeMsp]
  split <;> simp
@[simp] theorem setReg_pfb (s : State) (r : Reg) (v : Word) : (s.setReg r v).pfb = s.pfb := by
  cases r <;> simp only [State.setReg, State.writeMsp]
  split <;> simp
@[simp] theorem put_pfb (s : State) (t : Target) (v : Word) : (s.put t v).pfb = s.pfb := by
  cases t <;> simp [State.put]
@[simp] theorem setReg_ic (s : State) (r : Reg) (v : Word) : (s.setReg r v).ic = s.ic := by
  cases r <;> simp only [State.setReg, State.writeMsp]
  split <;> simp
@[simp] theorem put_ic (s : State) (t : Target) (v : Word) : (s.put t v).ic = s.ic := by
  cases t <;> simp [State.put]
@[simp] theorem setReg_ahead (s : State) (r : Reg) (v : Word) : (s.setReg r v).ahead = s.ahead := by
  cases r <;> simp only [State.setReg, State.writeMsp]
  split <;> simp
@[simp] theorem put_ahead (s : State) (t : Target) (v : Word) : (s.put t v).ahead = s.ahead := by
  cases t <;> simp [State.put]
@[simp] theorem setReg_lastIl (s : State) (r : Reg) (v : Word) : (s.setReg r v).lastIl = s.lastIl := by
  cases r <;> simp only [State.setReg, State.writeMsp]
  split <;> simp
@[simp] theorem put_lastIl (s : State) (t : Target) (v : Word) : (s.put t v).lastIl = s.lastIl := by
  cases t <;> simp [State.put]
@[simp] theorem setReg_nmiPending (s : State) (r : Reg) (v : Word) : (s.setReg r v).nmiPending = s.nmiPending := by
  cases r <;> simp only [State.setReg, State.writeMsp]
  split <;> simp
@[simp] theorem put_nmiPending (s : State) (t : Target) (v : Word) : (s.put t v).nmiPending = s.nmiPending := by
  cases t <;> simp [State.put]
@[simp] theorem setReg_t1Req (s : State) (r : Reg) (v : Word) : (s.setReg r v).t1Req = s.t1Req := by
  cases r <;> simp only [State.setReg, State.writeMsp]
  split <;> simp
@[simp] theorem put_t1Req (s : State) (t : Target) (v : Word) : (s.put t v).t1Req = s.t1Req := by
  cases t <;> simp [State.put]
@[simp] theorem setReg_t2Req (s : State) (r : Reg) (v : Word) : (s.setReg r v).t2Req = s.t2Req := by
  cases r <;> simp only [State.setReg, State.writeMsp]
  split <;> simp
@[simp] theorem put_t2Req (s : State) (t : Target) (v : Word) : (s.put t v).t2Req = s.t2Req := by
  cases t <;> simp [State.put]
@[simp] theorem setReg_tracePending (s : State) (r : Reg) (v : Word) : (s.setReg r v).tracePending = s.tracePending := by
  cases r <;> simp only [State.setReg, State.writeMsp]
  split <;> simp
@[simp] theorem put_tracePending (s : State) (t : Target) (v : Word) : (s.put t v).tracePending = s.tracePending := by
  cases t <;> simp [State.put]
@[simp] theorem setReg_lostStores (s : State) (r : Reg) (v : Word) : (s.setReg r v).lostStores = s.lostStores := by
  cases r <;> simp only [State.setReg, State.writeMsp]
  split <;> simp
@[simp] theorem put_lostStores (s : State) (t : Target) (v : Word) : (s.put t v).lostStores = s.lostStores := by
  cases t <;> simp [State.put]
@[simp] theorem setReg_folded (s : State) (r : Reg) (v : Word) : (s.setReg r v).folded = s.folded := by
  cases r <;> simp only [State.setReg, State.writeMsp]
  split <;> simp
@[simp] theorem put_folded (s : State) (t : Target) (v : Word) : (s.put t v).folded = s.folded := by
  cases t <;> simp [State.put]
@[simp] theorem setReg_recent (s : State) (r : Reg) (v : Word) : (s.setReg r v).recent = s.recent := by
  cases r <;> simp only [State.setReg, State.writeMsp]
  split <;> simp
@[simp] theorem put_recent (s : State) (t : Target) (v : Word) : (s.put t v).recent = s.recent := by
  cases t <;> simp [State.put]
@[simp] theorem setReg_event (s : State) (r : Reg) (v : Word) : (s.setReg r v).event = s.event := by
  cases r <;> simp only [State.setReg, State.writeMsp]
  split <;> simp
@[simp] theorem put_event (s : State) (t : Target) (v : Word) : (s.put t v).event = s.event := by
  cases t <;> simp [State.put]
@[simp] theorem setReg_board (s : State) (r : Reg) (v : Word) : (s.setReg r v).board = s.board := by
  cases r <;> simp only [State.setReg, State.writeMsp]
  split <;> simp
@[simp] theorem put_board (s : State) (t : Target) (v : Word) : (s.put t v).board = s.board := by
  cases t <;> simp [State.put]
@[simp] theorem setReg_env (s : State) (r : Reg) (v : Word) : (s.setReg r v).env = s.env := by
  cases r <;> simp only [State.setReg, State.writeMsp]
  split <;> simp
@[simp] theorem put_env (s : State) (t : Target) (v : Word) : (s.put t v).env = s.env := by
  cases t <;> simp [State.put]
@[simp] theorem put_alone (s : State) (t : Target) (v : Word) : (s.put t v).alone = s.alone :=
  congrArg (fun e : List Env => (e.headD {}).between.isEmpty) (put_env s t v)

end Sys2Proof.Laws
end

