-- ==== Sys2Proof/Laws/Memory.lean ====
section
/-! SUPPORT. Physical memory: a read after a write, the canonical form kept by every memory operation, and the store buffer's
stores reaching memory without changing what the processor reads (20_memory.md R81, R126, R128). -/

namespace Sys2Proof.Laws

open Sys2Proof.Machine

/-! ## Bytes -/

theorem wfFrom_cons {lo k : Nat} {b : Byte} {r : Memory} :
    Memory.wfFrom lo ((k, b) :: r) = true ↔ lo ≤ k ∧ k < 2 ^ 32 ∧ b ≠ memDefault ∧ Memory.wfFrom (k + 1) r = true := by
  simp [Memory.wfFrom, and_assoc]

theorem wfFrom_mono {lo lo' : Nat} {m : Memory} (h : lo' ≤ lo) (hw : Memory.wfFrom lo m = true) :
    Memory.wfFrom lo' m = true := by
  cases m with
  | nil => rfl
  | cons c r => obtain ⟨k, b⟩ := c; rw [wfFrom_cons] at *; exact ⟨by omega, hw.2⟩

/-- Nothing is listed below the first address. -/
theorem get_below {lo a : Nat} {m : Memory} (hw : Memory.wfFrom lo m = true) (ha : a < lo) : m.get a = memDefault := by
  induction m generalizing lo with
  | nil => rfl
  | cons c r ih =>
    obtain ⟨k, b⟩ := c
    rw [wfFrom_cons] at hw
    simp only [Memory.get, show k ≠ a by omega, if_false]
    exact ih hw.2.2.2 (by omega)

/-- A write keeps the canonical form. -/
theorem set_wfFrom {lo a : Nat} {m : Memory} (v : Byte) (hw : Memory.wfFrom lo m = true) (hl : lo ≤ a)
    (ha : a < 2 ^ 32) : Memory.wfFrom lo (m.set a v) = true := by
  induction m generalizing lo with
  | nil =>
    simp only [Memory.set]
    split
    · rfl
    · rw [wfFrom_cons]; exact ⟨hl, ha, ‹_›, rfl⟩
  | cons c r ih =>
    obtain ⟨k, b⟩ := c
    rw [wfFrom_cons] at hw
    obtain ⟨h1, h2, h3, h4⟩ := hw
    simp only [Memory.set]
    split
    · split
      · rw [wfFrom_cons]; exact ⟨h1, h2, h3, h4⟩
      · rw [wfFrom_cons, wfFrom_cons]; exact ⟨hl, ha, ‹_›, by omega, h2, h3, h4⟩
    · split
      · subst_vars
        split
        · exact wfFrom_mono (by omega) h4
        · rw [wfFrom_cons]; exact ⟨hl, ha, ‹_›, h4⟩
      · rw [wfFrom_cons]; exact ⟨h1, h2, h3, ih h4 (by omega)⟩

/-- A byte read after a byte written. -/
theorem get_set {lo a b : Nat} {m : Memory} (v : Byte) (hw : Memory.wfFrom lo m = true) :
    (m.set a v).get b = if b = a then v else m.get b := by
  induction m generalizing lo with
  | nil =>
    by_cases hv : v = memDefault <;> by_cases hb : b = a <;> simp [Memory.set, Memory.get, hv, hb, Ne.symm]
  | cons c r ih =>
    obtain ⟨k, x⟩ := c
    rw [wfFrom_cons] at hw
    obtain ⟨h1, h2, h3, h4⟩ := hw
    have hlow : ∀ a, a ≤ k → Memory.get r a = memDefault := fun a h => get_below h4 (by omega)
    simp only [Memory.set]
    split
    · split
      · by_cases hb : b = a
        · subst hb; simp [Memory.get, show k ≠ b by omega, hlow b (by omega), *]
        · simp [hb]
      · by_cases hb : b = a
        · subst hb; simp [Memory.get]
        · simp [Memory.get, hb, Ne.symm hb]
    · split
      · subst_vars
        split
        · by_cases hb : b = k
          · subst hb; simp [hlow b (by omega), *]
          · simp [Memory.get, hb, Ne.symm hb]
        · by_cases hb : b = k
          · subst hb; simp [Memory.get]
          · simp [Memory.get, hb, Ne.symm hb]
      · simp only [Memory.get, ih h4]
        by_cases hb : b = a
        · subst hb; simp [show k ≠ b by omega]
        · simp [hb]

/-- Two memories in canonical form that read alike are equal. -/
theorem memory_ext {lo : Nat} {m n : Memory} (hm : Memory.wfFrom lo m = true) (hn : Memory.wfFrom lo n = true)
    (h : ∀ a, m.get a = n.get a) : m = n := by
  induction m generalizing lo n with
  | nil =>
    cases n with
    | nil => rfl
    | cons c r =>
      obtain ⟨k, b⟩ := c
      rw [wfFrom_cons] at hn
      have := h k
      simp [Memory.get] at this
      exact absurd this.symm hn.2.2.1
  | cons c r ih =>
    obtain ⟨k, b⟩ := c
    cases n with
    | nil =>
      rw [wfFrom_cons] at hm
      have := h k
      simp [Memory.get] at this
      exact absurd this hm.2.2.1
    | cons c' r' =>
      obtain ⟨k', b'⟩ := c'
      rw [wfFrom_cons] at hm hn
      obtain ⟨-, -, hb, hr⟩ := hm
      obtain ⟨-, -, hb', hr'⟩ := hn
      have hk : k = k' := by
        rcases Nat.lt_trichotomy k k' with hlt | heq | hgt
        · have := h k
          simp [Memory.get, show k' ≠ k by omega, get_below hr' (show k < k' + 1 by omega)] at this
          exact absurd this hb
        · exact heq
        · have := h k'
          simp [Memory.get, show k ≠ k' by omega, get_below hr (show k' < k + 1 by omega)] at this
          exact absurd this.symm hb'
      subst hk
      have hbb : b = b' := by simpa [Memory.get] using h k
      subst hbb
      congr 1
      refine ih hr hr' fun a => ?_
      have ha := h a
      by_cases hak : k = a
      · subst hak; rw [get_below hr (by omega), get_below hr' (by omega)]
      · simpa [Memory.get, hak] using ha

/-! ## Words -/

theorem wordAddr_toNat (pa : Word) : (wordAddr pa).toNat = pa.toNat / 4 * 4 := by
  unfold wordAddr
  have : pa &&& 0xFFFFFFFC#32 = (pa >>> 2) <<< 2 := by
    ext i hi
    simp only [BitVec.getElem_and, BitVec.getElem_shiftLeft, BitVec.getElem_ushiftRight]
    interval_cases i <;> simp
  rw [show (0xFFFFFFFC : Word) = 0xFFFFFFFC#32 from rfl, this, BitVec.toNat_shiftLeft, BitVec.toNat_ushiftRight,
    Nat.shiftRight_eq_div_pow, Nat.shiftLeft_eq]
  have := pa.isLt
  omega

theorem byteAddr_lt (pa : Word) {i : Nat} (hi : i < 4) : byteAddr pa i < 2 ^ 32 := by
  unfold byteAddr
  rw [wordAddr_toNat]
  have := pa.isLt
  omega

theorem wordAddr_idem (pa : Word) : wordAddr (wordAddr pa) = wordAddr pa := by
  unfold wordAddr; simp [BitVec.and_assoc]

/-- A store of lanes keeps the canonical form. -/
theorem writeLanes_wf {m : Memory} (pa mask v : Word) (hw : m.wf = true) : (m.writeLanes pa mask v).wf = true := by
  unfold Memory.writeLanes Memory.wf
  exact set_wfFrom _ (set_wfFrom _ (set_wfFrom _ (set_wfFrom _ hw (Nat.zero_le _) (byteAddr_lt pa (by omega)))
    (Nat.zero_le _) (byteAddr_lt pa (by omega))) (Nat.zero_le _) (byteAddr_lt pa (by omega)))
    (Nat.zero_le _) (byteAddr_lt pa (by omega))

/-- A store of a word keeps the canonical form. -/
theorem writeWord_wf {m : Memory} (pa v : Word) (hw : m.wf = true) : (m.writeWord pa v).wf = true :=
  writeLanes_wf pa _ v hw

theorem append_bytes (w : Word) :
    ((w.extractLsb' 24 8 ++ w.extractLsb' 16 8) ++ (w.extractLsb' 8 8 ++ w.extractLsb' 0 8) : Word) = w := by
  ext i hi
  simp only [BitVec.getElem_append, BitVec.getElem_extractLsb']
  interval_cases i <;> simp

/-- A word read after a store of lanes: that word has them merged, every other word is as it was. -/
theorem readWord_writeLanes {m : Memory} (pa mask v q : Word) (hw : m.wf = true) :
    (m.writeLanes pa mask v).readWord q =
      if wordAddr q = wordAddr pa then mergeLanes (m.readWord q) mask v else m.readWord q := by
  have g : ∀ (m : Memory) a b v, m.wf = true → (m.set a v).get b = if b = a then v else m.get b :=
    fun m a b v h => get_set v h
  have w1 := set_wfFrom (a := byteAddr pa 0) ((mergeLanes (m.readWord pa) mask v).extractLsb' 24 8) hw (Nat.zero_le _)
    (byteAddr_lt pa (by omega))
  have w2 := set_wfFrom (a := byteAddr pa 1) ((mergeLanes (m.readWord pa) mask v).extractLsb' 16 8) w1 (Nat.zero_le _)
    (byteAddr_lt pa (by omega))
  have w3 := set_wfFrom (a := byteAddr pa 2) ((mergeLanes (m.readWord pa) mask v).extractLsb' 8 8) w2 (Nat.zero_le _)
    (byteAddr_lt pa (by omega))
  unfold Memory.writeLanes
  rw [Memory.readWord]
  simp only [g _ _ _ _ w3, g _ _ _ _ w2, g _ _ _ _ w1, g _ _ _ _ hw]
  by_cases hq : wordAddr q = wordAddr pa
  · have e : ∀ i, byteAddr q i = byteAddr pa i := fun i => by simp [byteAddr, hq]
    have er : m.readWord q = m.readWord pa := by simp [Memory.readWord, e]
    simp only [byteAddr, Nat.add_right_inj, hq, if_true, er, Nat.reduceEqDiff, if_false]
    simpa using append_bytes (mergeLanes (m.readWord pa) mask v)
  · have hne : ∀ i j, i < 4 → j < 4 → byteAddr q i ≠ byteAddr pa j := by
      intro i j hi hj h
      apply hq
      apply BitVec.eq_of_toNat_eq
      unfold byteAddr at h
      rw [wordAddr_toNat] at *
      rw [wordAddr_toNat] at *
      omega
    simp only [hq, if_false]
    simp [hne, Memory.readWord]

/-! ## The store buffer -/

/-- A buffered store of lanes laid over a word is the same merge. -/
theorem over_mem {m : Memory} (t : Store) (q : Word) (hw : m.wf = true) (ha : wordAddr t.pa = t.pa) :
    (m.writeLanes t.pa t.mask t.val).readWord q = Store.over q (m.readWord q) t := by
  rw [readWord_writeLanes _ _ _ _ hw, Store.over, ha]
  simp only [eq_comm (a := wordAddr q)]

theorem drainTransfer_wf {s : State} (b : List Store) (hw : s.mem.wf = true) : (s.drainTransfer b).mem.wf = true := by
  induction b generalizing s with
  | nil => exact hw
  | cons t r ih =>
    unfold State.drainTransfer
    split
    · exact ih (writeLanes_wf _ _ _ hw)
    · exact ih hw
    · exact hw

theorem foldl_drainTransfer_wf {s : State} (l : List (List Store)) (hw : s.mem.wf = true) :
    (l.foldl State.drainTransfer s).mem.wf = true := by
  induction l generalizing s with
  | nil => exact hw
  | cons b r ih => exact ih (drainTransfer_wf b hw)

theorem drainAll_eq (s : State) :
    s.drainAll = { s with mem := s.drainAll.mem, storeBuf := [], lostStores := s.drainAll.lostStores } := by
  have h := drainTo_eq s 0
  simpa [State.drainAll] using h

@[simp] theorem drainAll_storeBuf (s : State) : s.drainAll.storeBuf = [] := by rw [drainAll_eq]

/-- Draining keeps the canonical form. -/
theorem drainTo_wf {s : State} (n : Nat) (hw : s.mem.wf = true) : (s.drainTo n).mem.wf = true :=
  foldl_drainTransfer_wf (s := s) _ hw

theorem drainAll_wf {s : State} (hw : s.mem.wf = true) : s.drainAll.mem.wf = true := drainTo_wf 0 hw

/-- Draining does not depend on the hazards remembered. -/
theorem drainTransfer_recent (s : State) (r : List Hazard) (b : List Store) :
    ({ s with recent := r } : State).drainTransfer b = { s.drainTransfer b with recent := r } := by
  induction b generalizing s with
  | nil => rfl
  | cons t b ih =>
    cases h : s.board.writeAnswer t.pa <;> simp only [State.drainTransfer, h]
    · exact ih { s with mem := s.mem.writeLanes t.pa t.mask t.val }
    · exact ih s

theorem drainAll_recent_eq (s : State) (r : List Hazard) :
    ({ s with recent := r } : State).drainAll = { s.drainAll with recent := r } := by
  have h : ∀ (l : List (List Store)) (s : State),
      l.foldl State.drainTransfer { s with recent := r } = { l.foldl State.drainTransfer s with recent := r } := by
    intro l
    induction l with
    | nil => intro s; rfl
    | cons b l ih => intro s; simp only [List.foldl_cons, drainTransfer_recent]; exact ih _
  simp only [State.drainAll, State.drainTo, h]

/-- With nothing buffered there is nothing to drain. -/
theorem drainAll_nil {s : State} (h : s.storeBuf = []) : s.drainAll = s := by
  cases s; simp_all [State.drainAll, State.drainTo]

/-- A transfer that memory takes reaches it store by store (R105). -/
theorem drainTransfer_readWord {s : State} (b : List Store) (q : Word) (hw : s.mem.wf = true)
    (hr : ∀ t ∈ b, s.board.writeAnswer t.pa = .ram) (ha : ∀ t ∈ b, wordAddr t.pa = t.pa) :
    (s.drainTransfer b).mem.readWord q = b.foldl (Store.over q) (s.mem.readWord q) := by
  induction b generalizing s with
  | nil => rfl
  | cons t r ih =>
    rw [State.drainTransfer, hr t (by simp), List.foldl_cons, ← over_mem t q hw (ha t (by simp))]
    exact ih (s := { s with mem := s.mem.writeLanes t.pa t.mask t.val }) (writeLanes_wf _ _ _ hw)
      (fun t h => hr t (by simp [h])) (fun t h => ha t (by simp [h]))

/-- So do the transfers, in their order. -/
theorem foldl_drainTransfer_readWord {s : State} (l : List (List Store)) (q : Word) (hw : s.mem.wf = true)
    (hr : ∀ b ∈ l, ∀ t ∈ b, s.board.writeAnswer t.pa = .ram) (ha : ∀ b ∈ l, ∀ t ∈ b, wordAddr t.pa = t.pa) :
    (l.foldl State.drainTransfer s).mem.readWord q = l.flatten.foldl (Store.over q) (s.mem.readWord q) := by
  induction l generalizing s with
  | nil => rfl
  | cons b r ih =>
    have hb : (s.drainTransfer b).board = s.board := by rw [drainTransfer_eq]
    rw [List.foldl_cons, List.flatten_cons, List.foldl_append,
      ← drainTransfer_readWord b q hw (hr b (by simp)) (ha b (by simp))]
    exact ih (drainTransfer_wf b hw) (fun c h t ht => by rw [hb]; exact hr c (by simp [h]) t ht)
      (fun c h t ht => ha c (by simp [h]) t ht)

/-- Stores that reach memory leave every word the processor reads as it was (R126, R128). -/
theorem drainTo_physWord {s : State} (n : Nat) (q : Word) (hw : s.mem.wf = true)
    (hr : ∀ b ∈ s.storeBuf, ∀ t ∈ b, s.board.writeAnswer t.pa = .ram) (ha : ∀ b ∈ s.storeBuf, ∀ t ∈ b, wordAddr t.pa = t.pa) :
    (s.drainTo n).physWord q = s.physWord q := by
  have hs : s.storeBuf = s.storeBuf.take (s.storeBuf.length - n) ++ s.storeBuf.drop (s.storeBuf.length - n) :=
    (List.take_append_drop _ _).symm
  have hk := foldl_drainTransfer_readWord (s := s) (s.storeBuf.take (s.storeBuf.length - n)) q hw
    (fun b h => hr b (List.mem_of_mem_take h)) (fun b h => ha b (List.mem_of_mem_take h))
  unfold State.physWord
  conv_rhs => rw [hs, List.flatten_append, List.foldl_append, ← hk]
  rfl

/-- The memory at reset has the canonical form. -/
theorem reset_memory_wf : State.reset.mem.wf = true := rfl

/-! ## Words and bytes as the processor reads them -/

/-- A store is seen by the processor at once, in its word only (R126). -/
theorem enqueue_physWord (s : State) (pa mask v q : Word) :
    (s.enqueue pa mask v).physWord q =
      if wordAddr pa = wordAddr q then mergeLanes (s.physWord q) mask v else s.physWord q := by
  simp [State.physWord, State.enqueue, State.enqueueBlock, Store.of, Store.over]

theorem physWord_congr {s t : State} (hm : t.mem = s.mem) (hb : t.storeBuf = s.storeBuf) (q : Word) :
    t.physWord q = s.physWord q := by simp [State.physWord, hm, hb]

theorem physByte_congr {s t : State} (hm : t.mem = s.mem) (hb : t.storeBuf = s.storeBuf) (q : Word) :
    t.physByte q = s.physByte q := by simp [State.physByte, physWord_congr hm hb]

/-- A merge leaves a byte alone whose mask bits are clear. -/
theorem mergeLanes_byte (w mask v : Word) (i : Nat) (hi : i + 8 ≤ 32) (h : mask.extractLsb' i 8 = 0) :
    (mergeLanes w mask v).extractLsb' i 8 = w.extractLsb' i 8 := by
  ext j hj
  have hb : mask.getLsbD (i + j) = false := by
    have := congrArg (fun x => x.getLsbD j) h
    simpa [hj] using this
  have hl : i + j < 32 := by omega
  have hm : mask[i + j] = false := by simpa [BitVec.getLsbD_eq_getElem hl] using hb
  simp [mergeLanes, hm, hl]

/-- The bytes a checked write does not cover are as they were. -/
theorem commit_physByte {s : State} {p : Slot} (v : Word) {a : Word} (h : p.covers a = false) :
    (s.commit p v).physByte a = s.physByte a := by
  unfold Slot.covers at h
  unfold State.commit State.homeWrite
  cases hp : p.home with
  | sc b => exact physByte_congr rfl rfl a
  | phys pa =>
    simp only [hp] at h
    simp only [State.physByte, enqueue_physWord]
    by_cases e : wordAddr pa = wordAddr a
    · simp only [e, if_true]
      apply mergeLanes_byte
      · omega
      · simpa [e] using h
    · simp [e]

/-- The stack cache words a checked write does not cover are as they were. -/
theorem commit_sc {s : State} {p : Slot} (v : Word) {i : Fin 64} (h : p.coversSc i = false) :
    (s.commit p v).sc.get i = s.sc.get i := by
  unfold Slot.coversSc at h
  unfold State.commit State.homeWrite
  cases hp : p.home with
  | sc b =>
    simp only [hp, beq_eq_false_iff_ne] at h
    have : (scIdx b).val ≠ i.val := fun e => h (Fin.ext e)
    simp [State.scMerge, Vector.get_eq_getElem, this]
  | phys pa => rfl

theorem commit_sameOutside (s : State) (p : Slot) (v : Word) : sameOutside p s (s.commit p v) :=
  ⟨fun _ h => commit_physByte v h, fun _ h => commit_sc v h⟩

end Sys2Proof.Laws
end

