-- ==== Sys2Proof/Laws/Dyadic.lean ====
section
/-! SUPPORT. What the shared shapes of the dyadic instructions do when their operands are readable: one lemma for each shape of
Operands.lean. -/

namespace Sys2Proof.Laws

open Sys2Proof.Machine

variable {s : State} {k : Prefix} {f : Dyadic} {op : DyOp} {a b : Word} {d : Opd} {t : Target} {p : Slot}

/-- A dyadic instruction, with or without a prefix, runs its meaning. -/
theorem exec_dyadicInstr (k : Prefix) (op : DyOp) (f : Dyadic) (s : State) :
    exec (dyadicInstr k op f) s = run (dyadicM op k f) s := by
  cases k <;> cases op <;> rfl

/-- What both operands give the check made at decoding. -/
theorem operands_ok (hs : s.src? k f = some a) (hd : s.dst? k f = some d) :
    ∃ o, s.opd? (srcArg s k f) = some o ∧ s.value? o = some a ∧ (srcArg s k f).noReg = false ∧
      (srcArg s k f).alignedNow = true ∧ (dstArg s k f).noReg = false := by
  simp only [State.src?, Option.bind_eq_some_iff] at hs
  obtain ⟨o, ho, hv⟩ := hs
  exact ⟨o, ho, hv, noReg_of_opd ho, alignedNow_of_opd ho (aligned_of_value hv), noReg_of_opd hd⟩

/-- What is left of a state when the operation's flags and its result have been written, in the order the operation has. -/
def aluState (s : State) (t : Target) (r : AluOut) : State :=
  let s := if r.flagsFirst then s.setFlags r.flags else s
  let s := if r.store then s.put t r.val else s
  if r.flagsFirst then s else s.setFlags r.flags

/-- Writing the flags opens no hazard for the instruction itself (R491). -/
@[simp] theorem setFlags_regSettled (o : FlagOut) (r : Reg) : (s.setFlags o).regSettled r = s.regSettled r := by
  cases r <;> simp [State.regSettled, State.oldPsws, State.oldShads]

/-- An operand of an unhindered instruction. -/
theorem unhindered_src {o : Opd} (hc : s.unhindered op k f) (ho : s.opd? (srcArg s k f) = some o) :
    s.settled (lateFor op (dstArg s k f)) o = true := by
  have := hc.1; rw [State.srcSettled, ho] at this; exact this

theorem unhindered_dst (hc : s.unhindered op k f) (hd : s.dst? k f = some d) :
    s.settled (lateFor op (dstArg s k f)) d = true := by
  have := hc.2; rw [State.dstSettled, hd] at this; exact this

/-- What an instruction that writes its destination operand may see untruncated (R495). -/
theorem lateFor_dst (hw : op.writesDst = true) (hl : op ∉ [.addi, .andi, .ori]) (da : Arg) :
    lateFor op da = lateOp op da.bytes := by
  cases op <;> first | rfl | exact absurd hw (by decide) | exact absurd hl (by decide)

/-- What an instruction that writes the accumulator may see untruncated (R495). -/
theorem lateFor_acc (hw : op.writesDst = false) (hl : op ∉ [.cmpeq, .cmpgt, .cmphi]) (da : Arg) :
    lateFor op da = lateOp op 4 := by
  cases op <;> first | rfl | exact absurd hw (by decide) | exact absurd hl (by decide)

theorem aluState_pc (s : State) (t : Target) (r : AluOut) : (aluState s t r).pc = s.pc := by
  unfold aluState; dsimp only; repeat' split
  all_goals simp

/-- A two-operand instruction that reads its destination. -/
theorem dyadicToDst_ok {alu : Word → Word → AluOut} (hc : s.unhindered op k f) (hf : f.accepted k op = true) (hr : op.readsDst = true)
    (h2 : twoRegs s k f = false) (hs : s.src? k f = some a) (hd : s.dst? k f = some d) (hb : s.value? d = some b)
    (ht : s.target? d = some t) (hz : (alu a b).zdiv = false)
    (hl : lateFor op (dstArg s k f) = lateOp op (dstArg s k f).bytes := by rfl) :
    dyadicToDst op k f alu s = .ok ()
      { (aluState s t (alu a b)).noteWide op d (alu a b).val with pc := s.pc + dyadicSize k f } := by
  obtain ⟨o, ho, hv, hn, ha, hn'⟩ := operands_ok hs hd
  have hpre : precheck k op f (srcArg s k f) (dstArg s k f) (srcArg s k f).alignedNow s = .ok () s :=
    precheck_ok hf hn hn' (by unfold twoRegs at h2; simp [h2]) ha (alignedNow_of_opd hd (aligned_of_value hb))
  have c1 := unhindered_src hc ho
  have c2 := unhindered_dst hc hd
  have c3 := target_settled c2 ht
  have c4 : ∀ r, t = .reg r → (s.setFlags (alu a b).flags).regSettled r = true := by simpa using c3
  rw [hl] at c1 c2
  cases hst : (alu a b).store <;> cases hff : (alu a b).flagsFirst <;>
    simp [dyadicToDst, hpre, resolve_ok ho, readOpd_ok c1 hv, resolve_ok hd, hr, readOpd_ok c2 hb, checkDst_ok ht, hz, hst, hff,
      storeDst_ok c3, storeDst_ok c4, aluState]

/-- An instruction that only writes its destination (MOV). -/
theorem dyadicToDst_ok_write {alu : Word → Word → AluOut} (hc : s.unhindered op k f) (hf : f.accepted k op = true)
    (hr : op.readsDst = false) (hs : s.src? k f = some a) (hd : s.dst? k f = some d)
    (ht : s.target? d = some t) (hz : (alu a 0).zdiv = false)
    (hl : lateFor op (dstArg s k f) = lateOp op (dstArg s k f).bytes := by rfl) :
    dyadicToDst op k f alu s = .ok ()
      { (aluState s t (alu a 0)).noteWide op d (alu a 0).val with pc := s.pc + dyadicSize k f } := by
  obtain ⟨o, ho, hv, hn, ha, hn'⟩ := operands_ok hs hd
  have hpre : precheck k op f (srcArg s k f) (dstArg s k f) (srcArg s k f).alignedNow s = .ok () s :=
    precheck_ok hf hn hn' (by simp [hr]) ha (alignedNow_of_opd hd (aligned_of_target ht))
  have c1 := unhindered_src hc ho
  have c3 := target_settled (unhindered_dst hc hd) ht
  have c4 : ∀ r, t = .reg r → (s.setFlags (alu a 0).flags).regSettled r = true := by simpa using c3
  rw [hl] at c1
  simp only [BitVec.ofNat_eq_ofNat] at hz c4 ⊢
  cases hst : (alu a 0#32).store <;> cases hff : (alu a 0#32).flagsFirst <;>
    simp [dyadicToDst, hpre, resolve_ok ho, readOpd_ok c1 hv, resolve_ok hd, hr, checkDst_ok ht, hz, hst, hff, storeDst_ok c3,
      storeDst_ok c4, aluState]

/-- An instruction whose result goes to the accumulator (R25). -/
theorem dyadicToAcc_ok {alu : Word → Word → AluOut} (hc : s.unhindered op k f) (hf : f.accepted k op = true)
    (h2 : twoRegs s k f = false) (hs : s.src? k f = some a) (hd : s.dst? k f = some d) (hb : s.value? d = some b)
    (hp : s.acc? = some p) (hz : (alu a b).zdiv = false) (hl : lateFor op (dstArg s k f) = lateOp op 4 := by rfl) :
    dyadicToAcc op k f alu s = .ok ()
      { ((s.commit p (alu a b).val).setFlags (alu a b).flags).noteWide op d (alu a b).val with
        pc := s.pc + dyadicSize k f } := by
  obtain ⟨o, ho, hv, hn, ha, hn'⟩ := operands_ok hs hd
  have hpre : precheck k op f (srcArg s k f) (dstArg s k f) (srcArg s k f).alignedNow s = .ok () s :=
    precheck_ok hf hn hn' (by unfold twoRegs at h2; simp [h2]) ha (alignedNow_of_opd hd (aligned_of_value hb))
  have c1 := unhindered_src hc ho
  have c2 := unhindered_dst hc hd
  rw [hl] at c1 c2
  simp [dyadicToAcc, hpre, resolve_ok ho, readOpd_ok c1 hv, resolve_ok hd, readOpd_ok c2 hb, checkWrite_ok hp, hz]

/-- A compare (R233). -/
theorem dyadicCompare_ok {rel : Word → Word → Bool} (hc : s.unhindered op k f) (hf : f.accepted k op = true)
    (h2 : twoRegs s k f = false) (hs : s.src? k f = some a) (hd : s.dst? k f = some d) (hb : s.value? d = some b)
    (hl : lateFor op (dstArg s k f) = lateOp op 0 := by rfl) :
    dyadicCompare op k f rel s = .ok () { s.setFlags { f := some (rel a b) } with pc := s.pc + dyadicSize k f } := by
  obtain ⟨o, ho, hv, hn, ha, hn'⟩ := operands_ok hs hd
  have hpre : precheck k op f (srcArg s k f) (dstArg s k f) (srcArg s k f).alignedNow s = .ok () s :=
    precheck_ok hf hn hn' (by unfold twoRegs at h2; simp [h2]) ha (alignedNow_of_opd hd (aligned_of_value hb))
  have c1 := unhindered_src hc ho
  have c2 := unhindered_dst hc hd
  rw [hl] at c1 c2
  simp [dyadicCompare, hpre, resolve_ok ho, readOpd_ok c1 hv, resolve_ok hd, readOpd_ok c2 hb]

/-- With no store lost, the drain point only empties the store buffer (R108). -/
theorem drainPoint_ok (hs : s.alone = true) (hl : s.drainAll.lostStores = 0) : drainPoint s = .ok () s.drainAll := by
  simp [drainPoint, others_run hs, hl]

/-- Clearing the pipeline of its results changes nothing else (R108). -/
theorem settleWides_eq (s : State) : s.settleWides = { s with recent := s.settleWides.recent } := rfl

/-- What the start of an interlocked instruction leaves of the fields an operand depends on. -/
theorem srcArg_lockStart (s : State) (k : Prefix) (f : Dyadic) : srcArg s.lockStart k f = srcArg s k f := by
  rw [State.lockStart, drainAll_eq]; rfl

theorem dstArg_lockStart (s : State) (k : Prefix) (f : Dyadic) : dstArg s.lockStart k f = dstArg s k f := by
  rw [State.lockStart, drainAll_eq]; rfl

theorem level_lockStart (s : State) : s.lockStart.level = s.level := by
  rw [State.lockStart, drainAll_eq]; rfl

theorem lockStart_pc (s : State) : s.lockStart.pc = s.pc := by
  rw [State.lockStart, drainAll_eq]; rfl

theorem lockStart_alone (s : State) : s.lockStart.alone = s.alone := drainAll_alone s

/-- An interlocked instruction: drained, its destination read and written, its old value to the accumulator (R203). -/
theorem interlocked_ok {alu : Word → Word → Word} (hc : s.lockStart.unhindered op k f) (hs' : s.alone = true)
    (hf : f.accepted k op = true) (h2 : twoRegs s k f = false) (hl : s.lockStart.lostStores = 0)
    (hs : s.lockStart.src? k f = some a) (hd : s.lockStart.dst? k f = some d) (hb : s.lockStart.value? d = some b)
    (ht : s.lockStart.target? d = some t) (ha : s.lockStart.acc?.isSome = true)
    (hp : ({ s.locked t (alu a b) with config := s.config }).slot? (s.accLevel t (alu a b)) s.accAddr 4 = some p)
    (hlf : lateFor op (dstArg s.lockStart k f) = (fun _ => false) := by rfl) :
    interlocked op k f alu s = .ok ()
      { ((s.locked t (alu a b)).commit p b).drainAll with pc := s.pc + dyadicSize k f } := by
  obtain ⟨o, ho, hv, hn, hal, hn'⟩ := operands_ok hs hd
  have c1 := unhindered_src hc ho
  have c2 := unhindered_dst hc hd
  rw [hlf] at c1
  unfold State.dst? at hd
  rw [srcArg_lockStart] at ho hn hal
  rw [dstArg_lockStart] at hd hn'
  have hpre : precheck k op f (srcArg s k f) (dstArg s k f) (srcArg s k f).alignedNow s = .ok () s :=
    precheck_ok hf hn hn' (by unfold twoRegs at h2; simp [h2]) hal (alignedNow_of_opd hd (aligned_of_value hb))
  have e := level_lockStart s
  have r1 := resolve_ok ho
  have r2 := readOpd_ok c1 hv
  have r3 := resolve_ok hd
  have r4 := checkBoth_ok hb ht
  have r5 := readTarget_ok c2 hb ht
  unfold State.acc? at ha
  obtain ⟨q, ha⟩ := Option.isSome_iff_exists.1 ha
  have r6 := attempt_ok (checkWrite_ok ha)
  have hacc : s.lockStart.accAddr = s.accAddr := by rw [State.lockStart, drainAll_eq]; rfl
  rw [e] at r1 r2 r3 r4 r6
  rw [hacc] at r6
  have hd' : s.lockStart.alone = true := by rw [lockStart_alone]; exact hs'
  have hl' : (s.locked t (alu a b)).alone = true := by rw [State.locked, drainAll_alone, put_alone]; exact hd'
  have lock : undisturbed (do
      let v ← readTarget d.size t
      storeDst t (alu a v)
      modS State.drainAll
      pure v) s.lockStart = .ok b (s.locked t (alu a b)) :=
    undisturbed_ok hd' hl' (by simp [r5, storeDst_ok (target_settled c2 ht), State.locked])
  have acc := underConfig_ok (s := s.locked t (alu a b)) (checkWrite_ok hp)
  have hq : ((s.locked t (alu a b)).commit p b).alone = true := by rw [commit_alone]; exact hl'
  have settle : s.drainAll.settleWides = s.lockStart := rfl
  simp only [interlocked, bind_run, getS_run, hpre, drainPoint_ok hs' hl, modS_run, settle, r1, r2, r3, r4, r6, others_run hd']
  rw [lock]
  simp only [State.accLevel] at acc
  simp only [acc, others_run hl', advance_run]
  simp [State.locked, lockStart_pc]

/-- No MOVA writes a register (R262). -/
theorem mova_target (hf : f.accepted k .mova = true) (hd : s.dst? k f = some d) (ht : s.target? d = some t) (r : Reg) :
    t ≠ .reg r := by
  rintro rfl
  have h : ∀ (m : Mode) (x : Word), (k == .cpu && m.isReg) = false → s.opd? (argOf s k m x) ≠ some (.reg r) := by
    intro m x hm
    have hn : ¬(k = .cpu ∧ m.isReg = true) := by simpa using hm
    simp only [argOf, if_neg hn]
    split <;> simp [State.opd?]
  have hd' : d = .reg r := by
    cases d <;> simp [State.target?] at ht
    rw [ht.2]
  subst hd'
  cases f with
  | p1 x y => cases y <;> simp [State.dst?, dstArg, shortArg, State.opd?] at hd
  | p3 sm dm x y =>
    simp only [Dyadic.accepted, DyOp.legal, Bool.and_eq_true, Bool.not_eq_true'] at hf
    exact h dm _ hf.1.2.2 hd
  | p5 sm dm x y =>
    simp only [Dyadic.accepted, DyOp.legal, Bool.and_eq_true, Bool.not_eq_true'] at hf
    exact h dm _ hf.1.2.2 hd
  | illegal a b c => simp [Dyadic.accepted] at hf

/-- MOVA (R262). -/
theorem moveAddress_ok (hf : f.accepted k .mova = true) (hn : (srcArg s k f).noReg = false)
    (hpa : (srcArg s k f).pointerAligned = true) (ha : addrOf s.level (srcArg s k f) s = .ok a s)
    (hd : s.dst? k f = some d) (ht : s.target? d = some t) :
    moveAddress k f s = .ok () { s.put t a with pc := (s.put t a).pc + dyadicSize k f } := by
  have hpre : precheck k .mova f (srcArg s k f) (dstArg s k f) (srcArg s k f).pointerAligned s = .ok () s :=
    precheck_ok hf hn (noReg_of_opd hd) (by simp [DyOp.readsDst]) hpa (alignedNow_of_opd hd (aligned_of_target ht))
  have hm := mova_target hf hd ht
  simp [moveAddress, hpre, ha, resolve_ok hd, checkDst_ok ht, storeDst_ok fun r h => absurd h (hm r)]

/-- The words of a block are read in order where memory answers for each. -/
theorem readWords_ok {h : Home} {is : List Nat} {ws : List Word} (hw : is.mapM (fun i => s.word? (h.plus i)) = some ws) :
    readWords h is s = .ok ws s := by
  induction is generalizing ws with
  | nil => simp at hw; simp [readWords, hw]
  | cons i r ih =>
    simp [List.mapM_cons, Option.bind_eq_some_iff] at hw
    obtain ⟨w, hw1, ws', hw2, rfl⟩ := hw
    simp [readWords, homeWord_ok hw1, ih hw2]

/-- A block of two or four words is read in order where memory answers for each (R105). -/
theorem readBlock_ok {h : Home} {n : Nat} {ws : List Word} (hw : (blockIdx n).mapM (fun i => s.word? (h.plus i)) = some ws) :
    readBlock h n s = .ok ws s := by
  cases h with
  | sc a => simp [readBlock, readWords_ok hw]
  | phys pa =>
    have hs : s.alone = true := by
      have h0 : (s.word? ((Home.phys pa).plus 0)).isSome = true := by
        unfold blockIdx at hw
        split at hw <;> simp only [List.mapM_cons, bind, Option.bind_eq_some_iff] at hw <;> obtain ⟨w, hw, -⟩ := hw <;>
          simp [hw]
      simp only [State.word?, Home.plus] at h0
      split at h0
      · exact alone_of_reads ‹_›
      · simp at h0
    simp [readBlock, others_run hs, readWords_ok hw]

end Sys2Proof.Laws
end

