-- ==== Sys2Proof/Laws/Stack.lean ====
section
/-! SUPPORT. The stack cache's quad-word transfers and the store check, when nothing stands in their way, and loops of them
(20_memory.md R91, R92, R95). -/

namespace Sys2Proof.Laws

open Sys2Proof.Machine

variable {s : State} {lv : Level} {a v pa q : Word}

/-- A store check that passes changes nothing (R95). -/
theorem checkStore_ok (h : s.storeOk lv a = true) : checkStore lv a s = .ok () s := by
  unfold State.storeOk at h
  rw [Option.isSome_iff_exists] at h
  obtain ⟨pa, h⟩ := h
  obtain ⟨c, ht⟩ := translate_ok h
  unfold checkStore
  cases lv.vp
  · simp
  · simp [ht]

/-- A loop that turns `n` times through the states `st`. -/
theorem whileM_turns {c : State → Bool} {m : M Unit} (st : Nat → State) (n fuel : Nat) (hf : n ≤ fuel)
    (hs : ∀ j < n, c (st j) = true ∧ m (st j) = .ok () (st (j + 1))) (he : c (st n) = false) :
    whileM fuel c m (st 0) = .ok () (st n) := by
  induction fuel generalizing n st with
  | zero =>
    have : n = 0 := by omega
    subst this
    rfl
  | succ k ih =>
    cases n with
    | zero => simp [whileM, he]
    | succ n =>
      have h0 := hs 0 (by omega)
      have := ih (fun j => st (j + 1)) n (by omega) (fun j hj => hs (j + 1) (by omega)) he
      simp [whileM, h0.1, h0.2, this]

/-- A precise store to external memory joins the store buffer where no bus error answers. -/
theorem storePrecise_phys (w : Word) (h : s.board.writeAnswer pa ≠ .busError) :
    storePrecise (.phys pa) w s = .ok () (s.enqueue pa 0xFFFFFFFF w) := by
  have hb : (s.board.writeAnswer pa == Answer.busError) = false := by simpa using h
  simp [storePrecise, checkAnswer, hb, State.homeWrite]

/-- A block that meets no bus error joins the store buffer as one transfer (R105). -/
theorem storeBlock_ok {ts : List Store} (h : ∀ t ∈ ts, s.board.writeAnswer t.pa ≠ .busError) :
    storeBlock ts s = .ok () (s.enqueueBlock ts) := by
  have e : (ts.takeWhile fun t => s.board.writeAnswer t.pa != .busError) = ts :=
    List.takeWhile_eq_self_iff.2 fun t ht => by simpa using h t ht
  simp [storeBlock, e]

/-- What a quad-word's translation and the bus say of its four words. -/
theorem quadOut_spec (h : s.quadOut? lv q = some pa) :
    s.trans? lv .write q = some pa ∧ ∀ i ∈ blockIdx 4, s.board.writeAnswer (pa + BitVec.ofNat 32 (4 * i)) ≠ .busError := by
  simp only [State.quadOut?, Option.bind_eq_some_iff] at h
  obtain ⟨p, hp, h⟩ := h
  split at h
  case isFalse => simp at h
  case isTrue ha =>
    simp only [Option.some.injEq] at h
    subst h
    exact ⟨hp, by simpa using ha⟩

/-- The bus answers for a word at its word address. -/
theorem writeAnswer_wordAddr (b : Board) (pa : Word) : b.writeAnswer (wordAddr pa) = b.writeAnswer pa := by
  simp [Board.writeAnswer, wordAddr_idem]

/-- No bus error on the four words of a quad-word is none on its stores. -/
theorem quadStores_answer (q : Word)
    (h : ∀ i ∈ blockIdx 4, s.board.writeAnswer (pa + BitVec.ofNat 32 (4 * i)) ≠ .busError) :
    ∀ t ∈ s.quadStores q pa, s.board.writeAnswer t.pa ≠ .busError := by
  simp only [blockIdx, show ¬((4 : Nat) = 2) by decide, if_false, List.forall_mem_cons] at h
  simp only [State.quadStores, blockStores, blockIdx, show ¬((4 : Nat) = 2) by decide, if_false, List.map_cons, List.map_nil,
    List.zipWith, List.forall_mem_cons, Store.of, writeAnswer_wordAddr]
  exact ⟨h.1, h.2.1, h.2.2.1, h.2.2.2.1, by simp⟩

/-- One quad-word flushed (R91). -/
theorem flushQuad_ok (hlt : s.sp < s.msp) (h : s.quadOut? lv (s.msp - 16) = some pa) :
    flushQuad lv s = .ok ()
      { s with storeBuf := s.storeBuf ++ [s.quadStores (s.msp - 16) pa], msp := s.msp - 16 } := by
  obtain ⟨ht, ha⟩ := quadOut_spec h
  obtain ⟨c, ht⟩ := translate_ok ht
  have e : decide (s.sp < s.msp) = true := by simpa using hlt
  simp only [flushQuad, bind_run, getS_run, e, Bool.not_true, refuseIf_false, ht,
    storeBlock_ok (quadStores_answer (s.msp - 16) ha), modS_run]
  rfl

/-- What a quad-word to be brought in needs. -/
theorem quadIn_spec (h : s.quadIn? lv q = some pa) :
    s.storeOk lv q = true ∧ s.trans? lv .read q = some pa ∧ ∀ i ∈ blockIdx 4, s.reads (pa + BitVec.ofNat 32 (4 * i)) = true := by
  unfold State.quadIn? at h
  split at h
  case isFalse => simp at h
  case isTrue hs =>
    simp only [Option.bind_eq_some_iff] at h
    obtain ⟨p, hp, h⟩ := h
    split at h
    case isFalse => simp at h
    case isTrue ha =>
      simp only [Option.some.injEq] at h
      subst h
      exact ⟨hs, hp, by simpa using ha⟩

/-- One quad-word brought in (R92). -/
theorem fillQuad_ok (h : s.quadIn? lv s.msp = some pa) :
    fillQuad lv s = .ok ()
      { s.scWriteWords s.msp (blockIdx 4) ((blockIdx 4).map fun i => s.physWord (pa + BitVec.ofNat 32 (4 * i))) with
        msp := s.msp + 16 } := by
  obtain ⟨hs, ht, hr⟩ := quadIn_spec h
  obtain ⟨c, ht⟩ := translate_ok ht
  have hw : (blockIdx 4).mapM (fun i => s.word? ((Home.phys pa).plus i)) =
      some ((blockIdx 4).map fun i => s.physWord (pa + BitVec.ofNat 32 (4 * i))) := by
    have e : ∀ i ∈ blockIdx 4, s.word? ((Home.phys pa).plus i) = some (s.physWord (pa + BitVec.ofNat 32 (4 * i))) := by
      intro i hi
      simp [State.word?, Home.plus, hr i hi]
    simp only [blockIdx, show ¬((4 : Nat) = 2) by decide, if_false] at e ⊢
    simp [List.mapM_cons, e]
  have hb : readBlock (.phys pa) 4 s = .ok ((blockIdx 4).map fun i => s.physWord (pa + BitVec.ofNat 32 (4 * i))) s :=
    readBlock_ok hw
  simp [fillQuad, checkStore_ok hs, ht, hb]

end Sys2Proof.Laws
end

