-- ==== Sys2Proof/Laws/Events.lean ====
section
/-! SUPPORT. What the event sequences, KCALL, KRET and CRET do when their accesses succeed (R310, R312, R410, R420). -/

namespace Sys2Proof.Laws

open Sys2Proof.Machine

variable {s : State} {lv : Level} {a v pa va : Word} {h : Home}

/-- A store no bus error answers (R425). -/
theorem checkAnswer_ok (hb : ∀ pa, h = .phys pa → s.board.writeAnswer pa ≠ .busError) : checkAnswer h s = .ok () s := by
  cases h with
  | sc b => rfl
  | phys pa =>
    have : (s.board.writeAnswer pa == Answer.busError) = false := by simpa using hb pa rfl
    simp [checkAnswer, this]

/-- A word written on the interrupt stack (R403). -/
theorem frameWrite_ok (hh : s.frameHome? lv a = some h) (v : Word) :
    frameWrite lv a v s = .ok () (s.homeWrite h 0xFFFFFFFF v) := by
  unfold State.frameHome? at hh
  split at hh
  case isFalse => simp at hh
  case isTrue ha =>
    have fin : ∀ h, s.home? lv .write a = some h → (∀ pa, h = .phys pa → s.board.writeAnswer pa ≠ .busError) →
        frameWrite lv a v s = .ok () (s.homeWrite h 0xFFFFFFFF v) := by
      intro h hw hb
      have hp : s.slot? lv a 4 = some ⟨h, laneMask (s.little lv.user) a 4, laneShift (s.little lv.user) a 4⟩ := by
        simp [State.slot?, ha, hw]
      simp [frameWrite, checkWrite_ok hp, storePrecise, checkAnswer_ok hb]
    cases hw : s.home? lv .write a with
    | none => simp [hw] at hh
    | some g =>
      cases g with
      | sc b =>
        simp only [hw, Option.some.injEq] at hh
        subst hh
        exact fin _ hw (by simp)
      | phys pa =>
        simp only [hw, Option.ite_none_left_eq_some, Option.some.injEq] at hh
        obtain ⟨hb, rfl⟩ := hh
        exact fin _ hw (by rintro _ ⟨⟩; exact hb)

/-- A store changes neither where a later word goes nor what the vector table answers. -/
theorem homeWrite_frameHome (g : Home) (m v : Word) : (s.homeWrite g m v).frameHome? lv a = s.frameHome? lv a := by
  rw [homeWrite_eq]; rfl

theorem homeWrite_vector (g : Home) (m v : Word) : (s.homeWrite g m v).vector? lv a = s.vector? lv a := by
  rw [homeWrite_eq]; rfl

/-- A word read past the stack cache (R94). -/
theorem vectorRead_ok (hv : s.vector? lv a = some va) : vectorRead lv a s = .ok (s.physWord va) s := by
  simp only [State.vector?, Option.bind_eq_some_iff] at hv
  obtain ⟨p, hp, hv⟩ := hv
  split at hv
  case isFalse => simp at hv
  case isTrue hr =>
    simp only [Option.some.injEq] at hv
    subst hv
    obtain ⟨c, ht⟩ := translate_ok hp
    simp [vectorRead, ht, physRead_ok hr]

/-- The frame with an identifier (R310, R420). -/
theorem eventFrame_ok {h1 h2 h3 : Home} (ident epc vec : Word) (e1 : s.frameHome? s.eventLevel (s.isp - 12) = some h1)
    (e2 : s.frameHome? s.eventLevel (s.isp - 8) = some h2) (e3 : s.frameHome? s.eventLevel (s.isp - 4) = some h3)
    (ev : s.vector? s.eventLevel (s.vb + vec) = some va) :
    eventFrame (some ident) epc vec s = .ok () (s.entered [(h1, ident), (h2, epc), (h3, s.psw.toWord)] va) := by
  have f1 := frameWrite_ok e1 ident
  have f2 := frameWrite_ok (s := s.homeWrite h1 0xFFFFFFFF ident) (by rw [homeWrite_frameHome]; exact e2) epc
  have f3 := frameWrite_ok (s := (s.homeWrite h1 0xFFFFFFFF ident).homeWrite h2 0xFFFFFFFF epc)
    (by rw [homeWrite_frameHome, homeWrite_frameHome]; exact e3) s.psw.toWord
  obtain ⟨w, hwd⟩ : ∃ w, w = ((s.homeWrite h1 0xFFFFFFFF ident).homeWrite h2 0xFFFFFFFF epc).homeWrite h3 0xFFFFFFFF
    s.psw.toWord := ⟨_, rfl⟩
  have hw : w.vector? s.eventLevel (s.vb + vec) = some va := by
    simp only [hwd, homeWrite_vector]; exact ev
  have f4 := vectorRead_ok (s := { w with isp := s.isp - 16, shad := s.isp - 16 }) (lv := s.eventLevel)
    (a := s.vb + vec) (va := va) hw
  have g1 := guardReset_ok (m := do
      frameWrite s.eventLevel (s.isp - 12) ident
      frameWrite s.eventLevel (s.isp - 8) epc
      frameWrite s.eventLevel (s.isp - 4) s.psw.toWord) (s := s) (t := w) (a := ()) (by simp only [bind_run, f1, f2, f3, hwd])
  have g2 := guardReset_ok f4
  simp only [eventFrame, bind_run, getS_run, g1, modS_run]
  have hi : w.isp = s.isp := by simp [hwd]
  have hvb : w.vb = s.vb := by simp [hwd]
  have hpsw : w.psw = s.psw := by simp [hwd]
  simp only [hi, hvb] at g2 ⊢
  rw [g2]
  simp only [State.entered, List.foldl_cons, List.foldl_nil, ← hwd, hpsw, hvb]
  rfl

/-- The frame without an identifier (R410). -/
theorem eventFrame_none_ok {h2 h3 : Home} (epc vec : Word)
    (e2 : s.frameHome? s.eventLevel (s.isp - 8) = some h2) (e3 : s.frameHome? s.eventLevel (s.isp - 4) = some h3)
    (ev : s.vector? s.eventLevel (s.vb + vec) = some va) :
    eventFrame none epc vec s = .ok () (s.entered [(h2, epc), (h3, s.psw.toWord)] va) := by
  have f2 := frameWrite_ok e2 epc
  have f3 := frameWrite_ok (s := s.homeWrite h2 0xFFFFFFFF epc) (by rw [homeWrite_frameHome]; exact e3) s.psw.toWord
  obtain ⟨w, hwd⟩ : ∃ w, w = (s.homeWrite h2 0xFFFFFFFF epc).homeWrite h3 0xFFFFFFFF s.psw.toWord := ⟨_, rfl⟩
  have hw : w.vector? s.eventLevel (s.vb + vec) = some va := by
    simp only [hwd, homeWrite_vector]; exact ev
  have f4 := vectorRead_ok (s := { w with isp := s.isp - 16, shad := s.isp - 16 }) (lv := s.eventLevel)
    (a := s.vb + vec) (va := va) hw
  have g1 := guardReset_ok (m := do
      frameWrite s.eventLevel (s.isp - 8) epc
      frameWrite s.eventLevel (s.isp - 4) s.psw.toWord) (s := s) (t := w) (a := ()) (by simp only [bind_run, f2, f3, hwd])
  have g2 := guardReset_ok f4
  have g1' : guardReset (do
      (pure () : M Unit)
      frameWrite s.eventLevel (s.isp - 8) epc
      frameWrite s.eventLevel (s.isp - 4) s.psw.toWord) s = .ok () w := g1
  simp only [eventFrame, bind_run, getS_run, modS_run]
  rw [g1']
  have hi : w.isp = s.isp := by simp [hwd]
  have hvb : w.vb = s.vb := by simp [hwd]
  have hpsw : w.psw = s.psw := by simp [hwd]
  simp only [hi, hvb] at g2 ⊢
  rw [g2]
  simp only [State.entered, List.foldl_cons, List.foldl_nil, ← hwd, hpsw, hvb]
  rfl

/-- Taking an exception clears the hazards remembered and depends on none of them (R420). -/
theorem exceptionSequence_settleWides (hs : s.alone = true) (e : Exc) (epc : Word) :
    exceptionSequence e epc s.settleWides = exceptionSequence e epc s := by
  have hd : ∀ (v : State) (r : List Hazard), ({ v with recent := r } : State).beginEvent = v.beginEvent := by
    intro v r
    have hl : ∀ (d : State) (x m : Word), ({ d with recent := r } : State).lowerSp x m = { d.lowerSp x m with recent := r } := by
      intro d x m
      by_cases h : x < (if d.sp < m then d.sp else m)
      · simp only [State.lowerSp, h, if_true]; rfl
      · simp only [State.lowerSp, h, if_false]
    simp only [State.beginEvent, drainAll_recent_eq, hl]
    generalize v.drainAll = d
    cases hp : d.psw.s <;> simp [State.setCsp, hp]
  have h : (e.noteFault s.settleWides).beginEvent = (e.noteFault s).beginEvent := by
    have : e.noteFault s.settleWides = { e.noteFault s with recent := s.settleWides.recent } := by cases e <;> rfl
    rw [this]; exact hd _ _
  have hs' : s.settleWides.alone = true := hs
  simp only [exceptionSequence, bind_run, others_run hs, others_run hs', modS_run, h]

/-- KRET at kernel level with its frame readable (R312). -/
theorem kernelReturn_ok {t w : Word} (hs : s.alone = true) (hx : s.psw.x = false) (ht : s.load? s.level (s.isp + 8) 4 = some t)
    (hw : s.load? s.level (s.isp + 12) 4 = some w) :
    kernelReturn s = .ok () (s.restore (Psw.ofWord w) t).drainAll := by
  simp only [kernelReturn, bind_run, getS_run, hx, raiseIf_false, memReadW, guardReset_ok (memRead_ok ht),
    guardReset_ok (memRead_ok hw), others_run hs, modS_run]

/-- The shared sequence of the unimplemented codes and the trapped niladics (R430, R431). -/
theorem softTrap_ok {p : Slot} {vec : Word} (hp : s.slot? s.level s.csp 4 = some p)
    (hb : ∀ pa, p.home = .phys pa → s.board.writeAnswer pa ≠ .busError) (hv : s.vector? s.level (s.vb + vec) = some va) :
    softTrap vec s = .ok ()
      { s.commit p s.pc with pc := textAddr ((s.commit p s.pc).physWord va), event := .softTrap } := by
  simp only [State.vector?, Option.bind_eq_some_iff] at hv
  obtain ⟨q, hq, hv⟩ := hv
  split at hv
  case isFalse => simp at hv
  case isTrue hr =>
    simp only [Option.some.injEq] at hv
    subst hv
    obtain ⟨c, ht⟩ := translate_ok hq
    have ha : s.board.readAnswer q = .ram := by
      simp only [State.reads, Bool.and_eq_true, beq_iff_eq] at hr
      exact hr.2
    have hr' : (s.commit p s.pc).reads q = true := by rw [State.reads, commit_alone, commit_board]; exact hr
    have hn : raiseIf (Answer.ram == Answer.busError) Exc.busFault s = .ok () s := rfl
    simp [softTrap, checkWrite_ok hp, checkAnswer_ok hb, ht, ha, hn, physRead_ok hr']

end Sys2Proof.Laws
end

