-- ==== Sys2Proof/Laws/Flush.lean ====
section
/-! SUPPORT. What the flushes leave of text older than memory (R132), in the prefetch registers and in the reads under way, and of the
walks under way (R123, R124): one lemma for each kind. -/

namespace Sys2Proof.Laws

open Sys2Proof.Machine

/-- Whether a line is older than memory depends on its words and its physical address, and on memory and the store buffer. -/
theorem oldLine_congr {s t : State} (hm : t.mem = s.mem) (hb : t.storeBuf = s.storeBuf) (l : PfbLine) : t.oldLine l = s.oldLine l := by
  simp [State.oldLine, physWord_congr hm hb]

@[simp] theorem oldLine_age (s : State) (l : PfbLine) : s.oldLine (s.age l) = s.oldLine l := rfl
@[simp] theorem age_pa (s : State) (l : PfbLine) : (s.age l).pa = l.pa := rfl

/-- What a FLUSHI leaves in the prefetch registers: a line that was there, marked if it is old, and not one that both flushes have
found old. -/
theorem mem_flushInstrs_ahead {s : State} {e : AheadLine} (h : e ∈ s.flushInstrs.ahead) :
    ∃ d ∈ s.ahead, e = { d with line := s.age d.line } ∧ (s.oldLine d.line = true → d.flushed = false) := by
  simp only [State.flushInstrs, keepAhead, List.mem_filter, List.mem_map] at h
  obtain ⟨⟨d, hd, rfl⟩, hk⟩ := h
  refine ⟨d, hd, rfl, fun ho => ?_⟩
  simpa [State.age, ho] using hk

/-- What a flush of the prefetch buffer leaves in the prefetch registers: a line that was there, marked if it is old and among those
flushed, and not one that both flushes have found old. -/
theorem mem_flushLines_ahead {s : State} {gone : PfbLine → Bool} {e : AheadLine} (h : e ∈ (s.flushLines gone).ahead) :
    ∃ d ∈ s.ahead, e = { d with flushed := d.flushed || (gone d.line && s.oldLine d.line) } ∧
      (gone d.line = true → s.oldLine d.line = true → d.line.aged = false) := by
  simp only [State.flushLines, keepAhead, List.mem_filter, List.mem_map] at h
  obtain ⟨⟨d, hd, rfl⟩, hk⟩ := h
  refine ⟨d, hd, rfl, fun hg ho => ?_⟩
  simpa [hg, ho] using hk

/-- Whether a half-read quad-word is older than memory depends on what it holds and on memory and the store buffer. -/
theorem oldHalf_congr {s t : State} (hm : t.mem = s.mem) (hb : t.storeBuf = s.storeBuf) (r : TextRead) (h : LowerHalf) :
    t.oldHalf r h = s.oldHalf r h := by
  simp [State.oldHalf, physWord_congr hm hb]

@[simp] theorem line_pa (r : TextRead) (h : LowerHalf) (w2 w3 : Word) : (r.line h w2 w3).pa = quadAlign r.pa := rfl

/-- Half-read text that a FLUSHI leaves was there, is marked if it is old, and is not text that both flushes have found old. -/
theorem upper_mem_flushInstrs {s : State} {r : TextRead} {h : LowerHalf} (hu : .upper r h ∈ s.flushInstrs.prefetches) :
    ∃ g, .upper r g ∈ s.prefetches ∧ h = { g with aged := g.aged || s.oldHalf r g } ∧ (s.oldHalf r g = true → g.flushed = false) := by
  simp only [State.flushInstrs, List.mem_filter, List.mem_map] at hu
  obtain ⟨⟨p, hp, e⟩, hk⟩ := hu
  cases p <;> simp only [State.agePrefetch, Prefetch.upper.injEq, reduceCtorEq] at e
  case upper r' g =>
    obtain ⟨rfl, rfl⟩ := e
    exact ⟨g, hp, rfl, fun ho => by simpa [Prefetch.stale, ho] using hk⟩

/-- Half-read text that a flush of the prefetch buffer leaves was there, is marked if it is old and among that flushed, and is not
text that both flushes have found old. -/
theorem upper_mem_flushLines {s : State} {gone : PfbLine → Bool} {r : TextRead} {h : LowerHalf}
    (hu : .upper r h ∈ (s.flushLines gone).prefetches) :
    ∃ g, .upper r g ∈ s.prefetches ∧ h = { g with flushed := g.flushed || (gone (r.line g 0 0) && s.oldHalf r g) } ∧
      (gone (r.line g 0 0) = true → s.oldHalf r g = true → g.aged = false) := by
  simp only [State.flushLines, List.mem_filter, List.mem_map] at hu
  obtain ⟨⟨p, hp, e⟩, hk⟩ := hu
  cases p <;> simp only [State.markPrefetch, Prefetch.upper.injEq, reduceCtorEq] at e
  case upper r' g =>
    obtain ⟨rfl, rfl⟩ := e
    exact ⟨g, hp, rfl, fun hg ho => by simp only [BitVec.ofNat_eq_ofNat] at hg; simpa [Prefetch.stale, hg, ho] using hk⟩

/-- After a FLUSHPTE no prefetch is in the middle of a walk of that page (R124), after a write of STB in that of any (R123). -/
theorem page_mem_flushPage {s : State} {a va ste : Word} (h : .page va ste ∈ (s.flushPage a).prefetches) : vpnOf va ≠ vpnOf a := by
  simp only [State.flushPage, List.mem_filter] at h
  simpa [Prefetch.walksPage] using h.2

theorem page_not_mem_flushTranslations (s : State) (va ste : Word) : .page va ste ∉ s.flushTranslations.prefetches := by
  simp [State.flushTranslations, Prefetch.midWalk]

end Sys2Proof.Laws
end

