-- ==== Sys2Proof/Laws/PerInstr.lean ====
section
/-! SUPPORT. A statement for every instruction, made per constructor: its encoding has one to six parcels (R5, R140, R170). -/

namespace Sys2Proof.Laws

/-- The encoding has at least one parcel and at most six. -/
def EncodeLen.Statement (i : Instr) : Prop := 1 ≤ (encode i).length ∧ (encode i).length ≤ 6

theorem encodeDyadic_length (op : DyOp) (f : Sys2Proof.Dyadic) :
    1 ≤ (encodeDyadic op f).length ∧ (encodeDyadic op f).length ≤ 5 := by
  cases f <;> simp [encodeDyadic, wordParcels]

theorem encodeMonadic_length {F M : Type} (op : MonOp) (short : F → Parcel) (mode : M → Mode) (f : Monadic F M) :
    1 ≤ (encodeMonadic op short mode f).length ∧ (encodeMonadic op short mode f).length ≤ 3 := by
  cases f <;> simp [encodeMonadic, encodeMon3, encodeMonBad, wordParcels]

theorem encodeUnimpl_length (u : Unimpl) : (encodeUnimpl u).length = 1 := by cases u <;> rfl

theorem encodeBody_length (b : CpuBody) : 1 ≤ (encodeBody b).length ∧ (encodeBody b).length ≤ 5 := by
  cases b with
  | dyadic op f => exact encodeDyadic_length op f
  | word op f =>
    have h := encodeMonadic_length (.word op) Empty.elim WordMode.toMode f
    exact ⟨h.1, by simp only [encodeBody]; omega⟩
  | flow op f =>
    have h := encodeMonadic_length (.flow op) Empty.elim FlowMode.toMode f
    exact ⟨h.1, by simp only [encodeBody]; omega⟩
  | stack op f =>
    have h := encodeMonadic_length (.stack op) Empty.elim stackMode f
    exact ⟨h.1, by simp only [encodeBody]; omega⟩
  | flushdce m => simp [encodeBody, encodeMonBad]
  | unimplemented u => simp [encodeBody, encodeUnimpl_length]
  | oneParcel p => simp [encodeBody]

theorem EncodeLen.of_dyadic {i : Instr} (op : DyOp) (f : Sys2Proof.Dyadic) (h : encode i = encodeDyadic op f) :
    EncodeLen.Statement i := by
  have := encodeDyadic_length op f
  rw [← h] at this
  exact ⟨this.1, by omega⟩

theorem EncodeLen.of_monadic {F M : Type} {i : Instr} {op : MonOp} {short : F → Parcel} {mode : M → Mode}
    {f : Monadic F M} (h : encode i = encodeMonadic op short mode f) : EncodeLen.Statement i := by
  have := encodeMonadic_length op short mode f
  rw [← h] at this
  exact ⟨this.1, by omega⟩

theorem EncodeLen.of_one {i : Instr} (h : (encode i).length = 1) : EncodeLen.Statement i := by
  simp [EncodeLen.Statement, h]

theorem EncodeLen.ori (f : Sys2Proof.Dyadic) : EncodeLen.Statement (.ori f) := EncodeLen.of_dyadic .ori f rfl
theorem EncodeLen.andi (f : Sys2Proof.Dyadic) : EncodeLen.Statement (.andi f) := EncodeLen.of_dyadic .andi f rfl
theorem EncodeLen.addi (f : Sys2Proof.Dyadic) : EncodeLen.Statement (.addi f) := EncodeLen.of_dyadic .addi f rfl
theorem EncodeLen.mova (f : Sys2Proof.Dyadic) : EncodeLen.Statement (.mova f) := EncodeLen.of_dyadic .mova f rfl
theorem EncodeLen.urem (f : Sys2Proof.Dyadic) : EncodeLen.Statement (.urem f) := EncodeLen.of_dyadic .urem f rfl
theorem EncodeLen.mov (f : Sys2Proof.Dyadic) : EncodeLen.Statement (.mov f) := EncodeLen.of_dyadic .mov f rfl
theorem EncodeLen.dqm (f : Sys2Proof.Dyadic) : EncodeLen.Statement (.dqm f) := EncodeLen.of_dyadic .dqm f rfl
theorem EncodeLen.tadd (f : Sys2Proof.Dyadic) : EncodeLen.Statement (.tadd f) := EncodeLen.of_dyadic .tadd f rfl
theorem EncodeLen.tsub (f : Sys2Proof.Dyadic) : EncodeLen.Statement (.tsub f) := EncodeLen.of_dyadic .tsub f rfl
theorem EncodeLen.cmpgt (f : Sys2Proof.Dyadic) : EncodeLen.Statement (.cmpgt f) := EncodeLen.of_dyadic .cmpgt f rfl
theorem EncodeLen.cmphi (f : Sys2Proof.Dyadic) : EncodeLen.Statement (.cmphi f) := EncodeLen.of_dyadic .cmphi f rfl
theorem EncodeLen.cmpeq (f : Sys2Proof.Dyadic) : EncodeLen.Statement (.cmpeq f) := EncodeLen.of_dyadic .cmpeq f rfl
theorem EncodeLen.sub (f : Sys2Proof.Dyadic) : EncodeLen.Statement (.sub f) := EncodeLen.of_dyadic .sub f rfl
theorem EncodeLen.or (f : Sys2Proof.Dyadic) : EncodeLen.Statement (.or f) := EncodeLen.of_dyadic .or f rfl
theorem EncodeLen.and (f : Sys2Proof.Dyadic) : EncodeLen.Statement (.and f) := EncodeLen.of_dyadic .and f rfl
theorem EncodeLen.add (f : Sys2Proof.Dyadic) : EncodeLen.Statement (.add f) := EncodeLen.of_dyadic .add f rfl
theorem EncodeLen.xor (f : Sys2Proof.Dyadic) : EncodeLen.Statement (.xor f) := EncodeLen.of_dyadic .xor f rfl
theorem EncodeLen.rem (f : Sys2Proof.Dyadic) : EncodeLen.Statement (.rem f) := EncodeLen.of_dyadic .rem f rfl
theorem EncodeLen.mul (f : Sys2Proof.Dyadic) : EncodeLen.Statement (.mul f) := EncodeLen.of_dyadic .mul f rfl
theorem EncodeLen.div (f : Sys2Proof.Dyadic) : EncodeLen.Statement (.div f) := EncodeLen.of_dyadic .div f rfl
theorem EncodeLen.shr (f : Sys2Proof.Dyadic) : EncodeLen.Statement (.shr f) := EncodeLen.of_dyadic .shr f rfl
theorem EncodeLen.ushr (f : Sys2Proof.Dyadic) : EncodeLen.Statement (.ushr f) := EncodeLen.of_dyadic .ushr f rfl
theorem EncodeLen.shl (f : Sys2Proof.Dyadic) : EncodeLen.Statement (.shl f) := EncodeLen.of_dyadic .shl f rfl
theorem EncodeLen.udiv (f : Sys2Proof.Dyadic) : EncodeLen.Statement (.udiv f) := EncodeLen.of_dyadic .udiv f rfl
theorem EncodeLen.sub3 (f : Sys2Proof.Dyadic) : EncodeLen.Statement (.sub3 f) := EncodeLen.of_dyadic .sub3 f rfl
theorem EncodeLen.or3 (f : Sys2Proof.Dyadic) : EncodeLen.Statement (.or3 f) := EncodeLen.of_dyadic .or3 f rfl
theorem EncodeLen.and3 (f : Sys2Proof.Dyadic) : EncodeLen.Statement (.and3 f) := EncodeLen.of_dyadic .and3 f rfl
theorem EncodeLen.add3 (f : Sys2Proof.Dyadic) : EncodeLen.Statement (.add3 f) := EncodeLen.of_dyadic .add3 f rfl
theorem EncodeLen.xor3 (f : Sys2Proof.Dyadic) : EncodeLen.Statement (.xor3 f) := EncodeLen.of_dyadic .xor3 f rfl
theorem EncodeLen.rem3 (f : Sys2Proof.Dyadic) : EncodeLen.Statement (.rem3 f) := EncodeLen.of_dyadic .rem3 f rfl
theorem EncodeLen.mul3 (f : Sys2Proof.Dyadic) : EncodeLen.Statement (.mul3 f) := EncodeLen.of_dyadic .mul3 f rfl
theorem EncodeLen.div3 (f : Sys2Proof.Dyadic) : EncodeLen.Statement (.div3 f) := EncodeLen.of_dyadic .div3 f rfl
theorem EncodeLen.shr3 (f : Sys2Proof.Dyadic) : EncodeLen.Statement (.shr3 f) := EncodeLen.of_dyadic .shr3 f rfl
theorem EncodeLen.ushr3 (f : Sys2Proof.Dyadic) : EncodeLen.Statement (.ushr3 f) := EncodeLen.of_dyadic .ushr3 f rfl
theorem EncodeLen.shl3 (f : Sys2Proof.Dyadic) : EncodeLen.Statement (.shl3 f) := EncodeLen.of_dyadic .shl3 f rfl
theorem EncodeLen.kcall (f : Monadic (BitVec 10) WordMode) : EncodeLen.Statement (.kcall f) := EncodeLen.of_monadic rfl
theorem EncodeLen.call (f : Monadic (BitVec 10) FlowMode) : EncodeLen.Statement (.call f) := EncodeLen.of_monadic rfl
theorem EncodeLen.ret (f : Monadic (BitVec 8) Unit) : EncodeLen.Statement (.ret f) := EncodeLen.of_monadic rfl
theorem EncodeLen.jmp (f : Monadic (BitVec 10) FlowMode) : EncodeLen.Statement (.jmp f) := EncodeLen.of_monadic rfl
theorem EncodeLen.jmpfn (f : Monadic (BitVec 10) FlowMode) : EncodeLen.Statement (.jmpfn f) := EncodeLen.of_monadic rfl
theorem EncodeLen.jmpfy (f : Monadic (BitVec 10) FlowMode) : EncodeLen.Statement (.jmpfy f) := EncodeLen.of_monadic rfl
theorem EncodeLen.jmptn (f : Monadic (BitVec 10) FlowMode) : EncodeLen.Statement (.jmptn f) := EncodeLen.of_monadic rfl
theorem EncodeLen.jmpty (f : Monadic (BitVec 10) FlowMode) : EncodeLen.Statement (.jmpty f) := EncodeLen.of_monadic rfl
theorem EncodeLen.catchSc (f : Monadic (BitVec 8) WordMode) : EncodeLen.Statement (.catchSc f) := EncodeLen.of_monadic rfl
theorem EncodeLen.enter (f : Monadic (BitVec 8) WordMode) : EncodeLen.Statement (.enter f) := EncodeLen.of_monadic rfl
theorem EncodeLen.ldraa (f : Monadic Empty FlowMode) : EncodeLen.Statement (.ldraa f) := EncodeLen.of_monadic rfl
theorem EncodeLen.flushpte (f : Monadic Empty WordMode) : EncodeLen.Statement (.flushpte f) := EncodeLen.of_monadic rfl
theorem EncodeLen.flushpbe (f : Monadic Empty WordMode) : EncodeLen.Statement (.flushpbe f) := EncodeLen.of_monadic rfl
theorem EncodeLen.flushdce (m : Mode) : EncodeLen.Statement (.flushdce m) := EncodeLen.of_one rfl
theorem EncodeLen.popn (f : Monadic (BitVec 8) Unit) : EncodeLen.Statement (.popn f) := EncodeLen.of_monadic rfl
theorem EncodeLen.cpu (b : CpuBody) : EncodeLen.Statement (.cpu b) := by
  have h := encodeBody_length b
  simp only [EncodeLen.Statement, encode, List.length_cons]
  omega
theorem EncodeLen.kret : EncodeLen.Statement .kret := EncodeLen.of_one rfl
theorem EncodeLen.nop : EncodeLen.Statement .nop := EncodeLen.of_one rfl
theorem EncodeLen.flushi : EncodeLen.Statement .flushi := EncodeLen.of_one rfl
theorem EncodeLen.flushp : EncodeLen.Statement .flushp := EncodeLen.of_one rfl
theorem EncodeLen.cret : EncodeLen.Statement .cret := EncodeLen.of_one rfl
theorem EncodeLen.flushd : EncodeLen.Statement .flushd := EncodeLen.of_one rfl
theorem EncodeLen.testv : EncodeLen.Statement .testv := EncodeLen.of_one rfl
theorem EncodeLen.testc : EncodeLen.Statement .testc := EncodeLen.of_one rfl
theorem EncodeLen.clre : EncodeLen.Statement .clre := EncodeLen.of_one rfl
theorem EncodeLen.unimplemented (u : Unimpl) : EncodeLen.Statement (.unimplemented u) := EncodeLen.of_one (encodeUnimpl_length u)
theorem EncodeLen.niladicTrap (n : BitVec 9) : EncodeLen.Statement (.niladicTrap n) := EncodeLen.of_one rfl

end Sys2Proof.Laws
end

