-- ==== Sys2Proof/Laws/Prefetch.lean ====
section
/-! SUPPORT. What other agents and the prefetch unit do between two accesses of the program (20_memory.md R131, D8): a relation
between the state before and after that their primitive effects respect is respected by every act, and so memory keeps its canonical
form and all that only the program changes stays. -/

namespace Sys2Proof.Laws

open Sys2Proof.Machine

variable {α β : Type} {R : State → State → Prop}

/-- The state a computation ends in, early or not. -/
def final : EStateM.Result Stop State α → State
  | .ok _ t => t
  | .error _ t => t

@[simp] theorem final_ok (a : α) (s : State) : final (.ok a s) = s := rfl
@[simp] theorem final_error (e : Stop) (s : State) : final (.error e s : EStateM.Result Stop State α) = s := rfl

/-- A computation that ends, from every state, in a related one. -/
def Keeps (R : State → State → Prop) (m : M α) : Prop := ∀ s, R s (final (m s))

/-! ## The table walker -/

/-- A preorder that what the table walker does to the state respects. -/
structure Walks (R : State → State → Prop) : Prop where
  refl : ∀ s, R s s
  trans : ∀ s t u, R s t → R t u → R s u
  draw : ∀ s n, R s { s with draw := n }
  mem : ∀ s a m v, R s { s with mem := s.mem.writeLanes a m v }
  tlb : ∀ s k e, R s (s.loadTlb k e)
  npsr : ∀ s k n, R s (s.loadNpsr k n)

namespace Walks

theorem modS {f : State → State} (hf : ∀ s, R s (f s)) : Keeps R (modS f) := hf

variable (h : Walks R)
include h

theorem pure (a : α) : Keeps R (Pure.pure a : M α) := fun s => h.refl s
theorem getS : Keeps R getS := fun s => h.refl s

theorem bind {m : M α} {g : α → M β} (hm : Keeps R m) (hg : ∀ a, Keeps R (g a)) : Keeps R (m >>= g) := by
  intro s
  have h1 := hm s
  rw [bind_run]
  cases e : m s with
  | ok a t =>
    rw [e] at h1
    exact h.trans _ _ _ h1 (hg a t)
  | error x t => rw [e] at h1; exact h1

theorem busRead (e : Exc) (pa : Word) : Keeps R (busRead e pa) := by
  intro s
  unfold Machine.busRead
  split
  · exact h.refl s
  · exact h.draw s _
  · exact h.refl s

theorem busWrite (e : Exc) (pa v : Word) : Keeps R (busWrite e pa v) := by
  intro s
  unfold Machine.busWrite
  split
  · exact h.mem s _ _ _
  · exact h.refl s
  · exact h.refl s

theorem readSte (va : Word) : Keeps R (readSte va) := h.bind h.getS fun _ => h.busRead _ _

theorem segmentEntry (k : Kind) (va ste : Word) : Keeps R (segmentEntry k va ste) := by
  unfold Machine.segmentEntry
  split
  · exact h.pure _
  · exact h.bind (modS fun s => h.npsr s _ _) fun _ => h.pure _

/-- The second half of a walk (R114). -/
theorem walkPage (user : Bool) (k : Kind) (va ste : Word) : Keeps R (walkPage user k va ste) := by
  unfold Machine.walkPage
  refine h.bind (h.busRead _ _) fun pte => ?_
  split
  · exact h.pure _
  · split
    · exact h.pure _
    · dsimp only
      split
      · exact h.bind (h.busWrite _ _ _) fun _ => h.bind (modS fun s => h.tlb s _ _) fun _ => h.pure _
      · exact h.bind (modS fun s => h.tlb s _ _) fun _ => h.pure _

end Walks

/-! ## Every act -/

/-- A preorder that all the primitive effects of other agents and of the prefetch unit respect. -/
structure Agents (R : State → State → Prop) : Prop extends Walks R where
  deliver : ∀ s n, R s (s.drainTo n)
  textTlb : ∀ s f, R s { s with textTlb := s.textTlb.filter f }
  dataTlb : ∀ s f, R s { s with dataTlb := s.dataTlb.filter f }
  textNpsr : ∀ s, R s { s with textNpsr := none }
  dataNpsr : ∀ s, R s { s with dataNpsr := none }
  pfb : ∀ s f, R s { s with pfb := s.pfb.filter f }
  ahead : ∀ s f, R s { s with ahead := s.ahead.filter f }
  ic : ∀ s f, R s { s with ic := s.ic.filter f }
  line : ∀ s c l, R s (s.keepLine c l)
  instr : ∀ s a ts, R s (s.keepInstr a ts)
  held : ∀ s e, R s (s.readAhead e)
  reads : ∀ s l, R s { s with prefetches := l }

namespace Agents

variable (h : Agents R)
include h

theorem foundText (s : State) (va : Word) (x : Xlat) : R s (s.foundText va x) := by
  unfold State.foundText
  split
  · exact h.held s _
  · split
    · exact h.reads s _
    · exact h.refl s

theorem foundEntry (s : State) (va : Word) (e : Option Entry) : R s (s.foundEntry va e) := by
  unfold State.foundEntry
  split
  · split
    · exact h.foundText s _ _
    · exact h.refl s
  · exact h.refl s

/-- One bus access of a prefetch (R131). -/
theorem prefetchNext (p : Prefetch) : Keeps R (prefetchNext p) := by
  cases p with
  | segment va =>
    refine h.bind (h.readSte va) fun ste => ?_
    split
    · exact Walks.modS fun s => h.reads s _
    · exact h.bind (h.segmentEntry _ _ _) fun _ => Walks.modS fun s => h.foundEntry s _ _
  | page va ste => exact h.bind h.getS fun _ => h.bind (h.walkPage _ _ _ _) fun _ => Walks.modS fun s => h.foundEntry s _ _
  | lower r =>
    refine Walks.modS fun s => ?_
    split
    · exact h.reads s _
    · exact h.refl s
  | upper r g =>
    refine Walks.modS fun s => ?_
    split
    · exact h.trans _ _ _ (h.line s _ _) (h.held _ _)
    · exact h.refl s

/-- One act (D8, R131). -/
theorem act (s : State) (x : Act) : R s (s.act x) := by
  cases x with
  | deliver => exact h.deliver s _
  | write pa v =>
    simp only [State.act, State.masterWord]
    split
    · exact h.mem s _ _ _
    · exact h.refl s
  | textPage va => exact h.textTlb s _
  | dataPage va => exact h.dataTlb s _
  | textSegment => exact h.textNpsr s
  | dataSegment => exact h.dataNpsr s
  | line pa => exact h.pfb s _
  | registers pa => exact h.ahead s _
  | instr va => exact h.ic s _
  | prefetch va old =>
    simp only [State.act, State.prefetchOne]
    split
    · exact h.foundText s _ _
    · split
      · exact h.reads s _
      · exact h.refl s
  | linger pa =>
    simp only [State.act, State.lingerOne]
    split
    · exact h.reads s _
    · exact h.refl s
  | advance i =>
    simp only [State.act, State.advanceOne]
    split
    · exact h.refl s
    · rename_i p _
      have hp := h.prefetchNext p { s with prefetches := s.prefetches.eraseIdx i }
      split <;> rename_i e <;> rw [e] at hp <;> exact h.trans _ _ _ (h.reads s _) hp
  | predecode va old =>
    simp only [State.act, State.predecodeOne]
    split
    · exact h.instr s _ _
    · exact h.refl s

/-- Any number of acts. -/
theorem acts (l : List Act) (s : State) : R s (l.foldl State.act s) := by
  induction l generalizing s with
  | nil => exact h.refl s
  | cons x r ih => exact h.trans _ _ _ (h.act s x) (ih _)

end Agents

/-! ## What every act leaves alone -/

/-- The state with all that other agents and the prefetch unit may change blanked: what only the program and its events change. -/
def ownPart (s : State) : State :=
  { s with
    mem := [], storeBuf := [], lostStores := 0, textTlb := [], dataTlb := [], textNpsr := none, dataNpsr := none
    pfb := [], ic := [], ahead := [], prefetches := [], draw := 0 }

/-- No act touches a register, the stack cache, a request, the hazards or the script. -/
theorem own_agents : Agents fun s t => ownPart t = ownPart s where
  refl _ := rfl
  trans _ _ _ h1 h2 := h2.trans h1
  draw _ _ := rfl
  mem _ _ _ _ := rfl
  tlb s k e := by unfold State.loadTlb; (repeat' split) <;> rfl
  npsr s k n := by unfold State.loadNpsr; (repeat' split) <;> rfl
  deliver s n := by rw [drainTo_eq]; rfl
  textTlb _ _ := rfl
  dataTlb _ _ := rfl
  textNpsr _ := rfl
  dataNpsr _ := rfl
  pfb _ _ := rfl
  ahead _ _ := rfl
  ic _ _ := rfl
  line s c l := by unfold State.keepLine; split <;> rfl
  instr s a ts := by unfold State.keepInstr; split <;> rfl
  held _ _ := rfl
  reads _ _ := rfl

theorem act_own (s : State) (x : Act) : ownPart (s.act x) = ownPart s := own_agents.act s x
theorem acts_own (l : List Act) (s : State) : ownPart (l.foldl State.act s) = ownPart s := own_agents.acts l s

/-- Every act keeps the canonical form of memory (D8, R464). -/
theorem wf_agents : Agents fun s t => s.mem.wf = true → t.mem.wf = true where
  refl _ h := h
  trans _ _ _ h1 h2 h := h2 (h1 h)
  draw _ _ h := h
  mem _ _ _ _ h := writeLanes_wf _ _ _ h
  tlb s k e h := by unfold State.loadTlb; (repeat' split) <;> exact h
  npsr s k n h := by unfold State.loadNpsr; (repeat' split) <;> exact h
  deliver _ n h := drainTo_wf n h
  textTlb _ _ h := h
  dataTlb _ _ h := h
  textNpsr _ h := h
  dataNpsr _ h := h
  pfb _ _ h := h
  ahead _ _ h := h
  ic _ _ h := h
  line s c l h := by unfold State.keepLine; split <;> exact h
  instr s a ts h := by unfold State.keepInstr; split <;> exact h
  held _ _ h := h
  reads _ _ h := h

theorem act_wf {s : State} (x : Act) (hw : s.mem.wf = true) : (s.act x).mem.wf = true := wf_agents.act s x hw
theorem foldl_act_wf {s : State} (l : List Act) (hw : s.mem.wf = true) : (l.foldl State.act s).mem.wf = true :=
  wf_agents.acts l s hw

theorem others_wf {s : State} (hw : s.mem.wf = true) : s.others.mem.wf = true := by
  unfold State.others
  split
  · exact hw
  · unfold State.setBetween
    split <;> exact foldl_act_wf _ hw

end Sys2Proof.Laws
end

