-- ==== Sys2Proof/Laws/Preserve.lean ====
section
/-! SUPPORT. A relation between the state before and after that the memory system's own effects respect is respected by every
access: the lemmas an invariant's proof composes, so that no access is unfolded twice. -/

namespace Sys2Proof.Laws

open Sys2Proof.Machine

variable {α β : Type} {R : State → State → Prop}

/-- A preorder that what the memory system does to the state respects. -/
structure Soft (R : State → State → Prop) : Prop extends Walks R where
  block : ∀ s b, (∀ t ∈ b, wordAddr t.pa = t.pa) → R s (s.enqueueBlock b)
  sc : ∀ s a m v, R s (s.scMerge a m v)
  act : ∀ s x, R s (s.act x)
  between : ∀ s l, R s (s.setBetween l)
  underConfig : ∀ s t c, R { s with config := c } t → R s { t with config := s.config }

namespace Soft

variable (h : Soft R)
include h

omit h in
theorem modS {f : State → State} (hf : ∀ s, R s (f s)) : Keeps R (modS f) := hf
theorem stop (e : Stop) : Keeps R (Machine.stop e : M α) := fun s => h.refl s
theorem raise (e : Exc) : Keeps R (Machine.raise e : M α) := fun s => h.refl s

omit h in
theorem map {m : M α} (g : α → β) (hm : Keeps R m) : Keeps R (g <$> m) := by
  intro s
  have h1 := hm s
  rw [map_run]
  cases e : m s <;> rw [e] at h1 <;> exact h1

theorem raiseIf (b : Bool) (e : Exc) : Keeps R (raiseIf b e) := by
  cases b
  · exact h.pure ()
  · exact h.raise e

theorem refuseIf (b : Bool) (r : Refusal) : Keeps R (refuseIf b r) := by
  cases b
  · exact h.pure ()
  · exact h.stop _

theorem flip : Keeps R Machine.flip := fun s => h.draw s _
theorem freeWord : Keeps R Machine.freeWord := fun s => h.draw s _

omit h in
theorem guardReset {m : M α} (hm : Keeps R m) : Keeps R (guardReset m) := by
  intro s
  have h1 := hm s
  unfold Machine.guardReset
  cases e : m s with
  | ok a t => rw [e] at h1; exact h1
  | error x t => rw [e] at h1; cases x <;> exact h1

/-- Other agents between two accesses (D8). -/
theorem others : Keeps R others := by
  intro s
  rw [others_modS, final_ok]
  unfold State.others
  split
  · exact h.refl s
  · refine h.trans _ _ _ ?_ (h.between _ _)
    rename_i l _ _
    clear * - h
    induction l generalizing s with
    | nil => exact h.refl s
    | cons x l ih => exact h.trans _ _ _ (h.act s x) (ih _)

/-- A locked computation (R107). -/
theorem undisturbed {m : M α} (hm : Keeps R m) : Keeps R (undisturbed m) := by
  intro s
  have h1 := h.trans _ _ _ (h.between s []) (hm _)
  unfold Machine.undisturbed
  cases e : m (s.setBetween []) <;> rw [e] at h1 <;> exact h.trans _ _ _ h1 (h.between _ _)

/-- A computation whose answer alone counts. -/
theorem peek (m : M α) : Keeps R (peek m) := by
  intro s
  unfold Machine.peek
  split <;> exact h.draw s _

/-- A computation under another CONFIG (R494). -/
theorem underConfigM {m : M α} (c : Cfg) (hm : Keeps R m) : Keeps R (Machine.underConfig c m) := by
  intro s
  have h1 := hm { s with config := c }
  unfold Machine.underConfig
  cases e : m { s with config := c } <;> rw [e] at h1 <;> exact h.underConfig _ _ _ h1

omit h in
/-- A computation whose exception is left to a later access. -/
theorem attempt {m : M α} (hm : Keeps R m) : Keeps R (attempt m) := by
  intro s
  have h1 := hm s
  unfold Machine.attempt
  cases e : m s with
  | ok a t => rw [e] at h1; exact h1
  | error x t => rw [e] at h1; cases x <;> exact h1

theorem wordRead (pa : Word) : Keeps R (wordRead pa) := by
  intro s
  unfold Machine.wordRead
  split
  · exact h.refl s
  · exact h.draw s _
  · exact h.refl s

theorem physRead (pa : Word) : Keeps R (physRead pa) := h.bind h.others fun _ => h.wordRead pa

/-- A walk of the tables (R114). -/
theorem walk (user : Bool) (k : Kind) (va : Word) : Keeps R (walk user k va) := by
  unfold Machine.walk
  refine h.bind h.others fun _ => h.bind (h.readSte _) fun ste => ?_
  split
  · exact h.bind h.others fun _ => h.walkPage _ _ _ _
  · exact h.segmentEntry _ _ _

/-- Translation (R114). -/
theorem translateAddr (lv : Level) (k : Kind) (va : Word) : Keeps R (translateAddr lv k va) := by
  unfold Machine.translateAddr
  split
  · have end_ : ∀ e : Option Entry, Keeps R (match e with
        | none => Machine.raise (k.faultAt va)
        | some e => if e.allows lv.user k va then Pure.pure (e.xlat va) else Machine.raise (k.faultAt va) : M Xlat) := by
      intro e
      split
      · exact h.raise _
      · split
        · exact h.pure _
        · exact h.raise _
    refine h.bind h.others fun _ => h.bind h.getS fun s => ?_
    dsimp only
    split
    · exact h.bind (h.pure _) end_
    · exact h.bind (h.walk _ _ _) end_
  · exact h.pure _

/-- The store check (R95). -/
theorem checkStore (lv : Level) (a : Word) : Keeps R (checkStore lv a) := by
  unfold Machine.checkStore
  split
  · exact h.bind h.getS fun s => h.bind (h.translateAddr _ _ _) fun _ => h.pure _
  · exact h.pure _

theorem alignCheck (a : Word) (n : Nat) : Keeps R (alignCheck a n) := h.raiseIf _ _

theorem findHome (lv : Level) (k : Kind) (a : Word) : Keeps R (findHome lv k a) := by
  unfold Machine.findHome
  refine h.bind h.getS fun s => ?_
  split
  · exact h.bind (h.refuseIf _ _) fun _ => h.pure _
  · exact h.bind (h.translateAddr _ _ _) fun _ => h.pure _

theorem homeRead (g : Home) : Keeps R (homeRead g) := by
  cases g with
  | sc a => exact h.bind h.getS fun s => h.pure _
  | phys pa => exact h.physRead pa

theorem memRead (lv : Level) (a : Word) (n : Nat) : Keeps R (memRead lv a n) :=
  h.bind (h.alignCheck _ _) fun _ => h.bind (h.findHome _ _ _) fun _ => h.bind (h.homeRead _) fun _ =>
    h.bind h.getS fun _ => h.pure _

theorem memReadW (lv : Level) (a : Word) : Keeps R (memReadW lv a) := h.memRead lv a 4

theorem checkWrite (lv : Level) (a : Word) (n : Nat) : Keeps R (checkWrite lv a n) :=
  h.bind (h.alignCheck _ _) fun _ => h.bind (h.findHome _ _ _) fun _ => h.bind h.getS fun _ => h.pure _

omit h in
/-- The stores of a block are to words. -/
theorem blockStores_wordAddr (pa : Word) (is : List Nat) (ws : List Word) :
    ∀ t ∈ blockStores pa is ws, wordAddr t.pa = t.pa := by
  induction is generalizing ws with
  | nil => simp [blockStores]
  | cons i r ih =>
    cases ws with
    | nil => simp [blockStores]
    | cons w ws => exact List.forall_mem_cons.2 ⟨wordAddr_idem _, ih ws⟩

theorem homeWrite (s : State) (g : Home) (m v : Word) : R s (s.homeWrite g m v) := by
  cases g with
  | sc a => exact h.sc s a m v
  | phys pa => exact h.block s _ (by simp [Store.of, wordAddr_idem])

theorem commit (s : State) (p : Slot) (v : Word) : R s (s.commit p v) := h.homeWrite s _ _ _

theorem checkAnswer (g : Home) : Keeps R (checkAnswer g) := by
  refine h.bind h.getS fun s => ?_
  cases g with
  | sc a => exact h.pure _
  | phys pa => exact h.raiseIf _ _

theorem storePrecise (g : Home) (v : Word) : Keeps R (storePrecise g v) := by
  have end_ : Keeps R (Machine.modS fun s => s.homeWrite g 0xFFFFFFFF v) := modS fun s => h.homeWrite s _ _ _
  exact h.bind (h.checkAnswer g) fun _ => end_

theorem frameWrite (lv : Level) (a v : Word) : Keeps R (frameWrite lv a v) :=
  h.bind (h.checkWrite _ _ _) fun _ => h.storePrecise _ _

theorem vectorRead (lv : Level) (a : Word) : Keeps R (vectorRead lv a) :=
  h.bind (h.translateAddr _ _ _) fun _ => h.physRead _

theorem homeWord (g : Home) : Keeps R (homeWord g) := by
  cases g with
  | sc a => exact h.bind h.getS fun s => h.pure _
  | phys pa => exact h.wordRead pa

theorem readWords (g : Home) (is : List Nat) : Keeps R (readWords g is) := by
  induction is with
  | nil => exact h.pure _
  | cons i r ih => exact h.bind (h.homeWord _) fun _ => h.bind ih fun _ => h.pure _

theorem readBlock (g : Home) (n : Nat) : Keeps R (readBlock g n) := by
  cases g with
  | sc a => exact h.bind (h.pure ()) fun _ => h.readWords _ _
  | phys pa => exact h.bind h.others fun _ => h.readWords _ _

theorem scWriteWords (s : State) (a : Word) (is : List Nat) (ws : List Word) : R s (s.scWriteWords a is ws) := by
  induction is generalizing s ws with
  | nil => exact h.refl s
  | cons i r ih =>
    cases ws with
    | nil => exact h.refl s
    | cons w ws => exact h.trans _ _ _ (h.sc s _ _ _) (ih _ ws)

theorem writeBlock (s : State) (g : Home) (n : Nat) (ws : List Word) : R s (s.writeBlock g n ws) := by
  cases g with
  | sc a => exact h.scWriteWords s a _ ws
  | phys pa => exact h.block s _ (blockStores_wordAddr _ _ _)

theorem storeBlock {ts : List Store} (ht : ∀ t ∈ ts, wordAddr t.pa = t.pa) : Keeps R (storeBlock ts) :=
  h.bind h.getS fun _ =>
    h.bind (modS fun s => h.block s _ fun t hm => ht t ((List.takeWhile_prefix _).subset hm)) fun _ => h.raiseIf _ _

theorem whileM {c : State → Bool} {m : M Unit} (hm : Keeps R m) (n : Nat) : Keeps R (whileM n c m) := by
  induction n with
  | zero => exact h.pure _
  | succ n ih =>
    refine h.bind h.getS fun s => ?_
    split
    · exact h.bind hm fun _ => ih
    · exact h.pure _

theorem openBit (b : Bool) (l : List Bool) : Keeps R (openBit b l) := by
  unfold Machine.openBit
  split
  · exact h.pure _
  · exact h.bind h.flip fun _ => h.pure _

theorem openWord (w : Word) (l : List Word) : Keeps R (openWord w l) := by
  induction l with
  | nil => exact h.pure _
  | cons x r ih =>
    refine h.bind ih fun v => ?_
    split
    · exact h.pure _
    · exact h.bind h.flip fun _ => h.pure _

theorem readReg (r : Reg) : Keeps R (readReg r) := by
  have hp : Keeps R readPsw := h.bind h.getS fun _ => h.bind (h.openBit _ _) fun _ => h.bind (h.openBit _ _) fun _ =>
    h.bind (h.openBit _ _) fun _ => h.bind (h.openBit _ _) fun _ => h.pure _
  have hs : Keeps R readShad := h.bind h.getS fun _ => h.openWord _ _
  cases r <;> first | exact hp | exact hs | exact h.bind h.getS fun _ => h.pure _

theorem resolve (lv : Level) (x : Arg) : Keeps R (resolve lv x) := by
  cases x with
  | imm v => exact h.pure _
  | mem ea z => exact h.pure _
  | ptr p z => exact h.bind (h.memReadW _ _) fun _ => h.pure _
  | reg c =>
    show Keeps R (match Reg.ofCode c with
      | some r => Pure.pure (Opd.reg r)
      | none => Machine.raise .unimplReg : M Opd)
    split
    · exact h.pure _
    · exact h.raise _

theorem readOpd (lv : Level) (late : Wide → Bool) (o : Opd) : Keeps R (readOpd lv late o) := by
  cases o with
  | imm v => exact h.pure _
  | mem ea z => exact h.bind (h.memRead _ _ _) fun _ => h.bind h.getS fun _ => h.openWord _ _
  | reg r => exact h.readReg r

theorem checkDst (lv : Level) (o : Opd) : Keeps R (checkDst lv o) := by
  cases o with
  | imm v => exact h.raise _
  | mem ea z => exact h.bind (h.checkWrite _ _ _) fun _ => h.pure _
  | reg r => exact h.bind (h.raiseIf _ _) fun _ => h.pure _

theorem readFault (x : Home) : Keeps R (readFault x) := by
  cases x with
  | sc a => exact h.pure _
  | phys pa => exact h.bind h.getS fun _ => h.raiseIf _ _

theorem targetFault (t : Target) : Keeps R t.readFault := by
  cases t with
  | slot p => exact h.readFault _
  | reg r => exact h.pure _

theorem checkBoth (lv : Level) (o : Opd) : Keeps R (checkBoth lv o) := by
  cases o with
  | mem ea z =>
    exact h.bind (h.alignCheck _ _) fun _ => h.bind (h.findHome _ _ _) fun _ => h.bind (h.readFault _) fun _ =>
      h.bind (h.checkDst _ _) fun t => h.bind (h.targetFault t) fun _ => h.pure _
  | imm v => exact h.bind (h.checkDst lv (.imm v)) fun t => h.bind (h.targetFault t) fun _ => h.pure _
  | reg r => exact h.bind (h.checkDst lv (.reg r)) fun t => h.bind (h.targetFault t) fun _ => h.pure _

theorem readTarget (z : Sz) (t : Target) : Keeps R (readTarget z t) := by
  cases t with
  | slot p => exact h.bind (h.homeWord _) fun _ => h.pure _
  | reg r => exact h.readReg r

theorem precheck (k : Prefix) (op : DyOp) (f : Dyadic) (x y : Arg) (b : Bool) : Keeps R (precheck k op f x y b) :=
  h.bind (h.raiseIf _ _) fun _ => h.bind (h.raiseIf _ _) fun _ => h.bind (h.refuseIf _ _) fun _ => h.raiseIf _ _

theorem addrOf (lv : Level) (x : Arg) : Keeps R (addrOf lv x) := by
  cases x <;> first | exact h.pure _ | exact h.memReadW _ _

theorem target3 (lv : Level) (s : State) (m : FlowMode) (x : Word) : Keeps R (target3 lv s m x) := by
  cases m <;> first | exact h.pure _ | exact h.memReadW _ _

theorem flowTarget (lv : Level) (s : State) (f : Monadic (BitVec 10) FlowMode) : Keeps R (flowTarget lv s f) := by
  cases f with
  | p1 f => exact h.pure _
  | p3 m x => exact h.target3 _ _ _ _
  | illegal m => exact h.raise _

theorem wordValue (lv : Level) (s : State) (m : WordMode) (x : Word) : Keeps R (wordValue lv s m x) :=
  h.bind (h.raiseIf _ _) fun _ => h.bind (h.resolve _ _) fun _ => h.readOpd _ _ _

theorem replaceTarget (lv : Level) (b : Word) (m : WordMode) (x : Word) : Keeps R (replaceTarget lv b m x) := by
  cases m <;> first | exact h.pure _ | exact h.memReadW _ _

theorem dqmSource (lv : Level) (n : Nat) (o : Opd) : Keeps R (dqmSource lv n o) := by
  cases o with
  | imm v => exact h.pure _
  | mem ea z => exact h.bind (h.findHome _ _ _) fun _ => h.readBlock _ _
  | reg r => exact h.raise _

theorem flushAddr (f : Monadic Empty WordMode) : Keeps R (flushAddr f) := by
  refine h.bind h.getS fun s => ?_
  cases f with
  | p1 f => exact f.elim
  | p3 m x => exact h.bind (h.refuseIf _ _) fun _ => h.bind (h.raiseIf _ _) fun _ => h.addrOf _ _
  | illegal m => exact h.raise _

/-- Text from either space (R494), where ending the old space is respected. -/
theorem inEitherSpace (hs : ∀ s, R s { s with oldSpace := none }) {m : Level → M α} (hm : ∀ lv, Keeps R (m lv)) :
    Keeps R (inEitherSpace m) := by
  have hn : Keeps R (inNewSpace m) := h.bind (modS hs) fun _ => h.bind h.getS fun _ => hm _
  refine h.bind h.getS fun s => ?_
  split
  · exact hm _
  · refine h.bind h.flip fun old => ?_
    split
    · intro t
      unfold inOldSpace
      split
      · exact hn t
      · exact hm _ t
    · exact hn

/-- The two transfers of a line (R131). -/
theorem readLine (va pa : Word) : Keeps R (readLine va pa) :=
  h.bind h.others fun _ => h.bind h.getS fun _ => h.bind h.others fun _ => h.bind h.getS fun _ => h.pure _

theorem keepText (hk : ∀ s c l, R s (s.keepLine c l)) (c : Bool) (l : PfbLine) : Keeps R (keepText c l) := by
  intro s
  unfold Machine.keepText
  split
  · exact hk s c l
  · exact h.refl s

theorem fetchParcel (ho : ∀ s, R s { s with oldSpace := none }) (hk : ∀ s c l, R s (s.keepLine c l)) (a : Word) :
    Keeps R (fetchParcel a) := by
  refine h.inEitherSpace ho fun lv => h.bind (h.translateAddr _ _ _) fun x => h.bind h.getS fun s => ?_
  split
  · exact h.pure _
  · split
    · exact h.bind (h.readLine _ _) fun _ => h.bind (h.keepText hk _ _) fun _ => h.pure _
    · exact h.bind (h.physRead _) fun _ => h.pure _

theorem parcelsFrom {get : Nat → M Text} (hg : ∀ i, Keeps R (get i)) (n i : Nat) : Keeps R (parcelsFrom get n i) := by
  induction n generalizing i with
  | zero => exact h.pure _
  | succ n ih => exact h.bind (hg _) fun _ => h.bind (ih _) fun _ => h.pure _

theorem fetchText (ho : ∀ s, R s { s with oldSpace := none }) (hk : ∀ s c l, R s (s.keepLine c l)) (a : Word) :
    Keeps R (fetchText a) := by
  have hg : ∀ i, Keeps R (Machine.fetchParcel (parcelAddr a i)) := fun i => h.fetchParcel ho hk _
  refine h.bind (hg _) fun p => ?_
  split
  · exact h.bind (hg _) fun _ => h.bind (h.parcelsFrom hg _ _) fun _ => h.pure _
  · exact h.bind (h.parcelsFrom hg _ _) fun _ => h.pure _

theorem translateText (ho : ∀ s, R s { s with oldSpace := none }) (n : Nat) (a : Word) : Keeps R (translateText n a) := by
  induction n generalizing a with
  | zero => exact h.pure _
  | succ n ih => exact h.bind (h.inEitherSpace ho fun _ => h.translateAddr _ _ _) fun _ => ih _

/-- Fetching an instruction (R99), where keeping text and ending the old space are respected. -/
theorem fetch (ho : ∀ s, R s { s with oldSpace := none }) (hk : ∀ s c l, R s (s.keepLine c l))
    (hi : ∀ s a ts, R s (s.keepInstr a ts)) : Keeps R fetch := by
  have hd : ∀ ps, Keeps R (decoded ps) := by
    intro ps
    unfold decoded
    split
    · exact h.pure _
    · exact h.stop _
  refine h.bind h.getS fun s => ?_
  split
  · exact h.bind (h.translateText ho _ _) fun _ => hd _
  · exact h.bind (h.fetchText ho hk _) fun _ => h.bind (hd _) fun _ => h.bind (modS fun _ => hi _ _ _) fun _ => h.pure _

end Soft

/-- With no other agent in the middle of the step a line and its word are memory's, all at once. -/
theorem readLine_ok {s : State} (hs : s.alone = true) (va pa : Word) :
    readLine va pa s = .ok
      ({ pa := quadAlign pa, va := quadAlign va, w0 := s.physWord (quadAlign pa), w1 := s.physWord (quadAlign pa + 4),
         w2 := s.physWord (quadAlign pa + 8), w3 := s.physWord (quadAlign pa + 12) }, s.physWord pa) s := by
  simp only [readLine, bind_run, others_run hs, getS_run, ite_self, pure_run, TextRead.line, State.lowerHalf]

/-- With no direct write of PSW.VP behind it, text comes from the space in PSW (R99). -/
theorem inEitherSpace_none {s : State} {m : Level → M α} (hs : s.oldSpace = none) : inEitherSpace m s = m s.level s := by
  simp [inEitherSpace, hs]

end Sys2Proof.Laws
end

