-- ==== Sys2Proof/Tests/Slice0.lean ====
section
/-! SUPPORT. Tests: ill-formed terms refused, words written out from the encoding tables of 30_encoding.md decoded, one or two
steps for each instruction with the results of 95_test_vectors.md, and for each statement with premises a state and operands
that meet them. -/

open Sys2Proof Sys2Proof.Machine

namespace Sys2Proof.Tests

/-! ## Terms that are not well formed -/

/-- SUB has no one-parcel form, and MOV none with two immediates (Table 1-15). -/
theorem test_wf_refuses_short_pair :
    (Instr.sub (.p1 (.imm5 1) (.stk5 2))).wf = false ∧ (Instr.mov (.p1 (.imm5 1) (.imm5 2))).wf = false := by decide

/-- No one-parcel form stands inside a prefixed dyadic instruction. -/
theorem test_wf_refuses_short_after_prefix : (Instr.cpu (.dyadic .add (.p1 (.imm5 1) (.stk5 2)))).wf = false := by decide

/-- An immediate destination is no accepted form (R176). -/
theorem test_wf_refuses_immediate_destination :
    (Instr.mov (.p3 .imm .imm 1 2)).wf = false ∧ (Instr.add (.p5 .imm .imm 1 2)).wf = false := by decide

/-- MOVA takes only word memory sources (R262), DQM only word and immediate ones (R263). -/
theorem test_wf_refuses_source_mode :
    (Instr.mova (.p3 .imm (.mem .stk .w) 1 2)).wf = false ∧ (Instr.dqm (.p3 (.mem .stk .b) (.mem .stk .w) 0 0)).wf = false := by
  decide

/-- After a prefix a mode outside Table 1-22 is refused (R171). -/
theorem test_wf_refuses_mode_after_prefix :
    (Instr.cpu (.dyadic .add (.p3 (.mem .stk .b) (.mem .stk .w) 0 0))).wf = false := by decide

/-- An illegal dyadic form has modes the instruction rejects. -/
theorem test_wf_refuses_illegal_of_accepted : (Instr.mov (.illegal false .imm (.mem .stk .w))).wf = false := by decide

/-- An illegal monadic form has a mode the instruction rejects. -/
theorem test_wf_refuses_illegal_monadic :
    (Instr.jmp (.illegal .imm)).wf = false ∧ (Instr.ret (.illegal (.mem .stk .w))).wf = false ∧
      (Instr.kcall (.illegal .imm)).wf = false ∧ (Instr.cpu (.flow .jmp (.illegal .imm))).wf = false := by decide

/-- An unimplemented code is one the opcode maps mark so. -/
theorem test_wf_refuses_implemented_code :
    (Instr.unimplemented (.p1 0x00 0)).wf = false ∧ (Instr.unimplemented (.niladic 0x001)).wf = false ∧
      (Instr.unimplemented (.niladic 0x200)).wf = false ∧
      (Instr.unimplemented (.dyadic false 0x23 .imm .imm)).wf = false ∧
      (Instr.unimplemented (.dyadic false 0x00 .imm .imm)).wf = false := by decide

/-- A one-parcel unimplemented code after a prefix is the one-parcel body's. -/
theorem test_wf_refuses_short_unimplemented_after_prefix :
    (Instr.cpu (.unimplemented (.p1 0x08 0))).wf = false := by decide

/-- A one-parcel body has bit 15 clear. -/
theorem test_wf_refuses_long_one_parcel : (Instr.cpu (.oneParcel 0x8000)).wf = false := by decide

/-! ## Decoding of words written out from the tables (R145 to R150, R161, R162, R170) -/

/-- Whether the parcels decode to exactly this instruction. -/
def dec (ps : List Parcel) (i : Instr) : Bool :=
  match decode ps with
  | .ok (j, r) => decide (j = i) && r.isEmpty
  | .error _ => false

/-- One-parcel words of layout P1-T (Table 1-15): opcode in bits 14:10, field in bits 9:0. -/
theorem test_decode_short_transfers :
    dec [0b0000000000000101] (.kcall (.p1 5)) ∧ dec [0b0000010000000101] (.call (.p1 5)) ∧
    dec [0b0000110000000101] (.jmp (.p1 5)) ∧ dec [0b0001000000000101] (.jmpfn (.p1 5)) ∧
    dec [0b0001010000000101] (.jmpfy (.p1 5)) ∧ dec [0b0001100000000101] (.jmptn (.p1 5)) ∧
    dec [0b0001111111111111] (.jmpty (.p1 0x3FF)) := by decide

/-- The stack group (Table 1-16): subcode in bits 9:8. -/
theorem test_decode_stack_group :
    dec [0b0000100011111110] (.enter (.p1 0xFE)) ∧ dec [0b0000100100000010] (.catchSc (.p1 2)) ∧
    dec [0b0000101000000001] (.ret (.p1 1)) ∧ dec [0b0000101111111111] (.popn (.p1 0xFF)) := by decide

/-- The niladic group (Table 1-17): opcode 0x0B, subcode in bits 9:0. -/
theorem test_decode_niladic :
    dec [0x2C01] .kret ∧ dec [0x2C02] .nop ∧ dec [0x2C03] .flushi ∧ dec [0x2C04] .flushp ∧ dec [0x2C05] .cret ∧
    dec [0x2C06] .flushd ∧ dec [0x2C08] .testv ∧ dec [0x2C09] .testc ∧ dec [0x2C0A] .clre ∧
    dec [0x2C07] (.unimplemented (.niladic 7)) ∧ dec [0x2C0B] (.unimplemented (.niladic 0xB)) ∧
    dec [0x2DFF] (.unimplemented (.niladic 0x1FF)) ∧ dec [0x2E00] (.niladicTrap 0) ∧ dec [0x2FFF] (.niladicTrap 0x1FF) := by
  decide

/-- The one-parcel dyadic words (Table 1-15): source field 3 in bits 9:5, destination field 5 in bits 4:0. -/
theorem test_decode_short_dyadic :
    dec [0b0010100001100101] (.mov (.p1 (.wai5 3) (.stk5 5))) ∧ dec [0b0011010001100101] (.add3 (.p1 (.wai5 3) (.stk5 5))) ∧
    dec [0b0011100001100101] (.and3 (.p1 (.imm5 3) (.stk5 5))) ∧ dec [0b0011110001100101] (.and (.p1 (.stk5 3) (.stk5 5))) ∧
    dec [0b0100000001100101] (.cmpeq (.p1 (.imm5 3) (.stk5 5))) ∧ dec [0b0100010001100101] (.cmpgt (.p1 (.stk5 3) (.stk5 5))) ∧
    dec [0b0100100001100101] (.cmpgt (.p1 (.imm5 3) (.stk5 5))) ∧ dec [0b0100110001100101] (.cmpeq (.p1 (.stk5 3) (.stk5 5))) ∧
    dec [0b0101000001100101] (.add (.p1 (.imm5 3) (.stk5 5))) ∧ dec [0b0101010001100101] (.add3 (.p1 (.imm5 3) (.stk5 5))) ∧
    dec [0b0101100001100101] (.add (.p1 (.stk5 3) (.stk5 5))) ∧ dec [0b0101110001100101] (.add3 (.p1 (.stk5 3) (.stk5 5))) := by
  decide

/-- The moves and shifts among them. -/
theorem test_decode_short_moves :
    dec [0b0110000001100101] (.mov (.p1 (.stk5 3) (.stk5 5))) ∧ dec [0b0110010001100101] (.mov (.p1 (.istk5 3) (.stk5 5))) ∧
    dec [0b0110100001100101] (.mov (.p1 (.stk5 3) (.istk5 5))) ∧ dec [0b0110110001100101] (.mov (.p1 (.istk5 3) (.istk5 5))) ∧
    dec [0b0111000001100101] (.mov (.p1 (.imm5 3) (.stk5 5))) ∧ dec [0b0111010001100101] (.mova (.p1 (.stk5 3) (.stk5 5))) ∧
    dec [0b0111100001100101] (.shl3 (.p1 (.uimm5 3) (.stk5 5))) ∧
    dec [0b0111110001100101] (.shr3 (.p1 (.uimm5 3) (.stk5 5))) := by decide

/-- Three-parcel dyadic words (Table 1-18), source mode 0xF and destination mode 0xD, operands 0x1234 and 8. -/
theorem test_decode_three_parcel :
    [(0x81, Instr.ori), (0x82, .andi), (0x83, .addi), (0x85, .urem), (0x86, .mov), (0x87, .dqm), (0x8C, .tadd),
      (0x8D, .tsub), (0x9D, .cmpgt), (0x9E, .cmphi), (0x9F, .cmpeq), (0xA0, .sub), (0xA1, .or), (0xA2, .and),
      (0xA3, .add), (0xA4, .xor), (0xA5, .rem), (0xA6, .mul), (0xA7, .div), (0xAC, .shr), (0xAD, .ushr), (0xAE, .shl),
      (0xAF, .udiv), (0xB0, .sub3), (0xB1, .or3), (0xB2, .and3), (0xB3, .add3), (0xB4, .xor3), (0xB5, .rem3),
      (0xB6, .mul3), (0xB7, .div3), (0xBC, .shr3), (0xBD, .ushr3), (0xBE, .shl3)].all
      (fun e : BitVec 8 × (Sys2Proof.Dyadic → Instr) =>
        dec [e.1 ++ 0xFD#8, 0x1234, 8] (e.2 (.p3 .imm (.mem .stk .w) 0x1234 8))) = true := by decide

/-- MOVA and a five-parcel word of each half of the map (Tables 1-18 and 1-20). -/
theorem test_decode_five_parcel :
    dec [0x84DD, 8, 0xC] (.mova (.p3 (.mem .stk .w) (.mem .stk .w) 8 0xC)) ∧
    dec [0xC4CE, 1, 2, 3, 4] (.mova (.p5 (.mem .abs .w) (.mem .ind .w) 0x10002 0x30004)) ∧
    dec [0xE6FC, 0x1234, 0x5678, 0x10, 0] (.mul (.p5 .imm (.mem .abs .w) 0x12345678 0x100000)) ∧
    dec [0xFEFF, 0, 1, 0xFFFF, 0xFFFE] (.shl3 (.p5 .imm .imm 1 0xFFFFFFFE)) := by decide

/-- The sixteen general mode codes (Table 1-21) in the source of a MOV. -/
theorem test_decode_modes :
    [(0x0, Mode.mem .abs .b), (0x1, .mem .abs .ub), (0x2, .mem .abs .h), (0x3, .mem .abs .uh), (0x4, .mem .stk .b),
      (0x5, .mem .stk .ub), (0x6, .mem .stk .h), (0x7, .mem .stk .uh), (0x8, .mem .ind .b), (0x9, .mem .ind .ub),
      (0xA, .mem .ind .h), (0xB, .mem .ind .uh), (0xC, .mem .abs .w), (0xD, .mem .stk .w), (0xE, .mem .ind .w),
      (0xF, .imm)].all
      (fun e : BitVec 4 × Mode => dec [(0x86#8 ++ e.1) ++ 0xD#4, 4, 8] (.mov (.p3 e.2 (.mem .stk .w) 4 8))) = true := by
  decide

/-- The monadic group (Table 1-19): subcode in bits 3:0, mode in bits 7:4; control-transfer modes of Table 1-23. -/
theorem test_decode_monadic :
    dec [0x80F0, 0, 8] (.kcall (.p3 .imm 8)) ∧ dec [0x80E1, 1, 2] (.call (.p3 .pcRel 0x10002)) ∧
    dec [0x80D2, 0, 0x20] (.ret (.p3 () 0x20)) ∧ dec [0x80C3, 0, 0x3000] (.jmp (.p3 .absInd 0x3000)) ∧
    dec [0x80F4, 0, 4] (.jmpfn (.p3 .abs 4)) ∧ dec [0x80E5, 0, 4] (.jmpfy (.p3 .pcRel 4)) ∧
    dec [0x80D6, 0, 4] (.jmptn (.p3 .stkInd 4)) ∧ dec [0x80F7, 0, 4] (.jmpty (.p3 .abs 4)) ∧
    dec [0x80E8, 0, 4] (.catchSc (.p3 .ind 4)) ∧ dec [0x80D9, 0xFFFF, 0xFE00] (.enter (.p3 .stk 0xFFFFFE00)) ∧
    dec [0x80EA, 0, 0x100] (.ldraa (.p3 .pcRel 0x100)) ∧ dec [0x80CB, 0x40, 0] (.flushpte (.p3 .abs 0x400000)) ∧
    dec [0x80EC, 0, 8] (.flushpbe (.p3 .ind 8)) ∧ dec [0x80FD] (.flushdce .imm) ∧
    dec [0x80DF, 0, 0x14] (.popn (.p3 () 0x14)) := by decide

/-- Modes an instruction rejects, found from the first parcel alone (R151, R175, R176, R262, R263). -/
theorem test_decode_illegal :
    dec [0x86FF] (.mov (.illegal false .imm .imm)) ∧ dec [0xC4F0] (.mova (.illegal true .imm (.mem .abs .b))) ∧
    dec [0x8043] (.jmp (.illegal (.mem .stk .b))) ∧ dec [0x80F2] (.ret (.illegal .imm)) ∧
    dec [0x804D] (.flushdce (.mem .stk .b)) ∧ dec [0x804B] (.flushpte (.illegal (.mem .stk .b))) := by decide

/-- Codes with no instruction (R145, R148 to R150). -/
theorem test_decode_unimplemented :
    dec [0x2155] (.unimplemented (.p1 0x08 0x155)) ∧ dec [0x2400] (.unimplemented (.p1 0x09 0)) ∧
    dec [0x3000] (.unimplemented (.p1 0x0C 0)) ∧ dec [0x80DE] (.unimplemented (.monadic (.mem .stk .w))) ∧
    dec [0x9CFD] (.unimplemented (.dyadic false 0x1C .imm (.mem .stk .w))) ∧
    dec [0xC0FF] (.unimplemented (.dyadic true 0 .imm .imm)) := by decide

/-- After the CPU prefix (R170, R171): mode 0x7 stays a mode, a one-parcel body is kept as it is. -/
theorem test_decode_prefix :
    dec [0x2C00, 0xA3F7, 0x0010, 0x0006] (.cpu (.dyadic .add (.p3 .imm (.mem .stk .uh) 0x10 6))) ∧
    dec [0x2C00, 0xC6F7, 1, 0x2345, 0, 3] (.cpu (.dyadic .mov (.p5 .imm (.mem .stk .uh) 0x12345 3))) ∧
    dec [0x2C00, 0x80F0, 0, 8] (.cpu (.word .kcall (.p3 .imm 8))) ∧
    dec [0x2C00, 0x80F3, 0, 8] (.cpu (.flow .jmp (.p3 .abs 8))) ∧ dec [0x2C00, 0x80DF, 0, 8] (.cpu (.stack .popn (.p3 () 8))) ∧
    dec [0x2C00, 0x80FD] (.cpu (.flushdce .imm)) ∧
    dec [0x2C00, 0x88CC] (.cpu (.unimplemented (.dyadic false 8 (.mem .abs .w) (.mem .abs .w)))) ∧
    dec [0x2C00, 0x86D4] (.cpu (.dyadic .mov (.illegal false (.mem .stk .w) (.mem .stk .b)))) ∧
    dec [0x2C00, 0x5022] (.cpu (.oneParcel 0x5022)) := by decide

/-- A text that ends before its instruction does is rejected by name. -/
theorem test_decode_rejects :
    decode [] = .error .empty ∧ decode [0x2C00] = .error .truncated ∧ decode [0x86FD, 1] = .error .truncated ∧
    decode [0xC6FD, 1, 2, 3] = .error .truncated := ⟨rfl, rfl, rfl, rfl⟩

/-- The opcode table's numbering: the first parcel in the low 16 bits. -/
theorem test_decode_table_word :
    decodeTableWord 48 0x0008123486FD = some (.mov (.p3 .imm (.mem .stk .w) 0x1234 8)) ∧
    decodeTableWord 16 0x2C02 = some .nop ∧ decodeTableWord 16 0x80F3 = some (.jmp (.p3 .abs 0)) := by decide

/-! ## One step (95_test_vectors.md) -/

/-- Words of memory. -/
def putWords (m : Memory) (l : List (Word × Word)) : Memory := l.foldl (fun m p => m.writeWord p.1 p.2) m

/-- The standard start state of 95_test_vectors.md. -/
def S0 : State := { State.reset with
  pc := 0x1000, psw := Psw.ofWord 0x200, config := Cfg.ofWord 0x40000, sp := 0x7FE0, shad := 0x7FE0, msp := 0x8000
  isp := 0x10000, vb := 0x2000
  mem := putWords [] [(0x2000, 0x3000), (0x2004, 0x3100), (0x2008, 0x3200), (0x200C, 0x3300)] }

/-- A state with words of memory. -/
def memOf (s : State) (l : List (Word × Word)) : State := { s with mem := putWords s.mem l }
/-- A state with words of the stack cache. -/
def stk (s : State) (l : List (Word × Word)) : State := l.foldl (fun s p => s.scMerge p.1 0xFFFFFFFF p.2) s
/-- A state with a PSW. -/
def withPsw (s : State) (w : Word) : State := { s with psw := Psw.ofWord w }
/-- A state with stack pointers. -/
def withSp (s : State) (sp msp : Word) : State := { s with sp := sp, shad := sp, msp := msp }
/-- The start state with `S = 0`. -/
def K0 : State := { withPsw S0 0 with shad := 0x10000 }
/-- The start state at user level. -/
def U0 : State := withPsw S0 0x600

/-- Whether an outcome is a next state with a property. -/
def nextIs (o : Host.Outcome State Fault Refusal) (p : State → Bool) : Bool :=
  match o with
  | .next t => p t
  | _ => false

/-- One step on a state with the parcels placed at its pc. -/
def go (s : State) (ps : List Parcel) (p : State → Bool) : Bool := nextIs (step (s.placeText s.pc ps)) p

/-- The word a data read finds at an address. -/
def rd (s : State) (a : Word) : Word := if s.scHit a then s.scWord a else s.physWord a

/-- A step that leaves a word at an address, flags F, C, V, and a pc. -/
def leaves (s : State) (ps : List Parcel) (a v : Word) (fcv : Bool × Bool × Bool) (pc : Word) : Bool :=
  go s ps fun t => rd t a == v && (t.psw.f, t.psw.c, t.psw.v) == fcv && t.pc == pc

/-- A step that takes an exception with an identifier from S0's stacks. -/
def excepts (s : State) (ps : List Parcel) (id psw : Word) : Bool :=
  go s ps fun t =>
    t.physWord 0xFFF4 == id && t.physWord 0xFFF8 == 0x1000 && t.physWord 0xFFFC == psw && t.isp == 0xFFF0 &&
      t.shad == 0xFFF0 && t.pc == 0x3100 && t.psw.toWord == (psw &&& 0xFFFF0000)

theorem test_add_carry : leaves (stk S0 [(0x7FE8, 0xFFFFFFFF)]) [0x5022] 0x7FE8 0 (false, true, false) 0x1002 := by decide
theorem test_add_byte :
    leaves (stk S0 [(0x7FE8, 0xFF123456)]) [0xA3F4, 1, 8] 0x7FE8 0x00123456 (false, true, false) 0x1006 := by decide
theorem test_sub_borrow : leaves (stk S0 [(0x7FE8, 0)]) [0xA0FD, 1, 8] 0x7FE8 0xFFFFFFFF (false, true, false) 0x1006 := by decide
theorem test_sub_overflow :
    leaves (stk S0 [(0x7FE8, 0x80000000)]) [0xA0FD, 1, 8] 0x7FE8 0x7FFFFFFF (false, false, true) 0x1006 := by decide
theorem test_mul_overflow :
    leaves (stk S0 [(0x7FE8, 0x55555556)]) [0xA6FD, 3, 8] 0x7FE8 2 (false, true, true) 0x1006 := by decide
theorem test_mul_byte_untruncated :
    go (stk S0 [(0x7FE4, 0x7F000000)]) [0xA6F4, 0x7F, 4]
      (fun t => rd t 0x7FE4 == 0x01000000 && t.recent.map Hazard.wide == [some ⟨0x7FE4, 1, 0x3F01⟩]) = true := by decide
theorem test_div_toward_zero :
    leaves (stk (withPsw S0 0x260) [(0x7FE8, 7)]) [0xA7FD, 0xFFFE, 8] 0x7FE8 0xFFFFFFFD (false, true, false) 0x1006 := by decide
theorem test_div_by_zero : excepts (stk (withPsw S0 0x660) [(0x7FE8, 5)]) [0xA7FD, 0, 8] 1 0x660 := by decide
theorem test_rem_sign :
    leaves (stk (withPsw S0 0x260) [(0x7FE8, 0xFFFFFFF9)]) [0xA5FD, 3, 8] 0x7FE8 0xFFFFFFFF (false, true, false) 0x1006 := by decide
theorem test_udiv :
    leaves (stk (withPsw S0 0x260) [(0x7FE8, 0xFFFFFFFF)]) [0xAFFD, 2, 8] 0x7FE8 0x7FFFFFFF (false, false, true) 0x1006 := by decide
theorem test_urem :
    leaves (stk (withPsw S0 0x260) [(0x7FE8, 0xFFFFFFFF)]) [0x85FD, 0xA, 8] 0x7FE8 5 (false, false, true) 0x1006 := by decide
theorem test_add3 : leaves (stk S0 [(0x7FE8, 0x1000)]) [0x3462] 0x7FE4 0x100C (false, false, false) 0x1002 := by decide
theorem test_sub3 : leaves S0 [0xB0FF, 5, 3] 0x7FE4 0xFFFFFFFE (false, true, false) 0x1006 := by decide
theorem test_mul3 : leaves S0 [0xF6FF, 1, 0, 1, 0] 0x7FE4 0 (false, true, true) 0x100A := by decide
theorem test_div3 : leaves S0 [0xF7FF, 0xFFFF, 0xFFFF, 0x8000, 0] 0x7FE4 0x80000000 (false, false, true) 0x100A := by decide
theorem test_rem3 : leaves S0 [0xB5FF, 5, 0x11] 0x7FE4 2 (false, false, false) 0x1006 := by decide
theorem test_addi :
    go (memOf (withPsw S0 0x260) [(0x2100, 5)]) [0x83FC, 1, 0x2100]
      (fun t => rd t 0x2100 == 6 && rd t 0x7FE4 == 5 && t.psw.toWord == 0x260) = true := by decide
theorem test_andi :
    go (memOf S0 [(0x2100, 3)]) [0x82FC, 0xFFFE, 0x2100] (fun t => rd t 0x2100 == 2 && rd t 0x7FE4 == 3) = true := by decide
theorem test_ori :
    go S0 [0x81FC, 1, 0x2100] (fun t => rd t 0x2100 == 1 && rd t 0x7FE4 == 0) = true := by decide
theorem test_cmpeq : go (stk (withPsw S0 0x270) [(0x7FE8, 0xFFFFFFFF)]) [0x43E2] (fun t => t.psw.toWord == 0x270) = true := by decide
theorem test_cmpgt_signed :
    go (stk S0 [(0x7FE8, 0xFFFFFFFF)]) [0x48A2] (fun t => t.psw.f) = true ∧
      go (stk S0 [(0x7FE8, 0x80000000), (0x7FEC, 0x7FFFFFFF)]) [0x4443] (fun t => !t.psw.f) = true := by decide
theorem test_cmphi_unsigned :
    go (stk S0 [(0x7FE8, 0xFFFFFFFF)]) [0x9EFD, 5, 8] (fun t => !t.psw.f) = true ∧
      go (stk S0 [(0x7FE8, 0x7FFFFFFF)]) [0x9EFD, 0xFFFF, 8] (fun t => t.psw.f) = true := by decide
theorem test_and :
    leaves (stk (withPsw S0 0x270) [(0x7FE8, 0x0F0F0F0F), (0x7FEC, 0x00FFFF00)]) [0x3C43] 0x7FEC 0x000F0F00
      (true, true, true) 0x1002 := by decide
theorem test_and3 : leaves (stk S0 [(0x7FE8, 0x12345677)]) [0x3B82] 0x7FE4 0x12345674 (false, false, false) 0x1002 := by decide
theorem test_or : leaves (stk S0 [(0x7FE8, 1)]) [0xA1FD, 0x10, 8] 0x7FE8 0x11 (false, false, false) 0x1006 := by decide
theorem test_or3 :
    leaves (stk S0 [(0x7FE8, 0xF0), (0x7FEC, 0x0F)]) [0xB1DD, 8, 0xC] 0x7FE4 0xFF (false, false, false) 0x1006 := by decide
theorem test_xor : leaves (stk S0 [(0x7FE8, 0xFFFF)]) [0xA4FD, 0xFFFF, 8] 0x7FE8 0xFFFF0000 (false, false, false) 0x1006 := by decide
theorem test_xor3 : leaves (stk S0 [(0x7FE8, 0xDEADBEEF)]) [0xB4DD, 8, 8] 0x7FE4 0 (false, false, false) 0x1006 := by decide
theorem test_shl_count_mod_32 :
    leaves (stk (withPsw S0 0x270) [(0x7FE8, 1)]) [0xAEFD, 0x24, 8] 0x7FE8 0x10 (true, true, true) 0x1006 := by decide
theorem test_shl3 : leaves (stk S0 [(0x7FE8, 3)]) [0x7BE2] 0x7FE4 0x80000000 (false, false, false) 0x1002 := by decide
theorem test_shr : leaves (stk S0 [(0x7FE8, 0x80000000)]) [0xACFD, 4, 8] 0x7FE8 0xF8000000 (false, false, false) 0x1006 := by decide
theorem test_shr_signed_byte :
    leaves (stk S0 [(0x7FE8, 0x80000000)]) [0xACF4, 1, 8] 0x7FE8 0xC0000000 (false, false, false) 0x1006 := by decide
theorem test_shr3 : leaves (stk S0 [(0x7FE8, 0xFFFFFFFE)]) [0x7C22] 0x7FE4 0xFFFFFFFF (false, false, false) 0x1002 := by decide
theorem test_ushr : leaves (stk S0 [(0x7FE8, 0x80000000)]) [0xADFD, 4, 8] 0x7FE8 0x08000000 (false, false, false) 0x1006 := by decide
theorem test_ushr3 : leaves (stk S0 [(0x7FE8, 0x80000000)]) [0xBDFD, 0x1F, 8] 0x7FE4 1 (false, false, false) 0x1006 := by decide
theorem test_tadd_store :
    leaves (stk (withPsw S0 0x270) [(0x7FE8, 0x10)]) [0x8CFD, 8, 8] 0x7FE8 0x18 (false, false, false) 0x1006 := by decide
theorem test_tadd_tag :
    leaves (stk (withPsw S0 0x260) [(0x7FE8, 0x11)]) [0x8CFD, 8, 8] 0x7FE8 0x11 (true, true, true) 0x1006 := by decide
theorem test_tsub_overflow :
    leaves (stk S0 [(0x7FE8, 0x80000000)]) [0x8DFD, 4, 8] 0x7FE8 0x80000000 (true, false, true) 0x1006 := by decide
theorem test_tadd_psw :
    go S0 [0x2C00, 0x8CF7, 0x10, 5] (fun t => t.psw.toWord == 0x210 && t.pc == 0x1008) = true := by decide
theorem test_mov_indirect :
    leaves (stk S0 [(0x7FE8, 0x77), (0x7FEC, 0x2104)]) [0x6843] 0x2104 0x77 (false, false, false) 0x1002 := by decide
theorem test_mov_byte_into_word :
    leaves (stk S0 [(0x7FE8, 0x12345678), (0x7FEC, 0xAABBCCDD)]) [0x86D4, 8, 0xC] 0x7FEC 0x78BBCCDD (false, false, false)
      0x1006 := by decide
theorem test_mova : leaves S0 [0x7443] 0x7FEC 0x7FE8 (false, false, false) 0x1002 := by decide
theorem test_mova_immediate : excepts S0 [0x84FD, 5, 8] 3 0x200 := by decide
theorem test_dqm :
    go (stk S0 [(0x7FF0, 1), (0x7FF4, 2), (0x7FF8, 3), (0x7FFC, 4)]) [0x87DC, 0x10, 0x2100]
      (fun t => [rd t 0x2100, rd t 0x2104, rd t 0x2108, rd t 0x210C] == [1, 2, 3, 4]) = true := by decide
theorem test_dqm_misaligned : excepts S0 [0x87F4, 0xFFFF, 4] 4 0x200 := by decide
theorem test_ldraa : leaves { S0 with pc := 0x4000 } [0x80EA, 0, 0x100] 0x7FE4 0x4100 (false, false, false) 0x4006 := by decide
theorem test_cpu_shad : go K0 [0x2C00, 0xA3F7, 0x10, 6] (fun t => t.shad == 0x10010 && t.pc == 0x1008) = true := by decide
theorem test_cpu_privilege : excepts U0 [0x2C00, 0x8677, 3, 6] 5 0x600 := by decide
theorem test_jmp : go S0 [0x0E00] (fun t => t.pc == 0xC00) = true ∧ go S0 [0x80F3, 0, 0x4001] (fun t => t.pc == 0x4000) = true := by decide
theorem test_jmpfn :
    go S0 [0x1002] (fun t => t.pc == 0x1004) = true ∧ go (withPsw S0 0x210) [0x1002] (fun t => t.pc == 0x1002) = true := by decide
theorem test_jmpfy :
    go S0 [0x17FF] (fun t => t.pc == 0xFFE) = true ∧ go (withPsw S0 0x210) [0x17FF] (fun t => t.pc == 0x1002) = true := by decide
theorem test_jmptn :
    go S0 [0x1804] (fun t => t.pc == 0x1002) = true ∧ go (withPsw S0 0x210) [0x1804] (fun t => t.pc == 0x1008) = true := by decide
theorem test_jmpty :
    go S0 [0x1FFD] (fun t => t.pc == 0x1002) = true ∧ go (withPsw S0 0x210) [0x1FFD] (fun t => t.pc == 0xFFA) = true := by decide
theorem test_call :
    go (withSp S0 0x7FF0 0x8000) [0x0410] (fun t => t.scWord 0x7FF0 == 0x1002 && t.pc == 0x1020 && t.sp == 0x7FF0) = true := by decide
theorem test_call_misaligned :
    go S0 [0x80C1, 0, 0x2102] (fun t => t.physWord 0xFFF4 == 4 && t.scWord 0x7FE0 == 0) = true := by decide
theorem test_return :
    go (stk (withSp S0 0x7FD0 0x8000) [(0x7FF0, 0x1003)]) [0x0A02]
      (fun t => t.pc == 0x1002 && t.sp == 0x7FF0 && t.msp == 0x8000 && t.shad == 0x7FF0) = true := by decide
theorem test_return_raises_msp :
    go (memOf (withSp S0 0x7FD0 0x7FE0) [(0x7FF0, 0x1002)]) [0x0A02]
      (fun t => t.pc == 0x1002 && t.sp == 0x7FF0 && t.msp == 0x7FF0) = true := by decide
theorem test_popn :
    go (withSp S0 0x7FD0 0x8000) [0x0B04] (fun t => t.sp == 0x8010 && t.msp == 0x8010 && t.pc == 0x1002) = true := by decide
theorem test_enter_flushes :
    go (stk (withSp S0 0x7F10 0x8000) [(0x7FF0, 0xA), (0x7FF4, 0xB), (0x7FF8, 0xC), (0x7FFC, 0xD)]) [0x08FE]
      (fun t => t.sp == 0x7EF0 && t.msp == 0x7FF0 && t.psw.e &&
        [t.physWord 0x7FF0, t.physWord 0x7FF4, t.physWord 0x7FF8, t.physWord 0x7FFC] == [0xA, 0xB, 0xC, 0xD]) = true := by decide +kernel
theorem test_enter_replace :
    go S0 [0x80F9, 0, 0x9004] (fun t => t.sp == 0x9000 && t.msp == 0x9000 && t.shad == 0x9000 && t.psw.e) = true := by decide +kernel
theorem test_catch :
    go (memOf (withSp S0 0x7FF0 0x7FF0) [(0x7FF0, 1), (0x8000, 2)]) [0x0902]
      (fun t => t.msp == 0x8010 && t.scWord 0x7FF0 == 1 && t.scWord 0x8000 == 2) = true := by decide +kernel
theorem test_kcall :
    go U0 [0x03FF]
      (fun t => t.physWord 0xFFF4 == 0xFFC && t.physWord 0xFFF8 == 0x1002 && t.physWord 0xFFFC == 0x600 && t.psw.toWord == 0 &&
        t.pc == 0x3000 && t.isp == 0xFFF0 && t.shad == 0xFFF0) = true := by decide
theorem test_kret :
    go (memOf { K0 with isp := 0xFFF0, shad := 0xFFF0 } [(0xFFF8, 0x5002), (0xFFFC, 0x7600)]) [0x2C01]
      (fun t => t.pc == 0x5002 && t.psw.toWord == 0x7600 && t.isp == 0x10000 && t.shad == 0x7FE0) = true := by decide
theorem test_cret :
    go (memOf { K0 with isp := 0xFFE0, sp := 0x6000, msp := 0x6040 }
        [(0xFFE0, 0x7FD0), (0xFFE4, 0x7FF0), (0xFFE8, 0x1000), (0xFFEC, 0x600), (0x7FD0, 0x11), (0x7FE0, 0x22)]) [0x2C05]
      (fun t => t.sp == 0x7FD0 && t.msp == 0x7FF0 && t.pc == 0x1000 && t.psw.toWord == 0x600 && t.isp == 0xFFF0 &&
        t.shad == 0x7FD0 && t.scWord 0x7FD0 == 0x11 && t.scWord 0x7FE0 == 0x22) = true := by decide +kernel
theorem test_nop : go (withPsw S0 0xA70) [0x2C02] (fun t => t.psw.toWord == 0xA70 && t.pc == 0x1002) = true := by decide
theorem test_clre : go (withPsw S0 0xE00) [0x2C0A] (fun t => t.psw.toWord == 0x600) = true := by decide
theorem test_testc : go (withPsw S0 0x260) [0x2C09] (fun t => t.psw.toWord == 0x250) = true := by decide
theorem test_testv : go (withPsw S0 0x260) [0x2C08] (fun t => t.psw.toWord == 0x230) = true := by decide
theorem test_flushi :
    go { S0 with ic := [{ va := 0x5000, parcels := [0x2C02] }] } [0x2C03] (fun t => t.ic == [] && t.pc == 0x1002) = true := by decide
theorem test_flushi_marks_old_text :
    go { S0 with pfb := [⟨0x5000, 0x5000, 1, 0, 0, 0, false⟩, ⟨0x5010, 0x5010, 0, 0, 0, 0, false⟩] } [0x2C03]
      (fun t => t.pfb.map PfbLine.aged == [true, false]) = true := by decide
theorem test_flushp :
    go { S0 with pfb := [⟨0x5000, 0x5000, 0, 0, 0, 0, false⟩] } [0x2C04] (fun t => t.pfb == [] && t.pc == 0x1002) = true := by decide
theorem test_flushpbe :
    go (stk { S0 with pfb := [⟨0x2100, 0x7000, 0, 0, 0, 0, false⟩, ⟨0x2110, 0x2110, 0, 0, 0, 0, false⟩] } [(0x7FE8, 0x2104)]) [0x80EC, 0, 8]
      (fun t => t.pfb.map PfbLine.pa == [0x2110] && t.pc == 0x1006) = true := by decide
theorem test_flushpte :
    go { S0 with dataTlb := [⟨0x400, 1, false, false, true, true⟩, ⟨0x401, 2, false, false, true, true⟩] } [0x80CB, 0x40, 0]
      (fun t => t.dataTlb.map TlbEntry.vpn == [0x401] && t.pc == 0x1006) = true := by decide
theorem test_flushd :
    go (withPsw S0 0xE70) [0x2C06] (fun t => t.pc == 0x3300 && rd t 0x7FE0 == 0x1000 && t.psw.toWord == 0xE70) = true := by decide
theorem test_flushdce :
    go S0 [0x80FD] (fun t => t.pc == 0x3300 && rd t 0x7FE0 == 0x1000) = true ∧ excepts S0 [0x804D, 0, 0] 3 0x200 := by decide
theorem test_unimplemented :
    go S0 [0x9C00] (fun t => t.pc == 0x3300 && rd t 0x7FE0 == 0x1000) = true ∧ excepts S0 [0x802E, 0, 0] 3 0x200 := by decide
theorem test_niladic_trap : go K0 [0x2FFF] (fun t => t.pc == 0x3200 && t.physWord 0x10000 == 0x1000) = true := by decide

/-- The page table of the translation vectors: segment 1 paged, segment 2 nonpaged. -/
def V0 : State :=
  { memOf (withPsw S0 0x10600) [(0x80000, 0x3FF00F), (0x80004, 0x90001), (0x80008, 0x100300F), (0x90004, 0x123007),
      (0x123008, 0xCAFEBABE)] with stb := 0x80000 }

theorem test_translated_read :
    go V0 [0xC6CD, 0x40, 0x1008, 0, 8] (fun t => rd t 0x7FE8 == 0xCAFEBABE && t.mem.readWord 0x90004 == 0x12300F) = true := by decide
theorem test_translated_write_fault :
    go (memOf V0 [(0x90004, 0x123005)]) [0xC6DC, 0, 8, 0x40, 0x1008]
      (fun t => t.fault == 0x401008 && t.physWord 0xFFF4 == 9 && t.psw.toWord == 0x10000) = true := by decide
/-- R203, R107, R115: an ADDI to its own page table entry finds R and M set by its check, and keeps them. -/
theorem test_interlocked_own_entry :
    go (memOf V0 [(0x90004, 0x90007)]) [0xC3FC, 0, 0x1000, 0x40, 0x1004]
      (fun t => t.mem.readWord 0x90004 == 0x9101F && rd t 0x7FE4 == 0x9001F) = true := by decide
/-- R494 (b): after a direct write of PSW.VP text may still come from the old space. -/
theorem test_vp_write_leaves_old_space :
    go S0 [0x2C00, 0xC6F7, 1, 0x200, 0, 5] (fun t => t.psw.vp && t.oldSpace == some false) = true := by decide
theorem test_little_endian_byte :
    leaves { stk S0 [(0x7FE8, 0x11223344)] with config := Cfg.ofWord 0x50000 } [0x865D, 8, 0xC] 0x7FEC 0x44
      (false, false, false) 0x1006 := by decide
theorem test_trace_after_instruction :
    nextIs (step { S0 with tracePending := true })
      (fun t => t.physWord 0xFFF4 == 2 && t.physWord 0xFFF8 == 0x1000 && t.pc == 0x3100) = true := by decide
theorem test_interrupt_level_1 :
    nextIs (step { memOf (withPsw S0 0x2200) [(0x2014, 0x3500)] with env := [{ il := 1 }] })
      (fun t => t.pc == 0x3500 && t.physWord 0xFFF8 == 0x1000 && t.physWord 0xFFFC == 0x2200 && t.psw.toWord == 0) = true := by decide
theorem test_master_between_transfers :
    go { S0 with storeBuf := [[⟨0x2100, 0xFFFFFFFF, 6⟩]], env := [{ start := [.write 0x2100 9, .deliver] }] } [0x2C02]
      (fun t => t.mem.readWord 0x2100 == 6) = true ∧
    go { S0 with storeBuf := [[⟨0x2100, 0xFFFFFFFF, 6⟩]], env := [{ start := [.deliver, .write 0x2100 9] }] } [0x2C02]
      (fun t => t.mem.readWord 0x2100 == 9) = true := by decide
/-- D8, R131: another master acts before the second double-word of a text read; a NOP it writes there is fetched. -/
theorem test_master_inside_text_read :
    nextIs (step { memOf S0 [(0x1008, 0x2C012C01)] with pc := 0x1008, env := [{ between := [[], [.write 0x1008 0x2C022C02]] }] })
      (fun t => t.pc == 0x100A) = true := by decide
/-- The quad-word at 0x2100 in the prefetch registers, its first word older than memory, and its old lower half in a read under
way. -/
def OldAhead : State :=
  { memOf S0 [(0x2100, 5)] with
    ahead := [{ line := { pa := 0x2100, va := 0x2100, w0 := 1, w1 := 0, w2 := 0, w3 := 0 } }]
    prefetches := [.upper ⟨0x2100, 0x2100, false, true⟩ { w0 := 1, w1 := 0 }] }
/-- R131, R101: a prefetch's walk marks R in a page table entry that ADD is changing: before the read the mark is kept, between the
read and the write it is lost in memory, and the walked entry is cached all the same. -/
def WalkAt (k : Nat) : State :=
  { V0 with env := [{ between := List.replicate k [] ++ [[.prefetch 0x401000, .advance 0, .advance 0]] }] }
theorem test_prefetch_walk_inside_instruction :
    go (WalkAt 18) [0xE3FC, 0x100, 0, 9, 4] (fun t => t.mem.readWord 0x90004 == 0x0112300F && t.textTlb.length == 1) = true ∧
    go (WalkAt 19) [0xE3FC, 0x100, 0, 9, 4] (fun t => t.mem.readWord 0x90004 == 0x01123007 && t.textTlb.length == 1) = true := by
  decide +kernel
/-- R132: text whose lower half is read before a store and whose upper half after it, and the flushes that come in between. -/
theorem test_prefetch_across_flushes :
    go { OldAhead with ahead := [], env := [{ between := [[.advance 0]] }] } [0x2C02]
      (fun t => t.ahead.map (fun e => (e.line.w0, e.line.w2)) == [(1, 0)] && t.prefetches == []) = true ∧
    go OldAhead [0x2C03] (fun t => nextIs (exec .flushp t) (fun u => u.prefetches == [])) = true := by decide +kernel
/-- R300 (d): the flush of a write-protected quad-word is a data write fault, with FAULT at the quad-word and MSP where it was. -/
theorem test_enter_flush_fault :
    go { memOf V0 [(0x80000, 0x3FF00D)] with isp := 0x401100 } [0x80F9, 0, 0x8000]
      (fun t => t.mem.readWord 0x1230F4 == 9 && t.mem.readWord 0x1230F8 == 0x1000 && t.fault == 0x7FF0 && t.msp == 0x8000) = true := by
  decide +kernel
/-- R114: the accumulator's store of an ADDI that sets X in PSW is a user access. -/
theorem test_interlocked_user_store :
    go { memOf (withPsw V0 0x10200) [(0x80000, 0x3FF00B)] with config := {}, board := { eventKernel := true } }
      [0x2C00, 0x83F7, 0x0400, 5]
      (fun t => t.fault == 0x7FE4 && t.physWord 0xFFF4 == 9 && t.physWord 0xFFFC == 0x10600) = true := by decide
/-- R442: the jump after a NOP is folded, one trace for both. -/
theorem test_fold :
    go { withPsw S0 0x280 with env := [{ fold := true }] } [0x2C02, 0x0C03]
      (fun t => t.folded == some ⟨.jmp, 3, true⟩ && t.pc == 0x1002 && !t.tracePending) = true := by decide
/-- R408: the lines are sampled in the step of a folded jump too. -/
theorem test_folded_jump_samples_lines :
    nextIs (step { S0 with folded := some ⟨.jmp, 3, true⟩, env := [{ il := 0 }] })
      (fun t => t.folded == none && t.pc == 0x1006 && t.tracePending && t.nmiPending && t.lastIl == 0) = true := by decide
/-- R132: one flush leaves old text in the registers, of whichever kind, and FLUSHPBE of another quad-word does not count. -/
theorem test_one_flush_keeps_old_text :
    go OldAhead [0x2C03] (fun t => t.ahead.map (·.line.aged) == [true] && t.ahead.map (·.flushed) == [false]) = true ∧
    go OldAhead [0x2C04] (fun t => t.ahead.map (·.line.aged) == [false] && t.ahead.map (·.flushed) == [true]) = true ∧
    go OldAhead [0x80CC, 0, 0x2200] (fun t => t.ahead == OldAhead.ahead && t.prefetches == OldAhead.prefetches) = true := by decide
theorem test_timer_overflow :
    go { withPsw S0 0x2200 with config := Cfg.ofWord 0x01440000, timer1 := 0xFFFFFFFF } [0x2C02]
      (fun t => t.timer1 == 0 && t.t1Req) = true := by decide
theorem test_fetch_word_runs :
    nextIs (step (State.reset.withFetchWord 16 0x2C02)) (fun t => t.pc == 2 && t.event == .none) = true := by decide

/-! ## States and operands that meet the premises of the statements, one theorem for each statement with premises -/

theorem exists_next {o : Host.Outcome State Fault Refusal} {p : State → Bool} (h : nextIs o p = true) :
    ∃ t, o = .next t ∧ p t = true := by
  cases o with
  | next t => exact ⟨t, rfl, h⟩
  | fault r => cases h
  | refused r => cases h

theorem test_meets_DecodeEncode :
    (Instr.add (.p1 (.imm5 0x1F) (.stk5 0x1F))).wf = true ∧ (Instr.mov (.p5 .imm (.mem .abs .ub) 0xFFFFFFFF 0)).wf = true ∧
    (Instr.mov (.illegal true .imm .imm)).wf = true ∧ (Instr.cpu (.oneParcel 0x7FFF)).wf = true ∧
    (Instr.unimplemented (.niladic 0x1FF)).wf = true ∧ (Instr.niladicTrap 0x1FF).wf = true := by decide

theorem test_meets_EncodeDecode : decode [0x2C00, 0x80FD, 7] = .ok (.cpu (.flushdce .imm), [7]) := rfl

/-- A NOP at the pc, in memory. -/
def TNop : State := S0.placeText 0x1000 [0x2C02]
/-- A NOP at the pc, in the decoded instruction cache. -/
def INop : State := { S0 with config := Cfg.ofWord 0xC0000, ic := [{ va := 0x1000, parcels := [0x2C02] }] }

theorem test_meets_StepRunsDecoded :
    (TNop.runsNext ∧ TNop.openBoundary.icHit TNop.openBoundary.pc = none ∧
      (∃ u, fetchText TNop.openBoundary.pc TNop.openBoundary = .ok [⟨0x2C02, false⟩] u) ∧
      decode [0x2C02] = .ok (.nop, [])) ∧
    (INop.runsNext ∧ INop.openBoundary.icHit INop.openBoundary.pc = some ⟨0x1000, [0x2C02]⟩ ∧
      ∃ u, translateText 1 INop.openBoundary.pc INop.openBoundary = .ok () u) := by
  refine ⟨⟨by decide, by decide, ⟨TNop.openBoundary, ?_⟩, rfl⟩, by decide, by decide, INop.openBoundary, rfl⟩
  have h : (match fetchText TNop.openBoundary.pc TNop.openBoundary with
    | .ok ps u => decide (ps = [⟨0x2C02, false⟩] ∧ u = TNop.openBoundary)
    | .error _ _ => false) = true := by decide +kernel
  revert h
  cases fetchText TNop.openBoundary.pc TNop.openBoundary with
  | ok ps u => intro h; obtain ⟨rfl, rfl⟩ := of_decide_eq_true h; rfl
  | error e u => intro h; cases h

theorem S0_inv : S0.Inv := by constructor <;> decide

theorem test_meets_StepKeepsInv : S0.Inv ∧ ∃ t, step S0 = .next t ∧ true = true :=
  ⟨S0_inv, exists_next (p := fun _ => true) (by decide +kernel)⟩

theorem test_meets_StepKeepsBoard : ∃ t, step TNop = .next t ∧ (t.pc == 0x1002) = true :=
  exists_next (p := fun t => t.pc == 0x1002) (by decide +kernel)

theorem test_meets_UserKeepsControl :
    U0.psw.x = true ∧ untraceable (.mov (.p3 .imm (.mem .stk .w) 1 8)) = false ∧
      nextIs (exec (.mov (.p3 .imm (.mem .stk .w) 1 8)) U0) (fun t => t.event != .exception && t.event != .reset) = true ∧
      nextIs (exec (.enter (.p1 0xFE)) U0) (fun t => t.event != .exception && t.event != .reset) = true := by
  decide +kernel


/-- Kernel level, a bus error where KRET's frame lies. -/
def BusBad : State := { K0 with board := { regions := [⟨0x10008, 0x10008, .busError, .ram⟩] } }

/-- Kernel level with translation on, its segment table at 0x80000 empty, or on a page that answers with bus errors. -/
def NoTable (bad : Bool) : State :=
  { withPsw K0 0x10000 with
    stb := 0x80000, board := { regions := if bad then [⟨0x80000, 0x80FFF, .busError, .ram⟩] else [] } }

/-- Whether a read of a frame word raises an exception. -/
def faults (s : State) (a : Word) : Bool :=
  match memReadW s.level a s with
  | .error (.exc _) _ => true
  | _ => false

/-- A bus error at either word, an invalid segment, a bus error of the walk; for the first clause a misaligned ISP too. -/
theorem test_meets_FrameFaultResets :
    (BusBad.psw.x = false ∧ aligned (BusBad.isp + 8) 4 = true ∧ BusBad.alone = true ∧
      BusBad.home? BusBad.level .read (BusBad.isp + 8) = some (.phys 0x10008) ∧
      BusBad.board.readAnswer 0x10008 = .busError) ∧
    (({ BusBad with isp := 0xFFFC }).load? BusBad.level 0x10004 4).isSome = true ∧
    ({ BusBad with isp := 0xFFFC }).home? BusBad.level .read (0xFFFC + 12) = some (.phys 0x10008) ∧
    (∀ b ∈ [false, true], (NoTable b).psw.x = false ∧ (NoTable b).alone = true ∧ (NoTable b).scHit ((NoTable b).isp + 8) = false ∧
      (NoTable b).psw.vp = true ∧ (NoTable b).lookup .read ((NoTable b).isp + 8) = none) ∧
    ((NoTable false).board.readAnswer (steAddr 0x80000 0x10008) = .ram ∧
      ((NoTable false).mem.readWord (steAddr 0x80000 0x10008)).getLsbD 0 = false) ∧
    (NoTable true).board.readAnswer (steAddr 0x80000 0x10008) = .busError ∧
    faults BusBad 0x10008 = true ∧ faults (NoTable false) 0x10008 = true ∧ faults (NoTable true) 0x10008 = true ∧
    faults K0 0x10009 = true := by decide

/-- The start state with a stack of values: R8 all ones, R12 3, R16 a pointer to 0x2100. -/
def S1 : State := stk S0 [(0x7FE8, 0xFFFFFFFF), (0x7FEC, 3), (0x7FF0, 0x2100)]
/-- `op $1, R8`. -/
abbrev fStk : Sys2Proof.Dyadic := .p3 .imm (.mem .stk .w) 1 8
/-- `op $1, *$0x2102:UH`. -/
abbrev fMem : Sys2Proof.Dyadic := .p3 .imm (.mem .abs .uh) 1 0x2102
/-- `op $0x10, %SHAD`, after a prefix. -/
abbrev fReg : Sys2Proof.Dyadic := .p3 .imm (.mem .stk .uh) 0x10 6
/-- `op $-1, R8`. -/
abbrev fNeg : Sys2Proof.Dyadic := .p3 .imm (.mem .stk .w) 0xFFFF 8
/-- The slot of R8. -/
abbrev slot8 : Slot := ⟨.sc 0x7FE8, 0xFFFFFFFF, 0⟩
/-- The slot of the accumulator. -/
abbrev slot4 : Slot := ⟨.sc 0x7FE4, 0xFFFFFFFF, 0⟩
/-- The slot of the half-word at 0x2102. -/
abbrev slotM : Slot := ⟨.phys 0x2102, 0xFFFF, 0⟩

/-- Ready on the stack, in memory and in a register. -/
abbrev dstReadyAll (op : DyOp) : Prop :=
  DstReady op .none fStk S1 1 0xFFFFFFFF (.mem 0x7FE8 .w) (.slot slot8) ∧
  DstReady op .none fMem S1 1 0 (.mem 0x2102 .uh) (.slot slotM) ∧
  DstReady op .cpu fReg S1 0x10 0x7FE0 (.reg .shad) (.reg .shad)

theorem test_meets_ResetSequence :
    ({ S0 with env := [{ hreset := true }] } : State).cur.hreset = true ∧
    (match kernelReturn BusBad with
      | .error .reset _ => true
      | _ => false) = true := by decide

theorem test_meets_ArithmeticResult : ∀ op ∈ [DyOp.add, .sub, .mul], dstReadyAll op := by decide
theorem test_meets_DivideResult :
    (∀ op ∈ [DyOp.div, .rem, .udiv, .urem], dstReadyAll op) ∧ (1 : Word) ≠ 0 ∧
    ∀ op ∈ [DyOp.div, .rem, .udiv, .urem],
      DstReady op .none fNeg (stk S0 [(0x7FE8, 0x80000000)]) 0xFFFFFFFF 0x80000000 (.mem 0x7FE8 .w) (.slot slot8) :=
  ⟨by decide, by decide, by decide⟩
theorem test_meets_LogicalResult : ∀ op ∈ [DyOp.and, .or, .xor], dstReadyAll op := by decide
theorem test_meets_ShiftResult :
    (∀ op ∈ [DyOp.shl, .shr, .ushr], dstReadyAll op) ∧
    ∀ op ∈ [DyOp.shl, .shr, .ushr], DstReady op .none fNeg S1 0xFFFFFFFF 0xFFFFFFFF (.mem 0x7FE8 .w) (.slot slot8) :=
  ⟨by decide, by decide⟩

/-- `op $4, R8`. -/
abbrev fTag : Sys2Proof.Dyadic := .p3 .imm (.mem .stk .w) 4 8

/-- With a tag set, with a result, with an overflow of each instruction. -/
theorem test_meets_TaggedResult :
    (∀ op ∈ [DyOp.tadd, .tsub], DstReady op .none fStk S1 1 0xFFFFFFFF (.mem 0x7FE8 .w) (.slot slot8)) ∧
    (∀ op ∈ [DyOp.tadd, .tsub], DstReady op .none fTag (stk S0 [(0x7FE8, 8)]) 4 8 (.mem 0x7FE8 .w) (.slot slot8)) ∧
    DstReady .tadd .none fTag (stk S0 [(0x7FE8, 0x7FFFFFFC)]) 4 0x7FFFFFFC (.mem 0x7FE8 .w) (.slot slot8) ∧
    DstReady .tsub .none fTag (stk S0 [(0x7FE8, 0x80000000)]) 4 0x80000000 (.mem 0x7FE8 .w) (.slot slot8) :=
  ⟨by decide, by decide, by decide, by decide⟩

theorem test_meets_MoveResult :
    MoveReady .mov .none (.p3 (.mem .ind .w) (.mem .stk .w) 0x10 8) S1 0 (.mem 0x7FE8 .w) (.slot slot8) ∧
    MoveReady .mov .cpu fReg S1 0x10 (.reg .shad) (.reg .shad) ∧
    (Sys2Proof.Dyadic.accepted .none .mova (.p3 (.mem .ind .w) (.mem .stk .w) 0x10 8) = true ∧
      S1.addr? (srcArg S1 .none (.p3 (.mem .ind .w) (.mem .stk .w) 0x10 8)) = some 0x2100 ∧
      S1.dst? .none (.p3 (.mem .ind .w) (.mem .stk .w) 0x10 8) = some (.mem 0x7FE8 .w) ∧
      S1.target? (.mem 0x7FE8 .w) = some (.slot slot8)) := by decide

theorem test_meets_MemoryDestinationFrame :
    ∀ op ∈ [DyOp.add, .sub, .mul, .div, .rem, .udiv, .urem, .and, .or, .xor, .shl, .shr, .ushr, .tadd, .tsub],
      DstReady op .none fMem S1 1 0 (.mem 0x2102 .uh) (.slot slotM) ∧ (1 : Word) ≠ 0 ∧
        nextIs (exec (dyadicInstr .none op fMem) S1) (fun _ => true) = true := by decide

theorem test_meets_MoveFrame :
    MoveReady .mov .none fMem S1 1 (.mem 0x2102 .uh) (.slot slotM) ∧ nextIs (exec (.mov fMem) S1) (fun _ => true) = true ∧
    nextIs (exec (.mova (.p3 (.mem .ind .w) (.mem .stk .w) 0x10 8)) S1) (fun _ => true) = true := by decide

theorem test_meets_RegisterDestinationFrame :
    MoveReady .mov .cpu fReg S1 0x10 (.reg .shad) (.reg .shad) ∧
    nextIs (exec (.cpu (.dyadic .mov fReg)) S1) (fun _ => true) = true ∧
    ∀ op ∈ [DyOp.add, .sub, .mul, .div, .rem, .udiv, .urem, .and, .or, .xor, .shl, .shr, .ushr, .tadd, .tsub],
      DstReady op .cpu fReg S1 0x10 0x7FE0 (.reg .shad) (.reg .shad) ∧ (0x10 : Word) ≠ 0 ∧
        nextIs (exec (.cpu (.dyadic op fReg)) S1) (fun _ => true) = true := by decide

theorem test_meets_AccumulatorArithmetic :
    ∀ op ∈ [DyOp.add3, .sub3, .mul3, .div3, .rem3], AccReady op .none fStk S1 1 0xFFFFFFFF (.mem 0x7FE8 .w) slot4 ∧ (1 : Word) ≠ 0 := by
  decide
theorem test_meets_AccumulatorLogicShift :
    ∀ op ∈ [DyOp.and3, .or3, .xor3, .shl3, .shr3, .ushr3], AccReady op .none fStk S1 1 0xFFFFFFFF (.mem 0x7FE8 .w) slot4 := by
  decide

/-- Each control-transfer mode of LDRAA, and a prefixed one. -/
theorem test_meets_LoadRelativeAddress :
    S1.acc? = some slot4 ∧
    prefixed .none .ldraa (.flow .ldraa) (.p3 .pcRel 0x100) = some (.ldraa (.p3 .pcRel 0x100)) ∧
    prefixed .cpu .ldraa (.flow .ldraa) (.p3 .abs 0x101) = some (.cpu (.flow .ldraa (.p3 .abs 0x101))) ∧
    S1.flow? Empty.elim (.p3 .pcRel 0x100) = some 0x1100 ∧ S1.flow? Empty.elim (.p3 .abs 0x101) = some 0x101 ∧
    S1.flow? Empty.elim (.p3 .absInd 0x2000) = some 0x3000 ∧ S1.flow? Empty.elim (.p3 .stkInd 0xC) = some 3 := by decide

theorem test_meets_AccumulatorFrame :
    ∀ op ∈ [DyOp.add3, .sub3, .mul3, .div3, .rem3, .and3, .or3, .xor3, .shl3, .shr3, .ushr3],
      AccReady op .none fStk S1 1 0xFFFFFFFF (.mem 0x7FE8 .w) slot4 ∧ (1 : Word) ≠ 0 ∧
        nextIs (exec (dyadicInstr .none op fStk) S1) (fun _ => true) = true := by decide

theorem test_meets_CompareResult :
    ∀ op ∈ [DyOp.cmpeq, .cmpgt, .cmphi], ReadReady op .none fStk S1 1 0xFFFFFFFF ∧
      ReadReady op .none (.p3 .imm .imm 0x7FFF 0x7FFF) S1 0x7FFF 0x7FFF := by decide

/-- The one-parcel jump at both ends of its reach, and each mode; the conditional jumps without the indirect ones. -/
theorem test_meets_JumpResult :
    S1.flow? S1.near (.p1 0x1FF) = some 0x13FE ∧ S1.flow? S1.near (.p1 0x200) = some 0xC00 ∧
    S1.flow? S1.near (.p3 .absInd 0x2000) = some 0x3000 ∧ S1.flow? S1.near (.p3 .stkInd 0xC) = some 3 ∧
    S1.flow? S1.near (.p3 .pcRel 0xFFFFFFFE) = some 0xFFE ∧ S1.flow? S1.near (.p3 .abs 5) = some 5 ∧
    prefixed .none .jmp (.flow .jmp) (.p1 0x1FF) = some (.jmp (.p1 0x1FF)) ∧
    prefixed .cpu .jmpfn (.flow .jmpfn) (.p3 .abs 5) = some (.cpu (.flow .jmpfn (.p3 .abs 5))) ∧
    prefixed .none .jmpfy (.flow .jmpfy) (.p1 0x200) = some (.jmpfy (.p1 0x200)) ∧
    prefixed .none .jmptn (.flow .jmptn) (.p3 .pcRel 2) = some (.jmptn (.p3 .pcRel 2)) ∧
    prefixed .none .jmpty (.flow .jmpty) (.p1 0x200) = some (.jmpty (.p1 0x200)) ∧
    indirectFlow (.p1 0x200) = false ∧ indirectFlow (.p3 .abs 5) = false := by decide

/-- A plain call, and one through the word it writes (U14). -/
theorem test_meets_CallResult :
    S1.slot? S1.level S1.csp 4 = some ⟨.sc 0x7FE0, 0xFFFFFFFF, 0⟩ ∧
    prefixed .none .call (.flow .call) (.p1 0x10) = some (.call (.p1 0x10)) ∧
    (S1.commit ⟨.sc 0x7FE0, 0xFFFFFFFF, 0⟩ 0x1002).flow? S1.near (.p1 0x10) = some 0x1020 ∧
    prefixed .none .call (.flow .call) (.p3 .stkInd 0) = some (.call (.p3 .stkInd 0)) ∧
    (S1.commit ⟨.sc 0x7FE0, 0xFFFFFFFF, 0⟩ 0x1006).flow? S1.near (.p3 .stkInd 0) = some 0x1006 ∧
    indirection S1 (.p3 .stkInd 0) = some S1.csp ∧ indirection S1 (.p1 0x10) ≠ some S1.csp := by decide

theorem test_meets_ReturnPopResult :
    (16 : Word) = BitVec.ofNat 32 (16 * (1#8).toNat) ∧ (0 : Int) ≤ (16 : Word).toInt ∧ (0 : Int) ≤ (0 : Word).toInt ∧
    S1.scOk = true ∧ K0.scOk = true ∧
    prefixed .none .ret (.stack .ret) (.p1 1) = some (.ret (.p1 1)) ∧ S1.load? S1.level (S1.csp + 16) 4 = some 0x2100 ∧
    prefixed .cpu .popn (.stack .popn) (.p3 () 0) = some (.cpu (.stack .popn (.p3 () 0))) ∧
    K0.load? K0.level (K0.csp + 0) 4 = some 0 := by decide

/-- An offset and a replacing ENTER on the interrupt stack. -/
theorem test_meets_EnterInterruptStack :
    (prefixed .none .enter (.word .enter) (.p1 0xFE) = some (.enter (.p1 0xFE)) ∧ K0.psw.s = false ∧ K0.scOk = true ∧
      enterPointer K0 (.p1 0xFE) true 0xFFE0 ∧ K0.storeOk K0.level (0xFFE0 &&& 0xFFFFFFF0) = true) ∧
    (prefixed .cpu .enter (.word .enter) (.p3 .imm 0x9004) = some (.cpu (.word .enter (.p3 .imm 0x9004))) ∧
      enterPointer K0 (.p3 .imm 0x9004) false 0x9004 ∧ K0.storeOk K0.level (0x9004 &&& 0xFFFFFFF0) = true) ∧
    enterPointer K0 (.p3 .stk 0xFFFFFE00) true 0xFE00 :=
  ⟨⟨rfl, by decide, by decide, .inl ⟨rfl, .inl ⟨0xFE, rfl, by decide⟩⟩, by decide⟩,
    ⟨rfl, .inr ⟨rfl, _, _, rfl, by decide⟩, by decide⟩, .inl ⟨rfl, .inr ⟨_, rfl, by decide, by decide⟩⟩⟩

/-- Two quad-words held, none, and all sixteen. -/
theorem test_meets_EnterReplace :
    (prefixed .none .enter (.word .enter) (.p3 .imm 0x9004) = some (.enter (.p3 .imm 0x9004)) ∧ S0.psw.s = true ∧
      S0.scOk = true ∧ S0.shad = S0.sp ∧ enterPointer S0 (.p3 .imm 0x9004) false 0x9004 ∧
      S0.msp = S0.sp + BitVec.ofNat 32 (16 * 2) ∧ 2 ≤ 16 ∧
      (∀ j < 2, S0.quadOut? S0.level (S0.msp - BitVec.ofNat 32 (16 * (j + 1))) = some (0x7FF0 - BitVec.ofNat 32 (16 * j))) ∧
      S0.storeOk S0.level (0x9004 &&& 0xFFFFFFF0) = true) ∧
    (withSp S0 0x8000 0x8000).msp = (withSp S0 0x8000 0x8000).sp + BitVec.ofNat 32 (16 * 0) ∧
    (withSp S0 0x7F00 0x8000).msp = (withSp S0 0x7F00 0x8000).sp + BitVec.ofNat 32 (16 * 16) :=
  ⟨⟨rfl, by decide, by decide, by decide, .inr ⟨rfl, _, _, rfl, by decide⟩, by decide, by decide, by decide, by decide⟩,
    by decide, by decide⟩

/-- The premises of EnterOffset on a state, for a one-parcel ENTER. -/
abbrev enterOffsetMeets (s : State) (g : BitVec 8) (v m : Word) (n : Nat) (pa : Nat → Word) : Prop :=
  s.psw.s = true ∧ s.scOk = true ∧ s.shad = s.sp ∧ s.sp.toNat % 16 = 0 ∧ s.msp.toNat % 16 = 0 ∧
    s.csp + BitVec.ofInt 32 (16 * ((g.toNat : Int) - 256)) = v ∧ v = v &&& 0xFFFFFFF0 ∧ v.toNat ≤ s.sp.toNat ∧
    v.toNat + 256 < 2 ^ 32 ∧
    (∀ j < n, s.msp - BitVec.ofNat 32 (16 * j) ≠ s.sp ∧ v.toNat + 256 < (s.msp - BitVec.ofNat 32 (16 * j)).toNat) ∧
    ¬(s.msp - BitVec.ofNat 32 (16 * n) ≠ s.sp ∧ v.toNat + 256 < (s.msp - BitVec.ofNat 32 (16 * n)).toNat) ∧
    m = (if v.toNat + 256 < (s.msp - BitVec.ofNat 32 (16 * n)).toNat then v + 256
      else s.msp - BitVec.ofNat 32 (16 * n)) ∧
    (∀ j < n, s.quadOut? s.level (s.msp - BitVec.ofNat 32 (16 * (j + 1))) = some (pa j)) ∧
    s.storeOk s.level v = true ∧ (m ≠ s.msp → s.storeOk s.level (m - 16) = true)

/-- No quad-word stored, one, and all. -/
theorem test_meets_EnterOffset :
    enterOffsetMeets S0 0xFE 0x7FC0 0x8000 0 (fun _ => 0) ∧
    enterOffsetMeets (withSp S0 0x7F10 0x8000) 0xFE 0x7EF0 0x7FF0 1 (fun _ => 0x7FF0) ∧
    enterOffsetMeets (withSp S0 0x7FC0 0x8000) 0x00 0x6FC0 0x70C0 4 (fun j => 0x7FF0 - BitVec.ofNat 32 (16 * j)) ∧
    prefixed .none .enter (.word .enter) (.p1 0xFE) = some (.enter (.p1 0xFE)) :=
  ⟨by decide, by decide, by decide, by decide⟩

/-- On the user stack nothing, one quad-word and a full stack cache; on the interrupt stack nothing. -/
theorem test_meets_CatchResult :
    (prefixed .none .catchSc (.word .catchSc) (.p1 2) = some (.catchSc (.p1 2)) ∧
      isIllegal (.p1 2 : Monadic (BitVec 8) WordMode) = false ∧ (withSp S0 0x7FF0 0x8000).scOk = true ∧
      turns (fun j => (0x8000 : Word).toNat + 16 * j < (0x8010 : Word).toNat ∧ (0x8000 : Word).toNat + 16 * j - 0x7FF0 < 256) 1 ∧
      (∀ j < 1, (withSp S0 0x7FF0 0x8000).quadIn? S0.level (0x8000 + BitVec.ofNat 32 (16 * j)) = some 0x8000)) ∧
    turns (fun j => (0x8000 : Word).toNat + 16 * j < (0x8000 : Word).toNat ∧ (0x8000 : Word).toNat + 16 * j - 0x7FF0 < 256) 0 ∧
    turns (fun j => (0x7100 : Word).toNat + 16 * j < (0x7FF0 : Word).toNat ∧ (0x7100 : Word).toNat + 16 * j - 0x7000 < 256) 0 ∧
    K0.psw.s = false ∧ K0.scOk = true ∧ K0.sp.toNat % 16 = 0 ∧ K0.msp.toNat % 16 = 0 ∧ K0.sp.toNat + 256 < 2 ^ 32 := by
  unfold turns; decide

theorem test_meets_KernelCallResult :
    prefixed .none .kcall (.word .kcall) (.p1 0x3FF) = some (.kcall (.p1 0x3FF)) ∧ U0.alone = true ∧
    U0.word32? .stk 8 = some 0 ∧ U0.word32? .imm 0x1234 = some 0x1234 ∧
    U0.drainAll.frameHome? U0.drainAll.eventLevel (U0.drainAll.isp - 12) = some (.phys 0xFFF4) ∧
    U0.drainAll.frameHome? U0.drainAll.eventLevel (U0.drainAll.isp - 8) = some (.phys 0xFFF8) ∧
    U0.drainAll.frameHome? U0.drainAll.eventLevel (U0.drainAll.isp - 4) = some (.phys 0xFFFC) ∧
    U0.drainAll.vector? U0.drainAll.eventLevel U0.drainAll.vb = some 0x2000 := by decide

theorem test_meets_KernelReturnResult :
    K0.psw.x = false ∧ K0.alone = true ∧ (memOf K0 [(0x10008, 5)]).load? K0.level (K0.isp + 8) 4 = some 5 ∧
    (memOf K0 [(0x1000C, 0x7600)]).load? K0.level (K0.isp + 12) 4 = some 0x7600 := by decide

/-- A frame of two quad-words, with `S = 1` and with `S = 0`. -/
def CtxFrame (w : Word) : State :=
  memOf { K0 with isp := 0xFFE0, sp := 0x6000, msp := 0x6040 }
    [(0xFFE0, 0x7FD8), (0xFFE4, 0x7FF4), (0xFFE8, 0x1001), (0xFFEC, w)]

theorem test_meets_ContextReturnResult :
    ((CtxFrame 0x600).psw.x = false ∧ (CtxFrame 0x600).alone = true ∧ (CtxFrame 0x600).scOk = true ∧
      (CtxFrame 0x600).load? (CtxFrame 0x600).level 0xFFE0 4 = some 0x7FD8 ∧
      (CtxFrame 0x600).load? (CtxFrame 0x600).level 0xFFE4 4 = some 0x7FF4 ∧
      (CtxFrame 0x600).load? (CtxFrame 0x600).level 0xFFE8 4 = some 0x1001 ∧
      (CtxFrame 0x600).load? (CtxFrame 0x600).level 0xFFEC 4 = some 0x600) ∧
    (CtxFrame 0).load? (CtxFrame 0).level 0xFFEC 4 = some 0 ∧ (0x7FD8 &&& 0xFFFFFFF0 : Word) = 0x7FD0 ∧
    (0x7FF4 &&& 0xFFFFFFF0 : Word) = 0x7FD0 + BitVec.ofNat 32 (16 * 2) ∧ (0x600 : Word).getLsbD 9 = true ∧
    (∀ j < 2, (CtxFrame 0x600).quadIn? ⟨false, true⟩ (0x7FD0 + BitVec.ofNat 32 (16 * j)) =
      some (0x7FD0 + BitVec.ofNat 32 (16 * j))) ∧ (0 : Word).getLsbD 9 = false :=
  ⟨by decide, by decide, by decide, by decide, by decide, by decide, by decide⟩

/-- A state with a store in the store buffer. -/
def Buffered : State := { S1 with storeBuf := [[⟨0x2104, 0xFFFF, 7⟩]] }

/-- In memory, on the stack, in a register. -/
theorem test_meets_InterlockedResult :
    LockReady .addi .none fMem Buffered (fun a b => a + b) 1 0 (.mem 0x2102 .uh) (.slot slotM) slot4 ∧
    LockReady .andi .none fStk Buffered (fun a b => a &&& b) 1 0xFFFFFFFF (.mem 0x7FE8 .w) (.slot slot8) slot4 ∧
    LockReady .ori .cpu fReg Buffered (fun a b => a ||| b) 0x10 0x7FE0 (.reg .shad) (.reg .shad) slot4 := by decide

theorem test_meets_InterlockedFrame :
    LockReady .ori .none fMem Buffered (· ||| ·) 1 0 (.mem 0x2102 .uh) (.slot slotM) slot4 ∧
    LockReady .andi .none fMem Buffered (· &&& ·) 1 0 (.mem 0x2102 .uh) (.slot slotM) slot4 ∧
    LockReady .addi .none fMem Buffered (· + ·) 1 0 (.mem 0x2102 .uh) (.slot slotM) slot4 ∧
    ∀ op ∈ [DyOp.addi, .andi, .ori], nextIs (exec (dyadicInstr .none op fMem) Buffered) (fun _ => true) = true := by decide

/-- Right after an instruction that wrote flags, and one that left SHAD and a result on the way. -/
def AfterFlags : State :=
  { Buffered with recent := [{ flags := some S0.psw }, { flags := some S0.psw, shad := some 0x7FF0, wide := some ⟨0x2100, 1, 0x1FF⟩ }] }

/-- The readiness premises are met in the shadow of an ADD, a compare, an ENTER: of operands none of their hazards meets. -/
theorem test_ready_after_flags :
    DstReady .add .none fStk AfterFlags 1 0xFFFFFFFF (.mem 0x7FE8 .w) (.slot slot8) ∧
    MoveReady .mov .cpu (.p3 (.mem .stk .uh) (.mem .stk .w) 3 8) AfterFlags 0x7FE0 (.mem 0x7FE8 .w) (.slot slot8) ∧
    AccReady .add3 .none fStk AfterFlags 1 0xFFFFFFFF (.mem 0x7FE8 .w) slot4 ∧
    ReadReady .cmpeq .none fMem AfterFlags 1 0 ∧
    LockReady .addi .none fMem AfterFlags (· + ·) 1 0 (.mem 0x2102 .uh) (.slot slotM) slot4 ∧
    AfterFlags.regSettled .psw = false ∧ AfterFlags.regSettled .shad = false ∧
    AfterFlags.settled (fun _ => true) (.mem 0x2100 .ub) = false := by decide

/-- A page that may be read and not written, on memory that answers with bus errors. -/
def ReadBad : State :=
  { V0 with
    dataTlb := [⟨0x401, 0x123, false, true, true, false⟩], board := { regions := [⟨0x123000, 0x123FFF, .busError, .ram⟩] } }

/-- The bus error of an interlocked read comes before the fault of its write check (R203, R167). -/
theorem test_interlocked_read_fault_first :
    (match checkBoth ⟨true, false⟩ (.mem 0x401008 .w) ReadBad with
      | .error (.exc .busFault) _ => true
      | _ => false) = true ∧
    (match checkDst ⟨true, false⟩ (.mem 0x401008 .w) ReadBad with
      | .error (.exc (.dataWrite 0x401008)) _ => true
      | _ => false) = true := by decide

/-- With K set a step at user level counts no cycle, one that leaves it no more than it takes (R451). -/
theorem test_timer_levels :
    U0.timerCycles U0 true = 0 ∧ K0.timerCycles U0 true ≤ K0.stepCycles ∧ K0.timerCycles U0 false = K0.stepCycles :=
  ⟨rfl, Nat.min_le_right _ _, rfl⟩

/-- `DQM R16, *$0x2100` of four words, and `DQM $-1, *$0x2108:B` of two. -/
abbrev fQuad : Sys2Proof.Dyadic := .p3 (.mem .stk .w) (.mem .abs .w) 0x10 0x2100
abbrev fDouble : Sys2Proof.Dyadic := .p3 .imm (.mem .abs .b) 0xFFFF 0x2108

theorem test_meets_BlockMoveResult :
    (fQuad.accepted .none .dqm = true ∧ dqmWords (dmodeOf fQuad) = some 4 ∧
      (S1.opd? (srcArg S1 .none fQuad)).bind (S1.block? 4) = some [0x2100, 0, 0, 0] ∧
      S1.dst? .none fQuad = some (.mem 0x2100 .w) ∧ S1.blockHome? 4 (.mem 0x2100 .w) = some (.phys 0x2100)) ∧
    (fDouble.accepted .none .dqm = true ∧ dqmWords (dmodeOf fDouble) = some 2 ∧
      (S1.opd? (srcArg S1 .none fDouble)).bind (S1.block? 2) = some [0xFFFFFFFF, 0xFFFFFFFF] ∧
      S1.dst? .none fDouble = some (.mem 0x2108 .b) ∧ S1.blockHome? 2 (.mem 0x2108 .b) = some (.phys 0x2108)) := by decide

theorem test_meets_BlockMoveFrame :
    wordAddr 0x2100 = 0x2100 ∧ wordAddr 0x2108 = 0x2108 ∧
    nextIs (exec (dyadicInstr .none .dqm fQuad) S1) (fun _ => true) = true ∧
    nextIs (exec (dyadicInstr .none .dqm fDouble) S1) (fun _ => true) = true := by decide

theorem test_meets_TextFlush :
    prefixed .none .flushpbe (.word .flushpbe) (.p3 .ind 0x10) = some (.flushpbe (.p3 .ind 0x10)) ∧
    prefixed .cpu .flushpbe (.word .flushpbe) (.p3 .abs 0x2104) = some (.cpu (.word .flushpbe (.p3 .abs 0x2104))) ∧
    S1.addr? (wordArg S1 .ind 0x10) = some 0x2100 ∧ S1.addr? (wordArg S1 .abs 0x2104) = some 0x2104 ∧
    ({ V0 with textTlb := [⟨0x401, 0x123, false, false, true, true⟩] } : State).trans? ⟨true, false⟩ .text 0x401008 =
      some 0x123008 := by decide

/-- Both orders of the flushes on a state with old text ahead, FLUSHP and FLUSHPBE, the latter by a translated address too. -/
theorem test_meets_TextFlush_both :
    flushesQuad .flushp OldAhead 0x2100 ∧ flushesQuad (.flushpbe (.p3 .abs 0x2104)) OldAhead 0x2100 ∧
    flushesQuad (.flushpbe (.p3 .abs 0x401004)) { V0 with textTlb := [⟨0x401, 0x123, false, false, true, true⟩] } 0x123000 ∧
    (∀ i ∈ [Instr.flushi, .flushp, .flushpbe (.p3 .abs 0x2104)], nextIs (exec i OldAhead) (fun _ => true) = true) ∧
    (∀ i ∈ [Instr.flushp, .flushpbe (.p3 .abs 0x2104)],
      nextIs (exec i OldAhead) (fun t => nextIs (exec .flushi t) (fun u => u.ahead == [] && u.prefetches == [])) = true ∧
      nextIs (exec .flushi OldAhead) (fun t => nextIs (exec i t) (fun u => u.ahead == [] && u.prefetches == [])) = true) :=
  ⟨.inl rfl, .inr ⟨.none, .abs, 0x2104, 0x2104, by decide, by decide, .inl (by decide)⟩,
    .inr ⟨.none, .abs, 0x401004, 0x401004, by decide, by decide, .inr ⟨.text, 0x123004, .inl rfl, by decide, by decide⟩⟩,
    by decide, by decide⟩

theorem test_meets_TranslationFlush :
    prefixed .none .flushpte (.word .flushpte) (.p3 .stk 8) = some (.flushpte (.p3 .stk 8)) ∧
    S1.addr? (wordArg S1 .stk 8) = some 0x7FE8 := by decide

theorem test_meets_SoftTrapResult :
    S0.slot? S0.level S0.csp 4 = some ⟨.sc 0x7FE0, 0xFFFFFFFF, 0⟩ ∧ S0.vector? S0.level (S0.vb + 12) = some 0x200C ∧
    S0.vector? S0.level (S0.vb + 8) = some 0x2008 ∧ Mode.imm.isWord = true ∧
    cpuUnimplLegal (.mem .stk .uh) (.mem .abs .w) = true ∧
    (∀ b ∈ [Answer.ram, .busError], ∀ s ∈ [({ K0 with board := { regions := [⟨0x10000, 0x10000, .ram, b⟩] } } : State)],
      s.slot? s.level s.csp 4 = some ⟨.phys 0x10000, 0xFFFFFFFF, 0⟩ ∧ s.board.writeAnswer 0x10000 = b ∧
        s.vector? s.level (s.vb + 12) = some 0x200C) := by decide

theorem test_meets_ReturnSlotFrame :
    S0.slot? S0.level S0.csp 4 = some ⟨.sc 0x7FE0, 0xFFFFFFFF, 0⟩ ∧ S0.event = .none ∧ S0.psw.vp = false ∧
    S0.alone = true ∧ (∀ a : Word, S0.board.readAnswer a = .ram) ∧
    ∀ i ∈ [Instr.call (.p1 0x10), .flushd, .flushdce .imm, .unimplemented (.p1 8 0), .niladicTrap 0x1FF],
      nextIs (exec i S0) (fun t => t.event != .exception && t.event != .reset) = true :=
  ⟨by decide, by decide, by decide, by decide, fun _ => rfl, by decide⟩

/-- S0 with a byte order for the kernel. -/
def Order (little : Bool) : State := { S0 with config := { S0.config with kl := little } }

/-- Bytes and half-words at both ends of a word, in memory and in the stack cache, in either byte order, with their lanes. -/
theorem test_meets_lanes :
    (∀ b ∈ [false, true], (Order b).level.user = false ∧ (Order b).config.kl = b ∧
      ∀ e ∈ [((0x2100 : Word), 1), (0x2103, 1), (0x2100, 2), (0x2102, 2), (0x7FE0, 1), (0x7FE3, 1), (0x7FE2, 2), (0x7FE0, 4)],
        ((Order b).slot? (Order b).level e.1 e.2).isSome = true ∧ ((Order b).load? (Order b).level e.1 e.2).isSome = true) ∧
    (∀ e ∈ [(false, 1, 3, 0), (true, 1, 3, 24), (false, 1, 0, 24), (true, 1, 0, 0), (false, 2, 2, 0), (true, 2, 2, 16)],
      e ∈ laneTable) := by decide

/-- The last byte of a word, the upper half of a word in memory. -/
theorem test_meets_StoreThenLoad :
    (S0.slot? S0.level 0x7FEB 1 = some ⟨.sc 0x7FEB, 0xFF, 0⟩ ∧ S0.home? S0.level .read 0x7FEB = some (.sc 0x7FEB) ∧
      (S0.word? (.sc 0x7FEB)).isSome = true) ∧
    (S0.slot? S0.level 0x2100 2 = some ⟨.phys 0x2100, 0xFFFF0000, 16⟩ ∧ S0.home? S0.level .read 0x2100 = some (.phys 0x2100) ∧
      (S0.word? (.phys 0x2100)).isSome = true) ∧
    S0.slot? S0.level 0x2100 4 = some ⟨.phys 0x2100, 0xFFFFFFFF, 0⟩ := by decide

theorem test_meets_DrainKeepsReads :
    ({ S0 with storeBuf := [[⟨0x2104, 0xFFFF, 7⟩]] } : State).Inv ∧
    (∀ b ∈ ({ S0 with storeBuf := [[⟨0x2104, 0xFFFF, 7⟩]] } : State).storeBuf, ∀ t ∈ b, S0.board.writeAnswer t.pa = .ram) :=
  ⟨by constructor <;> decide, by decide⟩

/-- Each size at the first and the last place of the range. -/
theorem test_meets_StackCacheHit :
    S0.config.sce = true ∧ S0.scOk = true ∧
    ∀ e ∈ [(1, (0x7FE0 : Word)), (1, 0x7FFF), (2, 0x7FE0), (2, 0x7FFE), (4, 0x7FE0), (4, 0x7FFC)],
      (e.1 = 1 ∨ e.1 = 2 ∨ e.1 = 4) ∧ S0.sp ≤ e.2 ∧ e.2 < S0.msp ∧ e.2.toNat % e.1 = 0 := by decide

/-- A read at user level, a write at either level, of a page with W and U set. -/
theorem test_meets_WalkSetsMarks :
    V0.mem.wf = true ∧ V0.alone = true ∧ V0.lookup .read 0x401008 = none ∧ V0.lookup .write 0x401008 = none ∧
    (∀ a : Word, V0.board.readAnswer a = .ram ∧ V0.board.writeAnswer a = .ram) ∧
    (0x90001 : Word) = V0.mem.readWord (steAddr V0.stb 0x401008) ∧ (0x90001 : Word).getLsbD 0 = true ∧
    (0x90001 : Word).getLsbD 3 = false ∧ (0x123007 : Word) = V0.mem.readWord (pteAddr 0x90001 0x401008) ∧
    (0x123007 : Word).getLsbD 0 = true ∧ (0x123007 : Word).getLsbD 2 = true ∧ (0x123007 : Word).getLsbD 1 = true :=
  ⟨by decide, by decide, by decide, by decide, fun _ => ⟨rfl, rfl⟩, by decide, by decide, by decide, by decide, by decide,
    by decide, by decide⟩

/-- A cached page and a cached segment, a page and a segment that are walked, one with the offset just past its bound. -/
theorem test_meets_WriteProtection :
    V0.alone = true ∧
    ({ V0 with dataTlb := [⟨0x401, 0x123, false, true, true, false⟩] } : State).lookup .write 0x401008 =
      some (.page ⟨0x401, 0x123, false, true, true, false⟩) ∧
    ({ V0 with dataNpsr := some ⟨2, 4, 3, false, true, false⟩ } : State).lookup .write 0x800008 =
      some (.seg ⟨2, 4, 3, false, true, false⟩) ∧
    (({ V0 with dataTlb := [⟨0x401, 0x123, false, false, true, false⟩] } : State).lookup .write 0x401008 = none ∧
      V0.board.readAnswer (steAddr V0.stb 0x401008) = .ram ∧ V0.mem.readWord (steAddr V0.stb 0x401008) = 0x90001 ∧
      (memOf V0 [(0x90004, 0x123005)]).mem.readWord (pteAddr 0x90001 0x401008) = 0x123005 ∧
      (0x90001 : Word).getLsbD 0 = true ∧ (0x90001 : Word).getLsbD 3 = false ∧ (0x123005 : Word).getLsbD 0 = true ∧
      (0x123005 : Word).getLsbD 1 = false) ∧
    (V0.lookup .write 0x804000 = none ∧ V0.mem.readWord (steAddr V0.stb 0x804000) = 0x100300F ∧
      (0x100300F : Word).getLsbD 0 = true ∧ (0x100300F : Word).getLsbD 3 = true ∧
      ((0x100300F : Word).extractLsb' 12 10).toNat < ((0x804000 : Word).extractLsb' 12 10).toNat) := by decide

/-- The other kinds: a page and a segment whose U is clear, cached and walked, an entry that is not valid in either table. -/
theorem test_meets_WriteProtection_other_kinds :
    ∀ k ∈ [Kind.text, .read, .check true, .check false],
      ({ V0 with
          dataTlb := [⟨0x401, 0x123, false, true, false, false⟩], textTlb := [⟨0x401, 0x123, false, true, false, false⟩] } :
        State).lookup k 0x401008 = some (.page ⟨0x401, 0x123, false, true, false, false⟩) ∧
      ({ V0 with dataNpsr := some ⟨2, 4, 3, false, false, false⟩, textNpsr := some ⟨2, 4, 3, false, false, false⟩ } :
        State).lookup k 0x800008 = some (.seg ⟨2, 4, 3, false, false, false⟩) ∧
      (V0.lookup k 0xC00000 = none ∧ V0.board.readAnswer (steAddr V0.stb 0xC00000) = .ram ∧
        (V0.mem.readWord (steAddr V0.stb 0xC00000)).getLsbD 0 = false) ∧
      (V0.lookup k 0x402000 = none ∧ V0.mem.readWord (steAddr V0.stb 0x402000) = 0x90001 ∧
        (V0.mem.readWord (pteAddr 0x90001 0x402000)).getLsbD 0 = false) ∧
      ((0x123003 : Word).getLsbD 0 = true ∧ (0x123003 : Word).getLsbD 2 = false ∧
        (memOf V0 [(0x90004, 0x123003)]).mem.readWord (pteAddr 0x90001 0x401008) = 0x123003) ∧
      ((memOf V0 [(0x80008, 0x100300B)]).mem.readWord (steAddr V0.stb 0x800008) = 0x100300B ∧
        (0x100300B : Word).getLsbD 0 = true ∧ (0x100300B : Word).getLsbD 3 = true ∧ (0x100300B : Word).getLsbD 2 = false) := by
  decide

theorem test_meets_ExceptionEntry :
    U0.psw.vp = false ∧ U0.alone = true ∧ U0.storeBuf = [] ∧ (U0.setCsp U0.shad).isp.toNat % 16 = 0 ∧
    (∀ i : Word, i = 4 ∨ i = 8 ∨ i = 12 → (U0.setCsp U0.shad).scHit ((U0.setCsp U0.shad).isp - i) = false ∧
      U0.board.writeAnswer ((U0.setCsp U0.shad).isp - i) = .ram) ∧ U0.board.readAnswer (U0.vb + 4) = .ram :=
  ⟨by decide, by decide, by decide, by decide, by rintro i (rfl | rfl | rfl) <;> decide, by decide⟩

theorem test_meets_KretUndoesInterrupt :
    ∀ s ∈ [({ U0 with config := {} } : State), { K0 with config := {} }],
      s.psw.vp = false ∧ s.config.sce = false ∧ s.storeBuf = [] ∧ s.shad = s.csp ∧ s.alone = true ∧ s.isp.toNat % 16 = 0 ∧
        s.pc.toNat % 2 = 0 ∧ s.board = {} := by decide

theorem board_default_ram (a : Word) : ({} : Board).readAnswer a = .ram ∧ ({} : Board).writeAnswer a = .ram := ⟨rfl, rfl⟩

theorem test_meets_IllegalForms :
    Sys2Proof.Dyadic.accepted .none .mov (.illegal false .imm .imm) = false ∧
    Sys2Proof.Dyadic.accepted .cpu .mov (.p3 (.mem .stk .b) (.mem .stk .w) 0 0) = false ∧
    prefixed .none .kcall (.word .kcall) (.illegal (.mem .stk .b)) = some (.kcall (.illegal (.mem .stk .b))) ∧
    prefixed .cpu .jmp (.flow .jmp) (.illegal (.mem .stk .b)) = some (.cpu (.flow .jmp (.illegal (.mem .stk .b)))) ∧
    (0xFFFFFFFF : Word).toInt < 0 ∧ (0x80000000 : Word).toInt < 0 ∧
    prefixed .none .ret (.stack .ret) (.p3 () 0xFFFFFFFF) = some (.ret (.p3 () 0xFFFFFFFF)) ∧
    prefixed .none .popn (.stack .popn) (.p3 () 0x80000000) = some (.popn (.p3 () 0x80000000)) ∧
    (0 : Int) ≤ (0 : Word).toInt ∧ prefixed .none .enter (.word .enter) (.p3 .stk 0) = some (.enter (.p3 .stk 0)) ∧
    prefixed .cpu .popn (.stack .popn) (.p3 () 0x80000000) = some (.cpu (.stack .popn (.p3 () 0x80000000))) ∧
    prefixed .cpu .enter (.word .enter) (.p3 .stk 0) = some (.cpu (.word .enter (.p3 .stk 0))) ∧
    (Mode.mem .stk .b).isWord = false ∧ cpuUnimplLegal (.mem .stk .b) .imm = false := by decide

/-- Modes on either side of each bound that IllegalForms names. -/
theorem test_meets_IllegalForms_codes :
    (Sys2Proof.Dyadic.p5 .imm .imm 0 0).accepted .none .add = false ∧ (Sys2Proof.Dyadic.p5 .imm .imm 0 0).accepted .none .cmpeq = true ∧
    (Mode.mem .ind .b).code.toNat < 0xC ∧ (Mode.mem .abs .w).code = 0xC ∧ (Mode.mem .stk .uh).code = 0x7 ∧
    (Sys2Proof.Dyadic.p5 (.mem .stk .uh) (.mem .stk .w) 3 0).accepted .cpu .mov = true ∧
    (Sys2Proof.Dyadic.p5 (.mem .ind .b) (.mem .stk .w) 3 0).accepted .cpu .mov = false ∧
    (Sys2Proof.Dyadic.p5 .imm (.mem .stk .w) 3 0).accepted .none .mova = false ∧
    (Sys2Proof.Dyadic.p5 .imm (.mem .stk .w) 3 0).accepted .none .dqm = true ∧
    (Sys2Proof.Dyadic.p5 .imm (.mem .stk .uh) 3 0).accepted .cpu .dqm = false ∧
    cpuUnimplLegal (.mem .stk .uh) (.mem .stk .uh) = false ∧ cpuUnimplLegal (.mem .stk .uh) (.mem .abs .w) = true := by decide

/-- A missing register as destination and as source; a user's writes of a register; a user's read of one. -/
theorem test_meets_RegisterMode :
    (Sys2Proof.Dyadic.accepted .cpu .add (.p3 .imm (.mem .stk .uh) 1 0xD) = true ∧
      dstArg S0 .cpu (.p3 .imm (.mem .stk .uh) 1 0xD) = .reg 0xD ∧
      Sys2Proof.Dyadic.accepted .cpu .mov (.p3 (.mem .stk .uh) (.mem .stk .w) 0 8) = true ∧
      srcArg S0 .cpu (.p3 (.mem .stk .uh) (.mem .stk .w) 0 8) = .reg 0) ∧
    (U0.psw.x = true ∧ U0.src? .cpu fReg = some 0x10 ∧ U0.dst? .cpu fReg = some (.reg .shad) ∧
      twoRegs U0 .cpu fReg = false ∧ U0.storeBuf = [] ∧ U0.lostStores = 0 ∧ U0.alone = true) ∧
    (∀ op ∈ [DyOp.mov, .addi, .andi, .ori, .add, .sub, .mul, .div, .rem, .udiv, .urem, .and, .or, .xor, .shl, .shr, .ushr,
      .tadd, .tsub], op.writesDst = true ∧ Sys2Proof.Dyadic.accepted .cpu op fReg = true ∧ U0.unhindered op .cpu fReg) ∧
    (srcArg U0 .cpu (.p3 (.mem .stk .uh) (.mem .stk .w) 3 8) = .reg 3 ∧
      MoveReady .mov .cpu (.p3 (.mem .stk .uh) (.mem .stk .w) 3 8) U0 0x7FE0 (.mem 0x7FE8 .w) (.slot slot8) ∧
      MoveReady .mov .cpu (.p3 (.mem .stk .uh) (.mem .stk .w) 0xA 8) U0 0x3B (.mem 0x7FE8 .w) (.slot slot8)) :=
  ⟨by decide, by decide, by decide, by decide⟩

theorem test_meets_PrivilegeViolation : U0.psw.x = true := rfl

/-- A source and a destination of their own, a pointer word, MOVA's source aside and its destination, with a prefix and without. -/
theorem test_meets_MisalignedOperand :
    Sys2Proof.Dyadic.accepted .none .add (.p3 .imm (.mem .abs .uh) 1 0x2101) = true ∧
    (0x2101 : Word).toNat % szBytes .uh ≠ 0 ∧ dstArg S1 .none (.p3 .imm (.mem .abs .uh) 1 0x2101) = .mem 0x2101 .uh ∧
    (∀ k ∈ [Prefix.none, .cpu],
      (Sys2Proof.Dyadic.accepted k .mov (.p3 (.mem .stk .w) (.mem .stk .w) 3 8) = true ∧
        srcArg S1 k (.p3 (.mem .stk .w) (.mem .stk .w) 3 8) = .mem 0x7FE3 .w ∧ (0x7FE3 : Word).toNat % srcBytes .mov .w ≠ 0) ∧
      (Sys2Proof.Dyadic.accepted k .mova (.p3 (.mem .stk .w) (.mem .ind .w) 8 6) = true ∧
        dstArg S1 k (.p3 (.mem .stk .w) (.mem .ind .w) 8 6) = .ptr 0x7FE6 .w ∧ (0x7FE6 : Word).toNat % 4 ≠ 0)) ∧
    (0x7FE3 : Word).toNat % srcBytes .mova .w = 0 := by decide

/-- R8 and R12 point to 0xFFFFFFFF and 3; the pointee of a source, of a destination, of MOVA's destination, of a masked ADDI's. -/
theorem test_meets_MisalignedPointee :
    S1.load? S1.level 0x7FE8 4 = some 0xFFFFFFFF ∧ S1.load? S1.level 0x7FEC 4 = some 3 ∧
    (0xFFFFFFFF : Word).toNat % szBytes .w ≠ 0 ∧ (3 : Word).toNat % szBytes .w ≠ 0 ∧
    S1.storeBuf = [] ∧ S1.lostStores = 0 ∧ S1.alone = true ∧
    ∀ k ∈ [Prefix.none, .cpu],
      (∀ op ∈ [DyOp.mov, .addi],
        Sys2Proof.Dyadic.accepted k op (.p3 (.mem .ind .w) (.mem .stk .w) 8 4) = true ∧
        Sys2Proof.Dyadic.accepted k op (.p3 .imm (.mem .ind .w) 1 0xC) = true ∧
        S1.srcSettled op k (.p3 .imm (.mem .ind .w) 1 0xC) = true ∧ (S1.src? k (.p3 .imm (.mem .ind .w) 1 0xC)).isSome = true) ∧
      srcArg S1 k (.p3 (.mem .ind .w) (.mem .stk .w) 8 4) = .ptr 0x7FE8 .w ∧
      dstArg S1 k (.p3 (.mem .ind .w) (.mem .stk .w) 8 4) = .mem 0x7FE4 .w ∧ (0x7FE4 : Word).toNat % szBytes .w = 0 ∧
      dstArg S1 k (.p3 .imm (.mem .ind .w) 1 0xC) = .ptr 0x7FEC .w ∧
      Sys2Proof.Dyadic.accepted k .mova (.p3 (.mem .ind .w) (.mem .ind .w) 8 0xC) = true ∧
      (S1.addr? (srcArg S1 k (.p3 (.mem .ind .w) (.mem .ind .w) 8 0xC))).isSome = true := by decide

/-- DQM: a half-word mode; 8 and 16 bytes one word off their alignment, a pointer word, and pointees. -/
theorem test_meets_MisalignedBlock :
    (Sys2Proof.Dyadic.accepted .none .dqm (.p3 .imm (.mem .abs .h) 0 0x2100) = true ∧
      dmodeOf (.p3 .imm (.mem .abs .h) 0 0x2100) = .mem .abs .h) ∧
    (Sys2Proof.Dyadic.accepted .none .dqm (.p3 .imm (.mem .abs .b) 0 0x2104) = true ∧
      dstArg S1 .none (.p3 .imm (.mem .abs .b) 0 0x2104) = .mem 0x2104 .b ∧ (0x2104 : Word).toNat % 8 ≠ 0) ∧
    ∀ k ∈ [Prefix.none, .cpu],
      (Sys2Proof.Dyadic.accepted k .dqm (.p3 (.mem .stk .w) (.mem .abs .w) 8 0x2100) = true ∧
        srcArg S1 k (.p3 (.mem .stk .w) (.mem .abs .w) 8 0x2100) = .mem 0x7FE8 .w ∧ (0x7FE8 : Word).toNat % 16 ≠ 0) ∧
      (Sys2Proof.Dyadic.accepted k .dqm (.p3 .imm (.mem .ind .w) 0 6) = true ∧
        dstArg S1 k (.p3 .imm (.mem .ind .w) 0 6) = .ptr 0x7FE6 .w ∧ (0x7FE6 : Word).toNat % 4 ≠ 0) ∧
      (Sys2Proof.Dyadic.accepted k .dqm (.p3 (.mem .ind .w) (.mem .abs .w) 8 0x2100) = true ∧
        srcArg S1 k (.p3 (.mem .ind .w) (.mem .abs .w) 8 0x2100) = .ptr 0x7FE8 .w ∧ (0xFFFFFFFF : Word).toNat % 16 ≠ 0 ∧
        dstArg S1 k (.p3 (.mem .ind .w) (.mem .abs .w) 8 0x2100) = .mem 0x2100 .w ∧ (0x2100 : Word).toNat % 16 = 0) ∧
      (Sys2Proof.Dyadic.accepted k .dqm (.p3 (.mem .abs .w) (.mem .ind .w) 0x2100 0xC) = true ∧
        dstArg S1 k (.p3 (.mem .abs .w) (.mem .ind .w) 0x2100 0xC) = .ptr 0x7FEC .w ∧ (3 : Word).toNat % 16 ≠ 0 ∧
        S1.opd? (srcArg S1 k (.p3 (.mem .abs .w) (.mem .ind .w) 0x2100 0xC)) = some (.mem 0x2100 .w)) := by decide

/-- Each group of monadic instructions with its word, with a prefix and without. -/
theorem test_meets_MisalignedWord :
    S1.scOk = true ∧ S1.psw.s = true ∧
    ((0x2102 : Word).toNat % 4 ≠ 0 ∧ (0x7FE2 : Word).toNat % 4 ≠ 0 ∧ (0xFFFFFFFF : Word).toNat % 4 ≠ 0) ∧
    (S1.flowWord? .absInd 0x2102 = some 0x2102 ∧ S1.flowWord? .stkInd 2 = some 0x7FE2) ∧
    (wordArg S1 .abs 0x2102 = .mem 0x2102 .w ∧ wordArg S1 .ind 2 = .ptr 0x7FE2 .w ∧ wordArg S1 .ind 8 = .ptr 0x7FE8 .w ∧
      S1.load? S1.level 0x7FE8 4 = some 0xFFFFFFFF) ∧
    (operandWord? S1.csp .abs 0x2102 = some 0x2102 ∧ operandWord? S1.sp .ind 2 = some 0x7FE2) ∧
    ((0 : Int) ≤ (2 : Word).toInt ∧ (0x7FE2 : Word) = S1.csp + 2) ∧
    ∀ k ∈ [Prefix.none, .cpu],
      (prefixed k .call (.flow .call) (.p3 .absInd 0x2102)).isSome = true ∧
      (prefixed k .jmp (.flow .jmp) (.p3 .stkInd 2)).isSome = true ∧
      (prefixed k .ldraa (.flow .ldraa) (.p3 .stkInd 2)).isSome = true ∧
      (prefixed k .kcall (.word .kcall) (.p3 .ind 8)).isSome = true ∧
      (prefixed k .enter (.word .enter) (.p3 .abs 0x2102)).isSome = true ∧
      (prefixed k .catchSc (.word .catchSc) (.p3 .ind 2)).isSome = true ∧
      (prefixed k .ret (.stack .ret) (.p3 () 2)).isSome = true ∧
      (prefixed k .flushpte (.word .flushpte) (.p3 .ind 2)).isSome = true ∧
      (prefixed k .flushpbe (.word .flushpbe) (.p3 .ind 2)).isSome = true := by decide

theorem test_meets_ZeroDivide :
    (∀ op ∈ [DyOp.div, .rem, .udiv, .urem],
      DstReady op .none (.p3 .imm (.mem .stk .w) 0 8) S1 0 0xFFFFFFFF (.mem 0x7FE8 .w) (.slot slot8)) ∧
    ∀ op ∈ [DyOp.div3, .rem3],
      AccReady op .none (.p3 .imm (.mem .stk .w) 0 8) S1 0 0xFFFFFFFF (.mem 0x7FE8 .w) slot4 := by decide

/-- Whether a step takes this request. -/
abbrev takesRequest (s : State) (r : Request) : Prop :=
  s.cur.hreset = false ∧ s.folded = none ∧ s.openBoundary.request = some r

/-- The step takes an NMI, a line and each timer, a trace exception due or not. -/
theorem test_meets_InterruptAcceptance_step :
    ∀ due ∈ [false, true],
      takesRequest { S0 with nmiPending := true, tracePending := due } .nmi ∧
      takesRequest { withPsw S0 0x7200 with env := [{ il := 6 }], lastIl := 6, tracePending := due } (.line 6) ∧
      takesRequest { withPsw S0 0x2200 with t1Req := true, tracePending := due } .timer1 ∧
      takesRequest { withPsw S0 0x2200 with t2Req := true, tracePending := due } .timer2 := by decide

/-- NMI; level 1 and 6 at the edge of IPL; each timer; nothing; IPL 1. -/
theorem test_meets_InterruptAcceptance :
    ((withPsw S0 0x1200).psw.ipl.toNat = 1 ∧ (withPsw S0 0x1200).cur.defer = false ∧
      ({ withPsw S0 0x1200 with env := [{ il := 2 }], t1Req := true } : State).cur.il = 2) ∧
    (S0.cur.defer = false ∧ ({ S0 with nmiPending := true } : State).nmiPending = true) ∧
    (∀ k ∈ [(1 : BitVec 3), 6], ({ S0 with env := [{ il := k }] } : State).cur.il = k ∧ k ≠ 0 ∧ k ≠ 7 ∧
      ({ S0 with env := [{ il := k }] } : State).cur.defer = false) ∧
    S0.nmiPending = false ∧ S0.cur.il = 7 ∧ ({ S0 with env := [{ il := 0 }] } : State).cur.il = 0 ∧ S0.t1Req = false ∧ S0.t2Req = false ∧ S0.psw.ipl = 0 ∧
    1 < (withPsw S0 0x2200).psw.ipl.toNat ∧ ({ S0 with t1Req := true } : State).t1Req = true ∧
    ({ S0 with t2Req := true } : State).t2Req = true := by decide

theorem test_meets_TraceTaken :
    (({ S0 with folded := some ⟨.jmpty, 3, false⟩ } : State).cur.hreset = false ∧
      ({ S0 with folded := some ⟨.jmpty, 3, false⟩ } : State).folded = some ⟨.jmpty, 3, false⟩) ∧
    ({ S0 with tracePending := true } : State).cur.hreset = false ∧ ({ S0 with tracePending := true } : State).folded = none ∧
    ({ S0 with tracePending := true } : State).openBoundary.request = none ∧
    ({ S0 with tracePending := true } : State).openBoundary.tracePending = true ∧
    (({ S0 with lostStores := 1 } : State).cur.hreset = false ∧ ({ S0 with lostStores := 1 } : State).folded = none ∧
      ({ S0 with lostStores := 1 } : State).openBoundary.request = none ∧
      ({ S0 with lostStores := 1 } : State).openBoundary.tracePending = false ∧
      ({ S0 with lostStores := 1 } : State).openBoundary.lostStores ≠ 0) := by decide

theorem test_meets_TimerCounts :
    (Cfg.ofWord 0x00400000).t1ev = true ∧ (Cfg.ofWord 0x01C00000).t1k = true ∧
    (Cfg.ofWord 0xC2000000).t2ev = 0b00001 ∧ (Cfg.ofWord 0x3E000000).t2ev = 0b11111 := by decide

/-- A handler at an address that answers with a bus error, the pc there already. -/
def LoopBad : State := { K0 with pc := 0x3100, board := { regions := [⟨0x3100, 0x310F, .busError, .ram⟩] } }

/-- The premises of the handler loop's clause, on a state. -/
def loopMeets (s : State) : Bool :=
  match fetch s.openBoundary with
  | .error (.exc e) u =>
    match exceptionSequence e u.pc u with
    | .ok _ t => t.pc == s.pc && !t.psw.vp && s.board.regions.all (fun r => r.wr != .busError) &&
      [s.vb + 4, s.pc, s.pc + 4, s.pc + 8, s.pc + 10].all (fun a => s.board.readAnswer a != .device) && !t.nmiPending &&
      s.env.isEmpty && s.oldSpace.isNone
    | _ => false
  | _ => false

theorem test_meets_Refusals_loop : LoopBad.runsNext ∧ loopMeets LoopBad = true := ⟨by decide, by decide +kernel⟩

theorem test_meets_Refusals :
    (Sys2Proof.Dyadic.accepted .cpu .add (.p3 (.mem .stk .uh) (.mem .stk .uh) 3 6) = true ∧ DyOp.add.readsDst = true ∧
      srcArg S0 .cpu (.p3 (.mem .stk .uh) (.mem .stk .uh) 3 6) = .reg 3 ∧
      dstArg S0 .cpu (.p3 (.mem .stk .uh) (.mem .stk .uh) 3 6) = .reg 6 ∧ Reg.ofCode 3 = some .sp ∧ Reg.ofCode 6 = some .shad) ∧
    (indirectFlow (.p3 .absInd 0x2000) = true ∧
      prefixed .none .jmpty (.flow .jmpty) (.p3 .absInd 0x2000) = some (.jmpty (.p3 .absInd 0x2000))) ∧
    (S0.scOk = true ∧ -256 ≤ (0xFFFFFF00 : Word).toInt ∧ (0xFFFFFFFF : Word).toInt < 0 ∧
      prefixed .none .enter (.word .enter) (.p3 .stk 0xFFFFFF00) = some (.enter (.p3 .stk 0xFFFFFF00))) ∧
    prefixed .none .flushpte (.word .flushpte) (.p3 .imm 0) = some (.flushpte (.p3 .imm 0)) ∧
    (withSp S0 0x8000 0x7FF0).scOk = false ∧ (withSp S0 0x7000 0x7110).scOk = false := by decide

end Sys2Proof.Tests
end

section
/-! PROOF. No step changes the parameters of the board (00_scope.md R6, R14). The board stands in the state as data, so this is
a frame statement: the relation `SameBoard` is one that the memory system respects (`Soft`), each meaning is a chain of such
accesses and of changes to other fields, and a step is a meaning or an event sequence between two boundary parts. -/

namespace Sys2Proof.Proofs

open Sys2Proof.Machine Sys2Proof.Laws

variable {α β : Type} {R : State → State → Prop}

/-! ## Branches of a computation -/

theorem keeps_ite {c : Prop} [Decidable c] {m n : M α} (hm : Keeps R m) (hn : Keeps R n) : Keeps R (if c then m else n) := by
  split
  · exact hm
  · exact hn

/-- A computation that first does something only where a condition holds. -/
theorem keeps_when (h : Soft R) {c : Prop} [Decidable c] {m : M Unit} {k : Unit → M β} (hm : Keeps R m)
    (hk : ∀ u, Keeps R (k u)) : Keeps R (if c then m >>= k else k ()) :=
  keeps_ite (h.bind hm hk) (hk ())

/-- Two ways to a value, and what is done with it. -/
theorem keeps_branch (h : Soft R) {c : Prop} [Decidable c] {m n : M α} {k : α → M β} (hm : Keeps R m) (hn : Keeps R n)
    (hk : ∀ a, Keeps R (k a)) : Keeps R (if c then m >>= k else n >>= k) :=
  keeps_ite (h.bind hm hk) (h.bind hn hk)

/-! ## The relation -/

/-- The board is the same before and after. -/
def SameBoard (s t : State) : Prop := t.board = s.board

/-- What only the program and its events change holds the board. -/
theorem sameBoard_of_ownPart {s t : State} (h : ownPart t = ownPart s) : SameBoard s t := (congrArg State.board h :)

/-- The memory system, other agents and the prefetch unit leave the board alone (R6). -/
theorem sameBoard : Soft SameBoard where
  refl _ := rfl
  trans _ _ _ h1 h2 := h2.trans h1
  draw _ _ := rfl
  mem _ _ _ _ := rfl
  tlb s k e := sameBoard_of_ownPart (own_agents.tlb s k e)
  npsr s k n := sameBoard_of_ownPart (own_agents.npsr s k n)
  block _ _ _ := rfl
  sc _ _ _ _ := rfl
  act s x := sameBoard_of_ownPart (act_own s x)
  between s l := by unfold SameBoard State.setBetween; split <;> rfl
  underConfig _ _ _ h := h

/-- A change of the state that leaves the board alone. -/
theorem modS_board {f : State → State} (hf : ∀ s, (f s).board = s.board) : Keeps SameBoard (modS f) := hf

/-! ## What the named updates leave alone -/

@[simp] theorem settleMsp_board (s : State) (m : Word) : (s.settleMsp m).board = s.board := by
  unfold State.settleMsp; dsimp only; split <;> simp

@[simp] theorem writeMsp_board (s : State) (v : Word) : (s.writeMsp v).board = s.board := by
  unfold State.writeMsp; dsimp only; split <;> simp

@[simp] theorem popTo_board (s : State) (v : Word) : (s.popTo v).board = s.board := setCsp_board s v

@[simp] theorem enterAt_board (s : State) (v m : Word) : (s.enterAt v m).board = s.board := lowerSp_board s v m

@[simp] theorem noteFault_board (e : Exc) (s : State) : (e.noteFault s).board = s.board := by
  cases e <;> rfl

@[simp] theorem beginEvent_board (s : State) : s.beginEvent.board = s.board := by
  unfold State.beginEvent; dsimp only; split <;> simp

@[simp] theorem flushInstrs_board (s : State) : s.flushInstrs.board = s.board := rfl
@[simp] theorem flushLines_board (s : State) (g : PfbLine → Bool) : (s.flushLines g).board = s.board := rfl

/-! ## Registers and destinations -/

theorem writePsw_board (w : Word) : Keeps SameBoard (writePsw w) :=
  sameBoard.bind sameBoard.getS fun _ => sameBoard.bind (sameBoard.openBit _ _) fun _ =>
    sameBoard.bind (sameBoard.openBit _ _) fun _ => sameBoard.bind (sameBoard.openBit _ _) fun _ =>
      sameBoard.bind (sameBoard.openBit _ _) fun _ => modS_board fun _ => rfl

theorem writeShad_board (w : Word) : Keeps SameBoard (writeShad w) :=
  sameBoard.bind sameBoard.getS fun _ => sameBoard.bind (sameBoard.openWord _ _) fun _ => modS_board fun _ => rfl

/-- A write of a control register (R44): ID, which shows the board's mask, is not written. -/
theorem writeReg_board (r : Reg) (v : Word) : Keeps SameBoard (writeReg r v) := by
  cases r with
  | psw => exact writePsw_board v
  | shad => exact writeShad_board v
  | id => exact sameBoard.pure ()
  | msp => exact modS_board fun s => writeMsp_board s _
  | isp | sp | config | vb | stb | fault | timer1 | timer2 => exact modS_board fun _ => rfl

theorem storeDst_board (t : Target) (v : Word) : Keeps SameBoard (storeDst t v) := by
  cases t with
  | slot p => exact modS_board fun s => commit_board s p v
  | reg r => exact writeReg_board r v

theorem advance_board (n : Word) : Keeps SameBoard (advance n) := modS_board fun _ => rfl
theorem jumpTo_board (t : Word) : Keeps SameBoard (jumpTo t) := modS_board fun _ => rfl
theorem noteShad_board (w : Word) : Keeps SameBoard (noteShad w) := modS_board fun _ => rfl

/-! ## The shapes the dyadic instructions share (R167) -/

theorem dyadicToDst_board (op : DyOp) (k : Prefix) (f : Dyadic) (alu : Word → Word → AluOut) :
    Keeps SameBoard (dyadicToDst op k f alu) := by
  have flags (o : FlagOut) : Keeps SameBoard (modS fun s => s.setFlags o) := modS_board fun s => setFlags_board s o
  exact sameBoard.bind sameBoard.getS fun _ => sameBoard.bind (sameBoard.precheck _ _ _ _ _ _) fun _ =>
    sameBoard.bind (sameBoard.resolve _ _) fun _ => sameBoard.bind (sameBoard.readOpd _ _ _) fun _ =>
      sameBoard.bind (sameBoard.resolve _ _) fun dst =>
        keeps_branch sameBoard (sameBoard.readOpd _ _ _) (sameBoard.pure _) fun _ =>
          sameBoard.bind (sameBoard.checkDst _ _) fun t => sameBoard.bind (sameBoard.raiseIf _ _) fun _ =>
            keeps_when sameBoard (flags _) fun _ => keeps_when sameBoard (storeDst_board t _) fun _ =>
              keeps_when sameBoard (flags _) fun _ =>
                sameBoard.bind (modS_board fun s => noteWide_board s op dst _) fun _ => advance_board _

theorem dyadicToAcc_board (op : DyOp) (k : Prefix) (f : Dyadic) (alu : Word → Word → AluOut) :
    Keeps SameBoard (dyadicToAcc op k f alu) :=
  sameBoard.bind sameBoard.getS fun _ => sameBoard.bind (sameBoard.precheck _ _ _ _ _ _) fun _ =>
    sameBoard.bind (sameBoard.resolve _ _) fun _ => sameBoard.bind (sameBoard.readOpd _ _ _) fun _ =>
      sameBoard.bind (sameBoard.resolve _ _) fun _ => sameBoard.bind (sameBoard.readOpd _ _ _) fun _ =>
        sameBoard.bind (sameBoard.checkWrite _ _ _) fun _ => sameBoard.bind (sameBoard.raiseIf _ _) fun _ =>
          sameBoard.bind (modS_board fun s => by simp) fun _ => advance_board _

theorem dyadicCompare_board (op : DyOp) (k : Prefix) (f : Dyadic) (rel : Word → Word → Bool) :
    Keeps SameBoard (dyadicCompare op k f rel) :=
  sameBoard.bind sameBoard.getS fun _ => sameBoard.bind (sameBoard.precheck _ _ _ _ _ _) fun _ =>
    sameBoard.bind (sameBoard.resolve _ _) fun _ => sameBoard.bind (sameBoard.readOpd _ _ _) fun _ =>
      sameBoard.bind (sameBoard.resolve _ _) fun _ => sameBoard.bind (sameBoard.readOpd _ _ _) fun _ =>
        sameBoard.bind (modS_board fun s => setFlags_board s _) fun _ => advance_board _

theorem drainAll_keeps_board : Keeps SameBoard (modS State.drainAll) := modS_board drainAll_board

theorem drainPoint_board : Keeps SameBoard drainPoint :=
  sameBoard.bind sameBoard.others fun _ => sameBoard.bind drainAll_keeps_board fun _ =>
    sameBoard.bind sameBoard.getS fun _ =>
      keeps_ite (sameBoard.pure ()) (sameBoard.bind (modS_board fun _ => rfl) fun _ => sameBoard.raise _)

/-- ADDI, ANDI and ORI (R203). -/
theorem interlocked_board (op : DyOp) (k : Prefix) (f : Dyadic) (alu : Word → Word → Word) :
    Keeps SameBoard (interlocked op k f alu) := by
  refine sameBoard.bind sameBoard.getS fun _ => sameBoard.bind (sameBoard.precheck _ _ _ _ _ _) fun _ =>
    sameBoard.bind drainPoint_board fun _ => sameBoard.bind (modS_board settleWides_board) fun _ =>
      sameBoard.bind (sameBoard.resolve _ _) fun _ => sameBoard.bind (sameBoard.readOpd _ _ _) fun _ =>
        sameBoard.bind (sameBoard.resolve _ _) fun _ => sameBoard.bind (sameBoard.checkBoth _ _) fun t =>
          sameBoard.bind (Soft.attempt (sameBoard.checkWrite _ _ _)) fun _ => sameBoard.bind sameBoard.others fun _ => ?_
  refine sameBoard.bind (sameBoard.undisturbed ?_) fun _ => sameBoard.bind sameBoard.getS fun _ =>
    sameBoard.bind (sameBoard.underConfigM _ (sameBoard.checkWrite _ _ _)) fun _ => sameBoard.bind sameBoard.others fun _ =>
      sameBoard.bind (modS_board fun s => by simp) fun _ => advance_board _
  exact sameBoard.bind (sameBoard.readTarget _ _) fun _ => sameBoard.bind (storeDst_board t _) fun _ =>
    sameBoard.bind drainAll_keeps_board fun _ => sameBoard.pure _

/-- MOVA (R262). -/
theorem moveAddress_board (k : Prefix) (f : Dyadic) : Keeps SameBoard (moveAddress k f) :=
  sameBoard.bind sameBoard.getS fun _ => sameBoard.bind (sameBoard.precheck _ _ _ _ _ _) fun _ =>
    sameBoard.bind (sameBoard.addrOf _ _) fun _ => sameBoard.bind (sameBoard.resolve _ _) fun _ =>
      sameBoard.bind (sameBoard.checkDst _ _) fun t => sameBoard.bind (storeDst_board t _) fun _ => advance_board _

theorem resolveBlock_board (lv : Level) (n : Nat) (x : Arg) : Keeps SameBoard (resolveBlock lv n x) :=
  sameBoard.bind (sameBoard.resolve _ _) fun _ => sameBoard.bind (sameBoard.raiseIf _ _) fun _ => sameBoard.pure _

/-- DQM (R263). -/
theorem blockMove_board (k : Prefix) (f : Dyadic) : Keeps SameBoard (blockMove k f) := by
  refine sameBoard.bind sameBoard.getS fun _ => sameBoard.bind (sameBoard.raiseIf _ _) fun _ => ?_
  split
  · exact sameBoard.raise _
  · rename_i n _
    refine sameBoard.bind (sameBoard.raiseIf _ _) fun _ => sameBoard.bind (resolveBlock_board _ _ _) fun _ =>
      sameBoard.bind (resolveBlock_board _ _ _) fun _ => sameBoard.bind (sameBoard.dqmSource _ _ _) fun ws => ?_
    split
    · exact sameBoard.bind (sameBoard.findHome _ _ _) fun h =>
        sameBoard.bind (modS_board fun s => writeBlock_board s h n ws) fun _ => advance_board _
    · exact sameBoard.raise _

/-- Every dyadic instruction, alone or after CPU. -/
theorem dyadicM_board (op : DyOp) (k : Prefix) (f : Dyadic) : Keeps SameBoard (dyadicM op k f) := by
  cases op with
  | addi | andi | ori => exact interlocked_board _ _ _ _
  | mova => exact moveAddress_board _ _
  | dqm => exact blockMove_board _ _
  | cmpgt | cmphi | cmpeq => exact dyadicCompare_board _ _ _ _
  | mov | tadd | tsub | add | sub | mul | div | rem | udiv | urem | and | or | xor | shl | shr | ushr =>
    exact dyadicToDst_board _ _ _ _
  | add3 | sub3 | mul3 | div3 | rem3 | and3 | or3 | xor3 | shl3 | shr3 | ushr3 => exact dyadicToAcc_board _ _ _ _

/-! ## Event sequences -/

/-- The frame an event sequence pushes (R403). -/
theorem eventFrame_board (ident : Option Word) (epc vec : Word) : Keeps SameBoard (eventFrame ident epc vec) := by
  refine sameBoard.bind sameBoard.getS fun s => sameBoard.bind (Soft.guardReset ?_) fun _ =>
    sameBoard.bind (modS_board fun _ => rfl) fun _ => sameBoard.bind (Soft.guardReset (sameBoard.vectorRead _ _)) fun _ =>
      modS_board fun _ => rfl
  have frame : Keeps SameBoard (do
      frameWrite s.eventLevel (s.isp - 8) epc
      frameWrite s.eventLevel (s.isp - 4) s.psw.toWord) :=
    sameBoard.bind (sameBoard.frameWrite _ _ _) fun _ => sameBoard.frameWrite _ _ _
  cases ident with
  | none => exact frame
  | some v => exact sameBoard.bind (sameBoard.frameWrite _ _ _) fun _ => frame

/-- Taking an exception (R420). -/
theorem exceptionSequence_board (e : Exc) (epc : Word) : Keeps SameBoard (exceptionSequence e epc) :=
  sameBoard.bind sameBoard.others fun _ => sameBoard.bind (modS_board fun s => by simp) fun _ => eventFrame_board _ _ _

/-- Taking an interrupt (R410). -/
theorem interruptSequence_board (vec : Word) : Keeps SameBoard (interruptSequence vec) :=
  sameBoard.bind sameBoard.others fun _ => sameBoard.bind sameBoard.getS fun _ =>
    sameBoard.bind (modS_board beginEvent_board) fun _ => eventFrame_board _ _ _

/-- The unimplemented instruction and trapped niladic sequences (R430, R431). -/
theorem softTrap_board (vec : Word) : Keeps SameBoard (softTrap vec) :=
  sameBoard.bind sameBoard.getS fun _ => sameBoard.bind (sameBoard.checkWrite _ _ _) fun p =>
    sameBoard.bind (sameBoard.checkAnswer _) fun _ => sameBoard.bind (sameBoard.translateAddr _ _ _) fun _ =>
      sameBoard.bind (sameBoard.raiseIf _ _) fun _ => sameBoard.bind (modS_board fun s => commit_board s p _) fun _ =>
        sameBoard.bind (sameBoard.physRead _) fun _ => modS_board fun _ => rfl

theorem kernelCall_board (v next : Word) : Keeps SameBoard (kernelCall v next) :=
  sameBoard.bind sameBoard.others fun _ => sameBoard.bind drainAll_keeps_board fun _ => sameBoard.bind sameBoard.getS fun _ =>
    sameBoard.bind (eventFrame_board _ _ _) fun _ => modS_board fun _ => rfl

/-- A word an event's return reads from the interrupt stack. -/
theorem frameRead_board (lv : Level) (a : Word) : Keeps SameBoard (guardReset (memReadW lv a)) :=
  Soft.guardReset (sameBoard.memReadW lv a)

/-- KRET (R312). -/
theorem kernelReturn_board : Keeps SameBoard kernelReturn :=
  sameBoard.bind sameBoard.getS fun _ => sameBoard.bind (sameBoard.raiseIf _ _) fun _ =>
    sameBoard.bind (frameRead_board _ _) fun _ => sameBoard.bind (frameRead_board _ _) fun _ =>
      sameBoard.bind sameBoard.others fun _ => modS_board fun s => by simp

/-! ## The stack cache's transfers -/

theorem flushQuad_board (lv : Level) : Keeps SameBoard (flushQuad lv) :=
  sameBoard.bind sameBoard.getS fun _ => sameBoard.bind (sameBoard.refuseIf _ _) fun _ =>
    sameBoard.bind (sameBoard.translateAddr _ _ _) fun _ =>
      sameBoard.bind (sameBoard.storeBlock (Soft.blockStores_wordAddr _ _ _)) fun _ => modS_board fun _ => rfl

theorem fillQuad_board (lv : Level) : Keeps SameBoard (fillQuad lv) :=
  sameBoard.bind sameBoard.getS fun _ => sameBoard.bind (sameBoard.checkStore _ _) fun _ =>
    sameBoard.bind (sameBoard.translateAddr _ _ _) fun _ => sameBoard.bind (sameBoard.readBlock _ _) fun ws =>
      modS_board fun s => scWriteWords_board s _ _ ws

/-- CRET (R298). -/
theorem contextReturn_board : Keeps SameBoard contextReturn :=
  sameBoard.bind sameBoard.getS fun _ => sameBoard.bind (sameBoard.raiseIf _ _) fun _ =>
    sameBoard.bind (sameBoard.refuseIf _ _) fun _ => sameBoard.bind (frameRead_board _ _) fun _ =>
      sameBoard.bind (frameRead_board _ _) fun _ => sameBoard.bind (frameRead_board _ _) fun _ =>
        sameBoard.bind (frameRead_board _ _) fun _ => sameBoard.bind (modS_board fun _ => rfl) fun _ =>
          keeps_when sameBoard (sameBoard.whileM (fillQuad_board _) _) fun _ =>
            sameBoard.bind sameBoard.others fun _ => modS_board fun s => by simp

/-! ## Program control (44_program_control.md) -/

theorem jmpM_board (f : Monadic (BitVec 10) FlowMode) : Keeps SameBoard (jmpM f) :=
  sameBoard.bind sameBoard.getS fun _ => sameBoard.bind (sameBoard.flowTarget _ _ _) fun _ => jumpTo_board _

theorem jumpIf_board (want : Bool) (k : Prefix) (f : Monadic (BitVec 10) FlowMode) : Keeps SameBoard (jumpIf want k f) :=
  sameBoard.bind sameBoard.getS fun _ => sameBoard.bind (sameBoard.refuseIf _ _) fun _ =>
    sameBoard.bind (sameBoard.flowTarget _ _ _) fun _ => keeps_ite (jumpTo_board _) (advance_board _)

/-- CALL (R292). -/
theorem callM_board (k : Prefix) (f : Monadic (BitVec 10) FlowMode) : Keeps SameBoard (callM k f) :=
  sameBoard.bind sameBoard.getS fun _ => sameBoard.bind (sameBoard.raiseIf _ _) fun _ =>
    sameBoard.bind (sameBoard.raiseIf _ _) fun _ => sameBoard.bind (sameBoard.checkWrite _ _ _) fun p =>
      sameBoard.bind sameBoard.getS fun _ => sameBoard.bind (modS_board fun s => commit_board s p _) fun _ =>
        sameBoard.bind (sameBoard.flowTarget _ _ _) fun _ =>
          keeps_branch sameBoard (sameBoard.openWord _ _) (sameBoard.pure _) fun _ =>
            sameBoard.bind (noteShad_board _) fun _ => jumpTo_board _

/-- RETURN (R294). -/
theorem retM_board (f : Monadic (BitVec 8) Unit) : Keeps SameBoard (retM f) :=
  sameBoard.bind sameBoard.getS fun _ => sameBoard.bind (sameBoard.raiseIf _ _) fun _ =>
    sameBoard.bind (sameBoard.refuseIf _ _) fun _ => sameBoard.bind (sameBoard.memReadW _ _) fun _ =>
      sameBoard.bind (modS_board fun s => popTo_board s _) fun _ => sameBoard.bind (noteShad_board _) fun _ => jumpTo_board _

/-- POPN (R302). -/
theorem popnM_board (k : Prefix) (f : Monadic (BitVec 8) Unit) : Keeps SameBoard (popnM k f) :=
  sameBoard.bind sameBoard.getS fun _ => sameBoard.bind (sameBoard.raiseIf _ _) fun _ =>
    sameBoard.bind (sameBoard.refuseIf _ _) fun _ => sameBoard.bind (modS_board fun s => popTo_board s _) fun _ =>
      sameBoard.bind (noteShad_board _) fun _ => advance_board _

theorem enterIsp_board (lv : Level) (v : Word) : Keeps SameBoard (enterIsp lv v) :=
  sameBoard.bind (sameBoard.checkStore _ _) fun _ => modS_board fun _ => rfl

theorem enterReplace_board (lv : Level) (v : Word) : Keeps SameBoard (enterReplace lv v) :=
  sameBoard.bind (sameBoard.whileM (flushQuad_board lv) _) fun _ => sameBoard.bind (sameBoard.checkStore _ _) fun _ =>
    modS_board fun _ => rfl

theorem enterOffset_board (lv : Level) (v : Word) : Keeps SameBoard (enterOffset lv v) :=
  sameBoard.bind sameBoard.getS fun _ => sameBoard.bind (sameBoard.whileM (flushQuad_board lv) _) fun _ =>
    sameBoard.bind sameBoard.getS fun _ => sameBoard.bind (sameBoard.checkStore _ _) fun _ =>
      keeps_when sameBoard (sameBoard.checkStore _ _) fun _ => modS_board fun s => enterAt_board s v _

theorem enterTo_board (b : Bool) (v : Word) : Keeps SameBoard (enterTo b v) :=
  sameBoard.bind sameBoard.getS fun _ =>
    keeps_ite (keeps_ite (enterOffset_board _ _) (enterReplace_board _ _)) (enterIsp_board _ _)

theorem enterEnd_board (old n : Word) : Keeps SameBoard (enterEnd old n) :=
  sameBoard.bind (modS_board fun s => setFlags_board s _) fun _ => sameBoard.bind (noteShad_board _) fun _ => advance_board _

/-- ENTER (R300). -/
theorem enterM_board (k : Prefix) (f : Monadic (BitVec 8) WordMode) : Keeps SameBoard (enterM k f) := by
  have enter (b : Bool) (v old n : Word) : Keeps SameBoard (do enterTo b v; enterEnd old n) :=
    sameBoard.bind (enterTo_board b v) fun _ => enterEnd_board old n
  refine sameBoard.bind sameBoard.getS fun s => ?_
  cases f with
  | illegal m => exact sameBoard.raise _
  | p1 g => exact sameBoard.bind (sameBoard.refuseIf _ _) fun _ => enter _ _ _ _
  | p3 m x =>
    cases m with
    | stk =>
      exact sameBoard.bind (sameBoard.raiseIf _ _) fun _ => sameBoard.bind (sameBoard.refuseIf _ _) fun _ =>
        sameBoard.bind (sameBoard.refuseIf _ _) fun _ => enter _ _ _ _
    | imm | abs | ind =>
      exact sameBoard.bind (sameBoard.refuseIf _ _) fun _ => sameBoard.bind (sameBoard.replaceTarget _ _ _ _) fun _ =>
        enter _ _ _ _

theorem catchTarget_board (s : State) (f : Monadic (BitVec 8) WordMode) : Keeps SameBoard (catchTarget s f) := by
  cases f with
  | p1 g => exact sameBoard.pure _
  | p3 m x => exact sameBoard.replaceTarget _ _ _ _
  | illegal m => exact sameBoard.raise _

/-- CATCH (R296). -/
theorem catchScM_board (k : Prefix) (f : Monadic (BitVec 8) WordMode) : Keeps SameBoard (catchScM k f) :=
  sameBoard.bind sameBoard.getS fun s => sameBoard.bind (sameBoard.raiseIf _ _) fun _ =>
    sameBoard.bind (sameBoard.refuseIf _ _) fun _ =>
      keeps_ite
        (sameBoard.bind (catchTarget_board s f) fun _ => sameBoard.bind (sameBoard.whileM (fillQuad_board _) _) fun _ =>
          advance_board _)
        (advance_board _)

/-- KCALL (R310). -/
theorem kcallM_board (k : Prefix) (f : Monadic (BitVec 10) WordMode) : Keeps SameBoard (kcallM k f) := by
  refine sameBoard.bind sameBoard.getS fun s => ?_
  cases f with
  | illegal m => exact sameBoard.raise _
  | p1 g => exact kernelCall_board _ _
  | p3 m x => exact sameBoard.bind (sameBoard.wordValue _ _ _ _) fun _ => kernelCall_board _ _

/-! ## The other instructions -/

/-- LDRAA (R264). -/
theorem ldraaM_board (k : Prefix) (f : Monadic Empty FlowMode) : Keeps SameBoard (ldraaM k f) := by
  cases f with
  | p1 e => exact e.elim
  | illegal m => exact sameBoard.raise _
  | p3 m x =>
    exact sameBoard.bind sameBoard.getS fun _ => sameBoard.bind (sameBoard.target3 _ _ _ _) fun _ =>
      sameBoard.bind (sameBoard.checkWrite _ _ _) fun p => sameBoard.bind (modS_board fun s => commit_board s p _) fun _ =>
        advance_board _

theorem flushpteM_board (k : Prefix) (f : Monadic Empty WordMode) : Keeps SameBoard (flushpteM k f) :=
  sameBoard.bind (sameBoard.flushAddr f) fun _ => sameBoard.bind (modS_board fun _ => rfl) fun _ => advance_board _

theorem flushpbeM_board (k : Prefix) (f : Monadic Empty WordMode) : Keeps SameBoard (flushpbeM k f) :=
  sameBoard.bind (sameBoard.flushAddr f) fun _ => sameBoard.bind (modS_board fun _ => rfl) fun _ => advance_board _

theorem flushdceM_board (m : Mode) : Keeps SameBoard (flushdceM m) :=
  sameBoard.bind (sameBoard.raiseIf _ _) fun _ => softTrap_board _

/-- A code with no instruction (R430, R433). -/
theorem unimplementedM_board (k : Prefix) (u : Unimpl) : Keeps SameBoard (unimplementedM k u) := by
  have trap : Keeps SameBoard unimplementedSequence := softTrap_board 12
  cases u with
  | monadic m => exact sameBoard.bind (sameBoard.raiseIf _ _) fun _ => trap
  | dyadic five op sm dm => exact sameBoard.bind (sameBoard.raiseIf _ _) fun _ => trap
  | p1 op x | niladic sc => exact trap

/-- A niladic that changes flags or text caches and goes on to the next instruction. -/
theorem update_advance_board {g : State → State} (hg : ∀ s, (g s).board = s.board) (n : Word) :
    Keeps SameBoard (do modS g; advance n) :=
  sameBoard.bind (modS_board hg) fun _ => advance_board n

/-- The instruction after CPU (R371). -/
theorem cpuM_board (b : CpuBody) : Keeps SameBoard (cpuM b) := by
  cases b with
  | dyadic op f => exact dyadicM_board op .cpu f
  | word op f =>
    cases op with
    | kcall => exact kcallM_board _ _
    | catchSc => exact catchScM_board _ _
    | enter => exact enterM_board _ _
    | flushpte => exact flushpteM_board _ _
    | flushpbe => exact flushpbeM_board _ _
  | flow op f =>
    cases op with
    | call => exact callM_board _ _
    | jmp => exact jmpM_board _
    | jmpfn | jmpfy | jmptn | jmpty => exact jumpIf_board _ _ _
    | ldraa => exact ldraaM_board _ _
  | stack op f =>
    cases op with
    | ret => exact retM_board _
    | popn => exact popnM_board _ _
  | flushdce m => exact flushdceM_board m
  | unimplemented u => exact unimplementedM_board _ u
  | oneParcel p => exact sameBoard.stop _

/-! ## From a computation to an outcome -/

/-- However a computation ends, what follows it is no change of the board: a reset is none (R480, R481). -/
theorem finish_board {r : EStateM.Result Stop State α} {t : State} (h : finish r = .next t) : SameBoard (final r) t := by
  cases r with
  | ok a u => cases h; rfl
  | error e u =>
    cases e with
    | exc e => cases h; rfl
    | reset => cases h; rfl
    | refused r => cases h
    | fault f => cases h

theorem finish_keeps_board {m : M α} (hm : Keeps SameBoard m) {s t : State} (h : finish (m s) = .next t) : SameBoard s t :=
  (finish_board h).trans (hm s)

/-- A meaning that leaves the board alone does so as an instruction, its exception taken (R405, R420). -/
theorem run_board {m : M Unit} (hm : Keeps SameBoard m) {s t : State} (h : run m s = .next t) : SameBoard s t := by
  have hs := hm s
  unfold run at h
  cases e : m s with
  | ok a u => rw [e] at h hs; exact (finish_board h).trans hs
  | error x u =>
    rw [e] at h hs
    cases x with
    | exc x => exact (finish_keeps_board (exceptionSequence_board x u.pc) h).trans hs
    | reset | refused r | fault f => exact (finish_board h).trans hs

/-- No instruction changes the board. -/
theorem exec_board {i : Instr} {s t : State} (h : exec i s = .next t) : SameBoard s t := by
  cases i with
  | addi f | andi f | ori f => exact run_board (interlocked_board _ _ _ _) h
  | mova f => exact run_board (moveAddress_board _ _) h
  | dqm f => exact run_board (blockMove_board _ _) h
  | cmpgt f | cmphi f | cmpeq f => exact run_board (dyadicCompare_board _ _ _ _) h
  | mov f | tadd f | tsub f | add f | sub f | mul f | div f | rem f | udiv f | urem f | and f | or f | xor f | shl f | shr f
  | ushr f => exact run_board (dyadicToDst_board _ _ _ _) h
  | add3 f | sub3 f | mul3 f | div3 f | rem3 f | and3 f | or3 f | xor3 f | shl3 f | shr3 f | ushr3 f =>
    exact run_board (dyadicToAcc_board _ _ _ _) h
  | kcall f => exact run_board (kcallM_board _ _) h
  | call f => exact run_board (callM_board _ _) h
  | ret f => exact run_board (retM_board _) h
  | jmp f => exact run_board (jmpM_board _) h
  | jmpfn f | jmpfy f | jmptn f | jmpty f => exact run_board (jumpIf_board _ _ _) h
  | catchSc f => exact run_board (catchScM_board _ _) h
  | enter f => exact run_board (enterM_board _ _) h
  | ldraa f => exact run_board (ldraaM_board _ _) h
  | flushpte f => exact run_board (flushpteM_board _ _) h
  | flushpbe f => exact run_board (flushpbeM_board _ _) h
  | flushdce m => exact run_board (flushdceM_board m) h
  | popn f => exact run_board (popnM_board _ _) h
  | cpu b => exact run_board (cpuM_board b) h
  | kret => exact run_board kernelReturn_board h
  | cret => exact run_board contextReturn_board h
  | nop => exact run_board (advance_board 2) h
  | flushi => exact run_board (update_advance_board flushInstrs_board 2) h
  | flushp => exact run_board (update_advance_board (fun s => flushLines_board s _) 2) h
  | testv | testc | clre => exact run_board (update_advance_board (fun s => setFlags_board s _) 2) h
  | flushd => exact run_board (softTrap_board _) h
  | unimplemented u => exact run_board (unimplementedM_board _ u) h
  | niladicTrap n => exact run_board (softTrap_board _) h

/-! ## The parts of a step (60_exceptions.md R435, R436) -/

/-- Fetching an instruction (R99). -/
theorem fetch_board : Keeps SameBoard fetch :=
  sameBoard.fetch (fun _ => rfl) (fun s c l => sameBoard_of_ownPart (own_agents.line s c l))
    fun s a ts => sameBoard_of_ownPart (own_agents.instr s a ts)

/-- The outside world's part before an instruction (R406 to R408, D8). -/
theorem openBoundary_board (s : State) : s.openBoundary.board = s.board := by
  have hd (u : State) : u.dropText.board = u.board := by unfold State.dropText; split <;> rfl
  exact Eq.trans (sameBoard_of_ownPart (acts_own _ _)) (hd _)

theorem answer_board (s : State) (r : Request) : (s.answer r).board = s.board := by
  cases r <;> rfl

theorem pushHazard_board (s : State) : s.pushHazard.board = s.board := by
  unfold State.pushHazard; split <;> rfl

theorem closeStep_board (s : State) : s.closeStep.board = s.board := drainTo_board s _

/-- A jump folded into the instruction before it is only fetched (R442). -/
theorem foldNext_board {s t : State} {i : Instr} {ti : Bool} (h : s.foldNext i ti = some t) : SameBoard s t := by
  have hf := fetch_board s
  unfold State.foldNext at h
  split at h
  · cases e : fetch s with
    | ok j u =>
      rw [e] at h hf
      obtain ⟨p, -, rfl⟩ := Option.map_eq_some_iff.1 h
      exact hf
    | error x u => rw [e] at h; cases h
  · cases h

theorem retireEvent_board (s old : State) : (s.retireEvent old).board = s.board := closeStep_board _

/-- The end of a step that ran an instruction. -/
theorem retire_board (s old : State) (i : Instr) (pair : Option Bool) : (s.retire old i pair).board = s.board := by
  have fold (u : State) (b : Bool) (ti : Bool) : ((if b then u.foldNext i ti else none).getD u).board = u.board := by
    cases e : (if b then u.foldNext i ti else none) with
    | none => rfl
    | some v =>
      cases b with
      | false => cases e
      | true => exact foldNext_board e
  exact (closeStep_board _).trans ((fold _ _ _).trans (pushHazard_board _))

theorem mapNext_eq_next {g : State → State} {o : Host.Outcome State Fault Refusal} {t : State} (h : mapNext g o = .next t) :
    ∃ u, o = .next u ∧ g u = t := by
  cases o with
  | next u => cases h; exact ⟨u, rfl, rfl⟩
  | fault r => cases h
  | refused r => cases h

/-- A step that runs an event sequence. -/
theorem eventStep_board {m : M Unit} (hm : Keeps SameBoard m) {s t : State} (h : eventStep m s = .next t) : SameBoard s t := by
  obtain ⟨u, hu, rfl⟩ := mapNext_eq_next h
  exact (retireEvent_board u s).trans (finish_keeps_board hm hu)

/-- A step whose fetch failed (R424). -/
theorem fetchStep_board {e : Exc} {old s t : State} (h : fetchStep e old s = .next t) : SameBoard s t := by
  have hs {u : State} (hu : finish (exceptionSequence e s.pc s) = .next u) : SameBoard s u :=
    finish_keeps_board (exceptionSequence_board e s.pc) hu
  unfold fetchStep at h
  cases o : finish (exceptionSequence e s.pc s) with
  | next u =>
    rw [o] at h
    dsimp only at h
    split at h
    · cases h
    · cases h; exact (retireEvent_board u s).trans (hs o)
  | fault r => rw [o] at h; cases h
  | refused r => rw [o] at h; cases h

/-- What an instruction and the end of its step leave alone. -/
theorem execStep_board {i : Instr} {s old t : State} {pair : Option Bool}
    (h : mapNext (fun t => t.retire old i pair) (exec i { s with hazard := {}, event := .none }) = .next t) : SameBoard s t := by
  obtain ⟨u, hu, rfl⟩ := mapNext_eq_next h
  exact (retire_board u old i pair).trans ((exec_board hu).trans rfl)

/-- A step that fetches and executes. -/
theorem instrStep_board {s t : State} (h : instrStep s = .next t) : SameBoard s t := by
  have hf := fetch_board s
  unfold instrStep at h
  cases e : fetch s with
  | ok i u => rw [e] at h hf; exact (execStep_board h).trans hf
  | error x u =>
    rw [e] at h hf
    cases x with
    | exc x => exact (fetchStep_board h).trans hf
    | reset | refused r | fault f => exact (finish_board h).trans hf

/-- The step of a folded jump (R442). -/
theorem foldedStep_board {j : FoldedJump} {s t : State} (h : foldedStep j s = .next t) : SameBoard s t :=
  (execStep_board h : SameBoard { s.sampleLines with folded := none } t)

/-- A step in which no reset is asserted and no folded jump waits: a request, a due trace exception, a lost store, or an
instruction. -/
theorem boundaryStep_board {s t : State} (hr : s.cur.hreset = false) (hf : s.folded = none) (h : stepOnce s = .next t) :
    SameBoard s t := by
  refine Eq.trans ?_ (openBoundary_board s)
  simp only [stepOnce, hr, hf, Bool.false_eq_true, if_false] at h
  split at h
  · rename_i r _
    exact (eventStep_board (interruptSequence_board _) h).trans (answer_board _ r)
  · split at h
    · exact (eventStep_board (exceptionSequence_board _ _) h).trans rfl
    · split at h
      · exact (eventStep_board (exceptionSequence_board _ _) h).trans rfl
      · exact instrStep_board h

/-- Settles O7: a step is HRESET, a folded jump, or what a boundary leads to, and none of them changes the board. -/
theorem stepKeepsBoard : Obligations.StepKeepsBoard := by
  intro s t h
  cases hr : s.cur.hreset with
  | true =>
    simp only [step, stepOnce, hr, if_true] at h
    cases h
    rfl
  | false =>
    cases hf : s.folded with
    | none => exact boundaryStep_board hr hf h
    | some j =>
      simp only [step, stepOnce, hr, hf, Bool.false_eq_true, if_false] at h
      exact foldedStep_board h

end Sys2Proof.Proofs
end

section
/-! PROOF. One walk over the meanings of the instructions, for every frame or invariant of the program (10_state.md R30, R44): a
relation between the state before and after that the memory system respects (`Soft`) and that each update a meaning makes of its
own respects (`Program`) is respected by every instruction but KCALL, KRET and CRET, whose events change more. -/

namespace Sys2Proof.Proofs

open Sys2Proof.Machine Sys2Proof.Laws

variable {α β : Type} {R : State → State → Prop} {I : State → Prop}

/-! ## The computation of an instruction -/

/-- The computation that `exec` runs for an instruction. -/
def meaning : Instr → M Unit
  | .ori f => dyadicM .ori .none f
  | .andi f => dyadicM .andi .none f
  | .addi f => dyadicM .addi .none f
  | .mova f => dyadicM .mova .none f
  | .urem f => dyadicM .urem .none f
  | .mov f => dyadicM .mov .none f
  | .dqm f => dyadicM .dqm .none f
  | .tadd f => dyadicM .tadd .none f
  | .tsub f => dyadicM .tsub .none f
  | .cmpgt f => dyadicM .cmpgt .none f
  | .cmphi f => dyadicM .cmphi .none f
  | .cmpeq f => dyadicM .cmpeq .none f
  | .sub f => dyadicM .sub .none f
  | .or f => dyadicM .or .none f
  | .and f => dyadicM .and .none f
  | .add f => dyadicM .add .none f
  | .xor f => dyadicM .xor .none f
  | .rem f => dyadicM .rem .none f
  | .mul f => dyadicM .mul .none f
  | .div f => dyadicM .div .none f
  | .shr f => dyadicM .shr .none f
  | .ushr f => dyadicM .ushr .none f
  | .shl f => dyadicM .shl .none f
  | .udiv f => dyadicM .udiv .none f
  | .sub3 f => dyadicM .sub3 .none f
  | .or3 f => dyadicM .or3 .none f
  | .and3 f => dyadicM .and3 .none f
  | .add3 f => dyadicM .add3 .none f
  | .xor3 f => dyadicM .xor3 .none f
  | .rem3 f => dyadicM .rem3 .none f
  | .mul3 f => dyadicM .mul3 .none f
  | .div3 f => dyadicM .div3 .none f
  | .shr3 f => dyadicM .shr3 .none f
  | .ushr3 f => dyadicM .ushr3 .none f
  | .shl3 f => dyadicM .shl3 .none f
  | .kcall f => kcallM .none f
  | .call f => callM .none f
  | .ret f => retM f
  | .jmp f => jmpM f
  | .jmpfn f => jumpIf false .none f
  | .jmpfy f => jumpIf false .none f
  | .jmptn f => jumpIf true .none f
  | .jmpty f => jumpIf true .none f
  | .catchSc f => catchScM .none f
  | .enter f => enterM .none f
  | .ldraa f => ldraaM .none f
  | .flushpte f => flushpteM .none f
  | .flushpbe f => flushpbeM .none f
  | .flushdce m => flushdceM m
  | .popn f => popnM .none f
  | .cpu b => cpuM b
  | .kret => kernelReturn
  | .nop => advance 2
  | .flushi => flushiM
  | .flushp => flushpM
  | .cret => contextReturn
  | .flushd => unimplementedSequence
  | .testv => testvM
  | .testc => testcM
  | .clre => clreM
  | .unimplemented u => unimplementedM .none u
  | .niladicTrap _ => niladicSequence

theorem exec_eq_run (i : Instr) (s : State) : exec i s = run (meaning i) s := by
  cases i <;> rfl

/-! ## What a computation answers -/

/-- Every answer of a computation has a property. -/
def Answers (P : α → Prop) (m : M α) : Prop := ∀ s a t, m s = .ok a t → P a

theorem answers_bind {P : β → Prop} {m : M α} {g : α → M β} (hg : ∀ a, Answers P (g a)) : Answers P (m >>= g) := by
  intro s b t h
  rw [bind_run] at h
  cases e : m s with
  | ok a u => rw [e] at h; exact hg a u b t h
  | error x u => rw [e] at h; cases h

/-- A checked destination is a register only at kernel level (R44). -/
def KernelTarget (lv : Level) (t : Target) : Prop := ∀ r, t = .reg r → lv.user = false

theorem checkDst_kernel (lv : Level) (o : Opd) : Answers (KernelTarget lv) (checkDst lv o) := by
  cases o with
  | imm v => intro s a t h; cases h
  | mem ea z =>
    refine answers_bind fun p s a t h => ?_
    cases h
    rintro r ⟨⟩
  | reg q =>
    intro s a t h r _
    cases hu : lv.user with
    | false => rfl
    | true => simp [checkDst, hu] at h

theorem checkBoth_kernel (lv : Level) (o : Opd) : Answers (KernelTarget lv) (checkBoth lv o) := by
  have checked : Answers (KernelTarget lv) (do let t ← checkDst lv o; t.readFault; pure t) := by
    intro s a t h
    rw [bind_run] at h
    cases e : checkDst lv o s with
    | error x u => rw [e] at h; cases h
    | ok b u =>
      rw [e] at h
      have hb : ∀ v, (b.readFault >>= fun _ => pure b : M Target) v = .ok a t → a = b := by
        intro v hv
        rw [bind_run] at hv
        cases ev : b.readFault v <;> rw [ev] at hv <;> cases hv
        rfl
      exact hb u h ▸ checkDst_kernel lv o s b u e
  cases o with
  | mem ea z => exact answers_bind fun _ => answers_bind fun _ => answers_bind fun _ => checked
  | imm v | reg r => exact checked

/-! ## The frame of an event (R403) -/

/-- The frame and the vector of an event sequence or KCALL, where what it makes of the pointers, PC and PSW is respected. -/
theorem eventFrame_keeps (h : Soft R) (hp : ∀ s, R s { s with isp := s.isp - 16, shad := s.isp - 16 })
    (hv : ∀ s t, R s { s with pc := textAddr t, psw := s.psw.cleared, oldSpace := none }) (ident : Option Word) (epc vec : Word) :
    Keeps R (eventFrame ident epc vec) := by
  refine h.bind h.getS fun s => h.bind (Soft.guardReset ?_) fun _ => h.bind (Soft.modS hp) fun _ =>
    h.bind (Soft.guardReset (h.vectorRead _ _)) fun _ => Soft.modS fun s => hv s _
  have frame : Keeps R (do
      frameWrite s.eventLevel (s.isp - 8) epc
      frameWrite s.eventLevel (s.isp - 4) s.psw.toWord) :=
    h.bind (h.frameWrite _ _ _) fun _ => h.frameWrite _ _ _
  cases ident with
  | none => exact frame
  | some v => exact h.bind (h.frameWrite _ _ _) fun _ => frame

/-! ## What a meaning does to the state of its own -/

/-- A relation that the memory system and every instruction but KCALL, KRET and CRET respect. Two things a meaning relies on: the
states it has seen before have `I`, where the relation is only claimed of states with `I` (`given`), and a register is written at
kernel level only. -/
structure Program (I : State → Prop) (R : State → State → Prop) : Prop extends Soft R where
  given : ∀ s t, (I s → R s t) → R s t
  advance : ∀ s n, textAddr n = n → R s { s with pc := s.pc + n }
  jump : ∀ s t, R s { s with pc := textAddr t }
  flags : ∀ s o, R s (s.setFlags o)
  hazard : ∀ s z, R s { s with hazard := z }
  drain : ∀ s, R s s.drainAll
  lost : ∀ s n, R s { s with lostStores := n }
  settle : ∀ s, R s s.settleWides
  register : ∀ a r v, I a → a.psw.x = false → Keeps R (writeReg r v)
  pop : ∀ s x, R s (s.popTo (s.csp + quadAlign x))
  flushed : ∀ s, R s { s with msp := s.msp - 16 }
  filled : ∀ a s, I a → R s { s with msp := a.msp + 16 }
  enterIsp : ∀ s v, R s { s with isp := quadAlign v, shad := quadAlign v }
  enterReplace : ∀ s v, R s { s with sp := quadAlign v, msp := quadAlign v, shad := quadAlign v }
  enterAt : ∀ a s v m, I a → m = quadAlign v + 256 ∨ m = a.msp → R s (s.enterAt (quadAlign v) m)
  flushInstrs : ∀ s, R s s.flushInstrs
  flushLines : ∀ s gone, R s (s.flushLines gone)
  flushPage : ∀ s a, R s (s.flushPage a)
  trap : ∀ s t, R s { s with pc := textAddr t, event := .softTrap }

namespace Program

variable (h : Program I R)
include h

/-- The state found has `I`. -/
theorem bind_getS {g : State → M β} (hg : ∀ s, I s → Keeps R (g s)) : Keeps R (getS >>= g) :=
  fun s => h.given _ _ fun hs => hg s hs s

theorem bind_answers {P : α → Prop} {m : M α} {g : α → M β} (hm : Keeps R m) (hp : Answers P m)
    (hg : ∀ a, P a → Keeps R (g a)) : Keeps R (m >>= g) := by
  intro s
  have h1 := hm s
  rw [bind_run]
  cases e : m s with
  | ok a t => rw [e] at h1; exact h.trans _ _ _ h1 (hg a (hp s a t e) t)
  | error x t => rw [e] at h1; exact h1

omit h in
theorem textAddr_len (k : Prefix) {n : Word} (hn : n = 2 ∨ n = 6 ∨ n = 10) : textAddr (k.len + n) = k.len + n := by
  rcases hn with rfl | rfl | rfl <;> cases k <;> rfl

omit h in
theorem dyadic_len (f : Dyadic) : f.len = 2 ∨ f.len = 6 ∨ f.len = 10 := by
  rcases f with _ | _ | _ | ⟨five, _, _⟩
  · exact .inl rfl
  · exact .inr (.inl rfl)
  · exact .inr (.inr rfl)
  · cases five
    · exact .inr (.inl rfl)
    · exact .inr (.inr rfl)

omit h in
theorem monadic_len {F N : Type} (f : Monadic F N) : f.len = 2 ∨ f.len = 6 ∨ f.len = 10 := by
  cases f
  · exact .inl rfl
  · exact .inr (.inl rfl)
  · exact .inr (.inl rfl)

theorem advanceBy (k : Prefix) {n : Word} (hn : n = 2 ∨ n = 6 ∨ n = 10) : Keeps R (Machine.advance (k.len + n)) :=
  fun s => h.advance s _ (textAddr_len k hn)

theorem advanceDyadic (k : Prefix) (f : Dyadic) : Keeps R (Machine.advance (dyadicSize k f)) := h.advanceBy k (dyadic_len f)

theorem advanceTwo : Keeps R (Machine.advance 2) := fun s => h.advance s 2 rfl

theorem jumpTo (t : Word) : Keeps R (jumpTo t) := fun s => h.jump s t
theorem noteShad (w : Word) : Keeps R (noteShad w) := fun s => h.hazard s _
theorem modFlags (o : FlagOut) : Keeps R (modS fun s => s.setFlags o) := fun s => h.flags s o
theorem modDrain : Keeps R (modS State.drainAll) := h.drain

theorem noteWide (s : State) (op : DyOp) (d : Opd) (v : Word) : R s (s.noteWide op d v) := by
  rw [noteWide_eq]; exact h.hazard s _

theorem storeDst {a : State} (ha : I a) {t : Target} (ht : KernelTarget a.level t) (v : Word) : Keeps R (storeDst t v) := by
  cases t with
  | slot p => exact fun s => h.commit s p v
  | reg r => exact h.register a r v ha (ht r rfl)

/-! ## The dyadic instructions (R167) -/

theorem dyadicToDst (op : DyOp) (k : Prefix) (f : Dyadic) (alu : Word → Word → AluOut) : Keeps R (dyadicToDst op k f alu) :=
  h.bind_getS fun _ ha => h.bind (h.precheck _ _ _ _ _ _) fun _ => h.bind (h.resolve _ _) fun _ =>
    h.bind (h.readOpd _ _ _) fun _ => h.bind (h.resolve _ _) fun dst =>
      keeps_branch h.toSoft (h.readOpd _ _ _) (h.pure _) fun _ =>
        h.bind_answers (h.checkDst _ _) (checkDst_kernel _ _) fun _ ht => h.bind (h.raiseIf _ _) fun _ =>
          keeps_when h.toSoft (h.modFlags _) fun _ => keeps_when h.toSoft (h.storeDst ha ht _) fun _ =>
            keeps_when h.toSoft (h.modFlags _) fun _ =>
              h.bind (Soft.modS fun s => h.noteWide s op dst _) fun _ => h.advanceDyadic k f

theorem dyadicToAcc (op : DyOp) (k : Prefix) (f : Dyadic) (alu : Word → Word → AluOut) : Keeps R (dyadicToAcc op k f alu) :=
  h.bind h.getS fun _ => h.bind (h.precheck _ _ _ _ _ _) fun _ => h.bind (h.resolve _ _) fun _ =>
    h.bind (h.readOpd _ _ _) fun _ => h.bind (h.resolve _ _) fun dst => h.bind (h.readOpd _ _ _) fun _ =>
      h.bind (h.checkWrite _ _ _) fun _ => h.bind (h.raiseIf _ _) fun _ =>
        h.bind (Soft.modS fun s => h.trans _ _ _ (h.trans _ _ _ (h.commit s _ _) (h.flags _ _)) (h.noteWide _ op dst _)) fun _ =>
          h.advanceDyadic k f

theorem dyadicCompare (op : DyOp) (k : Prefix) (f : Dyadic) (rel : Word → Word → Bool) : Keeps R (dyadicCompare op k f rel) :=
  h.bind h.getS fun _ => h.bind (h.precheck _ _ _ _ _ _) fun _ => h.bind (h.resolve _ _) fun _ =>
    h.bind (h.readOpd _ _ _) fun _ => h.bind (h.resolve _ _) fun _ => h.bind (h.readOpd _ _ _) fun _ =>
      h.bind (h.modFlags _) fun _ => h.advanceDyadic k f

theorem drainPoint : Keeps R drainPoint :=
  h.bind h.others fun _ => h.bind h.modDrain fun _ => h.bind h.getS fun _ =>
    keeps_ite (h.pure ()) (h.bind (Soft.modS fun s => h.lost s _) fun _ => h.raise _)

/-- ADDI, ANDI and ORI (R203). -/
theorem interlocked (op : DyOp) (k : Prefix) (f : Dyadic) (alu : Word → Word → Word) : Keeps R (interlocked op k f alu) := by
  refine h.bind_getS fun _ ha => h.bind (h.precheck _ _ _ _ _ _) fun _ => h.bind h.drainPoint fun _ =>
    h.bind (Soft.modS h.settle) fun _ => h.bind (h.resolve _ _) fun _ => h.bind (h.readOpd _ _ _) fun _ =>
      h.bind (h.resolve _ _) fun _ => h.bind_answers (h.checkBoth _ _) (checkBoth_kernel _ _) fun _ ht =>
        h.bind (Soft.attempt (h.checkWrite _ _ _)) fun _ => h.bind h.others fun _ => h.bind (h.undisturbed ?_) fun _ =>
          h.bind h.getS fun _ => h.bind (h.underConfigM _ (h.checkWrite _ _ _)) fun _ => h.bind h.others fun _ =>
            h.bind (Soft.modS fun s => h.trans _ _ _ (h.commit s _ _) (h.drain _)) fun _ => h.advanceDyadic k f
  exact h.bind (h.readTarget _ _) fun _ => h.bind (h.storeDst ha ht _) fun _ => h.bind h.modDrain fun _ => h.pure _

/-- MOVA (R262). -/
theorem moveAddress (k : Prefix) (f : Dyadic) : Keeps R (moveAddress k f) :=
  h.bind_getS fun _ ha => h.bind (h.precheck _ _ _ _ _ _) fun _ => h.bind (h.addrOf _ _) fun _ =>
    h.bind (h.resolve _ _) fun _ => h.bind_answers (h.checkDst _ _) (checkDst_kernel _ _) fun _ ht =>
      h.bind (h.storeDst ha ht _) fun _ => h.advanceDyadic k f

theorem resolveBlock (lv : Level) (n : Nat) (x : Arg) : Keeps R (resolveBlock lv n x) :=
  h.bind (h.resolve _ _) fun _ => h.bind (h.raiseIf _ _) fun _ => h.pure _

/-- DQM (R263). -/
theorem blockMove (k : Prefix) (f : Dyadic) : Keeps R (blockMove k f) := by
  refine h.bind h.getS fun _ => h.bind (h.raiseIf _ _) fun _ => ?_
  split
  · exact h.raise _
  · rename_i n _
    refine h.bind (h.raiseIf _ _) fun _ => h.bind (h.resolveBlock _ _ _) fun _ => h.bind (h.resolveBlock _ _ _) fun _ =>
      h.bind (h.dqmSource _ _ _) fun ws => ?_
    split
    · exact h.bind (h.findHome _ _ _) fun g => h.bind (Soft.modS fun s => h.writeBlock s g n ws) fun _ => h.advanceDyadic k f
    · exact h.raise _

/-- Every dyadic instruction, alone or after CPU. -/
theorem dyadicM (op : DyOp) (k : Prefix) (f : Dyadic) : Keeps R (dyadicM op k f) := by
  cases op with
  | addi | andi | ori => exact h.interlocked _ _ _ _
  | mova => exact h.moveAddress _ _
  | dqm => exact h.blockMove _ _
  | cmpgt | cmphi | cmpeq => exact h.dyadicCompare _ _ _ _
  | mov | tadd | tsub | add | sub | mul | div | rem | udiv | urem | and | or | xor | shl | shr | ushr =>
    exact h.dyadicToDst _ _ _ _
  | add3 | sub3 | mul3 | div3 | rem3 | and3 | or3 | xor3 | shl3 | shr3 | ushr3 => exact h.dyadicToAcc _ _ _ _

/-! ## Program control (44_program_control.md) -/

theorem jmpM (f : Monadic (BitVec 10) FlowMode) : Keeps R (jmpM f) :=
  h.bind h.getS fun _ => h.bind (h.flowTarget _ _ _) fun _ => h.jumpTo _

theorem jumpIf (want : Bool) (k : Prefix) (f : Monadic (BitVec 10) FlowMode) : Keeps R (jumpIf want k f) :=
  h.bind h.getS fun _ => h.bind (h.refuseIf _ _) fun _ => h.bind (h.flowTarget _ _ _) fun _ =>
    keeps_ite (h.jumpTo _) (h.advanceBy k (monadic_len f))

/-- CALL (R292). -/
theorem callM (k : Prefix) (f : Monadic (BitVec 10) FlowMode) : Keeps R (callM k f) :=
  h.bind h.getS fun _ => h.bind (h.raiseIf _ _) fun _ => h.bind (h.raiseIf _ _) fun _ => h.bind (h.checkWrite _ _ _) fun p =>
    h.bind h.getS fun _ => h.bind (Soft.modS fun s => h.commit s p _) fun _ => h.bind (h.flowTarget _ _ _) fun _ =>
      keeps_branch h.toSoft (h.openWord _ _) (h.pure _) fun _ => h.bind (h.noteShad _) fun _ => h.jumpTo _

/-- RETURN (R294). -/
theorem retM (f : Monadic (BitVec 8) Unit) : Keeps R (retM f) :=
  h.bind h.getS fun _ => h.bind (h.raiseIf _ _) fun _ => h.bind (h.refuseIf _ _) fun _ => h.bind (h.memReadW _ _) fun _ =>
    h.bind (Soft.modS fun s => h.pop s _) fun _ => h.bind (h.noteShad _) fun _ => h.jumpTo _

/-- POPN (R302). -/
theorem popnM (k : Prefix) (f : Monadic (BitVec 8) Unit) : Keeps R (popnM k f) :=
  h.bind h.getS fun _ => h.bind (h.raiseIf _ _) fun _ => h.bind (h.refuseIf _ _) fun _ =>
    h.bind (Soft.modS fun s => h.pop s _) fun _ => h.bind (h.noteShad _) fun _ => h.advanceBy k (monadic_len f)

/-- The stack cache's transfers (R91, R92). -/
theorem flushQuad (lv : Level) : Keeps R (flushQuad lv) :=
  h.bind h.getS fun _ => h.bind (h.refuseIf _ _) fun _ => h.bind (h.translateAddr _ _ _) fun _ =>
    h.bind (h.storeBlock (Soft.blockStores_wordAddr _ _ _)) fun _ => Soft.modS h.flushed

theorem fillQuad (lv : Level) : Keeps R (fillQuad lv) :=
  h.bind_getS fun a ha => h.bind (h.checkStore _ _) fun _ => h.bind (h.translateAddr _ _ _) fun _ =>
    h.bind (h.readBlock _ _) fun ws =>
      Soft.modS fun s => h.trans _ _ _ (h.scWriteWords s a.msp (blockIdx 4) ws) (h.filled a _ ha)

theorem enterIspM (lv : Level) (v : Word) : Keeps R (Machine.enterIsp lv (quadAlign v)) :=
  h.bind (h.checkStore _ _) fun _ => Soft.modS fun s => h.enterIsp s v

theorem enterReplaceM (lv : Level) (v : Word) : Keeps R (Machine.enterReplace lv (quadAlign v)) :=
  h.bind (h.whileM (h.flushQuad lv) _) fun _ => h.bind (h.checkStore _ _) fun _ => Soft.modS fun s => h.enterReplace s v

theorem enterOffset (lv : Level) (v : Word) : Keeps R (enterOffset lv (quadAlign v)) := by
  refine h.bind h.getS fun s => h.bind (h.whileM (h.flushQuad lv) _) fun _ => h.bind_getS fun a ha => ?_
  have hm : ∀ m, m = (if 256 < s.msp - quadAlign v then (if quadAlign v + 256 < a.msp then quadAlign v + 256 else a.msp)
      else a.msp) → m = quadAlign v + 256 ∨ m = a.msp := by
    rintro m rfl
    split
    · split
      · exact .inl rfl
      · exact .inr rfl
    · exact .inr rfl
  exact h.bind (h.checkStore _ _) fun _ =>
    keeps_when h.toSoft (h.checkStore _ _) fun _ => Soft.modS fun t => h.enterAt a t v _ ha (hm _ rfl)

theorem enterTo (b : Bool) (v : Word) : Keeps R (enterTo b v) :=
  h.bind h.getS fun _ => keeps_ite (keeps_ite (h.enterOffset _ v) (h.enterReplaceM _ v)) (h.enterIspM _ v)

/-- ENTER (R300). -/
theorem enterM (k : Prefix) (f : Monadic (BitVec 8) WordMode) : Keeps R (enterM k f) := by
  have enter (b : Bool) (v old : Word) {n : Word} (hn : n = 2 ∨ n = 6 ∨ n = 10) :
      Keeps R (do Machine.enterTo b v; enterEnd old (k.len + n)) :=
    h.bind (h.enterTo b v) fun _ => h.bind (h.modFlags _) fun _ => h.bind (h.noteShad _) fun _ => h.advanceBy k hn
  refine h.bind h.getS fun s => ?_
  cases f with
  | illegal m => exact h.raise _
  | p1 g => exact h.bind (h.refuseIf _ _) fun _ => enter _ _ _ (.inl rfl)
  | p3 m x =>
    cases m with
    | stk =>
      exact h.bind (h.raiseIf _ _) fun _ => h.bind (h.refuseIf _ _) fun _ => h.bind (h.refuseIf _ _) fun _ =>
        enter _ _ _ (.inr (.inl rfl))
    | imm | abs | ind =>
      exact h.bind (h.refuseIf _ _) fun _ => h.bind (h.replaceTarget _ _ _ _) fun _ => enter _ _ _ (.inr (.inl rfl))

theorem catchTarget (s : State) (f : Monadic (BitVec 8) WordMode) : Keeps R (catchTarget s f) := by
  cases f with
  | p1 g => exact h.pure _
  | p3 m x => exact h.replaceTarget _ _ _ _
  | illegal m => exact h.raise _

/-- CATCH (R296). -/
theorem catchScM (k : Prefix) (f : Monadic (BitVec 8) WordMode) : Keeps R (catchScM k f) :=
  h.bind h.getS fun s => h.bind (h.raiseIf _ _) fun _ => h.bind (h.refuseIf _ _) fun _ =>
    keeps_ite
      (h.bind (h.catchTarget s f) fun _ => h.bind (h.whileM (h.fillQuad _) _) fun _ => h.advanceBy k (monadic_len f))
      (h.advanceBy k (monadic_len f))

/-! ## The other instructions -/

/-- LDRAA (R264). -/
theorem ldraaM (k : Prefix) (f : Monadic Empty FlowMode) : Keeps R (ldraaM k f) := by
  cases f with
  | p1 e => exact e.elim
  | illegal m => exact h.raise _
  | p3 m x =>
    exact h.bind h.getS fun _ => h.bind (h.target3 _ _ _ _) fun _ => h.bind (h.checkWrite _ _ _) fun p =>
      h.bind (Soft.modS fun s => h.commit s p _) fun _ => h.advanceBy k (.inr (.inl rfl))

/-- FLUSHPTE and FLUSHPBE (R384, R385). -/
theorem flushpteM (k : Prefix) (f : Monadic Empty WordMode) : Keeps R (flushpteM k f) :=
  h.bind (h.flushAddr f) fun _ => h.bind (Soft.modS fun s => h.flushPage s _) fun _ => h.advanceBy k (.inr (.inl rfl))

theorem flushpbeM (k : Prefix) (f : Monadic Empty WordMode) : Keeps R (flushpbeM k f) :=
  h.bind (h.flushAddr f) fun _ => h.bind (Soft.modS fun s => h.flushLines s _) fun _ => h.advanceBy k (.inr (.inl rfl))

/-- The unimplemented instruction and trapped niladic sequences (R430, R431). -/
theorem softTrap (vec : Word) : Keeps R (softTrap vec) :=
  h.bind h.getS fun _ => h.bind (h.checkWrite _ _ _) fun p => h.bind (h.checkAnswer _) fun _ =>
    h.bind (h.translateAddr _ _ _) fun _ => h.bind (h.raiseIf _ _) fun _ => h.bind (Soft.modS fun s => h.commit s p _) fun _ =>
      h.bind (h.physRead _) fun _ => Soft.modS fun s => h.trap s _

theorem flushdceM (m : Mode) : Keeps R (flushdceM m) := h.bind (h.raiseIf _ _) fun _ => h.softTrap _

/-- A code with no instruction (R430, R433). -/
theorem unimplementedM (k : Prefix) (u : Unimpl) : Keeps R (unimplementedM k u) := by
  have trap : Keeps R unimplementedSequence := h.softTrap 12
  cases u with
  | monadic m => exact h.bind (h.raiseIf _ _) fun _ => trap
  | dyadic five op sm dm => exact h.bind (h.raiseIf _ _) fun _ => trap
  | p1 op x | niladic sc => exact trap

/-- A niladic that changes the state and goes on to the next instruction. -/
theorem update {g : State → State} (hg : ∀ s, R s (g s)) : Keeps R (do modS g; Machine.advance 2) :=
  h.bind (Soft.modS hg) fun _ => h.advanceTwo

/-- The instruction after CPU (R371), but KCALL. -/
theorem cpuM {b : CpuBody} (hb : untraceable (.cpu b) = false) : Keeps R (cpuM b) := by
  cases b with
  | dyadic op f => exact h.dyadicM op .cpu f
  | word op f =>
    cases op with
    | kcall => cases hb
    | catchSc => exact h.catchScM _ _
    | enter => exact h.enterM _ _
    | flushpte => exact h.flushpteM _ _
    | flushpbe => exact h.flushpbeM _ _
  | flow op f =>
    cases op with
    | call => exact h.callM _ _
    | jmp => exact h.jmpM _
    | jmpfn | jmpfy | jmptn | jmpty => exact h.jumpIf _ _ _
    | ldraa => exact h.ldraaM _ _
  | stack op f =>
    cases op with
    | ret => exact h.retM _
    | popn => exact h.popnM _ _
  | flushdce m => exact h.flushdceM m
  | unimplemented u => exact h.unimplementedM _ u
  | oneParcel p => exact h.stop _

/-- Every instruction but KCALL, KRET and CRET. -/
theorem keeps_meaning {i : Instr} (hi : untraceable i = false) : Keeps R (meaning i) := by
  cases i with
  | kcall f => cases hi
  | kret | cret => cases hi
  | call f => exact h.callM _ _
  | ret f => exact h.retM _
  | jmp f => exact h.jmpM _
  | jmpfn f | jmpfy f | jmptn f | jmpty f => exact h.jumpIf _ _ _
  | catchSc f => exact h.catchScM _ _
  | enter f => exact h.enterM _ _
  | ldraa f => exact h.ldraaM _ _
  | flushpte f => exact h.flushpteM _ _
  | flushpbe f => exact h.flushpbeM _ _
  | flushdce m => exact h.flushdceM m
  | popn f => exact h.popnM _ _
  | cpu b => exact h.cpuM hi
  | nop => exact h.advanceTwo
  | flushi => exact h.update h.flushInstrs
  | flushp => exact h.update fun s => h.flushLines s _
  | testv | testc | clre => exact h.update fun s => h.flags s _
  | flushd => exact h.softTrap _
  | unimplemented u => exact h.unimplementedM _ u
  | niladicTrap n => exact h.softTrap _
  | _ f => dsimp only [meaning]; exact h.dyadicM _ _ f

end Program

end Sys2Proof.Proofs
end

section
/-! PROOF. Every step keeps a well-formed state well formed (10_state.md R30, R41, R45, R48; 20_memory.md R80, R120). The memory
system, every instruction and every event sequence respect the relation `KeepsInv`; what is particular to it is that the pointers
written are aligned ones, or lie a multiple of 16 bytes from one that was. -/

namespace Sys2Proof.Proofs

open Sys2Proof.Machine Sys2Proof.Laws

variable {α β : Type}

/-! ## Aligned addresses (R30, R45) -/

/-- A mask of the high bits clears the `n` low ones. -/
theorem and_high_toNat (v : Word) (n : Nat) : (v &&& (BitVec.allOnes 32 <<< n)).toNat = v.toNat / 2 ^ n * 2 ^ n := by
  have hm : v &&& (BitVec.allOnes 32 <<< n) = (v >>> n) <<< n := by
    ext i hi
    simp only [BitVec.getElem_and, BitVec.getElem_shiftLeft, BitVec.getElem_ushiftRight, BitVec.getElem_allOnes]
    by_cases h : i < n
    · simp [h]
    · simp [h, show n + (i - n) = i by omega, BitVec.getLsbD_eq_getElem hi]
  rw [hm, BitVec.toNat_shiftLeft, BitVec.toNat_ushiftRight, Nat.shiftRight_eq_div_pow, Nat.shiftLeft_eq]
  exact Nat.mod_eq_of_lt (Nat.lt_of_le_of_lt (Nat.div_mul_le_self _ _) v.isLt)

theorem and_high_eq_self (v : Word) (n : Nat) : v &&& (BitVec.allOnes 32 <<< n) = v ↔ 2 ^ n ∣ v.toNat := by
  rw [← BitVec.toNat_inj, and_high_toNat, Nat.dvd_iff_div_mul_eq]

theorem quadAlign_eq_self {v : Word} : quadAlign v = v ↔ 16 ∣ v.toNat := and_high_eq_self v 4
theorem textAddr_eq_self {v : Word} : textAddr v = v ↔ 2 ∣ v.toNat := and_high_eq_self v 1

@[simp] theorem quadAlign_quadAlign (v : Word) : quadAlign (quadAlign v) = quadAlign v := by simp [quadAlign, BitVec.and_assoc]
@[simp] theorem textAddr_textAddr (v : Word) : textAddr (textAddr v) = textAddr v := by simp [textAddr, BitVec.and_assoc]

theorem quadAlign_add {a b : Word} (ha : quadAlign a = a) (hb : quadAlign b = b) : quadAlign (a + b) = a + b := by
  rw [quadAlign_eq_self] at *
  rw [BitVec.toNat_add]
  omega

theorem quadAlign_sub {a b : Word} (ha : quadAlign a = a) (hb : quadAlign b = b) : quadAlign (a - b) = a - b := by
  rw [quadAlign_eq_self] at *
  rw [BitVec.toNat_sub]
  omega

theorem textAddr_add {a b : Word} (ha : textAddr a = a) (hb : textAddr b = b) : textAddr (a + b) = a + b := by
  rw [textAddr_eq_self] at *
  rw [BitVec.toNat_add]
  omega

/-! ## The caches' bounds (R48) -/

/-- A line placed in the prefetch buffer leaves every set at most its three lines. -/
theorem placeLine_bound {l : PfbLine} {ls : List PfbLine}
    (hl : ∀ i : Fin pfbSets, (ls.filter fun o => Config.pfbSet o.pa == i).length ≤ pfbWays) (i : Fin pfbSets) :
    ((placeLine l ls).filter fun o => Config.pfbSet o.pa == i).length ≤ pfbWays := by
  have others : ∀ o ∈ (ls.filter fun o => Config.pfbSet o.pa == Config.pfbSet l.pa && o.pa != l.pa).take (pfbWays - 1),
      Config.pfbSet o.pa = Config.pfbSet l.pa := by
    intro o ho
    simpa using (Bool.and_eq_true_iff.1 (List.mem_filter.1 (List.mem_of_mem_take ho)).2).1
  by_cases hi : Config.pfbSet l.pa = i
  · subst hi
    have noOther : (ls.filter fun o => !(Config.pfbSet o.pa == Config.pfbSet l.pa)).filter
        (fun o => Config.pfbSet o.pa == Config.pfbSet l.pa) = [] := by
      simp [List.filter_filter]
    have few := List.length_filter_le (fun o => Config.pfbSet o.pa == Config.pfbSet l.pa)
      ((ls.filter fun o => Config.pfbSet o.pa == Config.pfbSet l.pa && o.pa != l.pa).take (pfbWays - 1))
    rw [List.length_take] at few
    have ways : pfbWays = 3 := rfl
    simp only [placeLine, List.filter_cons, beq_self_eq_true, if_true, List.filter_append, noOther, List.append_nil, List.length_cons]
    omega
  · have noOther : ((ls.filter fun o => Config.pfbSet o.pa == Config.pfbSet l.pa && o.pa != l.pa).take (pfbWays - 1)).filter
        (fun o => Config.pfbSet o.pa == i) = [] := by
      rw [List.filter_eq_nil_iff]
      intro o ho
      simpa [others o ho] using hi
    have same : (ls.filter fun o => !(Config.pfbSet o.pa == Config.pfbSet l.pa)).filter (fun o => Config.pfbSet o.pa == i) =
        ls.filter fun o => Config.pfbSet o.pa == i := by
      rw [List.filter_filter]
      refine List.filter_congr fun o _ => ?_
      by_cases ho : Config.pfbSet o.pa = i <;> simp [ho, Ne.symm hi]
    simp only [placeLine, List.filter_cons, beq_iff_eq, hi, if_false, List.filter_append, noOther, List.nil_append, same]
    exact hl i

/-- An instruction put in its slot leaves every slot at most one. -/
theorem placeInstr_bound {e : IcEntry} {l : List IcEntry}
    (hl : ∀ i : Fin icSize, (l.filter fun o => Config.icSlot o.va == i).length ≤ 1) (i : Fin icSize) :
    ((e :: l.filter fun o => Config.icSlot o.va != Config.icSlot e.va).filter fun o => Config.icSlot o.va == i).length ≤ 1 := by
  rw [List.filter_cons, List.filter_filter]
  split
  · rename_i hi
    rw [List.filter_eq_nil_iff.2 fun o _ => by simp_all]
    rfl
  · rw [← List.filter_filter]
    exact le_trans (((List.filter_sublist).filter _).length_le) (hl i)

/-- Dropping entries of a cache raises no set's number of them. -/
theorem filter_bound {γ : Type} {p q : γ → Bool} {l : List γ} {n : Nat} (h : (l.filter q).length ≤ n) :
    ((l.filter p).filter q).length ≤ n :=
  le_trans ((List.filter_sublist.filter q).length_le) h

/-! ## The relation -/

/-- A state well formed before is so after. -/
def KeepsInv (s t : State) : Prop := s.Inv → t.Inv

/-- The primitive effects of the memory system, other agents and the prefetch unit (D8, R128, R131). -/
theorem keepsInv_agents : Agents KeepsInv where
  refl _ h := h
  trans _ _ _ h1 h2 h := h2 (h1 h)
  draw _ _ h := { h with }
  mem _ _ _ _ h := { h with mem := writeLanes_wf _ _ _ h.mem }
  tlb s k e h := by
    have few {l : List TlbEntry} (hl : l.length ≤ tlbSize) : (l.filter fun o => o.vpn != e.vpn).length ≤ tlbSize :=
      le_trans (List.length_filter_le _ _) hl
    have cut (l : List TlbEntry) : (l.take tlbSize).length ≤ tlbSize := List.length_take_le _ _
    unfold State.loadTlb
    split
    · exact h
    · split
      · cases k with
        | text => exact { h with textTlb := cut _ }
        | read | write | check _ => exact { h with dataTlb := cut _ }
      · cases k with
        | text => exact { h with textTlb := few h.textTlb }
        | read | write | check _ => exact { h with dataTlb := few h.dataTlb }
  npsr s k n h := by unfold State.loadNpsr; (repeat' split) <;> exact { h with }
  deliver s n h := by
    have hm := drainTo_wf n h.mem
    rw [drainTo_eq] at hm ⊢
    exact { h with mem := hm, storeBuf := fun b hb => h.storeBuf b (List.mem_of_mem_drop hb) }
  textTlb _ _ h := { h with textTlb := le_trans (List.length_filter_le _ _) h.textTlb }
  dataTlb _ _ h := { h with dataTlb := le_trans (List.length_filter_le _ _) h.dataTlb }
  textNpsr _ h := { h with }
  dataNpsr _ h := { h with }
  pfb _ _ h := { h with pfb := fun i => filter_bound (h.pfb i) }
  ahead _ _ h := { h with }
  ic _ _ h := { h with ic := fun i => filter_bound (h.ic i) }
  line s c l h := by
    unfold State.keepLine
    split
    · exact { h with pfb := placeLine_bound h.pfb }
    · exact h
  instr s a ts h := by
    unfold State.keepInstr
    split
    · exact { h with ic := placeInstr_bound h.ic }
    · exact h
  held _ _ h := { h with }
  reads _ _ h := { h with }

theorem setBetween_eq (s : State) (l : List (List Act)) : s.setBetween l = { s with env := (s.setBetween l).env } := by
  unfold State.setBetween; split <;> rfl

/-- The memory system (20_memory.md). -/
theorem keepsInv_soft : Soft KeepsInv where
  toWalks := keepsInv_agents.toWalks
  block s b hb h := { h with
    storeBuf := fun c hc => by
      rcases List.mem_append.1 hc with hc | hc
      · exact h.storeBuf c hc
      · obtain rfl := List.mem_singleton.1 hc
        exact hb }
  sc _ _ _ _ h := { h with }
  act := keepsInv_agents.act
  between s l h := by rw [setBetween_eq]; exact { h with }
  underConfig s t c hst h := { hst { h with } with }

/-! ## Writes of the control registers (R30, R41, R44) -/

/-- The words of the stack cache and the values drawn are no part of it. -/
theorem stackWords_inv {s : State} (x : Vector Word 64) (n : Nat) (h : s.Inv) : ({ s with sc := x, draw := n } : State).Inv :=
  { h with }

theorem scForget_inv {s : State} (lo : Word) (n : Nat) (h : s.Inv) : (s.scForget lo n).Inv := by
  rw [scForget_eq]; exact stackWords_inv _ _ h

theorem lowerSp_inv {s : State} (v m : Word) (h : s.Inv) : (s.lowerSp v m).Inv := by
  rw [lowerSp_eq]; exact stackWords_inv _ _ h

theorem setCsp_inv {s : State} {v : Word} (hv : quadAlign v = v) (h : s.Inv) : (s.setCsp v).Inv := by
  unfold State.setCsp
  split
  · exact { h with sp := hv }
  · exact { h with isp := hv }

theorem csp_aligned {s : State} (h : s.Inv) : quadAlign s.csp = s.csp := by
  unfold State.csp
  split
  · exact h.sp
  · exact h.isp

/-- MSP raised, with the words brought into the range (R90). -/
theorem settleMsp_inv {s : State} {v : Word} (hv : quadAlign v = v) (h : s.Inv) : (s.settleMsp v).Inv := by
  have hm {u : State} (hu : u.Inv) : ({ u with msp := v } : State).Inv := { hu with msp := hv }
  unfold State.settleMsp
  split
  · exact hm (scForget_inv s.msp _ h)
  · exact hm h

theorem writeMsp_eq_settleMsp (s : State) (v : Word) : s.writeMsp v = s.settleMsp v := rfl

/-- One of several words is open. -/
theorem openWord_mem (w : Word) (l : List Word) : Answers (· ∈ w :: l) (openWord w l) := by
  induction l with
  | nil => intro s v t h; cases h; exact List.mem_singleton_self _
  | cons x r ih =>
    intro s v t h
    simp only [openWord, bind_run] at h
    cases e : openWord w r s with
    | error y u => rw [e] at h; cases h
    | ok y u =>
      have hy : y = w ∨ y ∈ r := List.mem_cons.1 (ih s y u e)
      have hv : v = x ∨ v = y := by
        rw [e] at h
        dsimp only at h
        split at h
        · cases h; exact .inr rfl
        · simp only [Machine.flip, bind_run, pure_run] at h
          cases h
          split
          · exact .inl rfl
          · exact .inr rfl
      rcases hv with rfl | rfl
      · simp
      · rcases hy with rfl | hy <;> simp [*]

theorem writePsw_inv (w : Word) : Keeps KeepsInv (writePsw w) :=
  keepsInv_soft.bind keepsInv_soft.getS fun _ => keepsInv_soft.bind (keepsInv_soft.openBit _ _) fun _ =>
    keepsInv_soft.bind (keepsInv_soft.openBit _ _) fun _ => keepsInv_soft.bind (keepsInv_soft.openBit _ _) fun _ =>
      keepsInv_soft.bind (keepsInv_soft.openBit _ _) fun _ => Soft.modS fun _ h => { h with }

/-- SHAD takes the aligned value or keeps its own (R38, R493). -/
theorem writeShad_inv (w : Word) : Keeps KeepsInv (writeShad w) := by
  intro s hs
  obtain ⟨l, hl, hsub⟩ : ∃ l, (if s.oldShads.isEmpty then [] else [s.shad]) = l ∧ ∀ x ∈ l, x = s.shad :=
    ⟨_, rfl, fun x hx => by split at hx <;> simp_all⟩
  have hk := keepsInv_soft.openWord (quadAlign w) l s hs
  simp only [writeShad, bind_run, getS_run, hl]
  cases e : openWord (quadAlign w) l s with
  | error y u => rw [e] at hk; exact hk
  | ok v u =>
    rw [e] at hk
    have hv : quadAlign v = v := by
      rcases List.mem_cons.1 (openWord_mem _ _ s v u e) with rfl | hv
      · exact quadAlign_quadAlign w
      · rw [hsub v hv]; exact hs.shad
    exact { hk with shad := hv }

/-- A write of a control register leaves it aligned as its own rule says (R30, R41). -/
theorem writeReg_inv (r : Reg) (v : Word) : Keeps KeepsInv (writeReg r v) := by
  have hq := quadAlign_quadAlign v
  cases r with
  | msp => exact Soft.modS fun s h => writeMsp_eq_settleMsp s _ ▸ settleMsp_inv hq h
  | isp =>
    refine Soft.modS fun s h => { h with isp := hq, shad := ?_ }
    dsimp only
    split
    · exact h.shad
    · exact hq
  | sp =>
    refine Soft.modS fun s h => { h with sp := hq, msp := hq, shad := ?_ }
    dsimp only
    split
    · exact hq
    · exact h.shad
  | psw => exact writePsw_inv v
  | shad => exact writeShad_inv v
  | vb => exact Soft.modS fun s h => { h with vb := hq }
  | stb =>
    exact Soft.modS fun s h =>
      { h with stb := by simp [BitVec.and_assoc], textTlb := Nat.zero_le _, dataTlb := Nat.zero_le _ }
  | id => exact keepsInv_soft.pure ()
  | config | fault | timer1 | timer2 => exact Soft.modS fun s h => { h with }

/-! ## Every instruction -/

/-- The flushes of text (R382 to R384): lines are marked or dropped, never moved to another set. -/
theorem flushInstrs_inv {s : State} (h : s.Inv) : s.flushInstrs.Inv :=
  { h with
    ic := fun _ => Nat.zero_le _
    pfb := fun i => by
      rw [State.flushInstrs, List.filter_map, List.length_map]
      exact h.pfb i }

/-- What each meaning does to the state of its own keeps it well formed. -/
theorem keepsInv : Program State.Inv KeepsInv where
  toSoft := keepsInv_soft
  given _ _ h hs := h hs hs
  advance _ _ hn h := { h with pc := textAddr_add h.pc hn }
  jump _ t h := { h with pc := textAddr_textAddr t }
  flags s o h := by rw [setFlags_eq]; exact { h with }
  hazard _ _ h := { h with }
  drain s := keepsInv_agents.deliver s 0
  lost _ _ h := { h with }
  settle _ h := { h with recent := (List.length_map _).trans_le h.recent }
  register _ r v _ _ := writeReg_inv r v
  pop s x h := by
    have hv := quadAlign_add (csp_aligned h) (quadAlign_quadAlign x)
    refine { setCsp_inv hv h with shad := hv, msp := ?_ }
    dsimp only [State.popTo]
    split
    · exact hv
    · exact h.msp
  flushed _ h := { h with msp := quadAlign_sub h.msp rfl }
  filled _ _ ha h := { h with msp := quadAlign_add ha.msp rfl }
  enterIsp _ v h := { h with isp := quadAlign_quadAlign v, shad := quadAlign_quadAlign v }
  enterReplace _ v h :=
    { h with sp := quadAlign_quadAlign v, msp := quadAlign_quadAlign v, shad := quadAlign_quadAlign v }
  enterAt a s v m ha hm h := by
    have hm : quadAlign m = m := by
      rcases hm with rfl | rfl
      · exact quadAlign_add (quadAlign_quadAlign v) rfl
      · exact ha.msp
    exact { lowerSp_inv (quadAlign v) m h with sp := quadAlign_quadAlign v, msp := hm, shad := quadAlign_quadAlign v }
  flushInstrs _ h := flushInstrs_inv h
  flushLines _ _ h := { h with pfb := fun i => filter_bound (h.pfb i) }
  flushPage _ _ h :=
    { h with
      textTlb := le_trans (List.length_filter_le _ _) h.textTlb
      dataTlb := le_trans (List.length_filter_le _ _) h.dataTlb }
  trap _ t h := { h with pc := textAddr_textAddr t }

/-! ## Event sequences (60_exceptions.md R403, R410, R420) -/

/-- The frame and the vector: ISP falls by the frame's 16 bytes. -/
theorem eventFrame_inv (ident : Option Word) (epc vec : Word) : Keeps KeepsInv (eventFrame ident epc vec) := by
  refine eventFrame_keeps keepsInv_soft (fun s h => ?_) (fun s t h => { h with pc := textAddr_textAddr t }) ident epc vec
  have hi : quadAlign (s.isp - 16) = s.isp - 16 := quadAlign_sub h.isp rfl
  exact { h with isp := hi, shad := hi }

/-- The stores drained and CSP restored from SHAD (R410, R420). -/
theorem beginEvent_inv {s : State} (h : s.Inv) : s.beginEvent.Inv := by
  have hd := keepsInv.drain s h
  have hc : ∀ {u : State}, u.Inv → ({ u.setCsp u.shad with recent := [], hazard := {} } : State).Inv :=
    fun hu => { setCsp_inv hu.shad hu with recent := Nat.zero_le _ }
  unfold State.beginEvent
  dsimp only
  split
  · exact hc (lowerSp_inv _ _ hd)
  · exact hc hd

theorem noteFault_inv {s : State} (e : Exc) (h : s.Inv) : (e.noteFault s).Inv := by
  cases e <;> exact { h with }

theorem exceptionSequence_inv (e : Exc) (epc : Word) : Keeps KeepsInv (exceptionSequence e epc) :=
  keepsInv.bind keepsInv.others fun _ =>
    keepsInv.bind (Soft.modS fun _ h => { beginEvent_inv (noteFault_inv e h) with }) fun _ => eventFrame_inv _ _ _

theorem interruptSequence_inv (vec : Word) : Keeps KeepsInv (interruptSequence vec) :=
  keepsInv.bind keepsInv.others fun _ => keepsInv.bind keepsInv.getS fun _ =>
    keepsInv.bind (Soft.modS fun _ h => beginEvent_inv h) fun _ => eventFrame_inv _ _ _

/-- KCALL's sequence (R310). -/
theorem kernelCall_inv (v next : Word) : Keeps KeepsInv (kernelCall v next) :=
  keepsInv.bind keepsInv.others fun _ => keepsInv.bind keepsInv.modDrain fun _ => keepsInv.bind keepsInv.getS fun _ =>
    keepsInv.bind (eventFrame_inv _ _ _) fun _ => Soft.modS fun t h => keepsInv.hazard t _ h

theorem kcallM_inv (k : Prefix) (f : Monadic (BitVec 10) WordMode) : Keeps KeepsInv (kcallM k f) := by
  refine keepsInv.bind keepsInv.getS fun s => ?_
  cases f with
  | illegal m => exact keepsInv.raise _
  | p1 g => exact kernelCall_inv _ _
  | p3 m x => exact keepsInv.bind (keepsInv.wordValue _ _ _ _) fun _ => kernelCall_inv _ _

/-- What KRET and CRET load (R312, R298): ISP rises by the frame's 16 bytes, SHAD is the pointer that PSW then selects. -/
theorem restore_inv {s : State} (p : Psw) (t : Word) (h : s.Inv) : (s.restore p t).Inv := by
  have hi : quadAlign (s.isp + 16) = s.isp + 16 := quadAlign_add h.isp rfl
  refine { h with isp := hi, pc := textAddr_textAddr t, shad := ?_ }
  dsimp only [State.restore]
  split
  · exact h.sp
  · exact hi

theorem frameRead_inv (lv : Level) (a : Word) : Keeps KeepsInv (guardReset (memReadW lv a)) :=
  Soft.guardReset (keepsInv.memReadW lv a)

theorem kernelReturn_inv : Keeps KeepsInv kernelReturn :=
  keepsInv.bind keepsInv.getS fun _ => keepsInv.bind (keepsInv.raiseIf _ _) fun _ =>
    keepsInv.bind (frameRead_inv _ _) fun _ => keepsInv.bind (frameRead_inv _ _) fun _ =>
      keepsInv.bind keepsInv.others fun _ => Soft.modS fun _ h => keepsInv.drain _ (restore_inv _ _ h)

theorem contextReturn_inv : Keeps KeepsInv contextReturn := by
  have switch {s : State} (v : Word) (h : s.Inv) : (s.switchStack (quadAlign v)).Inv :=
    { h with sp := quadAlign_quadAlign v, msp := quadAlign_quadAlign v }
  exact keepsInv.bind keepsInv.getS fun _ => keepsInv.bind (keepsInv.raiseIf _ _) fun _ =>
    keepsInv.bind (keepsInv.refuseIf _ _) fun _ => keepsInv.bind (frameRead_inv _ _) fun _ =>
      keepsInv.bind (frameRead_inv _ _) fun m => keepsInv.bind (frameRead_inv _ _) fun _ =>
        keepsInv.bind (frameRead_inv _ _) fun _ => keepsInv.bind (Soft.modS fun _ h => switch _ h) fun _ =>
          keeps_when keepsInv_soft (keepsInv.whileM (keepsInv.fillQuad _) _) fun _ => keepsInv.bind keepsInv.others fun _ =>
            Soft.modS fun _ h => keepsInv.drain _ (restore_inv _ _ (settleMsp_inv (quadAlign_quadAlign m) h))

/-- Every instruction. -/
theorem meaning_inv (i : Instr) : Keeps KeepsInv (meaning i) := by
  cases hi : untraceable i with
  | false => exact keepsInv.keeps_meaning hi
  | true =>
    cases i with
    | kcall f => exact kcallM_inv .none f
    | kret => exact kernelReturn_inv
    | cret => exact contextReturn_inv
    | cpu b =>
      cases b with
      | word op f =>
        cases op with
        | kcall => exact kcallM_inv .cpu _
        | _ => cases hi
      | _ => cases hi
    | _ => cases hi

/-! ## Resets and the end of a computation (70_reset_and_hazards.md R480, R481) -/

theorem resetCore_inv {s : State} (h : s.Inv) : s.resetCore.Inv :=
  { h with
    pc := show textAddr 0 = 0 from rfl
    textTlb := Nat.zero_le _
    dataTlb := Nat.zero_le _
    pfb := fun _ => Nat.zero_le _
    ic := fun _ => Nat.zero_le _
    recent := Nat.zero_le _ }

theorem internalReset_inv {s : State} (h : s.Inv) : s.internalReset.Inv :=
  { resetCore_inv h with shad := quadAlign_quadAlign _ }

theorem externalReset_inv {s : State} (h : s.Inv) : s.externalReset.Inv :=
  { resetCore_inv h with
    shad := show quadAlign 0 = 0 from rfl
    storeBuf := fun b hb => absurd hb List.not_mem_nil
    sp := quadAlign_quadAlign _
    msp := quadAlign_quadAlign _
    isp := quadAlign_quadAlign _
    vb := quadAlign_quadAlign _
    stb := by simp [State.externalReset, BitVec.and_assoc] }

theorem finish_inv {r : EStateM.Result Stop State α} {t : State} (h : finish r = .next t) (hr : (final r).Inv) : t.Inv := by
  cases r with
  | ok a u => cases h; exact hr
  | error e u =>
    cases e with
    | exc e => cases h; exact internalReset_inv hr
    | reset => cases h; exact internalReset_inv hr
    | refused r => cases h
    | fault f => cases h

theorem exec_inv {i : Instr} {s t : State} (h : exec i s = .next t) (hs : s.Inv) : t.Inv := by
  have hm := meaning_inv i s hs
  rw [exec_eq_run, run] at h
  cases e : meaning i s with
  | ok a u => rw [e] at h hm; exact finish_inv h hm
  | error x u =>
    rw [e] at h hm
    cases x with
    | exc x => exact finish_inv h (exceptionSequence_inv x u.pc u hm)
    | reset | refused r | fault f => exact finish_inv h hm

/-! ## The parts of a step (60_exceptions.md R435, R436) -/

theorem fetch_inv : Keeps KeepsInv fetch :=
  keepsInv.fetch (fun _ h => { h with }) keepsInv_agents.line keepsInv_agents.instr

theorem openBoundary_inv {s : State} (h : s.Inv) : s.openBoundary.Inv := by
  refine keepsInv_agents.acts _ _ ?_
  unfold State.dropText
  split
  · exact { h with }
  · exact { h with pfb := fun _ => Nat.zero_le _, ic := fun _ => Nat.zero_le _ }

theorem answer_inv {s : State} (r : Request) (h : s.Inv) : (s.answer r).Inv := by
  cases r <;> exact { h with }

theorem tickTimers_inv {s : State} (old : State) (b : Bool) (h : s.Inv) : (s.tickTimers old b).Inv := { h with }

theorem pushHazard_inv {s : State} (h : s.Inv) : s.pushHazard.Inv := by
  unfold State.pushHazard
  split
  · exact h
  · exact h
  · exact { h with recent := List.length_take_le _ _ }

theorem closeStep_inv {s : State} (h : s.Inv) : s.closeStep.Inv := { keepsInv_agents.deliver s _ h with }

theorem retireEvent_inv {s : State} (old : State) (h : s.Inv) : (s.retireEvent old).Inv :=
  closeStep_inv (tickTimers_inv old false h)

theorem foldNext_inv {s t : State} {i : Instr} {ti : Bool} (hs : s.Inv) (h : s.foldNext i ti = some t) : t.Inv := by
  have hf := fetch_inv s hs
  unfold State.foldNext at h
  split at h
  · cases e : fetch s with
    | ok j u =>
      rw [e] at h hf
      obtain ⟨p, -, rfl⟩ := Option.map_eq_some_iff.1 h
      exact { hf with }
    | error x u => rw [e] at h; cases h
  · cases h

theorem retire_inv {s : State} (old : State) (i : Instr) (pair : Option Bool) (h : s.Inv) : (s.retire old i pair).Inv := by
  have fold {u : State} (b : Bool) (ti : Bool) (hu : u.Inv) : ((if b then u.foldNext i ti else none).getD u).Inv := by
    cases e : (if b then u.foldNext i ti else none) with
    | none => exact hu
    | some v =>
      cases b with
      | false => cases e
      | true => exact foldNext_inv hu e
  exact closeStep_inv (fold _ _ { pushHazard_inv (tickTimers_inv old _ h) with })

theorem eventStep_inv {m : M Unit} (hm : Keeps KeepsInv m) {s t : State} (h : eventStep m s = .next t) (hs : s.Inv) : t.Inv := by
  obtain ⟨u, hu, rfl⟩ := mapNext_eq_next h
  exact retireEvent_inv s (finish_inv hu (hm s hs))

theorem fetchStep_inv {e : Exc} {old s t : State} (hs : s.Inv) (h : fetchStep e old s = .next t) : t.Inv := by
  unfold fetchStep at h
  cases o : finish (exceptionSequence e s.pc s) with
  | next u =>
    rw [o] at h
    dsimp only at h
    split at h
    · cases h
    · cases h; exact retireEvent_inv s (finish_inv o (exceptionSequence_inv e s.pc s hs))
  | fault r => rw [o] at h; cases h
  | refused r => rw [o] at h; cases h

/-- An instruction and the end of its step. -/
theorem execStep_inv {i : Instr} {s old t : State} {pair : Option Bool} (hs : s.Inv)
    (h : mapNext (fun t => t.retire old i pair) (exec i { s with hazard := {}, event := .none }) = .next t) : t.Inv := by
  obtain ⟨u, hu, rfl⟩ := mapNext_eq_next h
  exact retire_inv old i pair (exec_inv hu { hs with })

theorem instrStep_inv {s t : State} (hs : s.Inv) (h : instrStep s = .next t) : t.Inv := by
  have hf := fetch_inv s hs
  unfold instrStep at h
  cases e : fetch s with
  | ok i u => rw [e] at h hf; exact execStep_inv hf h
  | error x u =>
    rw [e] at h hf
    cases x with
    | exc x => exact fetchStep_inv hf h
    | reset | refused r | fault f => exact finish_inv h hf

/-- A step in which no reset is asserted and no folded jump waits: a request, a due trace exception, a lost store, or an
instruction. -/
theorem boundaryStep_inv {s t : State} (hr : s.cur.hreset = false) (hf : s.folded = none) (hs : s.Inv)
    (h : stepOnce s = .next t) : t.Inv := by
  have ho := openBoundary_inv hs
  simp only [stepOnce, hr, hf, Bool.false_eq_true, if_false] at h
  split at h
  · rename_i r _
    exact eventStep_inv (interruptSequence_inv _) h (answer_inv r ho)
  · split at h
    · exact eventStep_inv (exceptionSequence_inv _ _) h { ho with }
    · split at h
      · exact eventStep_inv (exceptionSequence_inv _ _) h { ho with }
      · exact instrStep_inv ho h

/-- Settles O5: a step is HRESET, a folded jump, or what a boundary leads to, and each keeps a well-formed state well formed. -/
theorem stepKeepsInv : Obligations.StepKeepsInv := by
  intro s t hs h
  cases hr : s.cur.hreset with
  | true =>
    simp only [step, stepOnce, hr, if_true] at h
    cases h
    exact { externalReset_inv (s := s.sampleLines) { hs with } with }
  | false =>
    cases hf : s.folded with
    | none => exact boundaryStep_inv hr hf hs h
    | some j =>
      simp only [step, stepOnce, hr, hf, Bool.false_eq_true, if_false] at h
      exact execStep_inv (s := { s.sampleLines with folded := none }) { hs with } h

/-- Settles O6: at reset every pointer is zero, every cache and the store buffer are empty. -/
theorem resetInv : Obligations.ResetInv where
  mem := reset_memory_wf
  pc := rfl
  sp := rfl
  msp := rfl
  isp := rfl
  shad := rfl
  vb := rfl
  stb := rfl
  textTlb := Nat.zero_le _
  dataTlb := Nat.zero_le _
  pfb _ := Nat.zero_le _
  ic _ := Nat.zero_le _
  storeBuf _ hb := absurd hb List.not_mem_nil
  recent := Nat.zero_le _

end Sys2Proof.Proofs
end

section
/-! PROOF. User level changes no privileged register and only four bits of PSW (10_state.md R36, R44, R46). At user level a checked
destination is no register, so `Program` applies with a relation that a write of a register would break. -/

namespace Sys2Proof.Proofs

open Sys2Proof.Machine Sys2Proof.Laws

variable {α : Type} {R : State → State → Prop}

/-! ## The protected state -/

/-- What no instruction may change at user level: the registers but the stack pointers and SHAD, and PSW with E, V, C and F
blanked. -/
def protectedPart (s : State) : Cfg × Word × Word × Word × Word × Word × Psw :=
  (s.config, s.vb, s.stb, s.fault, s.timer1, s.timer2, { s.psw with e := false, v := false, c := false, f := false })

/-- From user level on, the protected state is the same before and after. -/
def UserKeeps (s t : State) : Prop := s.psw.x = true → protectedPart t = protectedPart s

/-- The level is part of the protected state. -/
theorem level_of_protectedPart {s t : State} (h : protectedPart t = protectedPart s) : t.psw.x = s.psw.x :=
  (congrArg (fun p => p.2.2.2.2.2.2.x) h :)

/-- What only the program and its events change holds the protected state. -/
theorem userKeeps_of_ownPart {s t : State} (h : ownPart t = ownPart s) : UserKeeps s t :=
  fun _ => (congrArg protectedPart h :)

/-- The memory system, other agents and the prefetch unit leave the protected state alone. -/
theorem userKeeps_soft : Soft UserKeeps where
  refl _ _ := rfl
  trans _ _ _ h1 h2 hx := (h2 ((level_of_protectedPart (h1 hx)).trans hx)).trans (h1 hx)
  draw _ _ _ := rfl
  mem _ _ _ _ _ := rfl
  tlb s k e := userKeeps_of_ownPart (own_agents.tlb s k e)
  npsr s k n := userKeeps_of_ownPart (own_agents.npsr s k n)
  block _ _ _ _ := rfl
  sc _ _ _ _ _ := rfl
  act s x := userKeeps_of_ownPart (act_own s x)
  between s l _ := by rw [setBetween_eq]; rfl
  underConfig s t c h hx := by
    have h : protectedPart t = protectedPart { s with config := c } := h hx
    simp only [protectedPart, Prod.mk.injEq, true_and] at h ⊢
    exact h.2

theorem setFlags_protected (s : State) (o : FlagOut) : protectedPart (s.setFlags o) = protectedPart s := by
  unfold State.setFlags; split <;> rfl

/-- No meaning changes the protected state of its own at user level. -/
theorem userKeeps : Program (fun s => s.psw.x = true) UserKeeps where
  toSoft := userKeeps_soft
  given _ _ h hx := h hx hx
  advance _ _ _ _ := rfl
  jump _ _ _ := rfl
  flags s o _ := setFlags_protected s o
  hazard _ _ _ := rfl
  drain s _ := by rw [drainAll_eq]; rfl
  lost _ _ _ := rfl
  settle _ _ := rfl
  register a r v hx hk := by rw [hx] at hk; cases hk
  pop s x _ := by unfold State.popTo; rw [setCsp_eq]; rfl
  flushed _ _ := rfl
  filled _ _ _ _ := rfl
  enterIsp _ _ _ := rfl
  enterReplace _ _ _ := rfl
  enterAt a s v m _ _ _ := by unfold State.enterAt; rw [lowerSp_eq]; rfl
  flushInstrs _ _ := rfl
  flushLines _ _ _ := rfl
  flushPage _ _ _ := rfl
  trap _ _ _ := rfl

/-! ## Exceptions and resets are no completion -/

/-- The vector base and the kind of event are the same before and after. -/
def SameEvent (s t : State) : Prop := t.vb = s.vb ∧ t.event = s.event

theorem sameEvent_of_ownPart {s t : State} (h : ownPart t = ownPart s) : SameEvent s t :=
  ⟨(congrArg State.vb h :), (congrArg State.event h :)⟩

/-- The memory system, other agents and the prefetch unit leave both alone. -/
theorem sameEvent : Soft SameEvent where
  refl _ := ⟨rfl, rfl⟩
  trans _ _ _ h1 h2 := ⟨h2.1.trans h1.1, h2.2.trans h1.2⟩
  draw _ _ := ⟨rfl, rfl⟩
  mem _ _ _ _ := ⟨rfl, rfl⟩
  tlb s k e := sameEvent_of_ownPart (own_agents.tlb s k e)
  npsr s k n := sameEvent_of_ownPart (own_agents.npsr s k n)
  block _ _ _ := ⟨rfl, rfl⟩
  sc _ _ _ _ := ⟨rfl, rfl⟩
  act s x := sameEvent_of_ownPart (act_own s x)
  between s l := by rw [setBetween_eq]; exact ⟨rfl, rfl⟩
  underConfig _ _ _ h := h

/-- So does the frame of an event (R403). -/
theorem eventFrame_event (ident : Option Word) (epc vec : Word) : Keeps SameEvent (eventFrame ident epc vec) :=
  eventFrame_keeps sameEvent (fun _ => ⟨rfl, rfl⟩) (fun _ _ => ⟨rfl, rfl⟩) ident epc vec

theorem beginEvent_vb (s : State) : s.beginEvent.vb = s.vb := by
  unfold State.beginEvent; dsimp only; split <;> simp

theorem noteFault_vb (e : Exc) (s : State) : (e.noteFault s).vb = s.vb := by
  cases e <;> rfl

/-- An exception that is taken says so, and leaves the vector base (R420). -/
theorem exceptionSequence_event {e : Exc} {epc : Word} {s t : State} (h : exceptionSequence e epc s = .ok () t) :
    t.vb = s.vb ∧ t.event = .exception := by
  have ho := sameEvent.others s
  simp only [exceptionSequence, bind_run, others_modS, modS_run] at h ho
  have hf := eventFrame_event (some e.id) epc 4 { (e.noteFault s.others).beginEvent with event := .exception }
  rw [h] at hf
  exact ⟨hf.1.trans ((beginEvent_vb _).trans ((noteFault_vb e _).trans ho.1)), hf.2⟩

/-- An instruction that ends in neither an exception nor a reset has completed. -/
theorem completed_of_run {m : M Unit} {s t : State} (h : run m s = .next t) (he : t.event ≠ .exception)
    (hr : t.event ≠ .reset) : m s = .ok () t := by
  unfold run at h
  cases e : m s with
  | ok a u => rw [e] at h; cases h; rfl
  | error x u =>
    rw [e] at h
    cases x with
    | exc x =>
      dsimp only at h
      cases ex : exceptionSequence x u.pc u with
      | ok a v => rw [ex] at h; cases h; exact absurd (exceptionSequence_event ex).2 he
      | error y v =>
        rw [ex] at h
        cases y with
        | exc y | reset => cases h; exact absurd rfl hr
        | refused r | fault f => cases h
    | reset => cases h; exact absurd rfl hr
    | refused r | fault f => cases h

/-- Two PSW that agree but for E, V, C and F. -/
theorem psw_eq_of_blanked {p q : Psw}
    (h : { p with e := false, v := false, c := false, f := false } = { q with e := false, v := false, c := false, f := false }) :
    p = { q with e := p.e, v := p.v, c := p.c, f := p.f } := by
  cases p; cases q; simpa using h

/-- Settles O8: an instruction that completes is its meaning, run from user level. -/
theorem userKeepsControl : Obligations.UserKeepsControl := by
  intro i s t hx hi h he hr
  rw [exec_eq_run] at h
  have hk := userKeeps.keeps_meaning hi s hx
  rw [completed_of_run h he hr, final_ok] at hk
  simp only [protectedPart, Prod.mk.injEq] at hk
  obtain ⟨hc, hvb, hstb, hf, h1, h2, hp⟩ := hk
  exact ⟨hc, hvb, hstb, hf, h1, h2, psw_eq_of_blanked hp⟩

end Sys2Proof.Proofs
end

section
/-! PROOF. The instructions that write the accumulator (10_state.md R25; 40_arithmetic.md R201, R202, R214; 45_shift.md R346): one
table of their operations, the arithmetic of the spec for each, and what they leave alone. -/

namespace Sys2Proof.Proofs

open Sys2Proof.Machine Sys2Proof.Laws

/-! ## Their operations -/

/-- The operation of an instruction whose result goes to the accumulator. -/
def accAlu : DyOp → Option (Word → Word → AluOut)
  | .add3 => some aluAdd
  | .sub3 => some aluSub
  | .mul3 => some aluMul
  | .div3 => some aluDiv
  | .rem3 => some aluRem
  | .and3 => some (aluOf (· &&& ·))
  | .or3 => some (aluOf (· ||| ·))
  | .xor3 => some (aluOf (· ^^^ ·))
  | .shl3 => some (aluShift shlWord)
  | .shr3 => some (aluShift shrWord)
  | .ushr3 => some (aluShift ushrWord)
  | _ => none

theorem dyadicM_acc {op : DyOp} {alu : Word → Word → AluOut} (h : accAlu op = some alu) (k : Prefix) (f : Dyadic) :
    dyadicM op k f = dyadicToAcc op k f alu := by
  cases op <;> cases h <;> rfl

theorem lateFor_accAlu {op : DyOp} {alu : Word → Word → AluOut} (h : accAlu op = some alu) (da : Arg) :
    lateFor op da = lateOp op 4 := by
  cases op <;> cases h <;> rfl

/-- The next state of an instruction that writes the accumulator, its divisor not zero. -/
theorem exec_acc {op : DyOp} {alu : Word → Word → AluOut} (h : accAlu op = some alu) {k : Prefix} {f : Dyadic} {s : State}
    {a b : Word} {d : Opd} {p : Slot} (hr : AccReady op k f s a b d p) (hz : (alu a b).zdiv = false) :
    exec (dyadicInstr k op f) s =
      .next { ((s.commit p (alu a b).val).setFlags (alu a b).flags).noteWide op d (alu a b).val with
        pc := s.pc + (k.len + f.len) } := by
  obtain ⟨hc, hf, h2, hs, hd, hb, hp⟩ := hr
  rw [exec_dyadicInstr, dyadicM_acc h]
  exact run_ok (dyadicToAcc_ok hc hf h2 hs hd hb hp hz (lateFor_accAlu h _))

/-- An instruction writes what its operation makes of the operands. -/
theorem writesAcc_of_alu {op : DyOp} {alu : Word → Word → AluOut} {val : Word → Word → Word} {fl : Word → Word → FlagOut}
    {ok : Word → Prop} (h : accAlu op = some alu) (ha : ∀ a b, ok a → alu a b = { val := val a b, flags := fl a b }) :
    WritesAcc op val fl ok := by
  intro k f s a b d p hr hok
  have hab := ha a b hok
  rw [exec_acc h hr (by rw [hab]), hab]

/-! ## The arithmetic of the spec (R202, R214) -/

theorem signedOut_eq (n : Int) : signedOut n = decide (n < -2147483648 ∨ 2147483647 < n) := by
  simp only [signedOut, decide_eq_decide]
  omega

theorem unsignedOut_natCast (n : Nat) : unsignedOut (n : Int) = decide (0xFFFFFFFF < n) := by
  simp only [unsignedOut, decide_eq_decide]
  omega

theorem addC_eq (a b : Word) : addC a b = decide (0xFFFFFFFF < a.toNat + b.toNat) := by
  rw [addC, ← Int.natCast_add, unsignedOut_natCast]

theorem mulC_eq (a b : Word) : mulC a b = decide (0xFFFFFFFF < a.toNat * b.toNat) := by
  rw [mulC, ← Int.natCast_mul, unsignedOut_natCast]

/-- The borrow of `b - a`. -/
theorem subC_eq (a b : Word) : subC a b = decide (b.toNat < a.toNat) := by
  have hb := b.isLt
  simp only [subC, unsignedOut, decide_eq_decide]
  omega

/-- The one quotient that does not fit a word is 2^31 (R214). -/
theorem divV_eq {a b : Word} (ha : a ≠ 0) : divV a b = decide (b = 0x80000000#32 ∧ a = 0xFFFFFFFF#32) := by
  have ha0 : a.toInt ≠ 0 := fun h => ha (BitVec.eq_of_toInt_eq h)
  have hb1 : -2147483648 ≤ b.toInt := BitVec.le_toInt b
  have hb2 : b.toInt < 2147483648 := BitVec.toInt_lt
  have eqb : b = 0x80000000#32 ↔ b.toInt = -2147483648 := by rw [← BitVec.toInt_inj]; rfl
  have eqa : a = 0xFFFFFFFF#32 ↔ a.toInt = -1 := by rw [← BitVec.toInt_inj]; rfl
  rw [divV, signedOut_eq, decide_eq_decide, eqb, eqa]
  generalize a.toInt = x at ha0
  generalize b.toInt = y at hb1 hb2
  by_cases hx : x = -1
  · subst hx
    rw [show y.tdiv (-1) = -y by simp [Int.tdiv_neg]]
    omega
  · have bound : (y.tdiv x).natAbs ≤ y.natAbs := by
      rw [Int.natAbs_tdiv]
      exact Nat.div_le_self _ _
    have one : x = 1 → y.tdiv x = y := by rintro rfl; exact Int.tdiv_one y
    have half : x ≠ 1 → (y.tdiv x).natAbs ≤ y.natAbs / 2 := fun h1 => by
      rw [Int.natAbs_tdiv]
      exact Nat.div_le_div_left (by omega) (by decide)
    by_cases h1 : x = 1
    · rw [one h1]; omega
    · have := half h1; omega

/-- What the quotient leaves is the remainder of the dividend's sign (R214, D4). -/
theorem sremWord_eq (a b : Word) : sremWord a b = BitVec.ofInt 32 (b.toInt.tmod a.toInt) := by
  rw [sremWord, sdivWord, Int.tmod_def, Int.sub_eq_add_neg, BitVec.ofInt_add, BitVec.ofInt_neg, BitVec.ofInt_mul, BitVec.ofInt_toInt,
    BitVec.ofInt_toInt, BitVec.mul_comm, BitVec.sub_eq_add_neg]

/-! ## The shifts (R346) -/

theorem shlWord_eq (a b : Word) : shlWord a b = BitVec.ofNat 32 (b.toNat * 2 ^ (a.toNat % 32)) := by
  apply BitVec.eq_of_toNat_eq
  rw [shlWord, shiftCount, BitVec.toNat_shiftLeft, Nat.shiftLeft_eq, BitVec.toNat_ofNat]

theorem shrWord_eq (a b : Word) : shrWord a b = BitVec.ofInt 32 (b.toInt / 2 ^ (a.toNat % 32)) := by
  rw [shrWord, shiftCount, BitVec.sshiftRight, Int.shiftRight_eq_div_pow]
  rfl

theorem ushrWord_eq (a b : Word) : ushrWord a b = BitVec.ofNat 32 (b.toNat / 2 ^ (a.toNat % 32)) := by
  apply BitVec.eq_of_toNat_eq
  rw [ushrWord, shiftCount, BitVec.toNat_ushiftRight, Nat.shiftRight_eq_div_pow, BitVec.toNat_ofNat]
  exact (Nat.mod_eq_of_lt (Nat.lt_of_le_of_lt (Nat.div_le_self _ _) b.isLt)).symm

/-! ## The results -/

/-- Settles O21: each operation is the spec's, with its flags. -/
theorem accumulatorArithmetic : Obligations.AccumulatorArithmetic := by
  refine ⟨writesAcc_of_alu (alu := aluAdd) rfl fun a b _ => ?_, writesAcc_of_alu (alu := aluSub) rfl fun a b _ => ?_,
    writesAcc_of_alu (alu := aluMul) rfl fun a b _ => ?_, writesAcc_of_alu (alu := aluDiv) rfl fun a b ha => ?_,
    writesAcc_of_alu (alu := aluRem) rfl fun a b ha => ?_⟩
  · rw [aluAdd, addV, signedOut_eq, addC_eq]
  · rw [aluSub, subV, signedOut_eq, subC_eq]
  · rw [aluMul, mulV, signedOut_eq, mulC_eq]
  · rw [aluDiv, divV_eq ha, sdivWord, beq_false_of_ne ha]
  · rw [aluRem, sremWord_eq, beq_false_of_ne ha]

/-- Settles O22: the bitwise operations as they are, the shifts as products and quotients by a power of two. -/
theorem accumulatorLogicShift : Obligations.AccumulatorLogicShift :=
  ⟨writesAcc_of_alu (alu := aluOf (· &&& ·)) rfl fun _ _ _ => rfl,
    writesAcc_of_alu (alu := aluOf (· ||| ·)) rfl fun _ _ _ => rfl,
    writesAcc_of_alu (alu := aluOf (· ^^^ ·)) rfl fun _ _ _ => rfl,
    writesAcc_of_alu (alu := aluShift shlWord) rfl fun a b _ => by rw [aluShift, shlWord_eq],
    writesAcc_of_alu (alu := aluShift shrWord) rfl fun a b _ => by rw [aluShift, shrWord_eq],
    writesAcc_of_alu (alu := aluShift ushrWord) rfl fun a b _ => by rw [aluShift, ushrWord_eq]⟩

/-! ## What they leave alone -/

/-- PSW after an instruction's flags are written (R46). -/
theorem setFlags_psw (s : State) (o : FlagOut) : (s.setFlags o).psw = s.psw.setFlags o := by
  unfold State.setFlags
  split
  · rfl
  · rename_i h
    obtain ⟨v, c, f, e⟩ := o
    simp only [FlagOut.any, Bool.or_eq_true, not_or, Bool.not_eq_true, Option.isSome_eq_false_iff, Option.isNone_iff_eq_none] at h
    obtain ⟨⟨⟨rfl, rfl⟩, rfl⟩, rfl⟩ := h
    rfl

/-- The flags an operation leaves: F and E always, V and C where the spec does not name them. -/
theorem accAlu_flags {op : DyOp} {alu : Word → Word → AluOut} (h : accAlu op = some alu) (a b : Word) :
    (alu a b).flags.f = none ∧ (alu a b).flags.e = none ∧
      (op ∈ [.and3, .or3, .xor3, .shl3, .shr3, .ushr3] → (alu a b).flags.v = none) ∧
      (op ∈ [.div3, .rem3, .and3, .or3, .xor3, .shl3, .shr3, .ushr3] → (alu a b).flags.c = none) := by
  cases op <;> cases h <;> simp [aluAdd, aluSub, aluMul, aluDiv, aluRem, aluOf, aluShift]

/-- Only a division raises for its divisor (R208). -/
theorem accAlu_zdiv {op : DyOp} {alu : Word → Word → AluOut} (h : accAlu op = some alu) {a : Word}
    (ha : op ∈ [.div3, .rem3] → a ≠ 0) (b : Word) : (alu a b).zdiv = false := by
  cases op <;> cases h
  case div3 | rem3 => exact beq_false_of_ne (ha (by decide))
  all_goals rfl

theorem accAlu_isSome {op : DyOp}
    (h : op ∈ [.add3, .sub3, .mul3, .div3, .rem3, .and3, .or3, .xor3, .shl3, .shr3, .ushr3]) : ∃ alu, accAlu op = some alu := by
  rw [← Option.isSome_iff_exists]
  revert op
  decide

/-- Settles O24: the next state is the old one with the slot, PSW, the hazard and PC written. -/
theorem accumulatorFrame : Obligations.AccumulatorFrame := by
  intro op k f s t a b d p hop hr hz h
  obtain ⟨alu, halu⟩ := accAlu_isSome hop
  rw [exec_acc halu hr (accAlu_zdiv halu hz b)] at h
  cases h
  obtain ⟨hf, he, hv, hc⟩ := accAlu_flags halu a b
  obtain ⟨out, hout⟩ : ∃ out, alu a b = out := ⟨_, rfl⟩
  rw [hout] at hf he hv hc ⊢
  refine ⟨⟨fun q hq => ?_, fun i hi => ?_⟩, by simp [sameRegs], by simp [sameHidden], by simp, ?_, fun ho => ?_, fun ho => ?_⟩
  · exact (physByte_congr (by simp) (by simp) q).trans (commit_physByte out.val hq)
  · exact Eq.trans (by simp) (commit_sc out.val hi)
  · simp [setFlags_psw, Psw.setFlags, hf, he]
  · simp [setFlags_psw, Psw.setFlags, hv ho]
  · simp [setFlags_psw, Psw.setFlags, hc ho]

end Sys2Proof.Proofs
end

section
/-! PROOF. The instructions that write a control register (10_state.md R30, R39, R41, R44, R46; 43_move.md R261): a register write
changes that register and what the spec ties to it, and the instruction adds its flags; ADDI, ANDI and ORI add the word of the
accumulator, drained to memory (R203, R108). -/

namespace Sys2Proof.Proofs

open Sys2Proof.Machine Sys2Proof.Laws

/-! ## A register written -/

theorem setReg_sc {r : Reg} (hr : r ≠ .msp) (s : State) (v : Word) : (s.setReg r v).sc = s.sc := by
  cases r <;> first | rfl | exact absurd rfl hr

theorem setReg_psw {r : Reg} (hr : r ≠ .psw) (s : State) (v : Word) : (s.setReg r v).psw = s.psw := by
  cases r with
  | psw => exact absurd rfl hr
  | msp => unfold State.setReg State.writeMsp; dsimp only; split <;> simp
  | _ => rfl

/-- A write of MSP changes MSP, the words it brings into the range, and the values drawn (R35, R90). -/
theorem writeMsp_eq (s : State) (v : Word) :
    s.writeMsp v = { s with msp := v, sc := (s.writeMsp v).sc, draw := (s.writeMsp v).draw } := by
  unfold State.writeMsp
  dsimp only
  split
  · rw [scForget_eq]
  · rfl

/-- A register written leaves every other one (R44), SP, ISP and STB with what they carry (R38, R39, R41). -/
theorem setReg_sameButReg (s : State) (r : Reg) (v : Word) : sameButReg r s (s.setReg r v) := by
  cases r with
  | msp => rw [State.setReg, writeMsp_eq]; simp [sameButReg]
  | sp => cases h : s.psw.s <;> simp [sameButReg, State.setReg, h]
  | isp => cases h : s.psw.s <;> simp [sameButReg, State.setReg, h]
  | config | psw | shad | vb | stb | fault | id | timer1 | timer2 => simp [sameButReg, State.setReg]

/-! ## Flags before and after the register -/

theorem setFlags_stack (s : State) (o : FlagOut) : (s.setFlags o).psw.s = s.psw.s := by
  rw [setFlags_psw]; rfl

/-- With the flags before or after it, the register's write leaves the same. -/
theorem aluState_sameButReg (s : State) (r : Reg) (out : AluOut) : sameButReg r s (aluState s (.reg r) out) := by
  have before := setReg_sameButReg (s.setFlags out.flags) r out.val
  have after := setReg_sameButReg s r out.val
  unfold aluState
  cases out.flagsFirst <;> cases out.store <;> simp [sameButReg, State.put, setFlags_stack] at before after ⊢
  · exact after
  · exact before

theorem aluState_memory (s : State) (r : Reg) (out : AluOut) :
    (aluState s (.reg r) out).mem = s.mem ∧ (aluState s (.reg r) out).storeBuf = s.storeBuf := by
  unfold aluState
  cases out.flagsFirst <;> cases out.store <;> simp [State.put]

theorem aluState_sc {r : Reg} (hr : r ≠ .msp) (s : State) (out : AluOut) : (aluState s (.reg r) out).sc = s.sc := by
  unfold aluState
  cases out.flagsFirst <;> cases out.store <;> simp [State.put, setReg_sc hr]

theorem aluState_psw {r : Reg} (hr : r ≠ .psw) (s : State) (out : AluOut) :
    (aluState s (.reg r) out).psw = s.psw.setFlags out.flags := by
  unfold aluState
  cases out.flagsFirst <;> cases out.store <;> simp [State.put, setReg_psw hr, setFlags_psw]

/-! ## The instructions whose result goes to their destination -/

/-- The operation of an instruction whose result goes to its destination. -/
def dstAlu : DyOp → Option (Word → Word → AluOut)
  | .add => some aluAdd
  | .sub => some aluSub
  | .mul => some aluMul
  | .div => some aluDiv
  | .rem => some aluRem
  | .udiv => some aluUdiv
  | .urem => some aluUrem
  | .and => some (aluOf (· &&& ·))
  | .or => some (aluOf (· ||| ·))
  | .xor => some (aluOf (· ^^^ ·))
  | .shl => some (aluShift shlWord)
  | .shr => some (aluShift shrWord)
  | .ushr => some (aluShift ushrWord)
  | .tadd => some (aluTagged aluAdd addV)
  | .tsub => some (aluTagged aluSub subV)
  | .mov => some fun a _ => { val := a }
  | _ => none

theorem dyadicM_dst {op : DyOp} {alu : Word → Word → AluOut} (h : dstAlu op = some alu) (k : Prefix) (f : Dyadic) :
    dyadicM op k f = dyadicToDst op k f alu := by
  cases op <;> cases h <;> rfl

theorem lateFor_dstAlu {op : DyOp} {alu : Word → Word → AluOut} (h : dstAlu op = some alu) (da : Arg) :
    lateFor op da = lateOp op da.bytes := by
  cases op <;> cases h <;> rfl

theorem readsDst_dstAlu {op : DyOp} {alu : Word → Word → AluOut} (h : dstAlu op = some alu) (hm : op ≠ .mov) :
    op.readsDst = true := by
  cases op <;> cases h <;> first | rfl | exact absurd rfl hm

theorem dstAlu_isSome {op : DyOp}
    (h : op ∈ [.add, .sub, .mul, .div, .rem, .udiv, .urem, .and, .or, .xor, .shl, .shr, .ushr, .tadd, .tsub, .mov]) :
    ∃ alu, dstAlu op = some alu := by
  rw [← Option.isSome_iff_exists]
  revert op
  decide

theorem dstAlu_zdiv {op : DyOp} {alu : Word → Word → AluOut} (h : dstAlu op = some alu) {a : Word}
    (ha : op ∈ [.div, .rem, .udiv, .urem] → a ≠ 0) (b : Word) : (alu a b).zdiv = false := by
  cases op <;> cases h
  case div | rem | udiv | urem => exact beq_false_of_ne (ha (by decide))
  case tadd | tsub => unfold aluTagged; split <;> rfl
  all_goals rfl

/-- The flags an operation leaves: E always, V, C and F where the spec does not name them. -/
theorem dstAlu_flags {op : DyOp} {alu : Word → Word → AluOut} (h : dstAlu op = some alu) (a b : Word) :
    (alu a b).flags.e = none ∧
      (op ∈ [.udiv, .urem, .and, .or, .xor, .shl, .shr, .ushr, .mov] → (alu a b).flags.v = none) ∧
      (op ∈ [.div, .rem, .and, .or, .xor, .shl, .shr, .ushr, .mov] → (alu a b).flags.c = none) ∧
      (op ∉ [.tadd, .tsub] → (alu a b).flags.f = none) := by
  cases op <;> cases h
  case tadd | tsub => unfold aluTagged; split <;> simp [aluAdd, aluSub]
  all_goals simp [aluAdd, aluSub, aluMul, aluDiv, aluRem, aluUdiv, aluUrem, aluOf, aluShift]

/-- The next state of such an instruction, its divisor not zero: MOV does not read its destination. -/
theorem exec_dst {op : DyOp} {alu : Word → Word → AluOut} (h : dstAlu op = some alu) {k : Prefix} {f : Dyadic} {s : State}
    {a b : Word} {d : Opd} {t : Target}
    (hr : if op = .mov then MoveReady .mov k f s a d t else DstReady op k f s a b d t)
    (hz : op ∈ [.div, .rem, .udiv, .urem] → a ≠ 0) :
    ∃ c, exec (dyadicInstr k op f) s =
      .next { (aluState s t (alu a c)).noteWide op d (alu a c).val with pc := s.pc + dyadicSize k f } := by
  rw [exec_dyadicInstr, dyadicM_dst h]
  by_cases hm : op = .mov
  · subst hm
    obtain ⟨hc, hf, hs, hd, ht⟩ := (if_pos rfl).mp hr
    exact ⟨0, run_ok (dyadicToDst_ok_write hc hf rfl hs hd ht (dstAlu_zdiv h hz 0) (lateFor_dstAlu h _))⟩
  · rw [if_neg hm] at hr
    obtain ⟨hc, hf, h2, hs, hd, hb, ht⟩ := hr
    exact ⟨b, run_ok (dyadicToDst_ok hc hf (readsDst_dstAlu h hm) h2 hs hd hb ht (dstAlu_zdiv h hz b) (lateFor_dstAlu h _))⟩

/-! ## ADDI, ANDI and ORI -/

/-- The operation of an interlocked instruction, its operands in the order of the statement. -/
theorem dyadicM_interlocked {op : DyOp} {alu : Word → Word → Word}
    (h : (op, alu) ∈ [(DyOp.addi, (· + ·)), (.andi, (· &&& ·)), (.ori, (· ||| ·))]) (k : Prefix) (f : Dyadic) :
    dyadicM op k f = interlocked op k f alu ∧ ∀ da, lateFor op da = fun _ => false := by
  simp only [List.mem_cons, List.not_mem_nil, or_false, Prod.mk.injEq] at h
  rcases h with ⟨rfl, rfl⟩ | ⟨rfl, rfl⟩ | ⟨rfl, rfl⟩
  · have comm : (fun a b : Word => b + a) = (· + ·) := funext fun a => funext fun b => BitVec.add_comm b a
    exact ⟨congrArg (interlocked .addi k f) comm, fun _ => rfl⟩
  · exact ⟨rfl, fun _ => rfl⟩
  · exact ⟨rfl, fun _ => rfl⟩

/-- A register written between the two drains: both buffers are empty, so the second drain does nothing. -/
theorem locked_reg (s : State) (r : Reg) (v : Word) : s.locked (.reg r) v = s.lockStart.setReg r v := by
  refine drainAll_nil ?_
  rw [State.put, setReg_storeBuf, State.lockStart, settleWides_storeBuf, drainAll_storeBuf]

theorem sameButReg_lockStart {s t : State} {r : Reg} (h : sameButReg r s.lockStart t) : sameButReg r s t := by
  have e : s.lockStart = { s with
      mem := s.lockStart.mem, storeBuf := [], lostStores := s.lockStart.lostStores, recent := s.lockStart.recent } := by
    unfold State.lockStart
    rw [settleWides_eq, drainAll_eq]
  rw [e] at h
  exact h

/-- One checked write that leaves an empty store buffer for the bus: whatever answers there, the bytes it does not cover are as
they were. -/
theorem drained_commit_physByte {s : State} {p : Slot} (v : Word) {q : Word} (hb : s.storeBuf = []) (hw : s.mem.wf = true)
    (hq : p.covers q = false) : (s.commit p v).drainAll.physByte q = s.physByte q := by
  have uncovered := commit_physByte (s := s) v hq
  cases hp : p.home with
  | sc a =>
    have : (s.commit p v).storeBuf = [] := by rw [State.commit, hp]; exact hb
    rw [drainAll_nil this, uncovered]
  | phys pa =>
    have hbuf : (s.commit p v).storeBuf = [[Store.of pa p.mask (v <<< p.shift)]] := by
      rw [State.commit, hp]
      simp [State.homeWrite, State.enqueue, State.enqueueBlock, hb]
    have hmem : (s.commit p v).mem = s.mem := commit_mem s p v
    have drain : (s.commit p v).drainAll = { (s.commit p v).drainTransfer [Store.of pa p.mask (v <<< p.shift)] with
        storeBuf := [] } := by
      simp [State.drainAll, State.drainTo, hbuf]
    have lost (m : Memory) (n : Nat) (hm : m = s.mem) :
        ({ s.commit p v with mem := m, lostStores := n, storeBuf := [] } : State).physByte q = s.physByte q :=
      physByte_congr hm hb.symm q
    cases ha : (s.commit p v).board.writeAnswer (Store.of pa p.mask (v <<< p.shift)).pa with
    | ram =>
      rw [← uncovered, State.physByte, State.physByte]
      rw [State.drainAll, drainTo_physWord 0 q (hmem ▸ hw)]
      · simpa [hbuf] using ha
      · simp [hbuf, Store.of, wordAddr_idem]
    | device =>
      rw [drain]
      simp only [State.drainTransfer, ha]
      exact lost _ _ hmem
    | busError =>
      rw [drain]
      simp only [State.drainTransfer, ha]
      exact lost _ _ hmem

/-- The accumulator's word stored and drained changes no register (R108). -/
theorem sameButReg_drained_commit {s t : State} {r : Reg} (p : Slot) (v n : Word) (h : sameButReg r s t) :
    sameButReg r s { (t.commit p v).drainAll with pc := n } := by
  simpa [sameButReg] using h

/-- Settles O20: the next state is the register written, the flags of the operation, and for ADDI, ANDI and ORI the
accumulator's word, drained. -/
theorem registerDestinationFrame : Obligations.RegisterDestinationFrame := by
  constructor
  · intro op f s t a b d r hop hr hz h
    obtain ⟨alu, halu⟩ := dstAlu_isSome hop
    obtain ⟨c, hc⟩ := exec_dst halu hr hz
    have next := hc.symm.trans h
    cases next
    obtain ⟨he, hv, hcf, hf⟩ := dstAlu_flags halu a c
    obtain ⟨out, hout⟩ : ∃ out, alu a c = out := ⟨_, rfl⟩
    rw [hout] at he hv hcf hf ⊢
    obtain ⟨hmem, hbuf⟩ := aluState_memory s r out
    refine ⟨physByte_congr ((noteWide_mem _ _ _ _).trans hmem) ((noteWide_storeBuf _ _ _ _).trans hbuf),
      fun hm => (noteWide_sc _ _ _ _).trans (aluState_sc hm s out), ?_, fun hp => ?_⟩
    · rw [noteWide_eq]
      exact aluState_sameButReg s r out
    · have psw : ((aluState s (.reg r) out).noteWide op d out.val).psw = s.psw.setFlags out.flags :=
        (noteWide_psw _ _ _ _).trans (aluState_psw hp s out)
      simp only [psw, Psw.setFlags]
      refine ⟨by simp [he], fun ho => by simp [hv ho], fun ho => by simp [hcf ho], fun ho => by simp [hf ho]⟩
  · intro op alu f s t a b d r p hop hw hr h
    obtain ⟨hc, hal, hacc, h2, hl, hs, hd, hb, ht, ha, hp⟩ := hr
    obtain ⟨hm, hlate⟩ := dyadicM_interlocked hop .cpu f
    have hrun := run_ok (interlocked_ok hc hal hacc h2 hl hs hd hb ht ha hp (hlate _))
    rw [← hm] at hrun
    have next := hrun.symm.trans h
    cases next
    rw [locked_reg]
    have hstart : s.lockStart.mem = s.drainAll.mem ∧ s.lockStart.storeBuf = s.drainAll.storeBuf := ⟨rfl, rfl⟩
    refine ⟨fun q hq => ?_, fun hr i hi => ?_, ?_, fun hr => ?_⟩
    · have kept := drained_commit_physByte (s := s.lockStart.setReg r (alu a b)) b (by simp [hstart])
        (by rw [setReg_mem]; exact drainAll_wf hw) hq
      exact kept.trans (physByte_congr (by simp [hstart]) (by simp [hstart]) q)
    · have kept := commit_sc (s := s.lockStart.setReg r (alu a b)) b hi
      rw [setReg_sc hr] at kept
      have drained (u : State) : u.drainAll.sc.get i = u.sc.get i := congrArg (fun x => Vector.get x i) (drainAll_sc u)
      exact (drained _).trans (kept.trans (drained s))
    · exact sameButReg_drained_commit p b _ (sameButReg_lockStart (setReg_sameButReg _ _ _))
    · simp [setReg_psw hr, State.lockStart]

end Sys2Proof.Proofs
end

section
/-! PROOF. What the store buffer hides (20_memory.md R52, R126, R128), what the machine stops at under a name
(93_implementation_defined.md U1, U6, U11, U12, U15 to U17), and the values after reset (10_state.md R51). -/

namespace Sys2Proof.Proofs

open Sys2Proof.Machine Sys2Proof.Laws

variable {s : State} {k : Prefix}

/-! ## The store buffer -/

/-- Settles O46: each store that leaves merges in memory what it laid over memory before, and draining all leaves none. -/
theorem drainKeepsReads : Obligations.DrainKeepsReads := by
  intro s n hs hr
  have word (n : Nat) (a : Word) : (s.drainTo n).physWord a = s.physWord a := drainTo_physWord n a hs.mem hr hs.storeBuf
  refine ⟨fun a => by rw [State.physByte, word, State.physByte], ?_, fun a => ?_⟩
  · rw [drainTo_eq]
    simp only [List.length_drop]
    omega
  · have all : s.drainAll.physWord a = s.drainAll.mem.readWord a := by simp [State.physWord]
    rw [← all]
    exact word 0 a

/-! ## Two register reads (U6) -/

/-- Decoding refuses an instruction that reads two registers. -/
theorem precheck_twoRegs {op : DyOp} {f : Dyadic} {c e : BitVec 4} {q r : Reg} (al : Bool) (hr : op.readsDst = true)
    (hf : f.accepted k op = true) (hc : Reg.ofCode c = some q) (he : Reg.ofCode e = some r) :
    precheck k op f (.reg c) (.reg e) al s = .error (.refused .twoRegisterReads) s := by
  simp [precheck, hf, Arg.noReg, Arg.isReg, hc, he, hr]

/-- So does every instruction that reads its destination: the check comes before all else. -/
theorem dyadicM_twoRegs {op : DyOp} {f : Dyadic} {c e : BitVec 4} {q r : Reg} (hd : op ≠ .dqm) (hr : op.readsDst = true)
    (hf : f.accepted k op = true) (hs : srcArg s k f = .reg c) (ht : dstArg s k f = .reg e) (hc : Reg.ofCode c = some q)
    (he : Reg.ofCode e = some r) : dyadicM op k f s = .error (.refused .twoRegisterReads) s := by
  have pre (al : Bool) := precheck_twoRegs (s := s) al hr hf hc he
  have toDst (alu : Word → Word → AluOut) : dyadicToDst op k f alu s = .error (.refused .twoRegisterReads) s := by
    simp [dyadicToDst, hs, ht, pre]
  have toAcc (alu : Word → Word → AluOut) : dyadicToAcc op k f alu s = .error (.refused .twoRegisterReads) s := by
    simp [dyadicToAcc, hs, ht, pre]
  have compare (rel : Word → Word → Bool) : dyadicCompare op k f rel s = .error (.refused .twoRegisterReads) s := by
    simp [dyadicCompare, hs, ht, pre]
  have lock (alu : Word → Word → Word) : interlocked op k f alu s = .error (.refused .twoRegisterReads) s := by
    simp [interlocked, hs, ht, pre]
  cases op with
  | addi | andi | ori => exact lock _
  | mova | mov => cases hr
  | dqm => exact absurd rfl hd
  | cmpgt | cmphi | cmpeq => exact compare _
  | tadd | tsub | add | sub | mul | div | rem | udiv | urem | and | or | xor | shl | shr | ushr => exact toDst _
  | add3 | sub3 | mul3 | div3 | rem3 | and3 | or3 | xor3 | shl3 | shr3 | ushr3 => exact toAcc _

/-! ## Modes and offsets without an effect (U12, U15, U16) -/

/-- An indirect conditional jump (U12). -/
theorem jumpIf_indirect {want : Bool} {f : Monadic (BitVec 10) FlowMode} (h : indirectFlow f = true) :
    jumpIf want k f s = .error (.refused .indirectConditionalJump) s := by
  simp [jumpIf, h]

/-- A short stack offset of a three-parcel ENTER (U15). -/
theorem enterM_short {x : Word} (hs : s.scOk = true) (hl : -256 ≤ x.toInt) (hn : x.toInt < 0) :
    enterM k (.p3 .stk x) s = .error (.refused .enterShortOffset) s := by
  have hm : x.msb = true := by rw [BitVec.msb_eq_toInt]; simpa using hn
  simp [enterM, hm, hs, hl]

/-- An immediate operand of FLUSHPTE and FLUSHPBE (U16). -/
theorem flushAddr_imm (x : Word) : flushAddr (.p3 .imm x) s = .error (.refused .flushImmediate) s := by
  simp [flushAddr]

/-! ## The stack cache out of bounds (U1) -/

/-- A one-parcel offset is no negative one. -/
theorem popOffset_p1_msb (g : BitVec 8) : (popOffset (.p1 g)).msb = false := by
  have hg := g.isLt
  have value : (popOffset (.p1 g)).toNat = g.toNat * 16 := by
    simp only [popOffset, BitVec.toNat_mul, BitVec.truncate_eq_setWidth, BitVec.toNat_setWidth]
    change g.toNat % 2 ^ 32 * 16 % 2 ^ 32 = _
    omega
  rw [BitVec.msb_eq_false_iff_two_mul_lt, value]
  omega

/-- ENTER, CATCH, POPN and RETURN look at the bounds before they do anything. -/
theorem scOk_needed (h : s.scOk = false) (g : BitVec 8) :
    enterM k (.p1 g) s = .error (.refused .stackCacheBounds) s ∧ catchScM k (.p1 g) s = .error (.refused .stackCacheBounds) s ∧
      popnM k (.p1 g) s = .error (.refused .stackCacheBounds) s ∧ retM (.p1 g) s = .error (.refused .stackCacheBounds) s := by
  refine ⟨?_, ?_, ?_, ?_⟩
  · simp [enterM, h]
  · simp [catchScM, isIllegal, h]
  · simp [popnM, isIllegal, popOffset_p1_msb, h]
  · simp [retM, isIllegal, popOffset_p1_msb, h]

/-! ## The exception handler that cannot be fetched (U17, R424) -/

/-- With an empty script a boundary leaves all that the loop depends on. -/
theorem openBoundary_quiet (h : s.env = []) :
    s.openBoundary.pc = s.pc ∧ s.openBoundary.vb = s.vb ∧ s.openBoundary.env = [] ∧ s.openBoundary.oldSpace = s.oldSpace := by
  have hc : ({ s.sampleLines with event := .none } : State).cur = {} := by simp [State.cur, State.sampleLines, h]
  have ho : s.openBoundary = { s.sampleLines with event := .none } := by
    unfold State.openBoundary State.dropText
    rw [hc]
    simp [State.cur, h]
  rw [ho]
  exact ⟨rfl, rfl, h, rfl⟩

theorem fetch_event : Keeps SameEvent fetch :=
  sameEvent.fetch (fun _ => ⟨rfl, rfl⟩) (fun s c l => sameEvent_of_ownPart (own_agents.line s c l))
    fun s a ts => sameEvent_of_ownPart (own_agents.instr s a ts)

/-- The exception of a fetch that leads to the address that could not be fetched is reported as the loop, where no bus error answers
a write, no device a word of the turn, and nothing else can intervene. -/
theorem step_handlerLoop {u t : State} {e : Exc} (hn : s.runsNext) (hf : fetch s.openBoundary = .error (.exc e) u)
    (he : exceptionSequence e u.pc u = .ok () t) (hpc : t.pc = s.pc) (hvp : t.psw.vp = false)
    (hw : ∀ r ∈ s.board.regions, r.wr ≠ .busError)
    (hd : ∀ a ∈ [s.vb + 4, s.pc, s.pc + 4, s.pc + 8, s.pc + 10], s.board.readAnswer a ≠ .device) (hi : t.nmiPending = false)
    (henv : s.env = []) (hold : s.oldSpace = none) : step s = .fault .handlerLoop := by
  obtain ⟨hreset, hfold, hreq, htrace, hlost⟩ := hn
  obtain ⟨opc, ovb, oenv, oold⟩ := openBoundary_quiet henv
  have fetched := fetch_event s.openBoundary
  have board := fetch_board s.openBoundary
  have seq := exceptionSequence_board e u.pc u
  rw [hf] at fetched board
  rw [he] at seq
  obtain ⟨vb, event⟩ := exceptionSequence_event he
  have tvb : t.vb = s.vb := vb.trans (fetched.1.trans ovb)
  have tboard : t.board = s.board := seq.trans (Eq.trans board (openBoundary_board s))
  have loop : t.looping s.openBoundary = true := by
    have reads : (t.loopReads s.pc).all (fun a => s.board.readAnswer a != .device) = true := by
      rw [List.all_eq_true]
      intro a ha
      rw [State.loopReads, tvb] at ha
      simpa using hd a ha
    have writes : s.board.regions.all (fun r => r.wr != .busError) = true := by
      rw [List.all_eq_true]
      intro r hr
      simpa using hw r hr
    have isException : (t.event == .exception) = true := by rw [event]; rfl
    simp [State.looping, isException, hpc, opc, hvp, tboard, writes, reads, hi, oenv, oold, hold]
  have stop : fetchStep e s.openBoundary u = .fault .handlerLoop := by
    simp [fetchStep, he, finish, loop]
  simp only [step, stepOnce, hreset, hfold, hreq, htrace, hlost, Bool.false_eq_true, if_false, ne_eq, not_true_eq_false, instrStep,
    hf]
  exact stop

/-- Settles O60: each instruction looks at what the spec gives no effect before it does anything, and the loop is found by what
the boundary, the fetch and the exception leave alone. -/
theorem refusals : Obligations.Refusals := by
  intro s
  refine ⟨?_, fun p => rfl, ?_, ?_, ?_, fun hs g => ?_, ?_⟩
  · intro op f c e q r hd hr hf hs ht hc he
    exact run_refused (dyadicM_twoRegs hd hr hf hs ht hc he)
  · intro k i f hf hi
    rcases hi with hi | hi | hi | hi
    · rw [exec_jmpfn hi]; exact run_refused (jumpIf_indirect hf)
    · rw [exec_jmpfy hi]; exact run_refused (jumpIf_indirect hf)
    · rw [exec_jmptn hi]; exact run_refused (jumpIf_indirect hf)
    · rw [exec_jmpty hi]; exact run_refused (jumpIf_indirect hf)
  · intro k i x hs hl hn hi
    rw [exec_enter hi]
    exact run_refused (enterM_short hs hl hn)
  · intro k i x hi
    rcases hi with hi | hi
    · rw [exec_flushpte hi]; exact run_refused (t := s) (by simp [flushpteM, flushAddr_imm])
    · rw [exec_flushpbe hi]; exact run_refused (t := s) (by simp [flushpbeM, flushAddr_imm])
  · obtain ⟨enter, hcatch, popn, ret⟩ := scOk_needed (k := .none) hs g
    exact ⟨run_refused enter, run_refused hcatch, run_refused popn, run_refused ret⟩
  · intro u t e hn hf he hpc hvp hw hd hi henv hold
    exact step_handlerLoop hn hf he hpc hvp hw hd hi henv hold

/-! ## Reset -/

/-- Settles O9: the fields of the reset state, PSW and CONFIG as the words their fields make. -/
theorem resetValues : Obligations.ResetValues := by
  have psw : Psw.toWord {} = 0 := by decide
  have config : Cfg.toWord {} = 0 := by decide
  exact ⟨rfl, psw, config, rfl, rfl, rfl, rfl, rfl, rfl, rfl, rfl, rfl, rfl⟩

end Sys2Proof.Proofs
end

section
/-! PROOF. Stores and loads by lanes (20_memory.md R83, R86, R87, R96, R97): what the lanes of an access are as bits of the word, for
either byte order, and from it a load after a store at one home, in memory or in the stack cache. -/

namespace Sys2Proof.Proofs

open Sys2Proof.Machine Sys2Proof.Laws

variable {s : State} {lv : Level} {a v w : Word} {n : Nat} {p : Slot} {le : Bool}

/-! ## The lanes as bits of the word (R83) -/

theorem lowMask_getLsbD (hn : n = 1 ∨ n = 2 ∨ n = 4) (j : Nat) : (lowMask n).getLsbD j = decide (j < 8 * n) := by
  have ones : lowMask n = BitVec.ofNat 32 (2 ^ (8 * n) - 1) := by rcases hn with rfl | rfl | rfl <;> rfl
  rw [ones, BitVec.getLsbD_ofNat, Nat.testBit_two_pow_sub_one, Bool.and_eq_right_iff_imp]
  simp only [decide_eq_true_eq]
  omega

/-- A merge takes the bits of the mask from the new value. -/
theorem mergeLanes_getLsbD (old mask v : Word) (j : Nat) :
    (mergeLanes old mask v).getLsbD j = if mask.getLsbD j then v.getLsbD j else old.getLsbD j := by
  rw [mergeLanes, BitVec.getLsbD_or, BitVec.getLsbD_and, BitVec.getLsbD_and, BitVec.getLsbD_not]
  rcases Nat.lt_or_ge j 32 with hj | hj
  · cases mask.getLsbD j <;> simp [-BitVec.getLsbD_eq_getElem, hj]
  · simp [BitVec.getLsbD_of_ge _ j hj]

/-- The lanes of an aligned access are those of the table. -/
theorem laneShift_mem_laneTable (hn : n = 1 ∨ n = 2 ∨ n = 4) (ha : a.toNat % n = 0) :
    (le, n, a.toNat % 4, laneShift le a n) ∈ laneTable := by
  rcases hn with rfl | rfl | rfl
  · have place : a.toNat % 4 = 0 ∨ a.toNat % 4 = 1 ∨ a.toNat % 4 = 2 ∨ a.toNat % 4 = 3 := by omega
    rcases place with h | h | h | h <;> cases le <;> simp [laneShift, laneTable, h]
  · have place : a.toNat % 4 = 0 ∨ a.toNat % 4 = 2 := by omega
    rcases place with h | h <;> cases le <;> simp [laneShift, laneTable, h]
  · cases le <;> simp [laneShift, laneTable, ha]

/-- The table names one lowest bit for an access. -/
theorem laneShift_of_mem {low : Nat} (h : (le, n, a.toNat % 4, low) ∈ laneTable) : laneShift le a n = low := by
  generalize hr : a.toNat % 4 = r at h
  simp only [laneTable, List.mem_cons, Prod.mk.injEq, List.not_mem_nil, or_false] at h
  rcases h with h | h | h | h | h | h | h | h | h | h | h | h | h | h <;>
    obtain ⟨rfl, rfl, rfl, rfl⟩ := h <;> simp [laneShift, hr]

/-- The lanes of an aligned access lie inside the word. -/
theorem laneShift_le (hn : n = 1 ∨ n = 2 ∨ n = 4) (ha : a.toNat % n = 0) : laneShift le a n + 8 * n ≤ 32 := by
  rcases hn with rfl | rfl | rfl <;> unfold laneShift <;> cases le <;> simp <;> omega

/-- A store replaces the lanes of its access and no other bit. -/
theorem stored_getLsbD (hn : n = 1 ∨ n = 2 ∨ n = 4) {j : Nat} (hj : j < 32) :
    (mergeLanes w (laneMask le a n) (v <<< laneShift le a n)).getLsbD j =
      if laneShift le a n ≤ j ∧ j < laneShift le a n + 8 * n then v.getLsbD (j - laneShift le a n) else w.getLsbD j := by
  rw [mergeLanes_getLsbD, laneMask, BitVec.getLsbD_shiftLeft, lowMask_getLsbD hn, BitVec.getLsbD_shiftLeft]
  by_cases hl : laneShift le a n ≤ j
  · have inside : j - laneShift le a n < 8 * n ↔ j < laneShift le a n + 8 * n := by omega
    simp [hj, hl, inside, Nat.not_lt.2 hl]
  · simp [show j < laneShift le a n by omega, hl]

/-- A load takes the lanes of its access. -/
theorem lanesOf_getLsbD (hn : n = 1 ∨ n = 2 ∨ n = 4) (j : Nat) :
    (lanesOf le a n w).getLsbD j = (w.getLsbD (laneShift le a n + j) && decide (j < 8 * n)) := by
  rw [lanesOf, BitVec.getLsbD_and, BitVec.getLsbD_ushiftRight, lowMask_getLsbD hn]

/-- The bits of the low bytes of a number shifted down. -/
theorem ofNat_lanes_getLsbD (hn : n = 1 ∨ n = 2 ∨ n = 4) (x k j : Nat) :
    (BitVec.ofNat 32 (x / 2 ^ k % 2 ^ (8 * n))).getLsbD j = (x.testBit (k + j) && decide (j < 8 * n)) := by
  rw [BitVec.getLsbD_ofNat, Nat.testBit_mod_two_pow, Nat.testBit_div_two_pow, Nat.add_comm j k]
  by_cases hj : j < 8 * n
  · simp [hj, show j < 32 by omega]
  · simp [hj]

/-- A load as arithmetic: the word shifted down and cut to the size. -/
theorem lanesOf_eq (hn : n = 1 ∨ n = 2 ∨ n = 4) :
    lanesOf le a n w = BitVec.ofNat 32 (w.toNat / 2 ^ laneShift le a n % 2 ^ (8 * n)) := by
  refine BitVec.eq_of_getLsbD_eq fun j _ => ?_
  rw [lanesOf_getLsbD hn, ofNat_lanes_getLsbD hn, BitVec.testBit_toNat]

/-- What a store put in the lanes of its access, a load of them gives back, cut to the size. -/
theorem lanesOf_stored (hn : n = 1 ∨ n = 2 ∨ n = 4) (ha : a.toNat % n = 0) :
    lanesOf le a n (mergeLanes w (laneMask le a n) (v <<< laneShift le a n)) = BitVec.ofNat 32 (v.toNat % 2 ^ (8 * n)) := by
  have hb := laneShift_le (le := le) hn ha
  refine BitVec.eq_of_getLsbD_eq fun j _ => ?_
  have cut := ofNat_lanes_getLsbD hn v.toNat 0 j
  rw [Nat.pow_zero, Nat.div_one, Nat.zero_add, BitVec.testBit_toNat] at cut
  rw [lanesOf_getLsbD hn, cut]
  by_cases hj : j < 8 * n
  · rw [stored_getLsbD hn (by omega), if_pos (by omega), Nat.add_sub_cancel_left]
  · simp [hj]

/-! ## A store at a home -/

/-- A store moves no home. -/
theorem commit_home? (k : Kind) (b : Word) : (s.commit p v).home? lv k b = s.home? lv k b := by
  rw [State.commit, homeWrite_eq]; rfl

/-- Nor does it change the byte order. -/
theorem commit_little (user : Bool) : (s.commit p v).little user = s.little user := by
  simp [State.little]

/-- The word at a home after a store there: the lanes merged. -/
theorem commit_word? (hw : s.word? p.home = some w) :
    (s.commit p v).word? p.home = some (mergeLanes w p.mask (v <<< p.shift)) := by
  unfold State.commit
  cases hp : p.home with
  | sc b =>
    rw [hp] at hw
    simp only [State.word?, Option.some.injEq] at hw ⊢
    simp [State.homeWrite, State.scMerge, State.scWord, Vector.get_eq_getElem, ← hw]
  | phys pa =>
    rw [hp] at hw
    simp only [State.word?, Option.ite_none_right_eq_some, Option.some.injEq] at hw
    obtain ⟨hr, rfl⟩ := hw
    have hr' : (s.enqueue pa p.mask (v <<< p.shift)).reads pa = true := by
      rw [State.reads, enqueue_alone, enqueue_board]; exact hr
    simp [State.word?, State.homeWrite, hr', enqueue_physWord]

/-- The parts of a checked write: an aligned address, its home, its lanes. -/
theorem slot?_spec (h : s.slot? lv a n = some p) :
    a.toNat % n = 0 ∧ s.home? lv .write a = some p.home ∧ p.mask = laneMask (s.little lv.user) a n ∧
      p.shift = laneShift (s.little lv.user) a n := by
  have hal := aligned_of_slot h
  simp only [State.slot?, hal, if_true, Option.map_eq_some_iff] at h
  obtain ⟨g, hg, rfl⟩ := h
  exact ⟨by simpa [aligned] using hal, hg, rfl, rfl⟩

/-- A load of an aligned operand takes the lanes of the word at its home. -/
theorem load?_eq {h : Home} (ha : a.toNat % n = 0) (hh : s.home? lv .read a = some h) (hw : s.word? h = some w) :
    s.load? lv a n = some (lanesOf (s.little lv.user) a n w) := by
  simp [State.load?, aligned, ha, hh, hw]

/-- A load after a store at the same home. -/
theorem load?_commit (hn : n = 1 ∨ n = 2 ∨ n = 4) (hp : s.slot? lv a n = some p) (hh : s.home? lv .read a = some p.home)
    (hw : s.word? p.home = some w) : (s.commit p v).load? lv a n = some (BitVec.ofNat 32 (v.toNat % 2 ^ (8 * n))) := by
  obtain ⟨ha, -, hm, hs⟩ := slot?_spec hp
  rw [load?_eq ha ((commit_home? _ _).trans hh) (commit_word? hw), commit_little, hm, hs, lanesOf_stored hn ha]

/-- Settles O45: the store merges the lanes of the table into the word at the home, and the load takes the same lanes. -/
theorem storeThenLoad : Obligations.StoreThenLoad := by
  intro s lv a v w n p hn hp hh hw
  refine ⟨load?_commit hn hp hh hw, fun low hlow => ?_⟩
  obtain ⟨ha, -, hm, hs⟩ := slot?_spec hp
  obtain rfl : laneShift (s.little lv.user) a n = low := laneShift_of_mem hlow
  refine ⟨?_, _, commit_word? hw, fun j hj => ?_⟩
  · rw [load?_eq ha hh hw, lanesOf_eq hn]
  · rw [hm, hs, stored_getLsbD hn hj]

/-! ## The stack cache -/

/-- An access in the range of the enabled stack cache has its home there, read or write, with no translation (R86, D2). -/
theorem home?_stack (he : s.config.sce = true) (hl : s.sp ≤ a) (hu : a < s.msp) (hok : s.scOk = true) (k : Kind) :
    s.home? lv k a = some (.sc a) := by
  simp [State.home?, State.scHit, he, hl, hu, hok]

/-- Settles O47: the home is the stack cache, whose word the lanes of the table are taken from and merged into. -/
theorem stackCacheHit : Obligations.StackCacheHit := by
  intro s lv a n he hl hu hok hn ha
  have home := home?_stack (lv := lv) he hl hu hok
  have word : s.word? (.sc a) = some (s.sc.get (scIdx a)) := rfl
  have load := load?_eq ha (home .read) word
  obtain ⟨p, hp, hph⟩ : ∃ p, s.slot? lv a n = some p ∧ p.home = .sc a := by
    simp [State.slot?, aligned, ha, home]
  obtain ⟨-, -, hm, hs⟩ := slot?_spec hp
  rw [← hph] at word
  have check := checkWrite_ok hp
  refine ⟨⟨_, laneShift_mem_laneTable hn ha⟩, fun low hlow => ?_, fun h4 => ?_, p, check, fun v => ⟨?_, fun i hi => ?_, ?_⟩⟩
  · obtain rfl : laneShift (s.little lv.user) a n = low := laneShift_of_mem hlow
    refine ⟨by rw [memRead_ok load, lanesOf_eq hn], p, check, fun v j hj => ?_⟩
    have stored := commit_word? (v := v) word
    rw [hph, hm, hs] at stored
    have merged : (s.commit p v).sc.get (scIdx a) = _ := Option.some.inj stored
    rw [merged, stored_getLsbD hn hj]
  · subst h4
    rw [memRead_ok load, lanesOf_eq hn]
    simp [laneShift, Nat.mod_eq_of_lt (s.sc.get (scIdx a)).isLt]
  · rw [State.commit, hph]; rfl
  · exact commit_sc v (by simpa [Slot.coversSc, hph] using Ne.symm hi)
  · exact memRead_ok (load?_commit hn hp ((home .read).trans (congrArg some hph.symm)) word)

end Sys2Proof.Proofs
end

section
/-! PROOF. Address translation (20_memory.md R112 to R116, R123, R124): what a walk of the tables answers, by the entries it reads, and
from it the marks a walk leaves, the accesses a page or a segment rejects, and what FLUSHPTE makes be walked again. -/

namespace Sys2Proof.Proofs

open Sys2Proof.Machine Sys2Proof.Laws

variable {s t : State} {user : Bool} {k : Kind} {va ste pte : Word} {e : Entry}

/-! ## The checks of an entry (R114) -/

/-- A page rejects a write where W is clear, a user where U is clear. -/
theorem page_allows_eq_false {e : TlbEntry} :
    (Entry.page e).allows user k va = false ↔ (k.writes = true ∧ e.w = false) ∨ (user = true ∧ e.u = false) := by
  simp only [Entry.allows, Bool.and_eq_false_iff, Bool.or_eq_false_iff, Bool.not_eq_false']
  exact or_comm

/-- A segment rejects the same, and what lies beyond its bound. -/
theorem seg_allows_eq_false {e : Npsr} :
    (Entry.seg e).allows user k va = false ↔
      (k.writes = true ∧ e.w = false) ∨ (user = true ∧ e.u = false) ∨ e.bound.toNat < (pageOf va).toNat := by
  simp only [Entry.allows, Bool.and_eq_false_iff, Bool.or_eq_false_iff, Bool.not_eq_false', decide_eq_false_iff_not, BitVec.le_def,
    Nat.not_le]
  rw [or_comm, or_comm (a := e.bound.toNat < _)]


/-! ## Translation by a cached or a walked entry (R114) -/

/-- A cached entry that does not allow the access is the fault, with nothing changed. -/
theorem translate_cached_fault (hs : s.alone = true) (hl : s.lookup k va = some e) (ha : e.allows user k va = false) :
    translateAddr ⟨true, user⟩ k va s = .error (.exc (k.faultAt va)) s := by
  simp [translateAddr, others_run hs, hl, ha]

/-- Where nothing is cached the walk decides. -/
theorem translate_walk (hs : s.alone = true) (hl : s.lookup k va = none) (hw : walk user k va s = .ok (some e) t)
    (ha : e.allows user k va = true) : translateAddr ⟨true, user⟩ k va s = .ok (e.xlat va) t := by
  simp [translateAddr, others_run hs, hl, hw, ha]

theorem translate_walk_absent (hs : s.alone = true) (hl : s.lookup k va = none) (hw : walk user k va s = .ok none t) :
    translateAddr ⟨true, user⟩ k va s = .error (.exc (k.faultAt va)) t := by
  simp [translateAddr, others_run hs, hl, hw]

theorem translate_walk_fault (hs : s.alone = true) (hl : s.lookup k va = none) (hw : walk user k va s = .ok (some e) t)
    (ha : e.allows user k va = false) : translateAddr ⟨true, user⟩ k va s = .error (.exc (k.faultAt va)) t := by
  simp [translateAddr, others_run hs, hl, hw, ha]

/-! ## The walk (R112 to R115) -/

theorem busRead_ram {x : Exc} {pa : Word} (h : s.board.readAnswer pa = .ram) : busRead x pa s = .ok (s.mem.readWord pa) s := by
  simp [busRead, h]

theorem busWrite_ram {x : Exc} {pa v : Word} (h : s.board.writeAnswer pa = .ram) :
    busWrite x pa v s = .ok () { s with mem := s.mem.writeWord pa v } := by
  simp [busWrite, h]

/-- A walk begins with the segment table entry, which memory answers. -/
theorem walk_run (hs : s.alone = true) (hr : s.board.readAnswer (steAddr s.stb va) = .ram)
    (hste : ste = s.mem.readWord (steAddr s.stb va)) :
    walk user k va s = if isPaged ste then walkPage user k va ste s else segmentEntry k va ste s := by
  subst hste
  cases hp : isPaged (s.mem.readWord (steAddr s.stb va)) <;> simp [walk, readSte, others_run hs, busRead_ram hr, hp]

/-- An invalid segment table entry is "absent". -/
theorem walk_invalid (hs : s.alone = true) (hr : s.board.readAnswer (steAddr s.stb va) = .ram)
    (hste : ste = s.mem.readWord (steAddr s.stb va)) (hv : ste.getLsbD 0 = false) : walk user k va s = .ok none s := by
  rw [walk_run hs hr hste]
  simp [-BitVec.getLsbD_eq_getElem, isPaged, segmentEntry, hv]

/-- A nonpaged segment's entry is loaded and answered. -/
theorem walk_segment (hs : s.alone = true) (hr : s.board.readAnswer (steAddr s.stb va) = .ram)
    (hste : ste = s.mem.readWord (steAddr s.stb va)) (hv : ste.getLsbD 0 = true) (hn : ste.getLsbD 3 = true) :
    walk user k va s = .ok (some (.seg (Npsr.ofSte va ste))) (s.loadNpsr k (Npsr.ofSte va ste)) := by
  rw [walk_run hs hr hste]
  simp [-BitVec.getLsbD_eq_getElem, isPaged, segmentEntry, hv, hn]

/-- A paged segment's entry leads to the page table entry. -/
theorem walk_paged (hs : s.alone = true) (hr : s.board.readAnswer (steAddr s.stb va) = .ram)
    (hste : ste = s.mem.readWord (steAddr s.stb va)) (hv : ste.getLsbD 0 = true) (hn : ste.getLsbD 3 = false) :
    walk user k va s = walkPage user k va ste s := by
  rw [walk_run hs hr hste]
  simp [-BitVec.getLsbD_eq_getElem, isPaged, hv, hn]

/-- An invalid page table entry is "absent". -/
theorem walkPage_invalid (hr : s.board.readAnswer (pteAddr ste va) = .ram) (hpte : pte = s.mem.readWord (pteAddr ste va))
    (hv : pte.getLsbD 0 = false) : walkPage user k va ste s = .ok none s := by
  subst hpte
  simp [-BitVec.getLsbD_eq_getElem, walkPage, busRead_ram hr, hv]

/-- A page that does not allow the access is answered as it is, unmarked and not cached. -/
theorem walkPage_rejected (hr : s.board.readAnswer (pteAddr ste va) = .ram) (hpte : pte = s.mem.readWord (pteAddr ste va))
    (hv : pte.getLsbD 0 = true) (ha : (Entry.page (TlbEntry.ofPte va pte)).allows user k va = false) :
    walkPage user k va ste s = .ok (some (.page (TlbEntry.ofPte va pte))) s := by
  subst hpte
  simp [-BitVec.getLsbD_eq_getElem, walkPage, busRead_ram hr, hv, ha]

/-- A page that allows the access is marked in its table and loaded. -/
theorem walkPage_marks (hr : s.board.readAnswer (pteAddr ste va) = .ram) (hw : s.board.writeAnswer (pteAddr ste va) = .ram)
    (hpte : pte = s.mem.readWord (pteAddr ste va)) (hv : pte.getLsbD 0 = true)
    (ha : (Entry.page (TlbEntry.ofPte va pte)).allows user k va = true) :
    walkPage user k va ste s = .ok (some (.page (TlbEntry.ofPte va (pte ||| markBits k))))
      (State.loadTlb (if pte ||| markBits k = pte then s else
        { s with mem := s.mem.writeWord (pteAddr ste va) (pte ||| markBits k) }) k (TlbEntry.ofPte va (pte ||| markBits k))) := by
  subst hpte
  by_cases hm : s.mem.readWord (pteAddr ste va) ||| markBits k = s.mem.readWord (pteAddr ste va) <;>
    simp [-BitVec.getLsbD_eq_getElem, walkPage, busRead_ram hr, busWrite_ram hw, hv, ha, hm]

/-! ## What a walk leaves (R114, U9) -/

theorem loadTlb_mem (s : State) (k : Kind) (e : TlbEntry) : (s.loadTlb k e).mem = s.mem := by
  unfold State.loadTlb; (repeat' split) <;> rfl

/-- Loading a segment register writes no memory and caches no page. -/
theorem loadNpsr_eq (s : State) (k : Kind) (n : Npsr) :
    s.loadNpsr k n = { s with textNpsr := (s.loadNpsr k n).textNpsr, dataNpsr := (s.loadNpsr k n).dataNpsr } := by
  unfold State.loadNpsr; (repeat' split) <;> rfl

/-- The marks are the bits R and M of a table entry. -/
theorem markBits_eq (k : Kind) :
    markBits k = if k = .check false then 0 else if k = .write ∨ k = .check true then 0x18 else 0x8 := by
  cases k with
  | check marks => cases marks <;> rfl
  | text | read | write => rfl

/-- They change no field of the entry but the modified bit. -/
theorem ofPte_marked (k : Kind) (va pte : Word) :
    TlbEntry.ofPte va (pte ||| markBits k) = { TlbEntry.ofPte va pte with m := (pte ||| markBits k).getLsbD 4 } := by
  have marks : markBits k = 0 ∨ markBits k = 0x18 ∨ markBits k = 0x8 := by rw [markBits_eq]; (repeat' split) <;> simp
  have frame : (markBits k).extractLsb' 12 20 = 0 := by rcases marks with h | h | h <;> rw [h] <;> rfl
  have bits : (markBits k).getLsbD 11 = false ∧ (markBits k).getLsbD 2 = false ∧ (markBits k).getLsbD 1 = false := by
    rcases marks with h | h | h <;> rw [h] <;> decide
  simp [-BitVec.getLsbD_eq_getElem, TlbEntry.ofPte, BitVec.extractLsb'_or, frame, bits]

/-- A word of memory after a word is written. -/
theorem readWord_writeWord {m : Memory} (pa v q : Word) (hw : m.wf = true) :
    (m.writeWord pa v).readWord q = if wordAddr q = wordAddr pa then v else m.readWord q := by
  have whole (old : Word) : mergeLanes old 0xFFFFFFFF v = v := by
    refine BitVec.eq_of_getLsbD_eq fun j hj => ?_
    have ones : (0xFFFFFFFF : Word).getLsbD j = true := (lowMask_getLsbD (n := 4) (by simp) j).trans (by simpa using hj)
    rw [mergeLanes_getLsbD, ones, if_pos rfl]
  rw [Memory.writeWord, readWord_writeLanes _ _ _ _ hw, whole]

/-- Settles O48: the walk finds both entries valid and the page allowed, before and after it is marked. -/
theorem walkSetsMarks : Obligations.WalkSetsMarks := by
  intro s user k va ste pte hwf hs hl hb hste hsv hsp hpte hpv hu hw
  obtain ⟨hread, hwrite⟩ := hb (pteAddr ste va)
  have writes : k.writes = true → pte.getLsbD 1 = true := by
    intro hk
    refine hw ?_
    cases k with
    | check marks => cases marks <;> simp
    | write => simp
    | text | read => cases hk
  have allowed : (Entry.page (TlbEntry.ofPte va pte)).allows user k va = true := by
    refine Bool.eq_true_of_not_eq_false fun h => ?_
    rcases page_allows_eq_false.1 h with ⟨hk, h⟩ | ⟨hx, h⟩
    · exact Bool.noConfusion ((writes hk).symm.trans h)
    · exact Bool.noConfusion ((hu hx).symm.trans h)
  have marked := ofPte_marked k va pte
  refine ⟨_, _, translate_walk hs hl ((walk_paged hs (hb _).1 hste hsv hsp).trans
    (walkPage_marks hread hwrite hpte hpv allowed)) (by rw [marked]; exact allowed), by rw [marked]; rfl, ?_, fun a ha => ?_⟩
  · rw [loadTlb_mem, ← markBits_eq]
    split
    case isTrue h => rw [h, hpte]
    case isFalse => rw [readWord_writeWord _ _ _ hwf, if_pos rfl]
  · rw [loadTlb_mem]
    split
    case isTrue => rfl
    case isFalse => rw [readWord_writeWord _ _ _ hwf, if_neg ha]

/-- Settles O49: a cached entry that does not allow the access is the fault, and a walk that finds none or such a one ends before it
marks or caches a page. -/
theorem writeProtection : Obligations.WriteProtection := by
  intro s user k va x hs hx
  obtain rfl : x = k.faultAt va := hx.trans (by cases k <;> rfl)
  refine ⟨fun e hl he => ?_, fun e hl he => ?_,
    fun ste hl hr hste => ⟨fun hv => ?_, fun pte hv hn hrp hpte he => ?_, fun hv hn he => ?_⟩⟩
  · exact translate_cached_fault hs hl (page_allows_eq_false.2 he)
  · exact translate_cached_fault hs hl (seg_allows_eq_false.2 he)
  · exact translate_walk_absent hs hl (walk_invalid hs hr hste hv)
  · have paged := walk_paged (user := user) (k := k) hs hr hste hv hn
    by_cases hpv : pte.getLsbD 0 = false
    · exact translate_walk_absent hs hl (paged.trans (walkPage_invalid hrp hpte hpv))
    · have rejected := page_allows_eq_false (va := va) (e := TlbEntry.ofPte va pte).2 (he.resolve_left hpv)
      exact translate_walk_fault hs hl (paged.trans (walkPage_rejected hrp hpte (Bool.eq_true_of_not_eq_false hpv) rejected)) rejected
  · have rejected := seg_allows_eq_false (va := va) (e := Npsr.ofSte va ste).2 he
    refine ⟨_, translate_walk_fault hs hl (walk_segment hs hr hste hv hn) rejected, ?_⟩
    rw [loadNpsr_eq]
    exact ⟨rfl, rfl, rfl⟩

/-! ## FLUSHPTE (R124, R385) -/

/-- The address of FLUSHPTE and FLUSHPBE, where its pointer can be read. -/
theorem flushAddr_ok {m : WordMode} {x a : Word} (h : s.addr? (wordArg s m x) = some a) : flushAddr (.p3 m x) s = .ok a s := by
  have named : (m == WordMode.imm) = false := beq_false_of_ne (by rintro rfl; cases h)
  cases m with
  | imm => cases named
  | abs | stk => simpa [flushAddr, named, wordArg, argOf, WordMode.toMode, Arg.pointerAligned, addrOf, State.addr?] using h
  | ind =>
    have load : s.load? s.level (s.csp + x) 4 = some a := h
    simp [flushAddr, named, wordArg, argOf, WordMode.toMode, Arg.pointerAligned, addrOf, memReadW, aligned_of_load load,
      memRead_ok load]

/-- No access to a flushed page finds a cached translation. -/
theorem lookup_flushPage {a : Word} (h : vpnOf va = vpnOf a) (k : Kind) : (s.flushPage a).lookup k va = none := by
  have page : ((s.flushPage a).tlb k).find? (fun e => e.vpn == vpnOf va) = none := by
    rw [List.find?_eq_none]
    cases k <;> simp [State.tlb, State.flushPage, h]
  have segment : (s.flushPage a).npsr k = none := by cases k <;> rfl
  simp [State.lookup, page, segment]

/-- Settles O42: the flush filters the page out of both TLBs and out of the walks under way. -/
theorem translationFlush : Obligations.TranslationFlush := by
  intro k i m x a s hi ha
  have flushed : flushpteM k (.p3 m x) s = .ok () { s.flushPage a with pc := s.pc + (k.len + 6) } := by
    simp [flushpteM, flushAddr_ok ha, State.flushPage]
  refine ⟨_, (exec_flushpte hi).trans (run_ok flushed), rfl, fun va ste h => page_mem_flushPage h, fun kind va h => ?_⟩
  exact lookup_flushPage (s := s) h kind

end Sys2Proof.Proofs
end

section
/-! PROOF. The instruction a step runs (30_encoding.md R140 to R152; 60_exceptions.md R435, R436): what the decoder reads is well
formed, each part of it by the table it is read from, and a step with nothing in its way is the fetch and the instruction; and the two
resets (70_reset_and_hazards.md R480, R481). -/

namespace Sys2Proof.Proofs

open Sys2Proof.Machine Sys2Proof.Laws

/-! ## One-parcel instructions (R145 to R147) -/

/-- The niladic group, whose subcode 0 is CPU's. -/
theorem decodeNiladic_wf {sc : BitVec 10} (h0 : sc ≠ 0) : (decodeNiladic sc).wf = true := by
  unfold decodeNiladic
  split <;> try rfl
  split
  · rfl
  · have h0 : sc.toNat ≠ 0 := fun h => h0 (BitVec.eq_of_toNat_eq h)
    simp only [Instr.wf, Unimpl.wf, Bool.or_eq_true, beq_iff_eq, Bool.and_eq_true, decide_eq_true_eq, ← BitVec.toNat_inj,
      BitVec.ofNat_eq_ofNat, BitVec.toNat_ofNat]
    simp only [imp_false] at *
    omega

/-- A one-parcel niladic with subcode 0 is CPU (R147). -/
theorem eq_cpuParcel {p : Parcel} (hl : isLong p = false) (ho : (op5 p).toNat = 0x0B) (hf : low10 p = 0) : p = cpuParcel := by
  have top : p.toNat < 2 ^ 15 := by
    have hm : p.msb = false := by rw [BitVec.msb_eq_getLsbD_last]; exact hl
    rw [BitVec.msb_eq_false_iff_two_mul_lt] at hm
    omega
  have field : p.toNat % 1024 = 0 := by simpa [low10] using congrArg BitVec.toNat hf
  have opcode : p.toNat / 1024 % 32 = 11 := by simpa [op5, Nat.shiftRight_eq_div_pow] using ho
  refine BitVec.eq_of_toNat_eq ?_
  have : cpuParcel.toNat = 11264 := rfl
  omega

/-- A one-parcel instruction other than CPU: each pair of operand types is one of the table's, and the opcodes without an
instruction are its gaps. -/
theorem decodeShort_wf {p : Parcel} (hl : isLong p = false) (hp : p ≠ cpuParcel) : (decodeShort p).wf = true := by
  unfold decodeShort
  dsimp only
  split <;> try rfl
  case h_3 => unfold decodeStack; split <;> rfl
  case h_10 ho => exact decodeNiladic_wf fun hf => hp (eq_cpuParcel hl ho hf)
  case h_30 =>
    have := (op5 p).isLt
    simp only [Instr.wf, Unimpl.wf, Bool.or_eq_true, beq_iff_eq, ← BitVec.toNat_inj, BitVec.ofNat_eq_ofNat,
      BitVec.toNat_ofNat]
    simp only [imp_false] at *
    omega

/-! ## Three- and five-parcel instructions (R148 to R152) -/

/-- What the first parcel of a long instruction is by its maps: modes the mnemonic takes or rejects, or a code the maps mark so. -/
def Head.Fits (k : Prefix) : Head → Prop
  | .dyadic _ op sm dm => op.legal k sm dm = true
  | .badDyadic _ op sm dm => op.legal k sm dm = false
  | .monadic op m => op.takes m = true
  | .badMonadic op m => op.takes m = false
  | .unimp five op _ _ => DyOp.ofCode op = none ∧ (five = true ∨ op ≠ 0)

theorem headOf_fits (k : Prefix) (p : Parcel) : Head.Fits k (headOf k p) := by
  unfold headOf
  dsimp only
  split
  · split
    · assumption
    · exact Bool.eq_false_iff.2 ‹_›
  · rename_i hm
    split
    · split
      · assumption
      · exact Bool.eq_false_iff.2 ‹_›
    · refine ⟨‹_›, ?_⟩
      cases hf : isFive p with
      | true => exact .inl rfl
      | false => exact .inr fun h => hm ⟨hf, h⟩

/-- A long instruction fit to stand alone or after CPU: a well-formed one, and no one-parcel body. -/
def CpuBody.Fits (k : Prefix) : CpuBody → Prop
  | .dyadic op f => f.wf k op = true
  | .word op f => f.wf (.word op) = true
  | .flow op f => f.wf (.flow op) = true
  | .stack op f => f.wf (.stack op) = true
  | .flushdce _ => True
  | .unimplemented u => u.isLong = true ∧ u.wf = true
  | .oneParcel _ => False

theorem monadicBody_fits {op : MonOp} {m : Mode} (k : Prefix) (x : Word) (h : op.takes m = true) :
    CpuBody.Fits k (monadicBody op m x) := by
  cases op with
  | word op =>
    cases m with
    | imm => rfl
    | mem b z => cases z <;> cases b <;> rfl
  | flow op =>
    cases m with
    | imm => rfl
    | mem b z => cases z <;> cases b <;> rfl
  | stack op => rfl
  | flushdce | unimp => cases h

theorem badMonadicBody_fits {op : MonOp} {m : Mode} (k : Prefix) (h : op.takes m = false) :
    CpuBody.Fits k (badMonadicBody op m) := by
  cases op with
  | word op | flow op | stack op => simp [badMonadicBody, CpuBody.Fits, Monadic.wf, h]
  | flushdce => trivial
  | unimp => exact ⟨rfl, rfl⟩

/-- A long instruction read from a head that fits. -/
theorem decodeLong_fits {k : Prefix} {h : Head} {r rest : List Parcel} {b : CpuBody} (hf : Head.Fits k h)
    (hd : decodeLong h r = .ok (b, rest)) : CpuBody.Fits k b := by
  unfold decodeLong at hd
  split at hd <;> cases hd
  case h_1 => exact hf
  case h_2 => exact hf
  case h_4 => simpa [CpuBody.Fits, Dyadic.wf, Head.Fits] using hf
  case h_5 => exact monadicBody_fits k _ hf
  case h_7 => exact badMonadicBody_fits k hf
  case h_8 =>
    obtain ⟨hc, ho⟩ := hf
    exact ⟨rfl, by simpa [Unimpl.wf, hc] using ho⟩

theorem instr_wf (op : DyOp) (f : Sys2Proof.Dyadic) : (op.instr f).wf = f.wf .none op := by cases op <;> rfl

theorem widen_wf {F M : Type} (op : MonOp) (g : Monadic Empty M) : (g.widen : Monadic F M).wf op = g.wf op := by
  cases g with
  | p1 e => exact e.elim
  | p3 m x | illegal m => rfl

/-- A long instruction that fits alone is well formed. -/
theorem plain_wf {b : CpuBody} (h : CpuBody.Fits .none b) : b.plain.wf = true := by
  cases b with
  | dyadic op f => exact (instr_wf op f).trans h
  | word op f =>
    cases op with
    | flushpte | flushpbe => exact h
    | kcall | catchSc | enter => exact (widen_wf _ f).trans h
  | flow op f =>
    cases op with
    | ldraa => exact h
    | call | jmp | jmpfn | jmpfy | jmptn | jmpty => exact (widen_wf _ f).trans h
  | stack op f => cases op <;> exact (widen_wf _ f).trans h
  | flushdce m => rfl
  | unimplemented u => exact h.2
  | oneParcel p => exact h.elim

/-- One that fits after CPU is well formed there. -/
theorem body_wf {b : CpuBody} (h : CpuBody.Fits .cpu b) : b.wf = true := by
  cases b with
  | dyadic op f | word op f | flow op f | stack op f => exact h
  | flushdce m => rfl
  | unimplemented u => simpa [CpuBody.wf, CpuBody.Fits] using h
  | oneParcel p => exact h.elim

/-- What the decoder reads is well formed (R140, R151, R170). -/
theorem decode_wf {ps rest : List Parcel} {i : Instr} (h : decode ps = .ok (i, rest)) : i.wf = true := by
  cases ps with
  | nil => cases h
  | cons p r =>
    by_cases hp : p = cpuParcel
    · cases r with
      | nil => simp [decode, hp] at h
      | cons q r =>
        cases hq : isLong q with
        | true =>
          simp only [decode, hp, hq, if_true] at h
          split at h <;> cases h
          exact body_wf (decodeLong_fits (headOf_fits .cpu q) ‹_›)
        | false =>
          simp only [decode, hp, hq, if_true, Bool.false_eq_true, if_false] at h
          cases h
          exact congrArg (!·) hq
    · cases hl : isLong p with
      | true =>
        simp only [decode, hp, hl, if_true, if_false] at h
        split at h <;> cases h
        exact plain_wf (decodeLong_fits (headOf_fits .none p) ‹_›)
      | false =>
        simp only [decode, hp, hl, Bool.false_eq_true, if_false] at h
        cases h
        exact decodeShort_wf hl hp

/-! ## The step (R435, R436) -/

/-- The parcels of a decoded instruction. -/
theorem decoded_ok {ps rest : List Parcel} {i : Instr} (s : State) (h : decode ps = .ok (i, rest)) : decoded ps s = .ok i s := by
  simp [decoded, h]

/-- A fetch that the decoded instruction cache does not answer (R99). -/
theorem fetch_miss {s u : State} {ts : List Text} {i : Instr} {rest : List Parcel} (hc : s.icHit s.pc = none)
    (hf : fetchText s.pc s = .ok ts u) (hd : decode (ts.map Text.parcel) = .ok (i, rest)) :
    fetch s = .ok i (u.keepInstr s.pc ts) := by
  simp [fetch, hc, hf, decoded_ok u hd]

/-- A fetch that it answers, once the addresses of the parcels are translated (R48). -/
theorem fetch_hit {s u : State} {e : IcEntry} {i : Instr} {rest : List Parcel} (hc : s.icHit s.pc = some e)
    (ht : translateText e.parcels.length s.pc s = .ok () u) (hd : decode e.parcels = .ok (i, rest)) : fetch s = .ok i u := by
  simp [fetch, hc, ht, decoded_ok u hd]

/-- With nothing between the state and its next instruction, a step fetches and executes. -/
theorem step_instr {s u : State} {i : Instr} (hn : s.runsNext) (hf : fetch s.openBoundary = .ok i u) :
    step s = mapNext (fun t => t.retire s.openBoundary i none) (exec i { u with hazard := {}, event := .none }) := by
  obtain ⟨hreset, hfold, hreq, htrace, hlost⟩ := hn
  simp [step, stepOnce, hreset, hfold, hreq, htrace, hlost, instrStep, hf]

/-- Settles O4: the step fetches and executes, and the fetch decodes the parcels read or the cached ones. -/
theorem stepRunsDecoded : Obligations.StepRunsDecoded := fun _ _ _ hn =>
  ⟨fun _ _ hc hf hd => ⟨decode_wf hd, step_instr hn (fetch_miss hc hf hd)⟩,
    fun _ _ hc ht hd => step_instr hn (fetch_hit hc ht hd)⟩

/-! ## Reset (R480, R481) -/

/-- Settles O10: both resets share what R480 lists; the pin's takes SHAD from nothing, the internal one from the PSW. -/
theorem resetSequence : Obligations.ResetSequence := by
  have psw : Psw.toWord {} = 0 := by decide
  have config : Cfg.toWord {} = 0 := by decide
  refine ⟨fun s hs => ?_, fun m s u h => ?_⟩
  · refine ⟨{ s.sampleLines.externalReset with env := s.env.tail }, by simp [step, stepOnce, hs], ?_⟩
    exact ⟨rfl, psw, config, rfl, rfl, rfl, rfl, rfl, rfl, rfl, rfl, rfl, rfl, rfl⟩
  · exact ⟨u.internalReset, run_reset h, rfl, psw, config, rfl, rfl, rfl, rfl, rfl, rfl, rfl, rfl, rfl, rfl⟩

end Sys2Proof.Proofs
end

section
/-! PROOF. Misaligned addresses (20_memory.md R85; 30_encoding.md R164, R167; 60_exceptions.md R436): what an access at one raises, what
the check made at decoding finds of the operands, and from both the alignment exception of each instruction, by the shape of its
meaning, with nothing changed before it. -/

namespace Sys2Proof.Proofs

open Sys2Proof.Machine Sys2Proof.Laws

variable {s : State} {lv : Level} {a ea p x : Word} {n : Nat} {z : Sz} {k : Prefix} {op : DyOp} {f : Sys2Proof.Dyadic} {e : Exc}

/-! ## An access at a misaligned address -/

theorem aligned_eq_false : aligned a n = false ↔ a.toNat % n ≠ 0 := by simp [aligned]

theorem alignCheck_misaligned (h : a.toNat % n ≠ 0) : alignCheck a n s = .error (.exc .alignment) s := by
  simp [alignCheck, aligned_eq_false.2 h]

theorem memRead_misaligned (lv : Level) (h : a.toNat % n ≠ 0) : memRead lv a n s = .error (.exc .alignment) s := by
  simp [memRead, alignCheck_misaligned h]

theorem readOpd_misaligned (lv : Level) (late : Wide → Bool) (h : ea.toNat % szBytes z ≠ 0) :
    readOpd lv late (.mem ea z) s = .error (.exc .alignment) s := by
  simp [readOpd, memRead_misaligned lv h]

theorem checkDst_misaligned (lv : Level) (h : ea.toNat % szBytes z ≠ 0) :
    checkDst lv (.mem ea z) s = .error (.exc .alignment) s := by
  simp [checkDst, checkWrite, alignCheck_misaligned h]

theorem checkBoth_misaligned (lv : Level) (h : ea.toNat % szBytes z ≠ 0) :
    checkBoth lv (.mem ea z) s = .error (.exc .alignment) s := by
  simp [checkBoth, alignCheck_misaligned h]

/-- An exception raised with nothing changed is taken as the instruction's (R405). -/
theorem run_takes {m : M Unit} (h : m s = .error (.exc e) s) : run m s = takes e s := run_exc h

/-! ## What the encoding shows of an operand (R436) -/

/-- What decoding asks of the source: the whole operand, of MOVA's only its pointer word (R262). -/
def sourceAligned (op : DyOp) (x : Arg) : Bool := if op = .mova then x.pointerAligned else x.alignedNow

theorem alignedNow_iff (x : Arg) : x.alignedNow = true ↔ ¬x.skew szBytes := by
  cases x <;> simp [Arg.alignedNow, Arg.skew, aligned]

theorem sourceAligned_iff (op : DyOp) (x : Arg) : sourceAligned op x = true ↔ ¬x.skew (srcBytes op) := by
  by_cases hm : op = .mova
  · cases x <;> simp [sourceAligned, hm, Arg.pointerAligned, Arg.skew, srcBytes, aligned, Nat.mod_one]
  · have bytes : srcBytes op = szBytes := funext fun z => if_neg hm
    rw [sourceAligned, if_neg hm, alignedNow_iff, bytes]

theorem blockAligned_iff (n : Nat) (x : Arg) : x.blockAligned n = true ↔ ¬x.skew fun _ => n := by
  cases x <;> simp [Arg.blockAligned, Arg.skew, aligned]

/-- A register shows no address. -/
theorem isReg_of_skew {b : Sz → Nat} {x : Arg} (h : x.skew b) : x.isReg = false := by
  cases x with
  | reg c => exact h.elim
  | _ => rfl

/-- Decoding finds a misaligned address after a rejected mode, a missing register and two register reads. -/
theorem precheck_misaligned {x y : Arg} {al : Bool} (hf : f.accepted k op = true) (hx : x.noReg = false) (hy : y.noReg = false)
    (h2 : (x.isReg && y.isReg) = false) (ha : (al && y.alignedNow) = false) :
    precheck k op f x y al s = .error (.exc .alignment) s := by
  simp [precheck, hf, hx, hy, h2, ha]

/-! ## The shapes of the dyadic instructions -/

/-- The three shapes of a dyadic instruction that is neither MOVA, DQM nor interlocked, with what each may see untruncated (R495). -/
inductive Shape (op : DyOp) (k : Prefix) (f : Sys2Proof.Dyadic) : M Unit → Prop
  | toDst (alu : Word → Word → AluOut) (late : ∀ da, lateFor op da = lateOp op da.bytes) : Shape op k f (dyadicToDst op k f alu)
  | toAcc (alu : Word → Word → AluOut) (late : ∀ da, lateFor op da = lateOp op 4) : Shape op k f (dyadicToAcc op k f alu)
  | compare (rel : Word → Word → Bool) (late : ∀ da, lateFor op da = lateOp op 0) : Shape op k f (dyadicCompare op k f rel)

theorem dyadicM_shape (hd : op ≠ .dqm) (hm : op ≠ .mova) (hl : op ∉ [.addi, .andi, .ori]) : Shape op k f (dyadicM op k f) := by
  cases op with
  | dqm | mova => contradiction
  | addi | andi | ori => simp at hl
  | cmpgt | cmphi | cmpeq => exact .compare _ fun _ => rfl
  | mov | tadd | tsub | add | sub | mul | div | rem | udiv | urem | and | or | xor | shl | shr | ushr =>
    exact .toDst _ fun _ => rfl
  | add3 | sub3 | mul3 | div3 | rem3 | and3 | or3 | xor3 | shl3 | shr3 | ushr3 => exact .toAcc _ fun _ => rfl

/-- ADDI, ANDI and ORI have one shape. -/
theorem dyadicM_locked (hl : op ∈ [.addi, .andi, .ori]) :
    (∃ alu, dyadicM op k f = interlocked op k f alu) ∧ op ≠ .mova ∧ ∀ da, lateFor op da = fun _ => false := by
  simp only [List.mem_cons, List.not_mem_nil, or_false] at hl
  rcases hl with rfl | rfl | rfl <;> exact ⟨⟨_, rfl⟩, by simp, fun _ => rfl⟩

/-! ## What the shapes raise -/

section
variable {m : M Unit}

/-- What decoding finds, the instruction raises. -/
theorem Shape.precheck_error {r : Stop} (hm : Shape op k f m)
    (h : precheck k op f (srcArg s k f) (dstArg s k f) (srcArg s k f).alignedNow s = .error r s) : m s = .error r s := by
  cases hm with
  | toDst alu late => simp [dyadicToDst, h]
  | toAcc alu late => simp [dyadicToAcc, h]
  | compare rel late => simp [dyadicCompare, h]

/-- A pointer of the source that gives a misaligned address. -/
theorem Shape.source_misaligned (hm : Shape op k f m)
    (hpre : precheck k op f (srcArg s k f) (dstArg s k f) (srcArg s k f).alignedNow s = .ok () s)
    (hs : s.opd? (srcArg s k f) = some (.mem ea z)) (hea : ea.toNat % szBytes z ≠ 0) : m s = .error (.exc .alignment) s := by
  have read (late : Wide → Bool) := readOpd_misaligned (s := s) s.level late hea
  cases hm with
  | toDst alu late => simp [dyadicToDst, hpre, resolve_ok hs, read]
  | toAcc alu late => simp [dyadicToAcc, hpre, resolve_ok hs, read]
  | compare rel late => simp [dyadicCompare, hpre, resolve_ok hs, read]

/-- A pointer of the destination that gives one, after a source that can be read: found by the read, or by the check of the write. -/
theorem Shape.dest_misaligned {o : Opd} (hm : Shape op k f m)
    (hpre : precheck k op f (srcArg s k f) (dstArg s k f) (srcArg s k f).alignedNow s = .ok () s)
    (hs : s.opd? (srcArg s k f) = some o) (hc : s.settled (lateFor op (dstArg s k f)) o = true) (hv : s.value? o = some a)
    (hd : s.opd? (dstArg s k f) = some (.mem ea z)) (hea : ea.toNat % szBytes z ≠ 0) : m s = .error (.exc .alignment) s := by
  have read (late : Wide → Bool) := readOpd_misaligned (s := s) s.level late hea
  have source := readOpd_ok hc hv
  cases hm with
  | toDst alu late =>
    rw [late] at source
    cases hr : op.readsDst <;>
      simp [dyadicToDst, hpre, resolve_ok hs, source, resolve_ok hd, hr, read, checkDst_misaligned s.level hea]
  | toAcc alu late =>
    rw [late] at source
    simp [dyadicToAcc, hpre, resolve_ok hs, source, resolve_ok hd, read]
  | compare rel late =>
    rw [late] at source
    simp [dyadicCompare, hpre, resolve_ok hs, source, resolve_ok hd, read]

end

/-- What decoding finds, every dyadic instruction but DQM raises. -/
theorem dyadicM_precheck_error {r : Stop} (hd : op ≠ .dqm)
    (h : precheck k op f (srcArg s k f) (dstArg s k f) (sourceAligned op (srcArg s k f)) s = .error r s) :
    dyadicM op k f s = .error r s := by
  by_cases hm : op = .mova
  · subst hm
    have h : precheck k .mova f (srcArg s k f) (dstArg s k f) (srcArg s k f).pointerAligned s = .error r s := h
    simp [dyadicM, movaM, moveAddress, h]
  · rw [sourceAligned, if_neg hm] at h
    by_cases hl : op ∈ [.addi, .andi, .ori]
    · obtain ⟨⟨alu, shape⟩, -⟩ := dyadicM_locked (k := k) (f := f) hl
      simp [shape, interlocked, h]
    · exact (dyadicM_shape hd hm hl).precheck_error h

/-- A two-operand instruction with a misaligned address that its encoding and the stack pointers show. -/
theorem misalignedKnown : MisalignedKnown := by
  intro k op f s hd hf hx hy h
  rw [exec_dyadicInstr]
  refine run_takes (dyadicM_precheck_error hd (precheck_misaligned hf hx hy ?_ ?_))
  · rw [Bool.and_eq_false_iff]
    exact h.imp isReg_of_skew isReg_of_skew
  · rw [Bool.and_eq_false_iff, ← Bool.not_eq_true, ← Bool.not_eq_true, sourceAligned_iff, alignedNow_iff, not_not, not_not]
    exact h

/-! ## Addresses that pointers give -/

/-- An operand whose address a pointer gives. -/
theorem opd?_ptr (h : s.load? s.level p 4 = some ea) : s.opd? (.ptr p z) = some (.mem ea z) := by
  simp [State.opd?, h]

/-- A pointer that can be read passes the check made at decoding. -/
theorem ptr_alignedNow (h : s.load? s.level p 4 = some ea) : (Arg.ptr p z).alignedNow = true := aligned_of_load h

/-- MOVA's destination, after a source whose address is known (R262). -/
theorem moveAddress_misaligned (hf : f.accepted k .mova = true) (ha : s.addr? (srcArg s k f) = some a)
    (hl : s.load? s.level p 4 = some ea) (hd : dstArg s k f = .ptr p z) (hea : ea.toNat % szBytes z ≠ 0) :
    moveAddress k f s = .error (.exc .alignment) s := by
  have source : (srcArg s k f).noReg = false ∧ (srcArg s k f).pointerAligned = true ∧
      addrOf s.level (srcArg s k f) s = .ok a s := by
    cases hs : srcArg s k f with
    | mem b y => rw [hs] at ha; exact ⟨rfl, rfl, by simpa [addrOf, State.addr?] using ha⟩
    | ptr q y => rw [hs] at ha; exact ⟨rfl, aligned_of_load ha, memRead_ok ha⟩
    | imm v | reg c => rw [hs] at ha; cases ha
  obtain ⟨hn, hpa, haddr⟩ := source
  have hpre : precheck k .mova f (srcArg s k f) (.ptr p z) (srcArg s k f).pointerAligned s = .ok () s :=
    precheck_ok hf hn rfl (by simp [Arg.isReg]) hpa (ptr_alignedNow hl)
  simp [moveAddress, hd, hpre, haddr, resolve_ok (opd?_ptr (z := z) hl), checkDst_misaligned s.level hea]

/-- With no untruncated result to be seen, an operand that no hazard meets is met by none once those results are settled (R108). -/
theorem settled_settleWides {o : Opd} (h : s.settled (fun _ => false) o = true) :
    s.settleWides.settled (fun _ => false) o = true := by
  cases o with
  | imm v => rfl
  | mem b y => simp [State.settled, State.lateWides]
  | reg r =>
    have psws : s.settleWides.oldPsws = s.oldPsws := by simp [State.oldPsws, State.settleWides, List.filterMap_map]
    have shads : s.settleWides.oldShads = s.oldShads := by simp [State.oldShads, State.settleWides, List.filterMap_map]
    cases r <;> simp_all [State.settled, State.regSettled]

/-- The start of an interlocked instruction with nothing buffered and nothing lost: only the untruncated results are settled. -/
theorem drainPoint_nil (hs : s.alone = true) (hb : s.storeBuf = []) (hl : s.lostStores = 0) : drainPoint s = .ok () s := by
  have h := drainPoint_ok hs (by rw [drainAll_nil hb]; exact hl)
  rwa [drainAll_nil hb] at h

theorem interlocked_source_misaligned {alu : Word → Word → Word} (hs : s.alone = true) (hb : s.storeBuf = [])
    (hl : s.lostStores = 0)
    (hpre : precheck k op f (srcArg s k f) (dstArg s k f) (srcArg s k f).alignedNow s = .ok () s)
    (ho : s.opd? (srcArg s k f) = some (.mem ea z)) (hea : ea.toNat % szBytes z ≠ 0) :
    interlocked op k f alu s = .error (.exc .alignment) s.settleWides := by
  have resolved : resolve s.level (srcArg s k f) s.settleWides = .ok (.mem ea z) s.settleWides := resolve_ok (s := s.settleWides) ho
  simp [interlocked, hpre, drainPoint_nil hs hb hl, resolved, readOpd_misaligned s.level _ hea]

theorem interlocked_dest_misaligned {alu : Word → Word → Word} {o : Opd} (hs : s.alone = true) (hb : s.storeBuf = [])
    (hl : s.lostStores = 0)
    (hpre : precheck k op f (srcArg s k f) (dstArg s k f) (srcArg s k f).alignedNow s = .ok () s)
    (ho : s.opd? (srcArg s k f) = some o) (hc : s.settled (fun _ => false) o = true) (hv : s.value? o = some a)
    (hd : s.opd? (dstArg s k f) = some (.mem ea z)) (hea : ea.toNat % szBytes z ≠ 0) :
    interlocked op k f alu s = .error (.exc .alignment) s.settleWides := by
  have resolved : resolve s.level (srcArg s k f) s.settleWides = .ok o s.settleWides := resolve_ok (s := s.settleWides) ho
  have source : readOpd s.level (fun _ => false) o s.settleWides = .ok a s.settleWides := by
    refine readOpd_ok (s := s.settleWides) (settled_settleWides hc) ?_
    cases o <;> exact hv
  have dest : resolve s.level (dstArg s k f) s.settleWides = .ok (.mem ea z) s.settleWides := resolve_ok (s := s.settleWides) hd
  simp [interlocked, hpre, drainPoint_nil hs hb hl, resolved, source, dest, checkBoth_misaligned s.level hea]

/-- The exception of an interlocked instruction that has only settled the untruncated results: taking it clears them (R420). -/
theorem run_takes_settled {m : M Unit} (hs : s.alone = true) (h : m s = .error (.exc e) s.settleWides) : run m s = takes e s := by
  rw [run_exc h, exceptionSequence_settleWides hs]; rfl

/-- A two-operand instruction one of whose pointers gives a misaligned address. -/
theorem misalignedPointee : MisalignedPointee := by
  intro k op f s p ea z hd hf hlock hl hea h
  rw [exec_dyadicInstr]
  rcases h with ⟨hm, hsa, hdn, hds⟩ | ⟨hda, hsrc⟩
  · have hs : s.opd? (srcArg s k f) = some (.mem ea z) := by rw [hsa]; exact opd?_ptr hl
    have hpre : precheck k op f (srcArg s k f) (dstArg s k f) (srcArg s k f).alignedNow s = .ok () s := by
      rw [hsa]
      exact precheck_ok hf rfl hdn rfl (ptr_alignedNow hl) ((alignedNow_iff _).2 hds)
    by_cases hlk : op ∈ [.addi, .andi, .ori]
    · obtain ⟨hb, hlost, hs'⟩ := hlock hlk
      obtain ⟨⟨alu, shape⟩, -⟩ := dyadicM_locked (k := k) (f := f) hlk
      rw [shape]
      exact run_takes_settled hs' (interlocked_source_misaligned hs' hb hlost hpre hs hea)
    · exact run_takes ((dyadicM_shape hd hm hlk).source_misaligned hpre hs hea)
  · by_cases hm : op = .mova
    · subst hm
      obtain ⟨a, ha⟩ := Option.isSome_iff_exists.1 (if_pos rfl ▸ hsrc)
      exact run_takes (moveAddress_misaligned hf ha hl hda hea)
    · rw [if_neg hm] at hsrc
      obtain ⟨hset, hsome⟩ := hsrc
      obtain ⟨a, ha⟩ := Option.isSome_iff_exists.1 hsome
      have dest : s.opd? (dstArg s k f) = some (.mem ea z) := by rw [hda]; exact opd?_ptr hl
      obtain ⟨o, ho, hv, hn, hal, -⟩ := operands_ok ha dest
      have hc : s.settled (lateFor op (dstArg s k f)) o = true := by rwa [State.srcSettled, ho] at hset
      have hpre : precheck k op f (srcArg s k f) (dstArg s k f) (srcArg s k f).alignedNow s = .ok () s := by
        rw [hda]
        exact precheck_ok hf hn rfl (by simp [Arg.isReg]) hal (ptr_alignedNow hl)
      by_cases hlk : op ∈ [.addi, .andi, .ori]
      · obtain ⟨hb, hlost, hs'⟩ := hlock hlk
        obtain ⟨⟨alu, shape⟩, -, late⟩ := dyadicM_locked (k := k) (f := f) hlk
        rw [late] at hc
        rw [shape]
        exact run_takes_settled hs' (interlocked_dest_misaligned hs' hb hlost hpre ho hc hv dest hea)
      · exact run_takes ((dyadicM_shape hd hm hlk).dest_misaligned hpre ho hc hv dest hea)

/-! ## Blocks (R263) -/

/-- A DQM whose destination mode names neither of its sizes. -/
theorem blockMove_noSize (hf : f.accepted k .dqm = true) (hn : dqmWords (dmodeOf f) = none) :
    blockMove k f s = .error (.exc .alignment) s := by
  simp [blockMove, hf, hn]

/-- A DQM with a misaligned address that its encoding and the stack pointers show. -/
theorem blockMove_skew (hf : f.accepted k .dqm = true) (hn : dqmWords (dmodeOf f) = some n)
    (h : (srcArg s k f).skew (fun _ => 4 * n) ∨ (dstArg s k f).skew fun _ => 4 * n) :
    blockMove k f s = .error (.exc .alignment) s := by
  have check : (!(srcArg s k f).blockAligned (4 * n) || !(dstArg s k f).blockAligned (4 * n)) = true := by
    rw [Bool.or_eq_true, Bool.not_eq_true', Bool.not_eq_true', ← Bool.not_eq_true, ← Bool.not_eq_true, blockAligned_iff,
      blockAligned_iff, not_not, not_not]
    exact h
  simp [blockMove, hf, hn, check]

/-- A block operand whose pointer gives a misaligned address. -/
theorem resolveBlock_misaligned (hl : s.load? s.level p 4 = some ea) (h : ea.toNat % n ≠ 0) :
    resolveBlock s.level n (.ptr p z) s = .error (.exc .alignment) s := by
  simp [resolveBlock, resolve_ok (opd?_ptr (z := z) hl), Opd.blockAligned, aligned_eq_false.2 h]

/-- A block operand with an aligned address, and what decoding finds of it. -/
theorem resolveBlock_ok {q : Arg} {o : Opd} (ho : s.opd? q = some o) (ha : ∀ b y, o = .mem b y → b.toNat % n = 0) :
    q.blockAligned n = true ∧ resolveBlock s.level n q s = .ok o s := by
  have hb : o.blockAligned n = true := by
    cases o with
    | mem b y => simpa [Opd.blockAligned, aligned] using ha b y rfl
    | imm v | reg r => rfl
  refine ⟨?_, by simp [resolveBlock, resolve_ok ho, hb]⟩
  cases q with
  | mem b y => cases ho; exact hb
  | ptr r y =>
    obtain ⟨b, hq, -⟩ := Option.map_eq_some_iff.1 ho
    exact aligned_of_load hq
  | imm v | reg c => rfl

/-- A DQM whose source's pointer gives a misaligned address. -/
theorem blockMove_source (hf : f.accepted k .dqm = true) (hn : dqmWords (dmodeOf f) = some n) (hs : srcArg s k f = .ptr p z)
    (hl : s.load? s.level p 4 = some ea) (h : ea.toNat % (4 * n) ≠ 0) (hd : ¬(dstArg s k f).skew fun _ => 4 * n) :
    blockMove k f s = .error (.exc .alignment) s := by
  have source : (Arg.ptr p z).blockAligned (4 * n) = true := aligned_of_load hl
  simp [blockMove, hf, hn, hs, source, (blockAligned_iff _ _).2 hd, resolveBlock_misaligned hl h]

/-- A DQM whose destination's pointer gives one, after an aligned source. -/
theorem blockMove_dest {o : Opd} (hf : f.accepted k .dqm = true) (hn : dqmWords (dmodeOf f) = some n)
    (hd : dstArg s k f = .ptr p z) (hl : s.load? s.level p 4 = some ea) (h : ea.toNat % (4 * n) ≠ 0)
    (ho : s.opd? (srcArg s k f) = some o) (ha : ∀ b y, o = .mem b y → b.toNat % (4 * n) = 0) :
    blockMove k f s = .error (.exc .alignment) s := by
  have dest : (Arg.ptr p z).blockAligned (4 * n) = true := aligned_of_load hl
  obtain ⟨hal, source⟩ := resolveBlock_ok ho ha
  simp [blockMove, hf, hn, hd, hal, dest, source, resolveBlock_misaligned hl h]

/-- DQM. -/
theorem misalignedBlock : MisalignedBlock := by
  intro k f s hf
  refine ⟨fun b z hm h1 h4 => ?_, fun n hn => ?_⟩
  · rw [exec_dyadicInstr]
    exact run_takes (blockMove_noSize hf (by cases z <;> simp_all [dqmWords]))
  · obtain ⟨count, hw, rfl⟩ : ∃ count, dqmWords (dmodeOf f) = some count ∧ 4 * count = n := by
      rcases hn with ⟨b, hm, rfl⟩ | ⟨b, hm, rfl⟩
      · exact ⟨2, by rw [hm]; rfl, rfl⟩
      · exact ⟨4, by rw [hm]; rfl, rfl⟩
    refine ⟨fun h => ?_, fun p ea z hl hea h => ?_⟩ <;> rw [exec_dyadicInstr]
    · exact run_takes (blockMove_skew hf hw h)
    · rcases h with ⟨hs, hd⟩ | ⟨hd, o, ho, ha⟩
      · exact run_takes (blockMove_source hf hw hs hl hea hd)
      · exact run_takes (blockMove_dest hf hw hd hl hea ho ha)

/-! ## The monadic instructions -/

/-- The indirection word of a transfer (R285). -/
theorem target3_misaligned {m : FlowMode} (lv : Level) (hw : s.flowWord? m x = some a) (h : a.toNat % 4 ≠ 0) :
    target3 lv s m x s = .error (.exc .alignment) s := by
  cases m with
  | absInd | stkInd => cases hw; exact memRead_misaligned lv h
  | pcRel | abs => cases hw

/-- CALL looks at it before it stores the return address (R292, R436). -/
theorem callM_misaligned {m : FlowMode} (hw : s.flowWord? m x = some a) (h : a.toNat % 4 ≠ 0) :
    callM k (.p3 m x) s = .error (.exc .alignment) s := by
  have word : indirection s (.p3 m x) = some a := by
    cases m with
    | absInd | stkInd => exact hw
    | pcRel | abs => cases hw
  simp [callM, isIllegal, word, aligned_eq_false.2 h]

/-- The operand of KCALL: its own address, its pointer word's, or what the pointer gives (R169). -/
theorem wordValue_misaligned {m : WordMode} (h : a.toNat % 4 ≠ 0)
    (hw : wordArg s m x = .mem a .w ∨ wordArg s m x = .ptr a .w ∨
      ∃ p : Word, wordArg s m x = .ptr p .w ∧ s.load? s.level p 4 = some a) :
    wordValue s.level s m x s = .error (.exc .alignment) s := by
  have shown : aligned a 4 = false := aligned_eq_false.2 h
  rcases hw with hw | hw | ⟨p, hw, hl⟩
  · simp [wordValue, hw, Arg.alignedNow, szBytes, shown]
  · simp [wordValue, hw, Arg.alignedNow, shown]
  · have pointee : a.toNat % szBytes .w ≠ 0 := h
    simp [wordValue, hw, ptr_alignedNow (z := .w) hl, resolve_ok (opd?_ptr (z := .w) hl), readOpd_misaligned s.level _ pointee]

/-- The operand word of ENTER and CATCH (R300, R296). -/
theorem replaceTarget_misaligned {base : Word} {m : WordMode} (lv : Level) (hw : operandWord? base m x = some a)
    (h : a.toNat % 4 ≠ 0) : replaceTarget lv base m x s = .error (.exc .alignment) s := by
  cases m with
  | abs | ind => cases hw; exact memRead_misaligned lv h
  | imm | stk => cases hw

theorem enterM_misaligned {m : WordMode} (hok : s.scOk = true) (hw : operandWord? s.csp m x = some a) (h : a.toNat % 4 ≠ 0) :
    enterM k (.p3 m x) s = .error (.exc .alignment) s := by
  have word := replaceTarget_misaligned (s := s) s.level hw h
  cases m with
  | abs | ind => simp [enterM, hok, word]
  | imm | stk => cases hw

theorem catchScM_misaligned {m : WordMode} (hok : s.scOk = true) (hs : s.psw.s = true)
    (hw : operandWord? s.sp m x = some a) (h : a.toNat % 4 ≠ 0) :
    catchScM k (.p3 m x) s = .error (.exc .alignment) s := by
  simp [catchScM, isIllegal, hok, hs, catchTarget, replaceTarget_misaligned (s := s) s.level hw h]

/-- RETURN's slot (R294). -/
theorem retM_misaligned (hok : s.scOk = true) (hx : 0 ≤ x.toInt) (h : (s.csp + x).toNat % 4 ≠ 0) :
    retM (.p3 () x) s = .error (.exc .alignment) s := by
  have positive : x.msb = false := by rw [BitVec.msb_eq_toInt]; simpa using hx
  simp [retM, isIllegal, popOffset, positive, hok, memReadW, memRead_misaligned s.level h]

/-- The pointer word of FLUSHPTE and FLUSHPBE (R385). -/
theorem flushAddr_misaligned (h : (s.csp + x).toNat % 4 ≠ 0) : flushAddr (.p3 .ind x) s = .error (.exc .alignment) s := by
  have named : (WordMode.ind == WordMode.imm) = false := rfl
  simp [flushAddr, named, wordArg, argOf, WordMode.toMode, Arg.pointerAligned, aligned_eq_false.2 h]

/-- The monadic instructions. -/
theorem misalignedWord : MisalignedWord := by
  intro k i s x a h
  refine ⟨fun m hw hi => ?_, fun m hw hi => ?_, fun m hok hw => ?_, fun hok hx ha hi => ?_, fun ha hi => ?_⟩
  · have target := target3_misaligned s.level hw h
    rcases hi with hi | hi | hi
    · rw [exec_call hi]; exact run_takes (callM_misaligned hw h)
    · rw [exec_jmp hi]; exact run_takes (by simp [jmpM, flowTarget, target])
    · rw [exec_ldraa hi]; exact run_takes (by simp [ldraaM, target])
  · rw [exec_kcall hi]; exact run_takes (by simp [kcallM, wordValue_misaligned h hw])
  · rcases hw with ⟨hw, hi⟩ | ⟨hw, hs, hi⟩
    · rw [exec_enter hi]; exact run_takes (enterM_misaligned hok hw h)
    · rw [exec_catch hi]; exact run_takes (catchScM_misaligned hok hs hw h)
  · subst ha
    rw [exec_ret hi]; exact run_takes (retM_misaligned hok hx h)
  · subst ha
    rcases hi with hi | hi
    · rw [exec_flushpte hi]; exact run_takes (by simp [flushpteM, flushAddr_misaligned h])
    · rw [exec_flushpbe hi]; exact run_takes (by simp [flushpbeM, flushAddr_misaligned h])

/-- Settles O55: the checks made at decoding, then those of the addresses that pointers give, each before any change. -/
theorem misalignedOperand : Obligations.MisalignedOperand :=
  ⟨misalignedKnown, misalignedPointee, misalignedBlock, misalignedWord⟩

end Sys2Proof.Proofs
end

section
/-! PROOF. Decoding and encoding are inverse to each other (30_encoding.md R140 to R152, R170): a layout holds its fields and a parcel
is the layout of its fields; each table of codes is inverse to its reading; from these the first parcels, the long instructions and the
one-parcel instructions, and from those the decoder. -/

namespace Sys2Proof.Proofs

open Sys2Proof.Machine Sys2Proof.Laws

/-! ## The fields of a layout (R141, R143) -/

@[simp] theorem isLong_layoutT (op : BitVec 5) (f : BitVec 10) : isLong (layoutT op f) = false := by
  show ((0#1 ++ op) ++ f).getLsbD 15 = false
  simp only [BitVec.getLsbD_append]
  rfl

@[simp] theorem op5_layoutT (op : BitVec 5) (f : BitVec 10) : op5 (layoutT op f) = op := by
  rw [op5, layoutT, BitVec.extractLsb'_append_eq_of_le (by decide)]
  exact BitVec.extractLsb'_append_eq_right

@[simp] theorem low10_layoutT (op : BitVec 5) (f : BitVec 10) : low10 (layoutT op f) = f := BitVec.extractLsb'_append_eq_right

theorem src5_layoutT (op : BitVec 5) (f : BitVec 10) : src5 (layoutT op f) = f.extractLsb' 5 5 :=
  BitVec.extractLsb'_append_eq_of_add_le (by decide)

theorem dst5_layoutT (op : BitVec 5) (f : BitVec 10) : dst5 (layoutT op f) = f.extractLsb' 0 5 :=
  BitVec.extractLsb'_append_eq_of_add_le (by decide)

theorem sub2_layoutT (op : BitVec 5) (f : BitVec 10) : sub2 (layoutT op f) = f.extractLsb' 8 2 :=
  BitVec.extractLsb'_append_eq_of_add_le (by decide)

theorem low8_layoutT (op : BitVec 5) (f : BitVec 10) : low8 (layoutT op f) = f.extractLsb' 0 8 :=
  BitVec.extractLsb'_append_eq_of_add_le (by decide)

@[simp] theorem isLong_layoutL (five : Bool) (op : BitVec 6) (hi lo : BitVec 4) : isLong (layoutL five op hi lo) = true := by
  show (((1#1 ++ BitVec.ofBool five) ++ op) ++ (hi ++ lo)).getLsbD 15 = true
  rw [BitVec.getLsbD_append, BitVec.getLsbD_append, BitVec.getLsbD_append, BitVec.getLsbD_append]
  simp

@[simp] theorem isFive_layoutL (five : Bool) (op : BitVec 6) (hi lo : BitVec 4) : isFive (layoutL five op hi lo) = five := by
  show (((1#1 ++ BitVec.ofBool five) ++ op) ++ (hi ++ lo)).getLsbD 14 = five
  rw [BitVec.getLsbD_append, BitVec.getLsbD_append, BitVec.getLsbD_append, BitVec.getLsbD_append]
  simp

@[simp] theorem op6_layoutL (five : Bool) (op : BitVec 6) (hi lo : BitVec 4) : op6 (layoutL five op hi lo) = op := by
  rw [op6, layoutL, BitVec.extractLsb'_append_eq_of_le (by decide)]
  exact BitVec.extractLsb'_append_eq_right

@[simp] theorem smode_layoutL (five : Bool) (op : BitVec 6) (hi lo : BitVec 4) : smode (layoutL five op hi lo) = hi := by
  rw [smode, layoutL, BitVec.extractLsb'_append_eq_of_add_le (by decide)]
  exact BitVec.extractLsb'_append_eq_left

@[simp] theorem dmode_layoutL (five : Bool) (op : BitVec 6) (hi lo : BitVec 4) : dmode (layoutL five op hi lo) = lo := by
  rw [dmode, layoutL, BitVec.extractLsb'_append_eq_of_add_le (by decide)]
  exact BitVec.extractLsb'_append_eq_right

/-- One bit as a field. -/
theorem ofBool_getLsbD {w : Nat} (x : BitVec w) (i : Nat) : BitVec.ofBool (x.getLsbD i) = x.extractLsb' i 1 := by
  ext j hj
  obtain rfl : j = 0 := by omega
  simp

/-- Neighbouring fields of a parcel are one field. -/
theorem append_fields (p : Parcel) {i j n : Nat} (m : Nat) (h : j = i + n) :
    p.extractLsb' j m ++ p.extractLsb' i n = p.extractLsb' i (m + n) :=
  BitVec.extractLsb'_append_extractLsb'_eq_extractLsb' h

/-- A parcel with bit 15 clear is the layout of its opcode and its field. -/
theorem layoutT_fields {p : Parcel} (h : isLong p = false) : layoutT (op5 p) (low10 p) = p := by
  have top : 0#1 = p.extractLsb' 15 1 := by rw [← ofBool_getLsbD]; exact congrArg BitVec.ofBool h.symm
  have upper : 0#1 ++ op5 p = p.extractLsb' 10 6 := top ▸ append_fields p 1 rfl
  exact (congrArg (· ++ low10 p) upper).trans ((append_fields p 6 rfl).trans BitVec.extractLsb'_eq_self)

/-- Its field is a source field above a destination field. -/
theorem src5_append_dst5 (p : Parcel) : src5 p ++ dst5 p = low10 p := append_fields p 5 rfl

/-- Or a subcode above eight bits. -/
theorem sub2_append_low8 (p : Parcel) : sub2 p ++ low8 p = low10 p := append_fields p 2 rfl

/-- A parcel with bit 15 set is the layout of its opcode and its two mode fields. -/
theorem layoutL_fields {p : Parcel} (h : isLong p = true) : layoutL (isFive p) (op6 p) (smode p) (dmode p) = p := by
  have top : 1#1 = p.extractLsb' 15 1 := by rw [← ofBool_getLsbD]; exact congrArg BitVec.ofBool h.symm
  have five : BitVec.ofBool (isFive p) = p.extractLsb' 14 1 := ofBool_getLsbD p 14
  have upper : (1#1 ++ BitVec.ofBool (isFive p)) ++ op6 p = p.extractLsb' 8 8 := by
    rw [top, five, append_fields p (n := 1) (i := 14) 1 rfl]
    exact append_fields p 2 rfl
  have lower : smode p ++ dmode p = p.extractLsb' 0 8 := append_fields p 4 rfl
  rw [layoutL, upper, lower]
  exact (append_fields p 8 rfl).trans BitVec.extractLsb'_eq_self

/-! ## The tables of codes (R148 to R150, R161, R162) -/

@[simp] theorem Mode.ofCode_code (m : Mode) : Mode.ofCode m.code = m := by
  cases m with
  | imm => rfl
  | mem b z => cases b <;> cases z <;> rfl

@[simp] theorem Mode.code_ofCode (c : BitVec 4) : (Mode.ofCode c).code = c := by
  revert c; decide

@[simp] theorem DyOp.ofCode_code (op : DyOp) : DyOp.ofCode op.code = some op := by cases op <;> rfl

theorem DyOp.code_of_ofCode {c : BitVec 6} {op : DyOp} (h : DyOp.ofCode c = some op) : op.code = c := by
  have all : ∀ c : BitVec 6, (DyOp.ofCode c).all (fun op => op.code == c) = true := by decide
  simpa [h] using all c

/-- No dyadic mnemonic has the opcode of the monadic group. -/
theorem DyOp.code_ne_zero (op : DyOp) : op.code ≠ 0#6 := by cases op <;> decide

@[simp] theorem MonOp.ofCode_code (op : MonOp) : MonOp.ofCode op.code = op := by
  cases op with
  | word op | flow op | stack op => cases op <;> rfl
  | flushdce | unimp => rfl

@[simp] theorem MonOp.code_ofCode (c : BitVec 4) : (MonOp.ofCode c).code = c := by revert c; decide

@[simp] theorem WordMode.ofMode_toMode (m : WordMode) : WordMode.ofMode m.toMode = some m := by cases m <;> rfl

@[simp] theorem FlowMode.ofMode_toMode (m : FlowMode) : FlowMode.ofMode m.toMode = some m := by cases m <;> rfl

theorem WordMode.isWord_toMode (m : WordMode) : m.toMode.isWord = true := by cases m <;> rfl

theorem FlowMode.isWord_toMode (m : FlowMode) : m.toMode.isWord = true := by cases m <;> rfl

/-- A mode of code 0xC or above is a word mode. -/
theorem WordMode.exists_toMode {m : Mode} (h : m.isWord = true) : ∃ w : WordMode, w.toMode = m := by
  cases m with
  | imm => exact ⟨.imm, rfl⟩
  | mem b z =>
    cases z with
    | w => cases b <;> [exact ⟨.abs, rfl⟩; exact ⟨.stk, rfl⟩; exact ⟨.ind, rfl⟩]
    | b | ub | h | uh => cases h

/-- And a control-transfer mode. -/
theorem FlowMode.exists_toMode {m : Mode} (h : m.isWord = true) : ∃ w : FlowMode, w.toMode = m := by
  cases m with
  | imm => exact ⟨.abs, rfl⟩
  | mem b z =>
    cases z with
    | w => cases b <;> [exact ⟨.absInd, rfl⟩; exact ⟨.stkInd, rfl⟩; exact ⟨.pcRel, rfl⟩]
    | b | ub | h | uh => cases h

/-! ## The first parcel of a long instruction (R148 to R152) -/

/-- The parcel a head is read from. -/
def headParcel : Head → Parcel
  | .dyadic five op sm dm | .badDyadic five op sm dm => layoutL five op.code sm.code dm.code
  | .monadic op m | .badMonadic op m => layoutL false 0 m.code op.code
  | .unimp five op sm dm => layoutL five op sm.code dm.code

theorem isLong_headParcel (h : Head) : isLong (headParcel h) = true := by cases h <;> exact isLong_layoutL ..

/-- A head that fits the maps is read from its parcel. -/
theorem headOf_headParcel {k : Prefix} {h : Head} (hf : Head.Fits k h) : headOf k (headParcel h) = h := by
  cases h with
  | dyadic five op sm dm | badDyadic five op sm dm =>
    have hl : op.legal k sm dm = _ := hf
    simp [headOf, headParcel, DyOp.code_ne_zero, hl]
  | monadic op m | badMonadic op m =>
    have ht : op.takes m = _ := hf
    simp [headOf, headParcel, ht]
  | unimp five op sm dm =>
    obtain ⟨hc, ho⟩ := hf
    have group : ¬(five = false ∧ op = 0) := fun ⟨hg, hz⟩ => ho.elim (by simp [hg]) (fun h => h hz)
    simp only [headOf, headParcel, isFive_layoutL, op6_layoutL, if_neg group, hc, smode_layoutL, dmode_layoutL, Mode.ofCode_code]

/-- A long parcel is the one its head is read from. -/
theorem headParcel_headOf (k : Prefix) {p : Parcel} (hp : isLong p = true) : headParcel (headOf k p) = p := by
  unfold headOf
  dsimp only
  split
  · obtain ⟨hf, ho⟩ := ‹_ ∧ _›
    have layout : layoutL false 0 (smode p) (dmode p) = p := by simpa [hf, ho] using layoutL_fields hp
    split <;> simpa [headParcel] using layout
  · have layout := layoutL_fields hp
    split
    · have code := DyOp.code_of_ofCode ‹_›
      split <;> simpa [headParcel, code] using layout
    · simpa [headParcel] using layout

/-! ## Long instructions (R143, R144) -/

/-- An operand's two parcels make it up. -/
theorem halves_append (x : Word) : x.extractLsb' 16 16 ++ x.extractLsb' 0 16 = x :=
  (BitVec.extractLsb'_append_extractLsb'_eq_extractLsb' rfl).trans BitVec.extractLsb'_eq_self

theorem wordParcels_of_append (a b : Parcel) : wordParcels (a ++ b) = [a, b] := by
  rw [wordParcels, BitVec.extractLsb'_append_eq_left, BitVec.extractLsb'_append_eq_right]

/-- The parcels are a head's and those after it, from which any text gives the body. -/
def LongText (k : Prefix) (ps : List Parcel) (b : CpuBody) : Prop :=
  ∃ h r, Head.Fits k h ∧ ps = headParcel h :: r ∧ ∀ rest, decodeLong h (r ++ rest) = .ok (b, rest)

variable {k : Prefix}

theorem dyadic_longText {op : DyOp} {f : Sys2Proof.Dyadic} (hf : f.wf k op = true) (hp : ∀ s d, f ≠ .p1 s d) :
    LongText k (encodeDyadic op f) (.dyadic op f) := by
  cases f with
  | p1 s d => exact absurd rfl (hp s d)
  | p3 sm dm a b => exact ⟨.dyadic false op sm dm, [a, b], hf, rfl, fun _ => rfl⟩
  | p5 sm dm a b =>
    refine ⟨.dyadic true op sm dm, wordParcels a ++ wordParcels b, hf, rfl, fun rest => ?_⟩
    show Except.ok (CpuBody.dyadic op (.p5 sm dm (_ ++ _) (_ ++ _)), rest) = _
    rw [halves_append, halves_append]
  | illegal five sm dm => exact ⟨.badDyadic five op sm dm, [], by simpa [Dyadic.wf, Head.Fits] using hf, rfl, fun _ => rfl⟩

/-- A monadic operand that the mnemonic takes. -/
theorem mon3_longText {op : MonOp} {m : Mode} (x : Word) (ht : op.takes m = true) :
    LongText k (encodeMon3 op m x) (monadicBody op m x) := by
  refine ⟨.monadic op m, wordParcels x, ht, rfl, fun rest => ?_⟩
  show Except.ok (monadicBody op m (_ ++ _), rest) = _
  rw [halves_append]

/-- One that it rejects. -/
theorem monBad_longText {op : MonOp} {m : Mode} (ht : op.takes m = false) :
    LongText k (encodeMonBad op m) (badMonadicBody op m) := ⟨.badMonadic op m, [], ht, rfl, fun _ => rfl⟩

/-- A monadic form without a one-parcel field, its modes being ones the mnemonic takes. -/
theorem monadic_longText {M : Type} {op : MonOp} {mode : M → Mode} {body : Monadic Empty M → CpuBody} {f : Monadic Empty M}
    (ht : ∀ m, op.takes (mode m) = true) (h3 : ∀ m x, monadicBody op (mode m) x = body (.p3 m x))
    (hb : ∀ m, badMonadicBody op m = body (.illegal m)) (hf : f.wf op = true) :
    LongText k (encodeMonadic op Empty.elim mode f) (body f) := by
  cases f with
  | p1 e => exact e.elim
  | p3 m x => exact h3 m x ▸ mon3_longText x (ht m)
  | illegal m => exact hb m ▸ monBad_longText (by simpa [Monadic.wf] using hf)

theorem word_longText {op : WordOp} {f : Monadic Empty WordMode} (hf : f.wf (.word op) = true) :
    LongText k (encodeMonadic (.word op) Empty.elim WordMode.toMode f) (.word op f) :=
  monadic_longText WordMode.isWord_toMode (fun m x => by simp [monadicBody]) (fun _ => rfl) hf

theorem flow_longText {op : FlowOp} {f : Monadic Empty FlowMode} (hf : f.wf (.flow op) = true) :
    LongText k (encodeMonadic (.flow op) Empty.elim FlowMode.toMode f) (.flow op f) :=
  monadic_longText FlowMode.isWord_toMode (fun m x => by simp [monadicBody]) (fun _ => rfl) hf

theorem stack_longText {op : StkOp} {f : Monadic Empty Unit} (hf : f.wf (.stack op) = true) :
    LongText k (encodeMonadic (.stack op) Empty.elim stackMode f) (.stack op f) :=
  monadic_longText (fun _ => rfl) (fun _ _ => rfl) (fun _ => rfl) hf

theorem flushdce_longText (m : Mode) : LongText k (encodeMonBad .flushdce m) (.flushdce m) :=
  monBad_longText (op := .flushdce) rfl

theorem unimpl_longText {u : Unimpl} (hl : u.isLong = true) (hu : u.wf = true) :
    LongText k (encodeUnimpl u) (.unimplemented u) := by
  cases u with
  | monadic m => exact monBad_longText (op := .unimp) rfl
  | dyadic five op sm dm => exact ⟨.unimp five op sm dm, [], by simpa [Unimpl.wf, Head.Fits] using hu, rfl, fun _ => rfl⟩
  | p1 op low | niladic sc => cases hl

/-- Every long body after CPU (R170). -/
theorem body_longText {b : CpuBody} (hb : b.wf = true) (ho : ∀ p, b ≠ .oneParcel p) : LongText .cpu (encodeBody b) b := by
  cases b with
  | dyadic op f => exact dyadic_longText hb fun s d h => by rw [h] at hb; cases hb
  | word op f => exact word_longText hb
  | flow op f => exact flow_longText hb
  | stack op f => exact stack_longText hb
  | flushdce m => exact flushdce_longText m
  | unimplemented u =>
    obtain ⟨hl, hu⟩ := Bool.and_eq_true_iff.1 hb
    exact unimpl_longText hl hu
  | oneParcel p => exact absurd rfl (ho p)

theorem encodeBody_monadicBody {op : MonOp} {m : Mode} (ht : op.takes m = true) (x : Word) :
    encodeBody (monadicBody op m x) = encodeMon3 op m x := by
  cases op with
  | word op =>
    obtain ⟨w, rfl⟩ := WordMode.exists_toMode ht
    simp [monadicBody, encodeBody, encodeMonadic]
  | flow op =>
    obtain ⟨w, rfl⟩ := FlowMode.exists_toMode ht
    simp [monadicBody, encodeBody, encodeMonadic]
  | stack op =>
    obtain rfl : m = .mem .stk .w := beq_iff_eq.1 ht
    rfl
  | flushdce | unimp => cases ht

theorem encodeBody_badMonadicBody (op : MonOp) (m : Mode) : encodeBody (badMonadicBody op m) = encodeMonBad op m := by
  cases op <;> rfl

/-- The body read from a head that fits encodes to the head's parcel and the operand parcels read. -/
theorem encodeBody_decodeLong {h : Head} {r rest : List Parcel} {b : CpuBody} (hf : Head.Fits k h)
    (hd : decodeLong h r = .ok (b, rest)) : encodeBody b ++ rest = headParcel h :: r := by
  unfold decodeLong at hd
  split at hd <;> cases hd
  case h_2 => simp [encodeBody, encodeDyadic, wordParcels_of_append, headParcel]
  case h_5 =>
    rw [encodeBody_monadicBody hf, encodeMon3, wordParcels_of_append]
    rfl
  case h_7 =>
    rw [encodeBody_badMonadicBody]
    rfl
  all_goals rfl

/-! ## One-parcel instructions (R145 to R147) -/

/-- The pairs of operand types of Table 1-15. -/
theorem decodeShort_dyadic {op : DyOp} {s d : Short} (h : op.shortOk s d = true) :
    decodeShort (layoutD (op.shortCode s d) s.field d.field) = op.instr (.p1 s d) := by
  have src (c a b : BitVec 5) : src5 (layoutD c a b) = a := (src5_layoutT c _).trans BitVec.extractLsb'_append_eq_left
  have dst (c a b : BitVec 5) : dst5 (layoutD c a b) = b := (dst5_layoutT c _).trans BitVec.extractLsb'_append_eq_right
  have opc (c a b : BitVec 5) : op5 (layoutD c a b) = c := op5_layoutT c _
  unfold DyOp.shortOk at h
  split at h
  case h_21 => cases h
  all_goals simp [decodeShort, DyOp.shortCode, DyOp.instr, Short.field, src, dst, opc]

/-- The stack group. -/
theorem decodeShort_layoutS (sub : BitVec 2) (f : BitVec 8) : decodeShort (layoutS sub f) = decodeStack sub f := by
  have hs : sub2 (layoutS sub f) = sub := (sub2_layoutT _ _).trans BitVec.extractLsb'_append_eq_left
  have hf : low8 (layoutS sub f) = f := (low8_layoutT _ _).trans BitVec.extractLsb'_append_eq_right
  have ho : op5 (layoutS sub f) = 2#5 := op5_layoutT _ _
  simp [decodeShort, hs, hf, ho]

/-- The niladic group. -/
theorem decodeShort_layoutN (sc : BitVec 10) : decodeShort (layoutN sc) = decodeNiladic sc := by
  simp [decodeShort, layoutN]

/-- A parcel of the niladic group, the trapped ones by their set top bit. -/
theorem encode_decodeNiladic (sc : BitVec 10) : encode (decodeNiladic sc) = [layoutN sc] := by
  unfold decodeNiladic
  split
  case h_10 =>
    split
    · have set : sc.msb = true := by rw [BitVec.msb_eq_true_iff_two_mul_ge]; omega
      have top : 1#1 = sc.extractLsb' 9 1 := by rw [← ofBool_getLsbD]; exact congrArg BitVec.ofBool set.symm
      have whole : 1#1 ++ sc.extractLsb' 0 9 = sc :=
        top ▸ (BitVec.extractLsb'_append_extractLsb'_eq_extractLsb' rfl).trans BitVec.extractLsb'_eq_self
      exact congrArg (fun c => [layoutN c]) whole
    · rfl
  all_goals exact congrArg (fun c => [layoutN c]) (BitVec.eq_of_toNat_eq (Eq.symm ‹_›))

/-- The four subcodes of the stack group. -/
theorem encode_decodeStack (sub : BitVec 2) (f : BitVec 8) : encode (decodeStack sub f) = [layoutS sub f] := by
  obtain rfl | rfl | rfl | rfl : sub = 0 ∨ sub = 1 ∨ sub = 2 ∨ sub = 3 := by revert sub; decide
  all_goals rfl

/-- A one-parcel instruction encodes to the parcel it is read from. -/
theorem encode_decodeShort {p : Parcel} (hl : isLong p = false) : encode (decodeShort p) = [p] := by
  have transfer {n : Nat} (h : (op5 p).toNat = n) : layoutT (BitVec.ofNat 5 n) (low10 p) = p := by
    rw [← h, BitVec.ofNat_toNat, BitVec.setWidth_eq]
    exact layoutT_fields hl
  have pair {n : Nat} (h : (op5 p).toNat = n) : layoutD (BitVec.ofNat 5 n) (src5 p) (dst5 p) = p := by
    rw [layoutD, src5_append_dst5]
    exact transfer h
  unfold decodeShort
  dsimp only
  split
  case h_3 h =>
    rw [encode_decodeStack, layoutS, sub2_append_low8]
    exact congrArg (fun q => [q]) (transfer h)
  case h_10 h =>
    rw [encode_decodeNiladic]
    exact congrArg (fun q => [q]) (transfer h)
  case h_30 => exact congrArg (fun q => [q]) (layoutT_fields hl)
  case h_1 h | h_2 h | h_4 h | h_5 h | h_6 h | h_7 h | h_8 h => exact congrArg (fun q => [q]) (transfer h)
  all_goals exact congrArg (fun q => [q]) (pair ‹_›)

theorem encodeMonadic_widen {F M : Type} (op : MonOp) (short : F → Parcel) (mode : M → Mode) (f : Monadic Empty M) :
    encodeMonadic op short mode f.widen = encodeMonadic op Empty.elim mode f := by
  cases f with
  | p1 e => exact e.elim
  | p3 m x | illegal m => rfl

/-- A long instruction standing alone encodes as its body. -/
theorem encode_plain {b : CpuBody} (hb : CpuBody.Fits .none b) : encode b.plain = encodeBody b := by
  cases b with
  | dyadic op f => cases op <;> rfl
  | word op f =>
    cases op with
    | flushpte | flushpbe => rfl
    | kcall | catchSc | enter => exact encodeMonadic_widen ..
  | flow op f =>
    cases op with
    | ldraa => rfl
    | call | jmp | jmpfn | jmpfy | jmptn | jmpty => exact encodeMonadic_widen ..
  | stack op f => cases op <;> exact encodeMonadic_widen ..
  | flushdce m | unimplemented u => rfl
  | oneParcel p => exact hb.elim

/-! ## The decoder (R151, R170) -/

theorem decode_short {p : Parcel} (hl : isLong p = false) (hp : p ≠ cpuParcel) (rest : List Parcel) :
    decode (p :: rest) = .ok (decodeShort p, rest) := by
  simp [decode, hp, hl]

theorem decode_long {p : Parcel} (hl : isLong p = true) (r : List Parcel) :
    decode (p :: r) = (decodeLong (headOf .none p) r).map fun x => (x.1.plain, x.2) := by
  have hp : p ≠ cpuParcel := by rintro rfl; exact absurd hl (by decide)
  simp only [decode, hp, hl, if_true, if_false]
  cases decodeLong (headOf .none p) r <;> rfl

theorem decode_cpu_short {q : Parcel} (hl : isLong q = false) (rest : List Parcel) :
    decode (cpuParcel :: q :: rest) = .ok (.cpu (.oneParcel q), rest) := by
  simp [decode, hl]

theorem decode_cpu_long {q : Parcel} (hl : isLong q = true) (r : List Parcel) :
    decode (cpuParcel :: q :: r) = (decodeLong (headOf .cpu q) r).map fun x => (.cpu x.1, x.2) := by
  simp only [decode, hl, if_true]
  cases decodeLong (headOf .cpu q) r <;> rfl

/-- What a long instruction's decoding answers. -/
theorem decodeLong_of_map {h : Head} {r rest : List Parcel} {i : Instr} {g : CpuBody → Instr}
    (hd : (decodeLong h r).map (fun x => (g x.1, x.2)) = .ok (i, rest)) : ∃ b, decodeLong h r = .ok (b, rest) ∧ i = g b := by
  cases hr : decodeLong h r with
  | ok x => rw [hr] at hd; cases hd; exact ⟨_, rfl, rfl⟩
  | error e => rw [hr] at hd; cases hd

/-- Settles O3: the text begins with a one-parcel instruction or a head, alone or after CPU. -/
theorem encodeDecode : Obligations.EncodeDecode := by
  intro ps rest i h
  refine ⟨decode_wf h, ?_⟩
  cases ps with
  | nil => cases h
  | cons p r =>
    by_cases hp : p = cpuParcel
    · subst hp
      cases r with
      | nil => simp [decode] at h
      | cons q r =>
        cases hq : isLong q with
        | true =>
          rw [decode_cpu_long hq] at h
          obtain ⟨b, hb, rfl⟩ := decodeLong_of_map h
          have body := encodeBody_decodeLong (headOf_fits .cpu q) hb
          rw [headParcel_headOf .cpu hq] at body
          exact congrArg (cpuParcel :: ·) body
        | false =>
          rw [decode_cpu_short hq] at h
          cases h
          rfl
    · cases hl : isLong p with
      | true =>
        rw [decode_long hl] at h
        obtain ⟨b, hb, rfl⟩ := decodeLong_of_map h
        have fits := headOf_fits .none p
        rw [encode_plain (decodeLong_fits fits hb), encodeBody_decodeLong fits hb, headParcel_headOf .none hl]
      | false =>
        rw [decode_short hl hp] at h
        cases h
        exact congrArg (· ++ rest) (encode_decodeShort hl)

/-! ## Decoding what is encoded (R141, R143, R144) -/

/-- The parcels decode to the instruction, whatever text follows. -/
def Reads (ps : List Parcel) (i : Instr) : Prop := ∀ rest, decode (ps ++ rest) = .ok (i, rest)

theorem LongText.reads {ps : List Parcel} {b : CpuBody} (h : LongText .none ps b) : Reads ps b.plain := by
  obtain ⟨head, r, hf, rfl, hd⟩ := h
  intro rest
  rw [List.cons_append, decode_long (isLong_headParcel head), headOf_headParcel hf, hd]
  rfl

theorem LongText.reads_cpu {ps : List Parcel} {b : CpuBody} (h : LongText .cpu ps b) : Reads (cpuParcel :: ps) (.cpu b) := by
  obtain ⟨head, r, hf, rfl, hd⟩ := h
  intro rest
  rw [List.cons_append, List.cons_append, decode_cpu_long (isLong_headParcel head), headOf_headParcel hf, hd]
  rfl

/-- A one-parcel layout other than CPU's. -/
theorem reads_layoutT {op : BitVec 5} {f : BitVec 10} {i : Instr} (hd : decodeShort (layoutT op f) = i)
    (hc : op ≠ 0x0B ∨ f ≠ 0 := by exact .inl (by decide)) : Reads [layoutT op f] i := by
  have hp : layoutT op f ≠ cpuParcel := by
    intro h
    have opcode : op = 0x0B := by rw [← op5_layoutT op f, h]; rfl
    have field : f = 0 := by rw [← low10_layoutT op f, h]; rfl
    exact hc.elim (· opcode) (· field)
  exact fun rest => hd ▸ decode_short (isLong_layoutT op f) hp rest

theorem reads_layoutS {sub : BitVec 2} {f : BitVec 8} {i : Instr} (hd : decodeStack sub f = i) : Reads [layoutS sub f] i :=
  reads_layoutT ((decodeShort_layoutS sub f).trans hd)

theorem reads_layoutN {sc : BitVec 10} {i : Instr} (hd : decodeNiladic sc = i) (hc : sc ≠ 0 := by decide) : Reads [layoutN sc] i :=
  reads_layoutT ((decodeShort_layoutN sc).trans hd) (.inr hc)

/-- A dyadic instruction, of one parcel or more. -/
theorem reads_dyadic {op : DyOp} {f : Sys2Proof.Dyadic} (h : f.wf .none op = true) : Reads (encodeDyadic op f) (op.instr f) := by
  cases f with
  | p1 s d =>
    have code : op.shortCode s d ≠ 0x0B := by
      unfold DyOp.shortCode; split <;> decide
    exact reads_layoutT (decodeShort_dyadic (by simpa [Dyadic.wf] using h)) (.inl code)
  | p3 sm dm a b | p5 sm dm a b | illegal five sm dm => exact (dyadic_longText h (by simp)).reads

/-- A monadic instruction, of one parcel or three. -/
theorem reads_monadic {F M : Type} {op : MonOp} {short : F → Parcel} {mode : M → Mode} {plain : Monadic F M → Instr}
    {body : Monadic Empty M → CpuBody} {f : Monadic F M}
    (long : ∀ g : Monadic Empty M, g.wf op = true → LongText .none (encodeMonadic op Empty.elim mode g) (body g))
    (alone : ∀ g : Monadic Empty M, (body g).plain = plain g.widen) (one : ∀ g, Reads [short g] (plain (.p1 g)))
    (h : f.wf op = true) : Reads (encodeMonadic op short mode f) (plain f) := by
  cases f with
  | p1 g => exact one g
  | p3 m x => exact alone (.p3 m x) ▸ (long (.p3 m x) h).reads
  | illegal m => exact alone (.illegal m) ▸ (long (.illegal m) h).reads

/-- The trapped niladics are the subcodes from 0x200 on. -/
theorem decodeNiladic_trap {sc : BitVec 10} (h : 0x200 ≤ sc.toNat) : decodeNiladic sc = .niladicTrap (sc.extractLsb' 0 9) := by
  unfold decodeNiladic
  split
  case h_10 => exact if_pos h
  all_goals omega

/-- The subcodes below that name no instruction. -/
theorem decodeNiladic_unimpl {sc : BitVec 10} (h : sc.toNat = 7 ∨ (0xB ≤ sc.toNat ∧ sc.toNat < 0x200)) :
    decodeNiladic sc = .unimplemented (.niladic sc) := by
  unfold decodeNiladic
  split
  case h_10 => exact if_neg (by omega)
  all_goals omega

theorem reads_niladicTrap (n : BitVec 9) : Reads [layoutN (1#1 ++ n)] (.niladicTrap n) := by
  have set : 0x200 ≤ (1#1 ++ n).toNat := by
    have hm : (1#1 ++ n).msb = true := BitVec.msb_append
    rw [BitVec.msb_eq_true_iff_two_mul_ge] at hm
    omega
  refine reads_layoutN ((decodeNiladic_trap set).trans ?_) fun h => ?_
  · exact congrArg Instr.niladicTrap BitVec.extractLsb'_append_eq_right
  · rw [h] at set
    exact absurd set (by decide)

theorem reads_unimplemented {u : Unimpl} (h : u.wf = true) : Reads (encodeUnimpl u) (.unimplemented u) := by
  cases u with
  | p1 op low =>
    have gaps : op = 8 ∨ op = 9 ∨ op = 12 := by simpa [Unimpl.wf, or_assoc] using h
    rcases gaps with rfl | rfl | rfl <;> exact reads_layoutT (by simp [decodeShort])
  | niladic sc =>
    have gaps : sc.toNat = 7 ∨ (0xB ≤ sc.toNat ∧ sc.toNat < 0x200) := by
      simpa [Unimpl.wf, ← BitVec.toNat_inj] using h
    refine reads_layoutN (decodeNiladic_unimpl gaps) ?_
    rintro rfl
    exact absurd gaps (by decide)
  | monadic m | dyadic five op sm dm => exact (unimpl_longText rfl h).reads

/-- An instruction after CPU (R170). -/
theorem reads_cpu {b : CpuBody} (h : b.wf = true) : Reads (cpuParcel :: encodeBody b) (.cpu b) := by
  cases b with
  | oneParcel p => exact decode_cpu_short ((Bool.not_eq_true' _).mp h)
  | dyadic op f | word op f | flow op f | stack op f | flushdce m | unimplemented u => exact (body_longText h (by simp)).reads_cpu

/-- Settles O2: by the kind of the instruction's encoding. -/
theorem decodeEncode : Obligations.DecodeEncode := by
  intro i rest h
  suffices reads : Reads (encode i) i from reads rest
  cases i with
  | ori f | andi f | addi f | mova f | urem f | mov f | dqm f | tadd f | tsub f | cmpgt f | cmphi f | cmpeq f
  | sub f | or f | and f | add f | xor f | rem f | mul f | div f | shr f | ushr f | shl f | udiv f
  | sub3 f | or3 f | and3 f | add3 f | xor3 f | rem3 f | mul3 f | div3 f | shr3 f | ushr3 f | shl3 f => exact reads_dyadic h
  | kcall f => exact reads_monadic (fun _ => word_longText) (fun _ => rfl) (fun _ => reads_layoutT (by simp [decodeShort])) h
  | call f | jmp f | jmpfn f | jmpfy f | jmptn f | jmpty f =>
    exact reads_monadic (fun _ => flow_longText) (fun _ => rfl) (fun _ => reads_layoutT (by simp [decodeShort])) h
  | catchSc f | enter f => exact reads_monadic (fun _ => word_longText) (fun _ => rfl) (fun _ => reads_layoutS rfl) h
  | ret f | popn f => exact reads_monadic (fun _ => stack_longText) (fun _ => rfl) (fun _ => reads_layoutS rfl) h
  | ldraa f => exact (flow_longText h).reads
  | flushpte f | flushpbe f => exact (word_longText h).reads
  | flushdce m => exact (flushdce_longText m).reads
  | cpu b => exact reads_cpu h
  | kret | nop | flushi | flushp | cret | flushd | testv | testc | clre => exact reads_layoutN rfl
  | unimplemented u => exact reads_unimplemented h
  | niladicTrap n => exact reads_niladicTrap n

/-- Settles O1: the decoder run on each word. -/
theorem decodeSamples : Obligations.DecodeSamples := ⟨rfl, rfl, rfl, rfl, rfl, rfl, rfl⟩

end Sys2Proof.Proofs
end

section
/-! PROOF. The instructions with a memory destination (30_encoding.md R166 to R168; 10_state.md R46): the checked write and the flags,
in either order, and what is outside both. -/

namespace Sys2Proof.Proofs

open Sys2Proof.Machine Sys2Proof.Laws

/-! ## A checked write with the flags before or after it -/

theorem setFlags_physByte (s : State) (o : FlagOut) (a : Word) : (s.setFlags o).physByte a = s.physByte a :=
  physByte_congr (setFlags_mem s o) (setFlags_storeBuf s o) a

theorem aluState_slot_sameOutside (s : State) (p : Slot) (out : AluOut) : sameOutside p s (aluState s (.slot p) out) := by
  have before := commit_sameOutside (s.setFlags out.flags) p out.val
  have after := commit_sameOutside s p out.val
  unfold aluState
  cases out.flagsFirst <;> cases out.store <;> simp [sameOutside, State.put, setFlags_physByte] at before after ⊢
  · exact after
  · exact before

theorem aluState_slot_sameRegs (s : State) (p : Slot) (out : AluOut) : sameRegs s (aluState s (.slot p) out) := by
  unfold aluState
  cases out.flagsFirst <;> cases out.store <;> simp [sameRegs, State.put]

theorem aluState_slot_sameHidden (s : State) (p : Slot) (out : AluOut) : sameHidden s (aluState s (.slot p) out) := by
  unfold aluState
  cases out.flagsFirst <;> cases out.store <;> simp [sameHidden, State.put]

theorem aluState_slot_mem (s : State) (p : Slot) (out : AluOut) : (aluState s (.slot p) out).mem = s.mem := by
  unfold aluState
  cases out.flagsFirst <;> cases out.store <;> simp [State.put]

theorem aluState_slot_psw (s : State) (p : Slot) (out : AluOut) :
    (aluState s (.slot p) out).psw = s.psw.setFlags out.flags := by
  unfold aluState
  cases out.flagsFirst <;> cases out.store <;> simp [State.put, setFlags_psw]

/-! ## The instructions -/

/-- Settles O18: the next state is the old one with the slot written, the flags of the operation, the hazards and PC. -/
theorem memoryDestinationFrame : Obligations.MemoryDestinationFrame := by
  intro op k f s t a b d p hop hr hz h
  have hm : op ≠ .mov := by rintro rfl; exact absurd hop (by decide)
  obtain ⟨alu, halu⟩ := dstAlu_isSome (List.mem_append_left [.mov] hop)
  obtain ⟨c, hc⟩ := exec_dst halu (by rwa [if_neg hm]) hz
  have next := hc.symm.trans h
  cases next
  obtain ⟨he, hv, hcf, hf⟩ := dstAlu_flags halu a c
  obtain ⟨out, hout⟩ : ∃ out, alu a c = out := ⟨_, rfl⟩
  rw [hout] at he hv hcf hf ⊢
  rw [noteWide_eq]
  refine ⟨aluState_slot_sameOutside s p out, aluState_slot_sameRegs s p out, aluState_slot_sameHidden s p out,
    aluState_slot_mem s p out, ?_, fun ho => ?_, fun ho => ?_, fun ho => ?_⟩
  all_goals simp only [aluState_slot_psw, Psw.setFlags]
  · simp [he]
  · simp [hv (List.mem_append_left [DyOp.mov] ho)]
  · simp [hcf (List.mem_append_left [DyOp.mov] ho)]
  · simp [hf ho]

end Sys2Proof.Proofs
end

section
/-! PROOF. The modes an instruction rejects, as conditions on their codes, and the exception each rejection is (30_encoding.md R152,
R171 to R176; 43_move.md R262, R263; 44_program_control.md R294, R300, R302). -/

namespace Sys2Proof.Proofs

open Sys2Proof.Machine Sys2Proof.Laws

variable {s : State} {k : Prefix} {op : DyOp} {f : Sys2Proof.Dyadic}

/-! ## Sets of modes by their codes (R161, R171) -/

/-- What holds of the mode of every code holds of every mode. -/
theorem Mode.forall_ofCode {P : Mode → Prop} (h : ∀ c : BitVec 4, P (Mode.ofCode c)) (m : Mode) : P m :=
  Mode.ofCode_code m ▸ h m.code

theorem inCpuTable_iff : ∀ m : Mode, m.inCpuTable = true ↔ m.code ∈ [0x7, 0xC, 0xD, 0xE, 0xF] :=
  Mode.forall_ofCode (by decide)

theorem isWord_iff : ∀ m : Mode, m.isWord = true ↔ m.code ∈ [0xC, 0xD, 0xE, 0xF] :=
  Mode.forall_ofCode (by decide)

theorem isWordMem_iff : ∀ m : Mode, m.isWordMem = true ↔ m.code ∈ [0xC, 0xD, 0xE] :=
  Mode.forall_ofCode (by decide)

theorem isReg_iff : ∀ m : Mode, m.isReg = true ↔ m.code = 0x7 :=
  Mode.forall_ofCode (by decide)

theorem eq_imm_iff : ∀ m : Mode, m = .imm ↔ m.code = 0xF :=
  Mode.forall_ofCode (by decide)

theorem isWord_eq_false_iff : ∀ m : Mode, m.isWord = false ↔ m.code.toNat < 0xC :=
  Mode.forall_ofCode (by decide)

/-- The instructions that write their destination operand (R176). -/
theorem writesDst_iff (op : DyOp) : op.writesDst = true ↔
    op ∈ [.add, .sub, .mul, .div, .rem, .udiv, .urem, .and, .or, .xor, .shl, .shr, .ushr, .mov, .mova,
      .addi, .andi, .ori, .tadd, .tsub, .dqm] := by
  cases op <;> decide

/-- The modes a dyadic instruction rejects (R171, R176, R262, R263). -/
theorem legal_eq_false_iff {sm dm : Mode} : op.legal k sm dm = false ↔
    (k = .cpu ∧ (sm.inCpuTable = false ∨ dm.inCpuTable = false)) ∨ (dm = .imm ∧ op.writesDst = true) ∨
      (op = .mova ∧ (sm.isWordMem = false ∨ (k = .cpu ∧ dm.isReg = true))) ∨
      (op = .dqm ∧ (sm.isWord = false ∨ (k = .cpu ∧ dm.isReg = true))) := by
  have mova : DyOp.mova.writesDst = true := rfl
  have dqm : DyOp.dqm.writesDst = true := rfl
  unfold DyOp.legal
  cases k <;> dsimp only <;> split
  all_goals
    simp [*, imp_iff_not_or]
    tauto

/-- The same by their codes. -/
theorem legal_eq_false_iff_code {sm dm : Mode} : op.legal k sm dm = false ↔
    (k = .cpu ∧ (sm.code ∉ [0x7, 0xC, 0xD, 0xE, 0xF] ∨ dm.code ∉ [0x7, 0xC, 0xD, 0xE, 0xF])) ∨
      (dm.code = 0xF ∧ op ∈ [.add, .sub, .mul, .div, .rem, .udiv, .urem, .and, .or, .xor, .shl, .shr, .ushr, .mov, .mova,
        .addi, .andi, .ori, .tadd, .tsub, .dqm]) ∨
      (op = .mova ∧ (sm.code ∉ [0xC, 0xD, 0xE] ∨ (k = .cpu ∧ dm.code = 0x7))) ∨
      (op = .dqm ∧ (sm.code ∉ [0xC, 0xD, 0xE, 0xF] ∨ (k = .cpu ∧ dm.code = 0x7))) := by
  rw [legal_eq_false_iff, ← Bool.not_eq_true, ← Bool.not_eq_true, ← Bool.not_eq_true, ← Bool.not_eq_true, inCpuTable_iff,
    inCpuTable_iff, isWordMem_iff, isWord_iff, isReg_iff, eq_imm_iff, writesDst_iff]

/-! ## What they raise -/

theorem precheck_illegal {x y : Arg} {al : Bool} (hf : f.accepted k op = false) :
    precheck k op f x y al s = .error (.exc .illegal) s := by
  simp [precheck, hf]

/-- Every dyadic instruction with a form it does not accept. -/
theorem dyadicM_illegal (hf : f.accepted k op = false) : dyadicM op k f s = .error (.exc .illegal) s := by
  by_cases hd : op = .dqm
  · subst hd
    simp [dyadicM, dqmM, blockMove, hf]
  · exact dyadicM_precheck_error hd (precheck_illegal hf)

/-- A sign bit is a negative value. -/
theorem msb_of_neg {x : Word} (h : x.toInt < 0) : x.msb = true := by rw [BitVec.msb_eq_toInt]; simpa using h

theorem msb_of_nonneg {x : Word} (h : 0 ≤ x.toInt) : x.msb = false := by rw [BitVec.msb_eq_toInt]; simpa using h

/-- Settles O52: the monadic instructions reject by their form, the dyadic ones by their modes, whose codes the tables give. -/
theorem illegalForms : Obligations.IllegalForms := by
  intro s
  refine ⟨fun k op f hf => ?_, fun k i m h => ?_, fun k i o ho h => ?_, fun k i o ho h => ?_, fun m hm => ?_,
    fun g c x y hu => ?_, fun k op f sm dm x y h => ?_, fun five k op sm dm x y => ?_, isWord_eq_false_iff, fun x y => ?_⟩
  · rw [exec_dyadicInstr]
    exact run_takes (dyadicM_illegal hf)
  · rcases h with h | h | h | h | h | h | h | h | h | h | h | h | h | h
    · rw [exec_kcall h]; exact run_takes rfl
    · rw [exec_enter h]; exact run_takes rfl
    · rw [exec_catch h]; exact run_takes rfl
    · rw [exec_call h]; exact run_takes rfl
    · rw [exec_jmp h]; exact run_takes rfl
    · rw [exec_jmpfn h]; exact run_takes rfl
    · rw [exec_jmpfy h]; exact run_takes rfl
    · rw [exec_jmptn h]; exact run_takes rfl
    · rw [exec_jmpty h]; exact run_takes rfl
    · rw [exec_ldraa h]; exact run_takes rfl
    · rw [exec_ret h]; exact run_takes rfl
    · rw [exec_popn h]; exact run_takes rfl
    · rw [exec_flushpte h]; exact run_takes rfl
    · rw [exec_flushpbe h]; exact run_takes rfl
  · rcases h with h | h
    · rw [exec_ret h]; exact run_takes (by simp [retM, isIllegal, popOffset, msb_of_neg ho])
    · rw [exec_popn h]; exact run_takes (by simp [popnM, isIllegal, popOffset, msb_of_neg ho])
  · rw [exec_enter h]; exact run_takes (by simp [enterM, msb_of_nonneg ho])
  · refine ⟨?_, ?_, ?_, ?_⟩ <;> exact run_takes (by simp [flushdceM, unimplementedM, cpuM, hm])
  · exact run_takes (by simp [cpuM, unimplementedM, hu])
  · rcases h with ⟨u, v, rfl⟩ | rfl <;> exact legal_eq_false_iff_code
  · simp [Dyadic.wf, Dyadic.accepted]
  · rw [cpuUnimplLegal, Bool.and_eq_false_iff, Bool.and_eq_false_iff, Bool.not_eq_false', Bool.and_eq_true, ← Bool.not_eq_true,
      ← Bool.not_eq_true, inCpuTable_iff, inCpuTable_iff, isReg_iff, isReg_iff, or_assoc]

end Sys2Proof.Proofs
end

section
/-! PROOF. The register mode after CPU (30_encoding.md R171 to R173; 10_state.md R29, R33, R44): which operands name a register,
the exceptions of one that does not exist and of a write at user level, and what a read gives. -/

namespace Sys2Proof.Proofs

open Sys2Proof.Machine Sys2Proof.Laws

variable {s : State} {k : Prefix} {op : DyOp} {f : Sys2Proof.Dyadic}

/-! ## Operands that are no register (R171, R262, R263) -/

theorem argOf_ne_reg {m : Mode} (h : k = .cpu → m.isReg = false) (x : Word) (c : BitVec 4) : argOf s k m x ≠ .reg c := by
  have no : ¬(k = .cpu ∧ m.isReg = true) := fun ⟨hk, hm⟩ => Bool.false_ne_true ((h hk).symm.trans hm)
  simp only [argOf, if_neg no]
  split <;> simp

theorem shortArg_ne_reg (x : Short) (c : BitVec 4) : shortArg s x ≠ .reg c := by cases x <;> simp [shortArg]

/-- An operand that resolves to a register names it. -/
theorem eq_reg_of_opd? {x : Arg} {r : Reg} (h : s.opd? x = some (.reg r)) : ∃ c, x = .reg c ∧ Reg.ofCode c = some r := by
  cases x with
  | reg c =>
    obtain ⟨q, hq, hr⟩ := Option.map_eq_some_iff.1 h
    cases hr
    exact ⟨c, rfl, hq⟩
  | ptr p z =>
    obtain ⟨ea, -, he⟩ := Option.map_eq_some_iff.1 h
    cases he
  | imm v | mem ea z => cases h

/-- The destination of MOVA and DQM. -/
theorem dstArg_ne_reg (ho : op ∈ [.mova, .dqm]) (hf : f.accepted k op = true) (c : BitVec 4) : dstArg s k f ≠ .reg c := by
  have modes {sm dm : Mode} (hl : op.legal k sm dm = true) (hk : k = .cpu) : dm.isReg = false := by
    by_contra hr
    have hr : dm.isReg = true := by simpa using hr
    refine Bool.eq_false_iff.1 (legal_eq_false_iff.2 ?_) hl
    simp only [List.mem_cons, List.not_mem_nil, or_false] at ho
    exact .inr (.inr (ho.imp (⟨·, .inr ⟨hk, hr⟩⟩) (⟨·, .inr ⟨hk, hr⟩⟩)))
  cases f with
  | p1 x y => exact shortArg_ne_reg y c
  | p3 sm dm x y | p5 sm dm x y => exact argOf_ne_reg (modes hf) _ c
  | illegal five sm dm => cases hf

/-- The source of DQM. -/
theorem srcArg_ne_reg (hf : f.accepted k .dqm = true) (c : BitVec 4) : srcArg s k f ≠ .reg c := by
  have modes {sm dm : Mode} (hl : DyOp.legal .dqm k sm dm = true) : sm.isReg = false := by
    by_contra hr
    have code : sm.code = 0x7 := (isReg_iff sm).1 (by simpa using hr)
    refine Bool.eq_false_iff.1 (legal_eq_false_iff_code.2 (.inr (.inr (.inr ⟨rfl, .inl ?_⟩)))) hl
    rw [code]
    decide
  cases f with
  | p1 x y => exact shortArg_ne_reg x c
  | p3 sm dm x y | p5 sm dm x y => exact argOf_ne_reg (fun _ => modes hf) _ c
  | illegal five sm dm => cases hf

/-! ## A register that does not exist (R173) -/

theorem precheck_noReg {x y : Arg} {al : Bool} (hf : f.accepted k op = true) (h : (x.noReg || y.noReg) = true) :
    precheck k op f x y al s = .error (.exc .unimplReg) s := by
  simp only [precheck, bind_run, hf, Bool.not_true, raiseIf_false, h, raiseIf_true]

/-- Whichever operand names it. -/
theorem dyadicM_noReg {c : BitVec 4} (hf : f.accepted k op = true) (hc : Reg.ofCode c = none)
    (h : srcArg s k f = .reg c ∨ dstArg s k f = .reg c) : dyadicM op k f s = .error (.exc .unimplReg) s := by
  have missing : (Arg.reg c).noReg = true := by simp [Arg.noReg, hc]
  by_cases hd : op = .dqm
  · subst hd
    exact (h.elim (srcArg_ne_reg hf c) (dstArg_ne_reg (by simp) hf c)).elim
  · refine dyadicM_precheck_error hd (precheck_noReg hf ?_)
    rcases h with h | h <;> simp [h, missing]

/-! ## A register written at user level (R44, R173) -/

section
variable {a : Word} {o : Opd} {r : Reg}

theorem checkDst_privilege (hx : s.psw.x = true) : checkDst s.level (.reg r) s = .error (.exc .privilege) s := by
  simp [checkDst, hx]

theorem dyadicToDst_privilege {alu : Word → Word → AluOut} (hl : lateFor op (dstArg s k f) = lateOp op (dstArg s k f).bytes)
    (hx : s.psw.x = true) (hpre : precheck k op f (srcArg s k f) (dstArg s k f) (srcArg s k f).alignedNow s = .ok () s)
    (hs : s.opd? (srcArg s k f) = some o) (hc : s.settled (lateFor op (dstArg s k f)) o = true) (hv : s.value? o = some a)
    (hd : s.opd? (dstArg s k f) = some (.reg r)) (hr : op.readsDst = true → s.regSettled r = true) :
    dyadicToDst op k f alu s = .error (.exc .privilege) s := by
  rw [hl] at hc
  cases read : op.readsDst with
  | false => simp [dyadicToDst, hpre, resolve_ok hs, readOpd_ok hc hv, resolve_ok hd, read, checkDst_privilege hx]
  | true =>
    have dest (late : Wide → Bool) : readOpd s.level late (.reg r) s = .ok (r.get s) s := readReg_ok (hr read)
    simp [dyadicToDst, hpre, resolve_ok hs, readOpd_ok hc hv, resolve_ok hd, read, dest, checkDst_privilege hx]

theorem interlocked_privilege {alu : Word → Word → Word} (hs' : s.alone = true) (hb : s.storeBuf = []) (hl : s.lostStores = 0)
    (hx : s.psw.x = true) (hpre : precheck k op f (srcArg s k f) (dstArg s k f) (srcArg s k f).alignedNow s = .ok () s)
    (hs : s.opd? (srcArg s k f) = some o) (hc : s.settled (fun _ => false) o = true) (hv : s.value? o = some a)
    (hd : s.opd? (dstArg s k f) = some (.reg r)) :
    interlocked op k f alu s = .error (.exc .privilege) s.settleWides := by
  have source := resolve_ok (s := s.settleWides) (o := o) (x := srcArg s k f) hs
  have value : readOpd s.level (fun _ => false) o s.settleWides = .ok a s.settleWides := by
    refine readOpd_ok (s := s.settleWides) (settled_settleWides hc) ?_
    cases o <;> exact hv
  have dest := resolve_ok (s := s.settleWides) (o := .reg r) (x := dstArg s k f) hd
  have level : s.settleWides.level = s.level := rfl
  rw [level] at source dest
  simp [interlocked, hpre, drainPoint_nil hs' hb hl, source, value, dest, checkBoth, checkDst, hx]

/-- The instructions that write their destination, by the shape of their meaning. -/
theorem writesDst_cases (hw : op.writesDst = true) :
    op ∈ [.mova, .dqm] ∨ op ∈ [.addi, .andi, .ori] ∨ ∃ alu, dstAlu op = some alu := by
  cases op with
  | mova | dqm => simp
  | addi | andi | ori => simp
  | cmpgt | cmphi | cmpeq | sub3 | or3 | and3 | add3 | xor3 | rem3 | mul3 | div3 | shr3 | ushr3 | shl3 => cases hw
  | urem | mov | tadd | tsub | sub | or | and | add | xor | rem | mul | div | shr | ushr | shl | udiv =>
    exact .inr (.inr ⟨_, rfl⟩)

/-- Every instruction that writes its destination raises the violation, its operands read first. -/
theorem exec_privilege (hx : s.psw.x = true) (hw : op.writesDst = true) (hset : s.srcSettled op k f = true)
    (hf : f.accepted k op = true) (hdst : op.readsDst = true → s.dstSettled op k f = true ∧ twoRegs s k f = false)
    (hs : s.src? k f = some a) (hd : s.dst? k f = some (.reg r))
    (hlock : op ∈ [.addi, .andi, .ori] → s.storeBuf = [] ∧ s.lostStores = 0 ∧ s.alone = true) :
    exec (dyadicInstr k op f) s = takes .privilege s := by
  obtain ⟨o, ho, hv, hn, hal, hn'⟩ := operands_ok hs hd
  have hc : s.settled (lateFor op (dstArg s k f)) o = true := by rwa [State.srcSettled, ho] at hset
  have hpre : precheck k op f (srcArg s k f) (dstArg s k f) (srcArg s k f).alignedNow s = .ok () s := by
    refine precheck_ok hf hn hn' ?_ hal (alignedNow_of_opd hd (by simp))
    cases read : op.readsDst with
    | false => exact Bool.and_false _
    | true => rw [Bool.and_true]; exact (hdst read).2
  have settled : op.readsDst = true → s.regSettled r = true := by
    intro read
    obtain ⟨hq, -⟩ := hdst read
    rwa [State.dstSettled, hd] at hq
  rw [exec_dyadicInstr]
  rcases writesDst_cases hw with hm | hl | ⟨alu, halu⟩
  · obtain ⟨c, hc, -⟩ := eq_reg_of_opd? hd
    exact absurd hc (dstArg_ne_reg hm hf c)
  · obtain ⟨⟨alu, shape⟩, -, late⟩ := dyadicM_locked (k := k) (f := f) hl
    obtain ⟨hb, hlost, hs'⟩ := hlock hl
    rw [late] at hc
    rw [shape]
    exact run_takes_settled hs' (interlocked_privilege hs' hb hlost hx hpre ho hc hv hd)
  · rw [dyadicM_dst halu]
    exact run_takes (dyadicToDst_privilege (lateFor_dstAlu halu _) hx hpre ho hc hv hd settled)

end

/-! ## A register read (R172, R33) -/

/-- The number of a register (R29). -/
def regCode : Reg → BitVec 4
  | .msp => 0x1 | .isp => 0x2 | .sp => 0x3 | .config => 0x4 | .psw => 0x5 | .shad => 0x6
  | .vb => 0x7 | .stb => 0x8 | .fault => 0x9 | .id => 0xA | .timer1 => 0xB | .timer2 => 0xC

theorem eq_regCode {c : BitVec 4} {r : Reg} (h : Reg.ofCode c = some r) : c = regCode r := by
  have all : ∀ c : BitVec 4, (Reg.ofCode c).all (fun r => c == regCode r) = true := by decide
  simpa [h] using all c

/-- Each number with what its register holds. -/
theorem code_get_mem (s : State) {c : BitVec 4} {r : Reg} (h : Reg.ofCode c = some r) :
    (c, r.get s) ∈ [(0x1#4, s.msp), (0x2, s.isp), (0x3, s.sp), (0x4, s.config.toWord), (0x5, s.psw.toWord), (0x6, s.shad),
      (0x7, s.vb), (0x8, s.stb), (0x9, s.fault), (0xA, if s.board.maskTwo then 0x1000003B else 0x0000003B),
      (0xB, s.timer1), (0xC, s.timer2)] := by
  rw [eq_regCode h]
  cases r <;> simp [regCode, Reg.get, State.idWord]

/-- MOV leaves no untruncated result for a later instruction (R495). -/
theorem noteWide_mov (s : State) (d : Opd) (v : Word) : s.noteWide .mov d v = s := by cases d <;> rfl

/-- Settles O53: decoding finds a number without a register, the check of the destination finds a write at user level, and a read gives
the register's word. -/
theorem registerMode : Obligations.RegisterMode := by
  refine ⟨fun op f s c hf hc h => ?_, fun op f s a r hx hw hset hf hdst hs hd hlock => ?_, fun f s c a d t hreg hr => ⟨?_, ?_⟩⟩
  · have none : Reg.ofCode c = none := by rcases hc with rfl | rfl | rfl | rfl <;> rfl
    exact (exec_dyadicInstr .cpu op f s).trans (run_takes (dyadicM_noReg hf none h))
  · exact exec_privilege (k := .cpu) hx hw hset hf hdst hs hd hlock
  · obtain ⟨_, next⟩ := exec_dst (op := .mov) rfl (b := 0) (by rwa [if_pos rfl]) (by simp)
    rw [noteWide_mov] at next
    exact next
  · obtain ⟨-, -, hs, -⟩ := hr
    rw [State.src?, hreg] at hs
    obtain ⟨o, ho, hv⟩ := Option.bind_eq_some_iff.1 hs
    obtain ⟨q, hq, rfl⟩ := Option.map_eq_some_iff.1 ho
    cases hv
    exact code_get_mem s hq

end Sys2Proof.Proofs
end

section
/-! PROOF. The two-operand arithmetic (40_arithmetic.md R200 to R214; 30_encoding.md R167, R168): the next state of an instruction that
reads its destination, with the spec's result and flags for each operation, and the zero divisor, found after every check of an
operand and before anything is written. -/

namespace Sys2Proof.Proofs

open Sys2Proof.Machine Sys2Proof.Laws

variable {op : DyOp} {k : Prefix} {f : Sys2Proof.Dyadic} {s : State} {a b : Word} {d : Opd} {t : Target} {p : Slot}
  {alu : Word → Word → AluOut}

/-! ## The result in the destination (R168) -/

/-- The next state where the destination is read and written, its old value the second operand. -/
theorem exec_readWrite (h : dstAlu op = some alu) (hm : op ≠ .mov) (hr : DstReady op k f s a b d t)
    (hz : (alu a b).zdiv = false) :
    exec (dyadicInstr k op f) s =
      .next { (aluState s t (alu a b)).noteWide op d (alu a b).val with pc := s.pc + (k.len + f.len) } := by
  obtain ⟨hc, hf, h2, hs, hd, hb, ht⟩ := hr
  rw [exec_dyadicInstr, dyadicM_dst h]
  exact run_ok (dyadicToDst_ok hc hf (readsDst_dstAlu h hm) h2 hs hd hb ht hz (lateFor_dstAlu h _))

/-- An instruction writes what its operation makes of the operands, the result before the flags. -/
theorem writesDst_of_alu {val : Word → Word → Word} {fl : Word → Word → FlagOut} {ok : Word → Prop} (h : dstAlu op = some alu)
    (hm : op ≠ .mov) (ha : ∀ a b, ok a → alu a b = { val := val a b, flags := fl a b }) : WritesDst op val fl ok := by
  intro k f s a b d t hr hok
  have hab := ha a b hok
  rw [exec_readWrite h hm hr (by rw [hab]), hab]
  rfl

/-- Settles O12: each operation is the spec's, with its flags. -/
theorem arithmeticResult : Obligations.ArithmeticResult := by
  refine ⟨writesDst_of_alu (alu := aluAdd) rfl (by decide) fun a b _ => ?_,
    writesDst_of_alu (alu := aluSub) rfl (by decide) fun a b _ => ?_,
    writesDst_of_alu (alu := aluMul) rfl (by decide) fun a b _ => ?_⟩
  · rw [aluAdd, addV, signedOut_eq, addC_eq]
  · rw [aluSub, subV, signedOut_eq, subC_eq]
  · rw [aluMul, mulV, signedOut_eq, mulC_eq]

/-- Settles O13: each quotient and remainder is the spec's, with its flags, and no divisor is zero. -/
theorem divideResult : Obligations.DivideResult := by
  refine ⟨writesDst_of_alu (alu := aluDiv) rfl (by decide) fun a b ha => ?_,
    writesDst_of_alu (alu := aluRem) rfl (by decide) fun a b ha => ?_,
    writesDst_of_alu (alu := aluUdiv) rfl (by decide) fun a b ha => ?_,
    writesDst_of_alu (alu := aluUrem) rfl (by decide) fun a b ha => ?_⟩
  · rw [aluDiv, divV_eq ha, sdivWord, beq_false_of_ne ha]
  · rw [aluRem, sremWord_eq, beq_false_of_ne ha]
  · rw [aluUdiv, udivWord, beq_false_of_ne ha]
  · rw [aluUrem, uremWord, beq_false_of_ne ha]

/-! ## A zero divisor (R214, R436) -/

/-- Both operands can be read, one after the other, and decoding finds nothing wrong (R167 steps 1 to 3). -/
theorem operands_read (hr : ReadReady op k f s a b) :
    ∃ o d, precheck k op f (srcArg s k f) (dstArg s k f) (srcArg s k f).alignedNow s = .ok () s ∧
      resolve s.level (srcArg s k f) s = .ok o s ∧ readOpd s.level (lateFor op (dstArg s k f)) o s = .ok a s ∧
      s.dst? k f = some d ∧ resolve s.level (dstArg s k f) s = .ok d s ∧
      readOpd s.level (lateFor op (dstArg s k f)) d s = .ok b s := by
  obtain ⟨hc, hf, h2, hs, hdb⟩ := hr
  obtain ⟨d, hd, hb⟩ := Option.bind_eq_some_iff.1 hdb
  obtain ⟨o, ho, hv, hn, ha, hn'⟩ := operands_ok hs hd
  have two : ((srcArg s k f).isReg && (dstArg s k f).isReg && op.readsDst) = false := by
    rw [show ((srcArg s k f).isReg && (dstArg s k f).isReg) = false from h2, Bool.false_and]
  exact ⟨o, d, precheck_ok hf hn hn' two ha (alignedNow_of_opd hd (aligned_of_value hb)), resolve_ok ho,
    readOpd_ok (unhindered_src hc ho) hv, hd, resolve_ok hd, readOpd_ok (unhindered_dst hc hd) hb⟩

/-- A two-operand division finds its divisor zero once the destination is checked, and has stored nothing. -/
theorem dyadicToDst_zeroDivide (hl : lateFor op (dstArg s k f) = lateOp op (dstArg s k f).bytes) (hrd : op.readsDst = true)
    (hr : DstReady op k f s a b d t) (hz : (alu a b).zdiv = true) :
    dyadicToDst op k f alu s = .error (.exc .zeroDivide) s := by
  obtain ⟨hc, hf, h2, hs, hd, hb, ht⟩ := hr
  obtain ⟨o, d', hpre, source, hv, hd', dest, hb'⟩ := operands_read ⟨hc, hf, h2, hs, by rw [hd]; exact hb⟩
  obtain rfl : d = d' := Option.some.inj (hd.symm.trans hd')
  rw [hl] at hv hb'
  simp [dyadicToDst, hpre, source, hv, dest, hrd, hb', checkDst_ok ht, hz]

/-- So does a three-operand one once the accumulator is checked. -/
theorem dyadicToAcc_zeroDivide (hl : lateFor op (dstArg s k f) = lateOp op 4) (hr : AccReady op k f s a b d p)
    (hz : (alu a b).zdiv = true) : dyadicToAcc op k f alu s = .error (.exc .zeroDivide) s := by
  obtain ⟨hc, hf, h2, hs, hd, hb, hp⟩ := hr
  obtain ⟨o, d', hpre, source, hv, -, dest, hb'⟩ := operands_read ⟨hc, hf, h2, hs, by rw [hd]; exact hb⟩
  rw [hl] at hv hb'
  simp [dyadicToAcc, hpre, source, hv, dest, hb', checkWrite_ok hp, hz]

/-- The operation of a two-operand division raises for the divisor zero (R208 to R213). -/
theorem dstAlu_zeroDivide (hop : op ∈ [.div, .rem, .udiv, .urem]) : ∃ alu, dstAlu op = some alu ∧ ∀ b, (alu 0 b).zdiv = true := by
  simp only [List.mem_cons, List.not_mem_nil, or_false] at hop
  rcases hop with rfl | rfl | rfl | rfl <;> exact ⟨_, rfl, fun _ => rfl⟩

theorem accAlu_zeroDivide (hop : op ∈ [.div3, .rem3]) : ∃ alu, accAlu op = some alu ∧ ∀ b, (alu 0 b).zdiv = true := by
  simp only [List.mem_cons, List.not_mem_nil, or_false] at hop
  rcases hop with rfl | rfl <;> exact ⟨_, rfl, fun _ => rfl⟩

/-- Settles O56: the exception is raised with the state as it was, after every check of the operands and the destination. -/
theorem zeroDivide : Obligations.ZeroDivide := by
  constructor
  · intro op k f s b d t hop hr
    obtain ⟨alu, halu, hz⟩ := dstAlu_zeroDivide hop
    have hm : op ≠ .mov := by rintro rfl; exact absurd hop (by decide)
    rw [exec_dyadicInstr, dyadicM_dst halu]
    exact run_takes (dyadicToDst_zeroDivide (lateFor_dstAlu halu _) (readsDst_dstAlu halu hm) hr (hz b))
  · intro op k f s b d p hop hr
    obtain ⟨alu, halu, hz⟩ := accAlu_zeroDivide hop
    rw [exec_dyadicInstr, dyadicM_acc halu]
    exact run_takes (dyadicToAcc_zeroDivide (lateFor_accAlu halu _) hr (hz b))

end Sys2Proof.Proofs
end

section
/-! PROOF. ADDI, ANDI and ORI (40_arithmetic.md R203; 42_logical.md R243, R246; 20_memory.md R107, R108): one next state for the three,
and on memory two checked writes, each drained before anything else happens. -/

namespace Sys2Proof.Proofs

open Sys2Proof.Machine Sys2Proof.Laws

variable {op : DyOp} {k : Prefix} {f : Sys2Proof.Dyadic} {s : State} {a b : Word} {d : Opd} {t : Target} {p q : Slot}
  {alu : Word → Word → Word}

/-! ## The next state -/

/-- Drained, the destination written and drained, its old value stored in the accumulator and drained. -/
theorem exec_interlocked (hop : (op, alu) ∈ [(DyOp.addi, (· + ·)), (.andi, (· &&& ·)), (.ori, (· ||| ·))])
    (hr : LockReady op k f s alu a b d t p) :
    exec (dyadicInstr k op f) s =
      .next { ((s.locked t (alu a b)).commit p b).drainAll with pc := s.pc + (k.len + f.len) } := by
  obtain ⟨hc, hal, hacc, h2, hl, hs, hd, hb, ht, ha, hp⟩ := hr
  obtain ⟨hm, hlate⟩ := dyadicM_interlocked hop k f
  rw [exec_dyadicInstr, hm]
  exact run_ok (interlocked_ok hc hal hacc h2 hl hs hd hb ht ha hp (hlate _))

/-- Settles O37: one next state, with the operation of each. -/
theorem interlockedResult : Obligations.InterlockedResult :=
  ⟨fun _ _ _ _ _ _ _ _ => exec_interlocked (.head _), fun _ _ _ _ _ _ _ _ => exec_interlocked (.tail _ (.head _)),
    fun _ _ _ _ _ _ _ _ => exec_interlocked (.tail _ (.tail _ (.head _)))⟩

/-! ## A checked write, drained -/

theorem drained_commit_sc (s : State) (v : Word) {i : Fin 64} (h : p.coversSc i = false) :
    (s.commit p v).drainAll.sc.get i = s.sc.get i := by
  rw [drainAll_sc, commit_sc v h]

theorem drained_commit_wf (v : Word) (hw : s.mem.wf = true) : (s.commit p v).drainAll.mem.wf = true :=
  drainAll_wf (by rwa [commit_mem])

/-- Where no bus error answers the write, no store is lost (R426). -/
theorem drained_commit_lostStores (v : Word) (hb : s.storeBuf = [])
    (h : ∀ pa, p.home = .phys pa → s.board.writeAnswer pa ≠ .busError) :
    (s.commit p v).drainAll.lostStores = s.lostStores := by
  cases hp : p.home with
  | sc a =>
    have buffer : (s.commit p v).storeBuf = [] := by rw [State.commit, hp]; exact hb
    rw [drainAll_nil buffer, commit_lostStores]
  | phys pa =>
    have answer := h pa hp
    rw [← writeAnswer_wordAddr] at answer
    have buffer : s.commit p v = { s with storeBuf := [[Store.of pa p.mask (v <<< p.shift)]] } := by
      rw [State.commit, hp]
      simp [State.homeWrite, State.enqueue, State.enqueueBlock, hb]
    rw [buffer]
    cases ha : s.board.writeAnswer (wordAddr pa) with
    | ram | device => simp [State.drainAll, State.drainTo, State.drainTransfer, Store.of, ha]
    | busError => exact absurd ha answer

/-! ## What both writes leave alone -/

/-- Settles O38: the bytes and words neither write covers, both from the drained state, the registers, and the buffer drained
after each. -/
theorem interlockedFrame : Obligations.InterlockedFrame := by
  intro op alu k f s t a b d p q hop hw hr h
  have next := (exec_interlocked hop hr).symm.trans h
  cases next
  obtain ⟨-, -, -, -, noneLost, -⟩ := hr
  have start : s.lockStart.storeBuf = [] := drainAll_storeBuf s
  have middle : (s.locked (.slot q) (alu a b)).storeBuf = [] := drainAll_storeBuf _
  have wf : s.lockStart.mem.wf = true := drainAll_wf hw
  refine ⟨fun x hq hp => ?_, fun x hq hp => ?_, ?_, ?_, ?_, drainAll_storeBuf _, fun hbus => ?_⟩
  · have second := drained_commit_physByte b middle (drained_commit_wf _ wf) hp
    exact second.trans (drained_commit_physByte _ start wf hq)
  · have second := drained_commit_sc (s.locked (.slot q) (alu a b)) b hp
    exact second.trans ((drained_commit_sc s.lockStart _ hq).trans (by simp [State.lockStart]))
  · simp [sameRegs, State.locked, State.put, State.lockStart]
  · simp [sameHidden, State.locked, State.put, State.lockStart]
  · simp [State.locked, State.put, State.lockStart]
  · have second := drained_commit_lostStores b middle fun pa hp => by
      simpa [State.locked, State.put, State.lockStart] using hbus pa (.inr hp)
    have first := drained_commit_lostStores (alu a b) start fun pa hq => by
      simpa [State.lockStart] using hbus pa (.inl hq)
    exact second.trans (first.trans noneLost)

end Sys2Proof.Proofs
end

section
/-! PROOF. The compares (41_compare.md R230 to R233): one table of their relations, the source first, and one next state, in which F is
the only bit of PSW written and nothing is stored. -/

namespace Sys2Proof.Proofs

open Sys2Proof.Machine Sys2Proof.Laws

variable {op : DyOp} {k : Prefix} {f : Sys2Proof.Dyadic} {s : State} {a b : Word} {rel : Word → Word → Bool}

/-! ## Their relations (R230 to R232) -/

/-- The relation of a compare, between its source and its destination operand. -/
def compareRel : DyOp → Option (Word → Word → Bool)
  | .cmpeq => some fun a b => decide (a = b)
  | .cmpgt => some fun a b => decide (b.toInt < a.toInt)
  | .cmphi => some fun a b => decide (b.toNat < a.toNat)
  | _ => none

theorem dyadicM_compare (h : compareRel op = some rel) (k : Prefix) (f : Sys2Proof.Dyadic) :
    dyadicM op k f = dyadicCompare op k f rel := by
  cases op with
  | cmpeq | cmpgt | cmphi => cases h; rfl
  | _ => cases h

/-- A compare writes zero bytes, so what it may see untruncated (R495) does not depend on its destination operand. -/
theorem lateFor_compare (h : compareRel op = some rel) (da : Arg) : lateFor op da = lateOp op 0 := by
  cases op with
  | cmpeq | cmpgt | cmphi => cases h; rfl
  | _ => cases h

/-! ## The next state (R233) -/

/-- Writing F alone. -/
theorem setFlags_f (s : State) (v : Bool) :
    s.setFlags { f := some v } = { s with psw := { s.psw with f := v }, hazard := s.hazard.noteFlags s.psw } := rfl

theorem exec_compare (h : compareRel op = some rel) (hr : ReadReady op k f s a b) :
    exec (dyadicInstr k op f) s =
      .next { s with
        psw := { s.psw with f := rel a b }, hazard := s.hazard.noteFlags s.psw, pc := s.pc + (k.len + f.len) } := by
  obtain ⟨hc, hf, h2, hs, hdb⟩ := hr
  obtain ⟨d, hd, hb⟩ := Option.bind_eq_some_iff.1 hdb
  have next := dyadicCompare_ok (rel := rel) hc hf h2 hs hd hb (lateFor_compare h _)
  rw [setFlags_f] at next
  rw [exec_dyadicInstr, dyadicM_compare h]
  exact run_ok next

theorem setsF_of_compare {holds : Word → Word → Prop} (h : compareRel op = some rel) (iff : ∀ a b, rel a b = true ↔ holds a b) :
    SetsF op holds :=
  fun _ _ _ a b hr => ⟨rel a b, iff a b, exec_compare h hr⟩

/-- Settles O25: each relation of the table decides the spec's. -/
theorem compareResult : Obligations.CompareResult :=
  ⟨setsF_of_compare rfl fun _ _ => decide_eq_true_iff, setsF_of_compare rfl fun _ _ => decide_eq_true_iff,
    setsF_of_compare rfl fun _ _ => decide_eq_true_iff⟩

end Sys2Proof.Proofs
end

section
/-! PROOF. AND, OR and XOR (42_logical.md R240, R244, R247; R242): bitwise on the two words, with no flag named, so each is an instance of
the rule for a result in the destination. -/

namespace Sys2Proof.Proofs

open Sys2Proof.Machine Sys2Proof.Laws

/-- A bitwise operation raises for no value of its operands and names no flag (R242). MOV, whose operation is one too, does not read its
destination. -/
theorem writesDst_bitwise {op : DyOp} {bitwise : Word → Word → Word} (h : dstAlu op = some (aluOf bitwise)) (hm : op ≠ .mov) :
    WritesDst op bitwise (fun _ _ => {}) (fun _ => True) :=
  writesDst_of_alu h hm fun _ _ _ => rfl

/-- Settles O14: the table of operations gives AND, OR and XOR their bitwise words. -/
theorem logicalResult : Obligations.LogicalResult :=
  ⟨writesDst_bitwise rfl (by decide), writesDst_bitwise rfl (by decide), writesDst_bitwise rfl (by decide)⟩

end Sys2Proof.Proofs
end

section
/-! PROOF. MOV, MOVA, LDRAA and DQM (43_move.md R260 to R264): the next state of each, the fields of PSW and CONFIG in the words that
a move to them writes (10_state.md R31, R36), and what a block stored in memory leaves of every other word (20_memory.md R105, R126). -/

namespace Sys2Proof.Proofs

open Sys2Proof.Machine Sys2Proof.Laws

variable {k : Prefix} {f : Sys2Proof.Dyadic} {s : State} {a : Word} {d : Opd} {t : Target} {p : Slot}

/-! ## MOV and MOVA (R260 to R262) -/

theorem exec_mov (hr : MoveReady .mov k f s a d t) :
    exec (dyadicInstr k .mov f) s = .next { s.put t a with pc := s.pc + (k.len + f.len) } := by
  obtain ⟨_, next⟩ := exec_dst (op := .mov) rfl (b := 0) (by rwa [if_pos rfl]) (by simp)
  rw [noteWide_mov] at next
  exact next

/-- The address of a memory operand is found with its pointer word read and the operand itself not (R262). -/
theorem addrOf_ok {x : Arg} (h : s.addr? x = some a) :
    x.noReg = false ∧ x.pointerAligned = true ∧ addrOf s.level x s = .ok a s := by
  cases x with
  | mem ea z => cases h; exact ⟨rfl, rfl, rfl⟩
  | ptr q z => exact ⟨rfl, aligned_of_load h, memRead_ok h⟩
  | imm v | reg c => cases h

theorem exec_mova (hf : f.accepted k .mova = true) (ha : s.addr? (srcArg s k f) = some a) (hd : s.dst? k f = some d)
    (ht : s.target? d = some t) :
    exec (dyadicInstr k .mova f) s = .next { s.put t a with pc := s.pc + (k.len + f.len) } := by
  obtain ⟨hn, hpa, address⟩ := addrOf_ok ha
  have next := moveAddress_ok hf hn hpa address hd ht
  rw [put_pc] at next
  rw [exec_dyadicInstr]
  exact run_ok next

/-- Settles O19: the next state of either is the old one with the slot and PC written. -/
theorem moveFrame : Obligations.MoveFrame := by
  intro k f s t a d p h
  obtain rfl : { s.commit p a with pc := s.pc + (k.len + f.len) } = t := by
    rcases h with ⟨hr, h⟩ | ⟨hf, ha, hd, ht, h⟩
    · exact Host.Outcome.next.inj ((exec_mov hr).symm.trans h)
    · exact Host.Outcome.next.inj ((exec_mova hf ha hd ht).symm.trans h)
  exact ⟨commit_sameOutside s p a, by simp [sameRegs], by simp [sameHidden], by simp, by simp⟩

/-! ## The words of PSW and CONFIG (R31, R36) -/

/-- The upper bits of a word above zeros are the word with its lower bits clear. -/
theorem append_zeros {n m : Nat} (h : m + n = 32) (w : Word) :
    BitVec.cast h (w.extractLsb' n m ++ 0#n) = w &&& (BitVec.allOnes 32 <<< n) := by
  refine BitVec.eq_of_getLsbD_eq fun i hi => ?_
  rw [BitVec.getLsbD_cast, BitVec.getLsbD_append, BitVec.getLsbD_and, BitVec.getLsbD_shiftLeft, BitVec.getLsbD_allOnes]
  by_cases hn : i < n
  · simp [hn]
  · rw [if_neg hn, BitVec.getLsbD_extractLsb', show n + (i - n) = i by omega]
    simp [hn, hi, show i - n < m by omega, show i - n < 32 by omega]

/-- Neighbouring fields above zeros are one field above them. -/
theorem append_above_zeros (w : Word) {i n l : Nat} (m : Nat) (h : i = n + l) :
    w.extractLsb' i m ++ (w.extractLsb' n l ++ 0#n) = BitVec.cast (Nat.add_assoc m l n) (w.extractLsb' n (m + l) ++ 0#n) := by
  rw [← BitVec.extractLsb'_append_extractLsb'_eq_extractLsb' h, BitVec.append_assoc]
  rfl

theorem psw_toWord_ofWord (w : Word) : (Psw.ofWord w).toWord = w &&& 0xFFFFFFF0 := by
  have packed : (Psw.ofWord w).toWord = w.extractLsb' 4 28 ++ 0#4 := by
    simp only [Psw.toWord, Psw.ofWord, ofBool_getLsbD, BitVec.extractLsb'_append_extractLsb'_eq_extractLsb']
    rw [append_above_zeros w (i := 8) (l := 4) 8 rfl]
    exact append_above_zeros w (i := 16) (l := 12) 16 rfl
  exact packed.trans (append_zeros (n := 4) (m := 28) rfl w)

theorem cfg_toWord_ofWord (w : Word) : (Cfg.ofWord w).toWord = w &&& 0xFFFF0000 := by
  have packed : (Cfg.ofWord w).toWord = w.extractLsb' 16 16 ++ 0#16 := by
    simp only [Cfg.toWord, Cfg.ofWord, ofBool_getLsbD, BitVec.extractLsb'_append_extractLsb'_eq_extractLsb']
  exact packed.trans (append_zeros (n := 16) (m := 16) rfl w)

theorem psw_ofWord_toWord (p : Psw) : Psw.ofWord p.toWord = p := by
  have rsv : p.toWord.extractLsb' 17 15 = p.rsv := by
    rw [Psw.toWord, BitVec.extractLsb'_append_eq_of_le (by decide)]
    exact BitVec.extractLsb'_append_eq_left
  have ipl : p.toWord.extractLsb' 12 3 = p.ipl := by
    rw [Psw.toWord, BitVec.extractLsb'_append_eq_of_add_le (by decide), BitVec.extractLsb'_append_eq_of_le (by decide),
      BitVec.extractLsb'_append_eq_of_le (by decide)]
    exact BitVec.extractLsb'_append_eq_right
  rw [Psw.ofWord, rsv, ipl, Psw.toWord]
  repeat rw [BitVec.getLsbD_append]
  simp

theorem cfg_ofWord_toWord (c : Cfg) : Cfg.ofWord c.toWord = c := by
  have t2ev : c.toWord.extractLsb' 25 5 = c.t2ev := by
    rw [Cfg.toWord, BitVec.extractLsb'_append_eq_of_le (by decide), BitVec.extractLsb'_append_eq_of_le (by decide),
      BitVec.extractLsb'_append_eq_of_le (by decide)]
    exact BitVec.extractLsb'_append_eq_right
  rw [Cfg.ofWord, t2ev, Cfg.toWord]
  repeat rw [BitVec.getLsbD_append]
  simp

/-- Settles O17: both moves write their destination and PC alone; a word and the fields it holds give each other back, but for the low
bits. -/
theorem moveResult : Obligations.MoveResult :=
  ⟨fun _ _ _ _ _ _ => ⟨exec_mov, exec_mova⟩, fun w => ⟨rfl, psw_toWord_ofWord w⟩, psw_ofWord_toWord,
    fun w => ⟨rfl, cfg_toWord_ofWord w⟩, cfg_ofWord_toWord⟩

/-! ## LDRAA (R264, R285) -/

theorem ldraaM_ok {g : Monadic Empty FlowMode} {v : Word} (hg : s.flow? Empty.elim g = some v) (hp : s.acc? = some p) :
    ldraaM k g s = .ok () { s.commit p v with pc := s.pc + (k.len + 6) } := by
  cases g with
  | p1 e => exact e.elim
  | p3 m x => simp [ldraaM, target3_ok hg, checkWrite_ok hp]
  | illegal m => cases hg

/-- Settles O23: the target is read, then the accumulator checked and written. -/
theorem loadRelativeAddress : Obligations.LoadRelativeAddress := by
  intro k i g s v p hi hg hp
  rw [exec_ldraa hi]
  exact run_ok (ldraaM_ok hg hp)

/-! ## DQM (R263) -/

variable {n : Nat} {ws : List Word}

/-- The source words of a block move: of an aligned block, or a constant. -/
theorem dqmSource_ok {o : Opd} (hb : s.block? n o = some ws) :
    (∀ ea z, o = .mem ea z → ea.toNat % (4 * n) = 0) ∧ dqmSource s.level n o s = .ok ws s := by
  cases o with
  | imm v => cases hb; exact ⟨by simp, rfl⟩
  | reg r => cases hb
  | mem ea z =>
    obtain ⟨hal, hb⟩ := Option.ite_none_right_eq_some.1 hb
    obtain ⟨h, hh, hw⟩ := Option.bind_eq_some_iff.1 hb
    refine ⟨by rintro _ _ ⟨⟩; simpa [aligned] using hal, ?_⟩
    simp [dqmSource, findHome_ok hh, readBlock_ok hw]

/-- Where a block move stores: at an aligned memory operand. -/
theorem blockHome?_spec {h : Home} (hh : s.blockHome? n d = some h) :
    ∃ ea z, d = .mem ea z ∧ ea.toNat % (4 * n) = 0 ∧ s.home? s.level .write ea = some h := by
  cases d with
  | mem ea z =>
    obtain ⟨hal, hh⟩ := Option.ite_none_right_eq_some.1 hh
    exact ⟨ea, z, rfl, by simpa [aligned] using hal, hh⟩
  | imm v | reg r => cases hh

theorem blockMove_ok {o : Opd} {h : Home} (hf : f.accepted k .dqm = true) (hn : dqmWords (dmodeOf f) = some n)
    (ho : s.opd? (srcArg s k f) = some o) (hb : s.block? n o = some ws) (hd : s.dst? k f = some d)
    (hh : s.blockHome? n d = some h) :
    blockMove k f s = .ok () { s.writeBlock h n ws with pc := s.pc + (k.len + f.len) } := by
  obtain ⟨source, words⟩ := dqmSource_ok hb
  obtain ⟨ea, z, rfl, dest, home⟩ := blockHome?_spec hh
  obtain ⟨hal, src⟩ := resolveBlock_ok ho source
  obtain ⟨hal', dst⟩ := resolveBlock_ok hd (n := 4 * n) (by rintro _ _ ⟨⟩; exact dest)
  simp [blockMove, hf, hn, hal, hal', src, dst, words, findHome_ok home, dyadicSize]

/-- Settles O39: all words are read, then stored as one block. -/
theorem blockMoveResult : Obligations.BlockMoveResult := by
  intro k f s n ws d h hf hn hs hd hh
  obtain ⟨o, ho, hb⟩ := Option.bind_eq_some_iff.1 hs
  rw [exec_dyadicInstr]
  exact run_ok (blockMove_ok hf hn ho hb hd hh)

/-! ## A block in memory (R105, R126) -/

theorem mergeLanes_all (old v : Word) : mergeLanes old 0xFFFFFFFF v = v := by
  have clear : old &&& ~~~BitVec.allOnes 32 = 0 := by simp
  exact (congrArg₂ (· ||| ·) clear BitVec.and_allOnes).trans BitVec.zero_or

theorem blockStores_cons (pa : Word) (i : Nat) (is : List Nat) (w : Word) (ws : List Word) :
    blockStores pa (i :: is) (w :: ws) = Store.of (pa + BitVec.ofNat 32 (4 * i)) 0xFFFFFFFF w :: blockStores pa is ws := rfl

/-- A word stored lies over its own word and over no other. -/
theorem over_wordStore (b q old w : Word) :
    Store.over q old (Store.of b 0xFFFFFFFF w) = if wordAddr b = wordAddr q then w else old := by
  rw [Store.over, Store.of, mergeLanes_all]

/-- Where none of its words lies, a block shows what was there. -/
theorem blockStores_over_other {pa q : Word} {is : List Nat} (hq : ∀ i ∈ is, wordAddr q ≠ wordAddr (pa + BitVec.ofNat 32 (4 * i)))
    (ws : List Word) (old : Word) : (blockStores pa is ws).foldl (Store.over q) old = old := by
  induction is generalizing ws with
  | nil => rfl
  | cons i is ih =>
    cases ws with
    | nil => rfl
    | cons w ws =>
      obtain ⟨first, rest⟩ := List.forall_mem_cons.1 hq
      rw [blockStores_cons, List.foldl_cons, over_wordStore, if_neg first.symm]
      exact ih rest ws

/-- At the address of one of its words a block of distinct words shows that word. -/
theorem blockStores_over_word {pa : Word} {is : List Nat} {j i : Nat} {w : Word} (hi : is[j]? = some i) (hw : ws[j]? = some w)
    (distinct : is.Pairwise fun i j => wordAddr (pa + BitVec.ofNat 32 (4 * i)) ≠ wordAddr (pa + BitVec.ofNat 32 (4 * j)))
    (old : Word) : (blockStores pa is ws).foldl (Store.over (pa + BitVec.ofNat 32 (4 * i))) old = w := by
  induction is generalizing ws j old with
  | nil => cases hi
  | cons i' is ih =>
    cases ws with
    | nil => cases hw
    | cons w' ws =>
      obtain ⟨first, rest⟩ := List.pairwise_cons.1 distinct
      rw [blockStores_cons, List.foldl_cons]
      cases j with
      | zero =>
        cases hi
        cases hw
        rw [over_wordStore, if_pos rfl]
        exact blockStores_over_other first ws w
      | succ j => exact ih hi hw rest _

theorem writeBlock_physWord (pa q : Word) (n : Nat) (ws : List Word) :
    (s.writeBlock (.phys pa) n ws).physWord q = (blockStores pa (blockIdx n) ws).foldl (Store.over q) (s.physWord q) := by
  simp [State.physWord, State.writeBlock, State.enqueueBlock]

/-! ## The words a DQM moves -/

theorem dqmWords_cases {m : Mode} (h : dqmWords m = some n) : n = 2 ∨ n = 4 := by
  unfold dqmWords at h
  split at h <;> simp_all

theorem blockIdx_eq_range (hn : n = 2 ∨ n = 4) : blockIdx n = List.range n := by
  rcases hn with rfl | rfl <;> rfl

theorem length_of_mapM {α β : Type} {g : α → Option β} {l : List α} {r : List β} (h : l.mapM g = some r) :
    r.length = l.length := by
  induction l generalizing r with
  | nil => cases h; rfl
  | cons x l ih =>
    simp only [List.mapM_cons, Option.bind_eq_bind, Option.bind_eq_some_iff] at h
    obtain ⟨y, -, r', hr, h⟩ := h
    cases h
    exact congrArg (· + 1) (ih hr)

/-- A block move moves as many words as its destination mode names. -/
theorem block?_length {o : Opd} (hn : n = 2 ∨ n = 4) (hb : s.block? n o = some ws) : ws.length = n := by
  cases o with
  | imm v => cases hb; exact List.length_replicate
  | reg r => cases hb
  | mem ea z =>
    obtain ⟨-, hb⟩ := Option.ite_none_right_eq_some.1 hb
    obtain ⟨h, -, hw⟩ := Option.bind_eq_some_iff.1 hb
    rw [length_of_mapM hw, blockIdx_eq_range hn, List.length_range]

/-- The words of a block of an aligned address are at word addresses. -/
theorem wordAddr_add {pa : Word} (ha : wordAddr pa = pa) (i : Nat) :
    wordAddr (pa + BitVec.ofNat 32 (4 * i)) = pa + BitVec.ofNat 32 (4 * i) := by
  have hpa := wordAddr_toNat pa
  rw [ha] at hpa
  apply BitVec.eq_of_toNat_eq
  rw [wordAddr_toNat, BitVec.toNat_add, BitVec.toNat_ofNat]
  omega

/-- They are distinct. -/
theorem add_ofNat_ne (pa : Word) {i j : Nat} (hij : i < j) (hj : j < 4) :
    pa + BitVec.ofNat 32 (4 * i) ≠ pa + BitVec.ofNat 32 (4 * j) := by
  intro h
  have h := congrArg BitVec.toNat ((BitVec.add_right_inj pa).1 h)
  rw [BitVec.toNat_ofNat, BitVec.toNat_ofNat] at h
  omega

/-- Each word of a block moved to memory reads as the word moved there. -/
theorem writeBlock_word {pa : Word} (hn : n = 2 ∨ n = 4) (ha : wordAddr pa = pa) {i : Nat} (hi : i < n) {w : Word}
    (hw : ws[i]? = some w) : (s.writeBlock (.phys pa) n ws).physWord (pa + BitVec.ofNat 32 (4 * i)) = w := by
  have distinct : (List.range n).Pairwise fun i j =>
      wordAddr (pa + BitVec.ofNat 32 (4 * i)) ≠ wordAddr (pa + BitVec.ofNat 32 (4 * j)) :=
    List.pairwise_lt_range.imp_of_mem fun _ hj hij => by
      rw [wordAddr_add ha, wordAddr_add ha]
      have := List.mem_range.1 hj
      exact add_ofNat_ne pa hij (by omega)
  rw [writeBlock_physWord, blockIdx_eq_range hn]
  exact blockStores_over_word (List.getElem?_range hi) hw distinct _

/-- A byte in none of its words is as it was. -/
theorem writeBlock_physByte {pa q : Word} (hn : n = 2 ∨ n = 4) (ha : wordAddr pa = pa)
    (hq : ∀ i < n, wordAddr q ≠ pa + BitVec.ofNat 32 (4 * i)) (ws : List Word) :
    (s.writeBlock (.phys pa) n ws).physByte q = s.physByte q := by
  have other : ∀ i ∈ blockIdx n, wordAddr q ≠ wordAddr (pa + BitVec.ofNat 32 (4 * i)) := fun i hi => by
    rw [blockIdx_eq_range hn] at hi
    rw [wordAddr_add ha]
    exact hq i (List.mem_range.1 hi)
  rw [State.physByte, writeBlock_physWord, blockStores_over_other other]
  rfl

/-- Settles O40: the block moved joins the store buffer, and nothing else but PC is written. -/
theorem blockMoveFrame : Obligations.BlockMoveFrame := by
  intro k f s t n ws d pa hf hw hs hd hh ha h
  obtain ⟨o, ho, hb⟩ := Option.bind_eq_some_iff.1 hs
  have hn := dqmWords_cases hw
  have next := (blockMoveResult k f s n ws d _ hf hw hs hd hh).symm.trans h
  cases next
  refine ⟨fun i hi => ?_, fun q hq => writeBlock_physByte (s := s) hn ha hq ws, by simp, rfl, by simp [sameRegs], by simp [sameHidden],
    by simp⟩
  have word := List.getElem?_eq_getElem (hi.trans_eq (block?_length hn hb).symm)
  exact ⟨_, word, writeBlock_word (s := s) hn ha hi word⟩

end Sys2Proof.Proofs
end

section
/-! PROOF. The jumps, CALL, RETURN and POPN (44_program_control.md R280 to R285, R292, R294, R302): each finds its target as
`State.flow?` says and then makes one next state. -/

namespace Sys2Proof.Proofs

open Sys2Proof.Machine Sys2Proof.Laws

variable {k : Prefix} {s : State} {p : Slot} {t : Word}

/-! ## Jumps (R280 to R285) -/

section

variable {f : Monadic (BitVec 10) FlowMode}

theorem jmpM_ok (ht : s.flow? s.near f = some t) : jmpM f s = .ok () { s with pc := t &&& 0xFFFFFFFE } := by
  simp [jmpM, flowTarget_ok ht, textAddr_and]

theorem jumpIf_ok (want : Bool) (hd : indirectFlow f = false) (ht : s.flow? s.near f = some t) :
    jumpIf want k f s =
      .ok () { s with pc := if s.psw.f = want then t &&& 0xFFFFFFFE else s.pc + (k.len + f.len) } := by
  by_cases taken : s.psw.f = want <;> simp [jumpIf, hd, flowTarget_ok ht, taken, textAddr_and]

/-- Settles O27: every jump finds its target; JMP takes it, a conditional jump takes it where F is the value it wants. -/
theorem jumpResult : Obligations.JumpResult := by
  intro k i f s t ht
  refine ⟨fun hi => ?_, fun hd => ⟨fun hi => ?_, fun hi => ?_⟩⟩
  · rw [exec_jmp hi]
    exact run_ok (jmpM_ok ht)
  · have jump := run_ok (jumpIf_ok (k := k) false hd ht)
    rcases hi with hi | hi
    · rw [exec_jmpfn hi, jump]
    · rw [exec_jmpfy hi, jump]
  · have jump := run_ok (jumpIf_ok (k := k) true hd ht)
    rcases hi with hi | hi
    · rw [exec_jmptn hi, jump]
    · rw [exec_jmpty hi, jump]

/-! ## CALL (R292, U14) -/

/-- One of two words is open: either comes out, and at most a choice is drawn. -/
theorem openWord_two (s : State) (v w : Word) : ∃ u n, (u = v ∨ u = w) ∧ openWord v [w] s = .ok u { s with draw := n } := by
  by_cases hw : w = v
  · exact ⟨v, s.draw, .inl rfl, by simp [openWord, hw]⟩
  · refine ⟨if Config.coin s.draw then w else v, s.draw + 1, ?_, by simp [openWord, hw, Machine.flip]⟩
    split
    · exact .inr rfl
    · exact .inl rfl

/-- A CALL whose return address can be stored and whose target can be read in the state with it stored. -/
theorem callM_ok (hf : isIllegal f = false) (ha : ((indirection s f).any fun a => !aligned a 4) = false)
    (hp : s.slot? s.level s.csp 4 = some p)
    (ht : flowTarget s.level s f (s.commit p (s.pc + (k.len + f.len))) = .ok t (s.commit p (s.pc + (k.len + f.len)))) :
    ∃ u n, (u = t ∨ (indirection s f = some s.csp ∧ u = s.peek p.home)) ∧ (indirection s f ≠ some s.csp → n = s.draw) ∧
      callM k f s = .ok () { s.commit p (s.pc + (k.len + f.len)) with
        pc := u &&& 0xFFFFFFFE, draw := n, hazard := { s.hazard with shad := some s.shad } } := by
  by_cases own : indirection s f = some s.csp
  · obtain ⟨u, n, hu, choice⟩ := openWord_two (s.commit p (s.pc + (k.len + f.len))) t (s.peek p.home)
    refine ⟨u, n, hu.imp_right fun hu => ⟨own, hu⟩, fun other => absurd own other, ?_⟩
    rw [own] at ha
    simp [callM, hf, own, ha, checkWrite_ok hp, ht, choice, textAddr_and]
  · refine ⟨t, s.draw, .inl rfl, fun _ => rfl, ?_⟩
    have draw : s.draw = (s.commit p (s.pc + (k.len + f.len))).draw := by simp
    rw [draw]
    simp [callM, hf, ha, own, checkWrite_ok hp, ht, textAddr_and]

/-- The target of a CALL is looked for with the operand of the state before its store. -/
theorem flowTarget_commit {v : Word} (ht : (s.commit p v).flow? s.near f = some t) :
    flowTarget s.level s f (s.commit p v) = .ok t (s.commit p v) := by
  have level : s.level = (s.commit p v).level := by simp [State.level]
  cases f with
  | p1 g => cases ht; simp [flowTarget, near_eq]
  | p3 m x =>
    have target := target3_ok ht
    rw [← level] at target
    cases m <;> simpa [flowTarget, target3, State.csp] using target
  | illegal m => cases ht

/-- A readable indirection word is aligned. -/
theorem indirection_aligned {v : Word} (ht : (s.commit p v).flow? s.near f = some t) :
    ((indirection s f).any fun a => !aligned a 4) = false := by
  cases f with
  | p1 g => rfl
  | p3 m x =>
    cases m with
    | absInd => simpa [indirection] using aligned_of_load ht
    | stkInd => simpa [indirection, State.csp] using aligned_of_load ht
    | pcRel | abs => rfl
  | illegal m => cases ht

/-- Settles O28: the target is read after the store, and is open only where it is the word stored. -/
theorem callResult : Obligations.CallResult := by
  intro k i f s p t hi hp ht
  obtain ⟨u, n, hu, hn, call⟩ := callM_ok (flow_illegal ht) (indirection_aligned ht) hp (flowTarget_commit ht)
  rw [exec_call hi]
  exact ⟨u, n, hu, hn, run_ok call⟩

end

/-! ## RETURN and POPN (R294, R302) -/

section

variable {f : Monadic (BitVec 8) Unit} {o : Word}

/-- The state with `o` bytes, less its low four bits, released from the stack, and the SHAD found noted. -/
def popped (s : State) (o : Word) : State :=
  { s.popTo (s.csp + quadAlign o) with hazard := { s.hazard with shad := some s.shad } }

theorem popped_user (hs : s.psw.s = true) (o : Word) :
    popped s o = { s with
      sp := s.sp + (o &&& 0xFFFFFFF0), shad := s.sp + (o &&& 0xFFFFFFF0)
      msp := if s.msp.toNat < (s.sp + (o &&& 0xFFFFFFF0)).toNat then s.sp + (o &&& 0xFFFFFFF0) else s.msp
      hazard := { s.hazard with shad := some s.shad } } := by
  simp [popped, State.popTo, State.setCsp, State.csp, hs, quadAlign, BitVec.lt_def]

theorem popped_interrupt (hs : s.psw.s = false) (o : Word) :
    popped s o = { s with
      isp := s.isp + (o &&& 0xFFFFFFF0), shad := s.isp + (o &&& 0xFFFFFFF0)
      hazard := { s.hazard with shad := some s.shad } } := by
  simp [popped, State.popTo, State.setCsp, State.csp, hs, quadAlign]

/-- A one-parcel field that counts units of `c` bytes (R142). -/
theorem scaledField_eq {n : Nat} (g : BitVec n) (c : Nat) :
    g.zeroExtend 32 * BitVec.ofNat 32 c = BitVec.ofNat 32 (c * g.toNat) := by
  rw [BitVec.ofNat_mul, BitVec.ofNat_toNat, BitVec.mul_comm]

/-- The offset an encoding names. -/
theorem popOffset_eq (hf : f = .p3 () o ∨ ∃ g, f = .p1 g ∧ o = BitVec.ofNat 32 (16 * g.toNat)) :
    isIllegal f = false ∧ popOffset f = o := by
  rcases hf with rfl | ⟨g, rfl, rfl⟩
  · exact ⟨rfl, rfl⟩
  · exact ⟨rfl, scaledField_eq g 16⟩

theorem retM_ok (hf : isIllegal f = false) (ho : popOffset f = o) (hn : 0 ≤ o.toInt) (hok : s.scOk = true)
    (ht : s.load? s.level (s.csp + o) 4 = some t) : retM f s = .ok () { popped s o with pc := t &&& 0xFFFFFFFE } := by
  simp [retM, hf, ho, msb_of_nonneg hn, hok, memReadW, memRead_ok ht, popped, State.popTo, textAddr_and]

theorem popnM_ok (hf : isIllegal f = false) (ho : popOffset f = o) (hn : 0 ≤ o.toInt) (hok : s.scOk = true) :
    popnM k f s = .ok () { popped s o with pc := s.pc + (k.len + f.len) } := by
  simp [popnM, hf, ho, msb_of_nonneg hn, hok, popped, State.popTo]

/-- Settles O29: both release the stack alike; RETURN alone reads memory, for its target. -/
theorem returnPopResult : Obligations.ReturnPopResult := by
  intro k i f s o hf hn hok released
  obtain ⟨legal, offset⟩ := popOffset_eq hf
  have same (pc : Word) : released pc = { popped s o with pc := pc } := by
    cases hs : s.psw.s
    · simp [released, hs, popped_interrupt hs]
    · simp [released, hs, popped_user hs]
  refine ⟨fun hi t ht => ?_, fun hi => ?_⟩
  · rw [exec_ret hi, same]
    exact run_ok (retM_ok legal offset hn hok ht)
  · rw [exec_popn hi, same]
    exact run_ok (popnM_ok legal offset hn hok)

end

end Sys2Proof.Proofs
end

section
/-! PROOF. ENTER (44_program_control.md R300): the target its operand names, the quad-words it flushes, and the stack pointers it ends
with, on the interrupt stack, in replacing modes, and in stack offset mode. -/

namespace Sys2Proof.Proofs

open Sys2Proof.Machine Sys2Proof.Laws

variable {k : Prefix} {s : State} {f : Monadic (BitVec 8) WordMode} {o : Bool} {v : Word} {lv : Level} {n : Nat} {pa : Nat → Word}

/-! ## The target (R300) -/

/-- The new pointer of ENTER and CATCH is found in the modes other than stack offset. -/
theorem replaceTarget_ok {base x : Word} {m : WordMode} (h : s.replace? base m x = some v) :
    m ≠ .stk ∧ replaceTarget s.level base m x s = .ok v s := by
  cases m with
  | imm => cases h; exact ⟨by decide, rfl⟩
  | abs | ind => exact ⟨by decide, memRead_ok h⟩
  | stk => cases h

/-- The field of a one-parcel ENTER counts quad-words below zero (R142). -/
theorem enterField_eq (g : BitVec 8) : enterField g = BitVec.ofInt 32 (16 * ((g.toNat : Int) - 256)) := by
  have ones : (0xFFFFFF#24 ++ g).toNat = 0xFFFFFF00 + g.toNat := by
    rw [BitVec.toNat_append, ← Nat.shiftLeft_add_eq_or_of_lt g.isLt]
    rfl
  have small := g.isLt
  apply BitVec.eq_of_toNat_eq
  rw [enterField, BitVec.toNat_mul, ones, BitVec.toNat_ofInt]
  change (0xFFFFFF00 + g.toNat) * 16 % 2 ^ 32 = _
  omega

/-- Once its target is known an ENTER is its body and its end. -/
theorem enterM_target (hok : s.scOk = true) (hv : enterPointer s f o v) :
    enterM k f s = (do enterTo o v; enterEnd s.shad (k.len + f.len) : M Unit) s := by
  rcases hv with ⟨rfl, ⟨g, rfl, rfl⟩ | ⟨x, rfl, hx, rfl⟩⟩ | ⟨rfl, m, x, rfl, hm⟩
  · rw [← enterField_eq]
    simp [enterM, hok, Monadic.len]
  · have far : ¬(-256 ≤ x.toInt) := by omega
    simp [enterM, hok, msb_of_neg (show x.toInt < 0 by omega), far, Monadic.len]
  · obtain ⟨hm', target⟩ := replaceTarget_ok hm
    cases m with
    | stk => exact absurd rfl hm'
    | abs | ind | imm => simp [enterM, hok, target, Monadic.len]

/-- E is set and the PSW and SHAD found are noted (R300, R491, R493). -/
theorem enterEnd_run (old d : Word) (t : State) :
    enterEnd old d t = .ok () { t with
      psw := { t.psw with e := true }, hazard := { t.hazard.noteFlags t.psw with shad := some old }, pc := t.pc + d } := rfl

/-- An ENTER whose body leaves `t`. -/
theorem exec_enter_ok {i : Instr} {t : State} (hi : prefixed k .enter (.word .enter) f = some i) (hok : s.scOk = true)
    (hv : enterPointer s f o v) (ht : enterTo o v s = .ok () t) :
    exec i s = .next { t with
      psw := { t.psw with e := true }, hazard := { t.hazard.noteFlags t.psw with shad := some s.shad }
      pc := t.pc + (k.len + f.len) } := by
  rw [exec_enter hi]
  exact run_ok (by simp [enterM_target hok hv, ht, enterEnd_run])

/-! ## On the interrupt stack -/

/-- Settles O30: with ISP current the body of ENTER is a store check and the new pointer. -/
theorem enterInterruptStack : Obligations.EnterInterruptStack := by
  intro k i f s o v hi hs hok hv hc
  exact exec_enter_ok hi hok hv (t := { s with isp := quadAlign v, shad := quadAlign v })
    (by simp [enterTo, hs, enterIsp, checkStore_ok (a := quadAlign v) hc])

/-! ## Quad-words flushed (R91) -/

/-- The state after the `n` highest quad-words of the stack cache have gone to memory, the `j`-th of them to `pa j`. -/
def flushed (s : State) (pa : Nat → Word) (n : Nat) : State :=
  { s with
    storeBuf := s.storeBuf ++ (List.range n).map fun j => s.quadStores (s.msp - BitVec.ofNat 32 (16 * (j + 1))) (pa j)
    msp := s.msp - BitVec.ofNat 32 (16 * n) }

theorem flushed_zero (s : State) (pa : Nat → Word) : flushed s pa 0 = s := by simp [flushed]

/-- The address of the quad-word below the `n` highest ones. -/
theorem sub_quads_succ (a : Word) (n : Nat) : a - BitVec.ofNat 32 (16 * n) - 16 = a - BitVec.ofNat 32 (16 * (n + 1)) := by
  bv_omega

theorem flushQuad_flushed (hl : s.sp < s.msp - BitVec.ofNat 32 (16 * n))
    (hq : s.quadOut? lv (s.msp - BitVec.ofNat 32 (16 * (n + 1))) = some (pa n)) :
    flushQuad lv (flushed s pa n) = .ok () (flushed s pa (n + 1)) := by
  rw [← sub_quads_succ] at hq
  rw [flushQuad_ok (s := flushed s pa n) hl hq]
  simp only [flushed, List.range_succ, List.map_append, List.map_cons, List.map_nil, sub_quads_succ, List.append_assoc]
  rfl

/-- A loop of flushes that turns `n` times. -/
theorem whileM_flush {c : State → Bool} (hn : n ≤ 17)
    (hc : ∀ j < n, c (flushed s pa j) = true ∧ s.sp < s.msp - BitVec.ofNat 32 (16 * j)) (he : c (flushed s pa n) = false)
    (hq : ∀ j < n, s.quadOut? lv (s.msp - BitVec.ofNat 32 (16 * (j + 1))) = some (pa j)) :
    whileM 17 c (flushQuad lv) s = .ok () (flushed s pa n) := by
  have loop := whileM_turns (flushed s pa) n 17 hn
    (fun j hj => ⟨(hc j hj).1, flushQuad_flushed (hc j hj).2 (hq j hj)⟩) he
  rwa [flushed_zero] at loop

/-! ## In a replacing mode -/

theorem scOk_iff : s.scOk = true ↔ s.sp.toNat ≤ s.msp.toNat ∧ s.msp.toNat ≤ s.sp.toNat + 256 := by simp [State.scOk]

/-- With `n` quad-words held the loop of a replacing ENTER flushes them all. -/
theorem whileM_flushAll (hok : s.scOk = true) (hsh : s.shad = s.sp) (hm : s.msp = s.sp + BitVec.ofNat 32 (16 * n)) (hn : n ≤ 16)
    (hq : ∀ j < n, s.quadOut? lv (s.msp - BitVec.ofNat 32 (16 * (j + 1))) = some (pa j)) :
    whileM 17 (fun t => decide (t.shad < t.msp)) (flushQuad lv) s = .ok () (flushed s pa n) := by
  obtain ⟨low, -⟩ := scOk_iff.1 hok
  have held : ∀ j ≤ n, (s.msp - BitVec.ofNat 32 (16 * j)).toNat = s.sp.toNat + 16 * (n - j) := by
    intro j hj
    bv_omega
  refine whileM_flush (by omega) (fun j hj => ?_) ?_ hq
  · have above : s.sp < s.msp - BitVec.ofNat 32 (16 * j) := by
      rw [BitVec.lt_def, held j (by omega)]
      omega
    exact ⟨by simpa [flushed, hsh] using above, above⟩
  · have empty := held n le_rfl
    simp [flushed, hsh, BitVec.lt_def, empty]

/-- Settles O31: the whole stack cache is flushed, then the three pointers are set. -/
theorem enterReplace : Obligations.EnterReplace := by
  intro k i f s v n pa hi hs hok hsh hv hm hn hq hc
  have loop := whileM_flushAll hok hsh hm hn hq
  have check := checkStore_ok (s := flushed s pa n) (a := quadAlign v) hc
  have body : enterTo false v s = .ok () { flushed s pa n with sp := quadAlign v, msp := quadAlign v, shad := quadAlign v } := by
    simp [enterTo, hs, Machine.enterReplace, loop, check]
  exact exec_enter_ok hi hok hv body

/-! ## In stack offset mode -/

theorem scIdx_val (a : Word) : (scIdx a).val = a.toNat / 4 % 64 := by
  simp [scIdx, Nat.shiftRight_eq_div_pow]

/-- The words of the forgotten bytes are free, the others are as they were (R90). -/
theorem scForget_get (s : State) (lo : Word) (len : Nat) (i : Fin 64) :
    (s.scForget lo len).sc.get i =
      if (4 * i.val + 256 - lo.toNat % 256) % 256 < len then Config.freeWord (s.draw + i.val) else s.sc.get i := by
  exact Vector.getElem_ofFn i.isLt

/-- When SP falls to `v` the words held from SP up to an MSP within 256 bytes of `v` keep their values (R90). -/
theorem lowerSp_scWord {m a : Word} (hs : s.sp.toNat % 16 = 0) (hm : m.toNat ≤ v.toNat + 256)
    (ha : s.sp ≤ a) (ham : a < m) : (s.lowerSp v m).sc.get (scIdx a) = s.scWord a := by
  have top : s.sp < m := by bv_omega
  rw [State.lowerSp, if_pos top]
  split
  · rw [scForget_get, if_neg]
    · rfl
    · rw [scIdx_val]
      bv_omega
  · rfl

/-- Where no quad-word flushed but the last empties the stack cache, as many as are flushed were held. -/
theorem quads_held (hok : s.scOk = true) (hs : s.sp.toNat % 16 = 0) (hm : s.msp.toNat % 16 = 0)
    (ht : ∀ j < n, s.msp - BitVec.ofNat 32 (16 * j) ≠ s.sp) : ∀ j ≤ n, s.sp.toNat + 16 * j ≤ s.msp.toNat := by
  intro j hj
  induction j with
  | zero => exact (scOk_iff.1 hok).1
  | succ j ih =>
    have below := ih (by omega)
    have more := ht j (by omega)
    bv_omega

/-- The condition of the loop of flushes, with `x` what MSP has come down to. -/
theorem offsetTurn_iff {sp x : Word} (hv : v.toNat ≤ x.toNat) :
    (decide (x - sp ≠ 0) && decide (256 < x - v)) = true ↔ x ≠ sp ∧ v.toNat + 256 < x.toNat := by
  have differ : x - sp ≠ 0 ↔ x ≠ sp := not_congr (by bv_omega)
  have far : 256 < x - v ↔ v.toNat + 256 < x.toNat := by bv_omega
  simp only [Bool.and_eq_true, decide_eq_true_iff, differ, far]

/-- The loop of flushes of an ENTER in stack offset mode. -/
theorem whileM_flushOver (hok : s.scOk = true) (hsh : s.shad = s.sp) (hs : s.sp.toNat % 16 = 0) (hm : s.msp.toNat % 16 = 0)
    (hv : v.toNat ≤ s.sp.toNat)
    (ht : turns (fun j => s.msp - BitVec.ofNat 32 (16 * j) ≠ s.sp ∧ v.toNat + 256 < (s.msp - BitVec.ofNat 32 (16 * j)).toNat) n)
    (hq : ∀ j < n, s.quadOut? lv (s.msp - BitVec.ofNat 32 (16 * (j + 1))) = some (pa j)) :
    whileM 17 (fun t => decide (t.msp - t.shad ≠ 0) && decide (256 < t.msp - v)) (flushQuad lv) s = .ok () (flushed s pa n) := by
  obtain ⟨more, done⟩ := ht
  have held := quads_held hok hs hm fun j hj => (more j hj).1
  have above : ∀ j ≤ n, s.sp.toNat ≤ (s.msp - BitVec.ofNat 32 (16 * j)).toNat := fun j hj => by
    have := held j hj
    bv_omega
  have turn (j : Nat) (hj : j ≤ n) := offsetTurn_iff (sp := s.sp) (hv.trans (above j hj))
  refine whileM_flush ?_ (fun j hj => ⟨?_, ?_⟩) ?_ hq
  · have := held n le_rfl
    have := (scOk_iff.1 hok).2
    omega
  · simpa only [flushed, hsh] using (turn j hj.le).2 (more j hj)
  · have := above j hj.le
    have := (more j hj).1
    bv_omega
  · simpa only [flushed, hsh, Bool.not_eq_true] using mt (turn n le_rfl).1 done

/-- The new MSP: what is still held, at most 256 bytes above the new pointer. -/
def offsetMsp (v x : Word) : Word := if v.toNat + 256 < x.toNat then v + 256 else x

theorem offsetMsp_eq {y x : Word} (hv : v.toNat + 256 < 2 ^ 32) (hvy : v.toNat ≤ y.toNat) (hxy : x.toNat ≤ y.toNat) :
    (if 256 < y - v then (if v + 256 < x then v + 256 else x) else x) = offsetMsp v x := by
  have far : 256 < y - v ↔ v.toNat + 256 < y.toNat := by bv_omega
  have beyond : v + 256 < x ↔ v.toNat + 256 < x.toNat := by bv_omega
  simp only [offsetMsp, far, beyond]
  split
  · rfl
  · rw [if_neg (by omega)]

theorem offsetMsp_le {x : Word} (hv : v.toNat + 256 < 2 ^ 32) : (offsetMsp v x).toNat ≤ v.toNat + 256 := by
  unfold offsetMsp
  split
  · bv_omega
  · omega

/-- The body of an ENTER in stack offset mode, with its loop run. -/
theorem enterOffset_ok {m : Word}
    (hl : whileM 17 (fun t => decide (t.msp - t.shad ≠ 0) && decide (256 < t.msp - v)) (flushQuad lv) s = .ok () (flushed s pa n))
    (hm : (if 256 < s.msp - v then
      (if v + 256 < s.msp - BitVec.ofNat 32 (16 * n) then v + 256 else s.msp - BitVec.ofNat 32 (16 * n))
      else s.msp - BitVec.ofNat 32 (16 * n)) = m)
    (hc : s.storeOk lv v = true) (hcm : m ≠ s.msp → s.storeOk lv (m - 16) = true) :
    enterOffset lv v s = .ok () ((flushed s pa n).enterAt v m) := by
  have target := checkStore_ok (s := flushed s pa n) hc
  have top : m ≠ s.msp → checkStore lv (m - 16) (flushed s pa n) = .ok () (flushed s pa n) := fun moved =>
    checkStore_ok (s := flushed s pa n) (hcm moved)
  have msp : (flushed s pa n).msp = s.msp - BitVec.ofNat 32 (16 * n) := rfl
  simp only [enterOffset, bind_run, getS_run, hl, msp, hm, target]
  by_cases moved : m = s.msp
  · simp [moved]
  · simp only [ne_eq, moved, not_false_eq_true, if_true, bind_run, top moved, modS_run]

/-- Settles O32: quad-words are flushed while too many are held, both ends of the new range are checked, and of the words still held
none is forgotten. -/
theorem enterOffset : Obligations.EnterOffset := by
  intro k i f s p v m n pa hi hs hok hsh hal hml hp hv hle hvt ht hm hq hc hcm
  have held := quads_held hok hal hml fun j hj => (ht.1 j hj).1
  have msp : (s.msp - BitVec.ofNat 32 (16 * n)).toNat = s.msp.toNat - 16 * n := by
    have := held n le_rfl
    bv_omega
  have low := (scOk_iff.1 hok).1
  have newMsp := (offsetMsp_eq hvt (hle.trans low) (by omega)).trans hm.symm
  have offset := enterOffset_ok (whileM_flushOver hok hsh hal hml hle ht hq) newMsp hc hcm
  have body : enterTo true p s = .ok () ((flushed s pa n).enterAt v m) := by
    have aligned : quadAlign p = v := hv.symm
    simp [enterTo, hs, aligned, offset]
  refine ⟨((flushed s pa n).lowerSp v m).sc, ((flushed s pa n).lowerSp v m).draw, ?_, fun a ha ham => ?_⟩
  · rw [exec_enter_ok hi hok hp body, State.enterAt, lowerSp_eq]
    rfl
  · have near : m.toNat ≤ v.toNat + 256 := hm ▸ offsetMsp_le hvt
    exact lowerSp_scWord (s := flushed s pa n) hal near ha ham

end Sys2Proof.Proofs
end

section
/-! PROOF. CATCH and CRET (44_program_control.md R296, R298): the quad-words they bring into the stack cache (20_memory.md R92), each in
words of its own, and the next state of each. -/

namespace Sys2Proof.Proofs

open Sys2Proof.Machine Sys2Proof.Laws

variable {k : Prefix} {s : State} {f : Monadic (BitVec 8) WordMode} {a v : Word} {lv : Level} {n : Nat} {pa : Nat → Word}

/-! ## Words of the stack cache (R27, R87) -/

theorem scIdx_eq_iff {a b : Word} : scIdx a = scIdx b ↔ a.toNat / 4 % 64 = b.toNat / 4 % 64 := by
  rw [← Fin.val_inj, scIdx_val, scIdx_val]

/-- A word of the stack cache replaced (R87). -/
theorem scMerge_get (s : State) (a v : Word) (i : Fin 64) :
    (s.scMerge a 0xFFFFFFFF v).sc.get i = if scIdx a = i then v else s.sc.get i := by
  simp only [State.scMerge, mergeLanes_all, Fin.ext_iff]
  exact Vector.getElem_set _ _

/-- Words stored at other indices leave a word as it is. -/
theorem scWriteWords_other {is : List Nat} {i : Fin 64} (h : ∀ j ∈ is, scIdx (a + BitVec.ofNat 32 (4 * j)) ≠ i) (ws : List Word) :
    (s.scWriteWords a is ws).sc.get i = s.sc.get i := by
  induction is generalizing s ws with
  | nil => rfl
  | cons j is ih =>
    cases ws with
    | nil => rfl
    | cons w ws =>
      obtain ⟨first, rest⟩ := List.forall_mem_cons.1 h
      rw [State.scWriteWords, ih rest, scMerge_get, if_neg first]

/-- Of words stored at different indices each is found at its own. -/
theorem scWriteWords_word {is : List Nat} {g : Nat → Word} {w : Nat} (hw : w ∈ is)
    (distinct : is.Pairwise fun i j => scIdx (a + BitVec.ofNat 32 (4 * i)) ≠ scIdx (a + BitVec.ofNat 32 (4 * j))) :
    (s.scWriteWords a is (is.map g)).sc.get (scIdx (a + BitVec.ofNat 32 (4 * w))) = g w := by
  induction is generalizing s with
  | nil => cases hw
  | cons j is ih =>
    obtain ⟨first, rest⟩ := List.pairwise_cons.1 distinct
    rw [List.map_cons, State.scWriteWords]
    rcases List.mem_cons.1 hw with rfl | hw
    · rw [scWriteWords_other fun i hi => (first i hi).symm, scMerge_get, if_pos rfl]
    · exact ih hw rest

/-! ## Quad-words brought in (R92) -/

/-- The words of a quad-word of memory. -/
def quadWords (s : State) (pa : Word) : List Word := (blockIdx 4).map fun i => s.physWord (pa + BitVec.ofNat 32 (4 * i))

/-- The stack cache after `n` quad-words have come in from MSP on, the `j`-th of them from `pa j`. -/
def filledSc (s : State) (pa : Nat → Word) : Nat → Vector Word 64
  | 0 => s.sc
  | n + 1 =>
    ({ s with sc := filledSc s pa n }.scWriteWords (s.msp + BitVec.ofNat 32 (16 * n)) (blockIdx 4) (quadWords s (pa n))).sc

/-- The state after `n` quad-words have come in. -/
def filled (s : State) (pa : Nat → Word) (n : Nat) : State :=
  { s with sc := filledSc s pa n, msp := s.msp + BitVec.ofNat 32 (16 * n) }

theorem filled_zero (s : State) (pa : Nat → Word) : filled s pa 0 = s := by simp [filled, filledSc]

theorem fillQuad_filled (hq : s.quadIn? lv (s.msp + BitVec.ofNat 32 (16 * n)) = some (pa n)) :
    fillQuad lv (filled s pa n) = .ok () (filled s pa (n + 1)) := by
  have next : s.msp + BitVec.ofNat 32 (16 * n) + 16 = s.msp + BitVec.ofNat 32 (16 * (n + 1)) := by bv_omega
  rw [fillQuad_ok (s := filled s pa n) hq, scWriteWords_eq, filled, filled, ← next]
  rfl

/-- A loop of fills that turns `n` times. -/
theorem whileM_fill {c : State → Bool} (hn : n ≤ 16) (hc : ∀ j < n, c (filled s pa j) = true) (he : c (filled s pa n) = false)
    (hq : ∀ j < n, s.quadIn? lv (s.msp + BitVec.ofNat 32 (16 * j)) = some (pa j)) :
    whileM 16 c (fillQuad lv) s = .ok () (filled s pa n) := by
  have loop := whileM_turns (filled s pa) n 16 hn (fun j hj => ⟨hc j hj, fillQuad_filled (hq j hj)⟩) he
  rwa [filled_zero] at loop

/-- Words of one quad-word have different indices. -/
theorem quad_distinct (a : Word) :
    (blockIdx 4).Pairwise fun i j => scIdx (a + BitVec.ofNat 32 (4 * i)) ≠ scIdx (a + BitVec.ofNat 32 (4 * j)) := by
  rw [blockIdx_eq_range (.inr rfl)]
  refine List.pairwise_lt_range.imp_of_mem fun {i j} _ hj hij => ?_
  have := List.mem_range.1 hj
  rw [Ne, scIdx_eq_iff]
  bv_omega

/-- A word at none of the indices brought in is as it was. -/
theorem filledSc_other {i : Fin 64} (h : ∀ j < n, ∀ w < 4, scIdx (s.msp + BitVec.ofNat 32 (16 * j + 4 * w)) ≠ i) :
    (filledSc s pa n).get i = s.sc.get i := by
  induction n with
  | zero => rfl
  | succ n ih =>
    rw [filledSc, scWriteWords_other]
    · exact ih fun j hj => h j (by omega)
    · intro w hw
      rw [blockIdx_eq_range (.inr rfl), List.mem_range] at hw
      rw [BitVec.add_assoc, ← BitVec.ofNat_add]
      exact h n (by omega) w hw

/-- Each word brought in is the one of memory, where no more come in than the stack cache holds. -/
theorem filledSc_word {j w : Nat} (hn : n ≤ 16) (hj : j < n) (hw : w < 4) :
    (filledSc s pa n).get (scIdx (s.msp + BitVec.ofNat 32 (16 * j + 4 * w))) = s.physWord (pa j + BitVec.ofNat 32 (4 * w)) := by
  induction n with
  | zero => omega
  | succ n ih =>
    rw [filledSc]
    rcases Nat.lt_succ_iff_lt_or_eq.1 hj with earlier | rfl
    · rw [scWriteWords_other]
      · exact ih (by omega) earlier
      · intro x hx
        rw [blockIdx_eq_range (.inr rfl), List.mem_range] at hx
        rw [Ne, scIdx_eq_iff]
        bv_omega
    · rw [BitVec.ofNat_add, ← BitVec.add_assoc]
      exact scWriteWords_word (g := fun i => s.physWord (pa j + BitVec.ofNat 32 (4 * i))) (by simp [blockIdx]; omega) (quad_distinct _)

/-! ## CATCH (R296) -/

/-- The value CATCH fills up to. -/
theorem catchTarget_ok
    (hv : (∃ g, f = .p1 g ∧ v = s.sp + BitVec.ofNat 32 (16 * g.toNat)) ∨ (∃ x, f = .p3 .stk x ∧ v = s.sp + x) ∨
      ∃ m x, f = .p3 m x ∧ s.replace? s.sp m x = some v) : catchTarget s f s = .ok v s := by
  rcases hv with ⟨g, rfl, rfl⟩ | ⟨x, rfl, rfl⟩ | ⟨m, x, rfl, hm⟩
  · rw [← scaledField_eq]
    rfl
  · rfl
  · exact (replaceTarget_ok hm).2

/-- The condition of the loop of fills, with `x` what MSP has come up to. -/
theorem fillTurn_iff {sp x : Word} (hx : sp.toNat ≤ x.toNat) :
    (decide (x < v) && decide (x - sp < 256)) = true ↔ x.toNat < v.toNat ∧ x.toNat - sp.toNat < 256 := by
  have room : x - sp < 256 ↔ x.toNat - sp.toNat < 256 := by bv_omega
  simp only [Bool.and_eq_true, decide_eq_true_iff, room, BitVec.lt_def]

/-- Where each quad-word brought in finds room, all of them have. -/
theorem quads_fit (hok : s.scOk = true) (hs : s.sp.toNat % 16 = 0) (hm : s.msp.toNat % 16 = 0)
    (ht : ∀ j < n, s.msp.toNat + 16 * j - s.sp.toNat < 256) : s.msp.toNat + 16 * n ≤ s.sp.toNat + 256 := by
  obtain ⟨low, high⟩ := scOk_iff.1 hok
  cases n with
  | zero => exact high
  | succ n =>
    have := ht n (by omega)
    omega

/-- The loop of fills of a CATCH. -/
theorem whileM_fillUp (hok : s.scOk = true) (hw : s.sp.toNat + 256 < 2 ^ 32) (hfit : s.msp.toNat + 16 * n ≤ s.sp.toNat + 256)
    (ht : turns (fun j => s.msp.toNat + 16 * j < v.toNat ∧ s.msp.toNat + 16 * j - s.sp.toNat < 256) n)
    (hq : ∀ j < n, s.quadIn? lv (s.msp + BitVec.ofNat 32 (16 * j)) = some (pa j)) :
    whileM 16 (fun t => decide (t.msp < v) && decide (t.msp - t.sp < 256)) (fillQuad lv) s = .ok () (filled s pa n) := by
  have low := (scOk_iff.1 hok).1
  have msp (j : Nat) (hj : j ≤ n) : (s.msp + BitVec.ofNat 32 (16 * j)).toNat = s.msp.toNat + 16 * j := by bv_omega
  have turn (j : Nat) (hj : j ≤ n) : (decide ((filled s pa j).msp < v) && decide ((filled s pa j).msp - s.sp < 256)) = true ↔
      s.msp.toNat + 16 * j < v.toNat ∧ s.msp.toNat + 16 * j - s.sp.toNat < 256 := by
    have above : s.sp.toNat ≤ (s.msp + BitVec.ofNat 32 (16 * j)).toNat := by rw [msp j hj]; omega
    rw [← msp j hj]
    exact fillTurn_iff above
  refine whileM_fill (by omega) (fun j hj => (turn j hj.le).2 (ht.1 j hj)) ?_ hq
  exact Bool.eq_false_iff.2 (mt (turn n le_rfl).1 ht.2)

/-- A word held before is at no index that is brought in. -/
theorem filledSc_held (hal : s.msp.toNat % 16 = 0) (hsp : s.sp.toNat % 16 = 0)
    (hfit : s.msp.toNat + 16 * n ≤ s.sp.toNat + 256) (ha : s.sp ≤ a) (ham : a < s.msp) :
    (filledSc s pa n).get (scIdx a) = s.scWord a := by
  refine filledSc_other fun j hj w hx => ?_
  rw [Ne, scIdx_eq_iff]
  bv_omega

/-- Settles O33: on the user stack the loop of fills runs, on the interrupt stack nothing does. -/
theorem catchResult : Obligations.CatchResult := by
  intro k i f s v n pa hi hf hok hs hm hw hv ht hq
  rw [exec_catch hi]
  cases user : s.psw.s with
  | true =>
    rw [user, if_pos rfl] at ht
    have fit := quads_fit hok hs hm fun j hj => (ht.1 j hj).2
    have target := catchTarget_ok (hv user)
    have loop := whileM_fillUp hok hw fit ht hq
    refine ⟨filledSc s pa n, run_ok ?_, fun a ha ham => filledSc_held hm hs fit ha ham, fun j hj w hx => ?_⟩
    · simp only [catchScM, bind_run, getS_run, hf, raiseIf_false, hok, Bool.not_true, refuseIf_false, user, if_true, target, loop,
        advance_run]
      rfl
    · have low := (scOk_iff.1 hok).1
      exact filledSc_word (by omega) hj hx
  | false =>
    rw [user, if_neg (by decide)] at ht
    subst ht
    refine ⟨s.sc, run_ok ?_, fun a _ _ => rfl, fun j hj => absurd hj (Nat.not_lt_zero j)⟩
    simp [catchScM, hf, hok, user]

/-! ## CRET (R298) -/

/-- Settling MSP draws only what it must bring in without a fill (R90). -/
theorem settleMsp_sc (s : State) (m : Word) : ∃ sc d, s.settleMsp m = { s with msp := m, sc := sc, draw := d } := by
  by_cases raised : s.msp < m
  · exact ⟨_, _, by rw [State.settleMsp, if_pos raised, scForget_eq]⟩
  · exact ⟨_, _, by rw [State.settleMsp, if_neg raised]⟩

theorem settleMsp_filled (h : s.msp = a) : s.settleMsp a = s := by
  subst h
  rw [State.settleMsp, if_neg (BitVec.lt_irrefl _)]

section

variable {p0 m0 t w : Word}

/-- The end of KRET and CRET, from the words of the frame. -/
theorem restore_ofWord (s : State) (w t : Word) :
    s.restore (Psw.ofWord w) t = { s with
      isp := s.isp + 16, psw := Psw.ofWord w, pc := t &&& 0xFFFFFFFE, hazard := s.hazard.noteFlags s.psw, oldSpace := none
      shad := if w.getLsbD 9 then s.sp else s.isp + 16 } := rfl

/-- The state in which a CRET has brought its stack cache in. -/
def refilled (s : State) (w p : Word) (pa : Nat → Word) (n : Nat) : State :=
  if w.getLsbD 9 then filled (s.switchStack p) pa n else s.switchStack p

/-- The loop of fills of a CRET whose frame holds `n` quad-words. -/
theorem whileM_fillFrame {p m : Word} (hm : m = p + BitVec.ofNat 32 (16 * n)) (hn : n ≤ 16) (hp : p.toNat + 256 < 2 ^ 32)
    (hq : ∀ j < n, s.quadIn? lv (p + BitVec.ofNat 32 (16 * j)) = some (pa j)) :
    whileM 16 (fun t => decide (t.msp < m) && decide (t.msp - t.sp < 256)) (fillQuad lv) (s.switchStack p) =
      .ok () (filled (s.switchStack p) pa n) := by
  have turn (j : Nat) (hj : j ≤ n) :
      (decide (p + BitVec.ofNat 32 (16 * j) < m) && decide (p + BitVec.ofNat 32 (16 * j) - p < 256)) = decide (j < n) := by
    have above : p + BitVec.ofNat 32 (16 * j) < m ↔ j < n := by bv_omega
    have room : j < n → p + BitVec.ofNat 32 (16 * j) - p < 256 := fun hj => by bv_omega
    by_cases more : j < n
    · simp only [above, more, room more, decide_true, Bool.and_true]
    · simp only [above, more, decide_false, Bool.false_and]
  exact whileM_fill hn (fun j hj => (turn j hj.le).trans (decide_eq_true hj)) ((turn n le_rfl).trans (decide_eq_false (lt_irrefl n))) hq

theorem contextReturn_ok (hx : s.psw.x = false) (hok : s.scOk = true) (hs : s.alone = true)
    (h0 : s.load? s.level s.isp 4 = some p0) (h1 : s.load? s.level (s.isp + 4) 4 = some m0)
    (h2 : s.load? s.level (s.isp + 8) 4 = some t) (h3 : s.load? s.level (s.isp + 12) 4 = some w)
    (hl : w.getLsbD 9 = true →
      whileM 16 (fun t => decide (t.msp < quadAlign m0) && decide (t.msp - t.sp < 256)) (fillQuad ⟨w.getLsbD 16, w.getLsbD 10⟩)
        (s.switchStack (quadAlign p0)) = .ok () (filled (s.switchStack (quadAlign p0)) pa n)) :
    contextReturn s = .ok () (((refilled s w (quadAlign p0) pa n).settleMsp (quadAlign m0)).restore (Psw.ofWord w) t).drainAll := by
  have frame (a : Word) {v : Word} (h : s.load? s.level a 4 = some v) : guardReset (memReadW s.level a) s = .ok v s :=
    guardReset_ok (memRead_ok h)
  have alone : (refilled s w (quadAlign p0) pa n).alone = true := by
    rw [refilled]
    split <;> exact hs
  have user : (Psw.ofWord w).s = w.getLsbD 9 := rfl
  simp only [contextReturn, bind_run, getS_run, hx, hok, Bool.not_true, raiseIf_false, refuseIf_false, frame _ h0, frame _ h1,
    frame _ h2, frame _ h3, modS_run, user]
  cases sel : w.getLsbD 9 with
  | true =>
    rw [refilled, if_pos sel] at alone ⊢
    have level : Level.mk (Psw.ofWord w).vp (Psw.ofWord w).x = ⟨w.getLsbD 16, w.getLsbD 10⟩ := rfl
    simp only [if_true, bind_run, level, hl sel, others_run alone, modS_run]
  | false =>
    rw [refilled, if_neg (Bool.eq_false_iff.1 sel)] at alone ⊢
    simp only [Bool.false_eq_true, if_false, bind_run, others_run alone, modS_run]

/-- Settles O36: the frame is read, the new stack brought in where the restored PSW selects it, and the end is KRET's. -/
theorem contextReturnResult : Obligations.ContextReturnResult := by
  intro s p0 m0 p m t w n pa hx hok hs h0 h1 h2 h3 hp hm hmn hn hw hq
  have loop (sel : w.getLsbD 9 = true) := whileM_fillFrame (s := s) hmn hn hw (hq sel)
  subst hp hm
  have ret := run_ok (contextReturn_ok (pa := pa) (n := n) hx hok hs h0 h1 h2 h3 loop)
  cases sel : w.getLsbD 9 with
  | true =>
    rw [refilled, if_pos sel, settleMsp_filled hmn.symm] at ret
    refine ⟨filledSc (s.switchStack (quadAlign p0)) pa n, s.draw, ret.trans ?_, fun _ => ⟨rfl, fun j hj x hx => ?_⟩⟩
    · rw [restore_ofWord, sel, hmn]
      rfl
    · exact filledSc_word (s := s.switchStack (quadAlign p0)) hn hj hx
  | false =>
    obtain ⟨sc, d, settled⟩ := settleMsp_sc (s.switchStack (quadAlign p0)) (quadAlign m0)
    rw [refilled, if_neg (Bool.eq_false_iff.1 sel), settled] at ret
    refine ⟨sc, d, ret.trans ?_, fun h => absurd h (by decide)⟩
    rw [restore_ofWord, sel]
    rfl

end

end Sys2Proof.Proofs
end

section
/-! PROOF. KCALL, KRET and the privilege of the returns (44_program_control.md R310, R312, R298). -/

namespace Sys2Proof.Proofs

open Sys2Proof.Machine Sys2Proof.Laws

variable {k : Prefix} {s : State} {f : Monadic (BitVec 10) WordMode} {v va : Word} {h1 h2 h3 : Home}

/-! ## KCALL (R310) -/

/-- A `word32` operand is an immediate or in memory, so no hazard meets it. -/
theorem wordValue_ok {m : WordMode} {x : Word} (h : s.word32? m x = some v) : wordValue s.level s m x s = .ok v s := by
  obtain ⟨o, ho, hv⟩ := Option.bind_eq_some_iff.1 h
  have settled : s.settled (fun _ => false) o = true := by
    cases o with
    | imm w => rfl
    | mem ea z => simp [State.settled, State.lateWides]
    | reg r =>
      obtain ⟨c, hc, -⟩ := eq_reg_of_opd? ho
      exact absurd hc (argOf_ne_reg (k := .none) nofun x c)
  simp [wordValue, alignedNow_of_opd ho (aligned_of_value hv), resolve_ok ho, readOpd_ok settled hv]

theorem kernelCall_ok {next : Word} (hs : s.alone = true)
    (e1 : s.drainAll.frameHome? s.drainAll.eventLevel (s.drainAll.isp - 12) = some h1)
    (e2 : s.drainAll.frameHome? s.drainAll.eventLevel (s.drainAll.isp - 8) = some h2)
    (e3 : s.drainAll.frameHome? s.drainAll.eventLevel (s.drainAll.isp - 4) = some h3)
    (ev : s.drainAll.vector? s.drainAll.eventLevel s.drainAll.vb = some va) :
    kernelCall v next s =
      .ok () ((s.drainAll.entered [(h1, v), (h2, next), (h3, s.psw.toWord)] va).noteFlags s.psw) := by
  have frame := eventFrame_ok v next 0 e1 e2 e3 (va := va) (by rwa [add_zero])
  rw [drainAll_psw] at frame
  simp only [kernelCall, bind_run, others_run hs, modS_run, getS_run, frame, drainAll_psw]

/-- KCALL is its sequence, once its operand is read. -/
theorem kcallM_operand (hv : (∃ g, f = .p1 g ∧ v = BitVec.ofNat 32 (4 * g.toNat)) ∨ ∃ m x, f = .p3 m x ∧ s.word32? m x = some v) :
    kcallM k f s = kernelCall v (s.pc + (k.len + f.len)) s := by
  rcases hv with ⟨g, rfl, rfl⟩ | ⟨m, x, rfl, hv⟩
  · rw [← scaledField_eq]
    rfl
  · simp only [kcallM, bind_run, getS_run, wordValue_ok hv, Monadic.len]

/-- Settles O34: the store buffer is drained, then the frame and the vector are those of any event. -/
theorem kernelCallResult : Obligations.KernelCallResult := by
  rintro k i f s _ v va h1 h2 h3 hi hs hv rfl e1 e2 e3 ev
  rw [exec_kcall hi]
  exact run_ok ((kcallM_operand hv).trans (kernelCall_ok hs e1 e2 e3 ev))

/-! ## KRET (R312) -/

/-- Settles O35: the frame's two words are the PC and PSW that KRET restores before it drains. -/
theorem kernelReturnResult : Obligations.KernelReturnResult := by
  intro s t w hx hs ht hw
  have ret : exec .kret s = .next _ := run_ok (kernelReturn_ok hs hx ht hw)
  rw [ret, restore_ofWord]

/-! ## At user level (R312, R298) -/

/-- Settles O54: both returns look at the level before anything else. -/
theorem privilegeViolation : Obligations.PrivilegeViolation := by
  intro s hx
  exact ⟨run_takes (m := kernelReturn) (by simp [kernelReturn, hx]), run_takes (m := contextReturn) (by simp [contextReturn, hx])⟩

end Sys2Proof.Proofs
end

section
/-! PROOF. What CALL and the sequences of the unimplemented codes and the trapped niladics leave of the rest of the state
(44_program_control.md R292, 60_exceptions.md R430, R431): in physical mode, with RAM on the bus and no other agent, their reads change
nothing, so the word stored, PC and what they note are all that differs. -/

namespace Sys2Proof.Proofs

open Sys2Proof.Machine Sys2Proof.Laws

variable {s t : State} {p : Slot}

/-! ## Reads that change nothing -/

/-- In physical mode, with RAM on the bus and no other agent, a data read changes nothing, whatever it ends in. -/
theorem final_memRead {lv : Level} (hv : lv.vp = false) (hs : s.alone = true) (hr : ∀ a, s.board.readAnswer a = .ram) (a : Word)
    (n : Nat) : final (memRead lv a n s) = s := by
  have reads (pa : Word) : s.reads pa = true := by simp [State.reads, hs, hr pa]
  cases hal : aligned a n with
  | false => simp [memRead, alignCheck, hal]
  | true =>
    cases hit : s.scHit a with
    | false => simp [memRead, alignCheck_ok hal, findHome, hit, translate_off lv hv, homeRead, physRead_ok (reads a)]
    | true => cases hok : s.scOk <;> simp [memRead, alignCheck_ok hal, findHome, hit, hok, homeRead]

theorem final_flowTarget {lv : Level} (hv : lv.vp = false) (hs : s.alone = true) (hr : ∀ a, s.board.readAnswer a = .ram) (u : State)
    (f : Monadic (BitVec 10) FlowMode) : final (flowTarget lv u f s) = s := by
  cases f with
  | p1 g => rfl
  | p3 m x =>
    cases m with
    | absInd | stkInd => exact final_memRead hv hs hr _ 4
    | pcRel | abs => rfl
  | illegal m => rfl

/-! ## What is left alone -/

/-- The frame of an instruction that stores one word at `p`. -/
def SlotFrame (p : Slot) (s t : State) : Prop :=
  sameOutside p s t ∧ sameRegs s t ∧ sameHidden s t ∧ t.psw = s.psw ∧ t.mem = s.mem

/-- Storing the word and writing PC, the hazard, the event and the draw count keeps the frame. -/
theorem slotFrame_commit (p : Slot) (s : State) (v pc : Word) (h : Hazard) (e : StepEvent) (d : Nat) :
    SlotFrame p s { s.commit p v with pc := pc, hazard := h, event := e, draw := d } :=
  ⟨commit_sameOutside s p v, by simp [sameRegs], by simp [sameHidden], by simp, by simp⟩

section

variable (hp : s.slot? s.level s.csp 4 = some p) (hv : s.psw.vp = false) (hs : s.alone = true)
  (hr : ∀ a, s.board.readAnswer a = .ram)
include hp hv hs hr

/-- A CALL that completes (R292). -/
theorem callM_frame {k : Prefix} {f : Monadic (BitVec 10) FlowMode} (h : callM k f s = .ok () t) : SlotFrame p s t := by
  cases legal : isIllegal f with
  | true => simp [callM, legal] at h
  | false =>
    cases hal : (indirection s f).any fun a => !aligned a 4 with
    | true => simp [callM, legal, hal] at h
    | false =>
      have same := final_flowTarget (s := s.commit p (s.pc + (k.len + f.len))) (lv := s.level) hv (by simpa using hs)
        (by simpa using hr) s f
      cases target : flowTarget s.level s f (s.commit p (s.pc + (k.len + f.len))) with
      | error e u => simp [callM, legal, hal, checkWrite_ok hp, target] at h
      | ok w u =>
        rw [target, final_ok] at same
        subst same
        obtain ⟨u, n, -, -, call⟩ := callM_ok legal hal hp target
        cases call.symm.trans h
        exact slotFrame_commit p s _ _ _ _ _

/-- The shared sequence of the unimplemented codes and the trapped niladics, where it completes (R430, R431). -/
theorem softTrap_frame {vec : Word} (h : softTrap vec s = .ok () t) : SlotFrame p s t := by
  have reads : s.reads (s.vb + vec) = true := by simp [State.reads, hs, hr]
  have vector : s.vector? s.level (s.vb + vec) = some (s.vb + vec) := by simp [State.vector?, State.trans?, hv, reads]
  have answer : ∀ pa, p.home = .phys pa → s.board.writeAnswer pa ≠ .busError := by
    intro pa home refused
    simp [softTrap, checkWrite_ok hp, checkAnswer, home, refused] at h
  cases (softTrap_ok hp answer vector).symm.trans h
  exact slotFrame_commit p s _ _ _ _ _

end

/-- An exception raised before a computation, which completes all the same, has not been raised. -/
theorem ok_of_raiseIf {α : Type} {b : Bool} {e : Exc} {m : M α} {a : α} (h : (do raiseIf b e; m) s = .ok a t) : m s = .ok a t := by
  cases b with
  | false => exact h
  | true => cases h

/-- Settles O44: an instruction that ends in no event has completed, and each of these stores its one word by CALL or by the shared
sequence. -/
theorem returnSlotFrame : Obligations.ReturnSlotFrame := by
  intro i s t p hp _ hi hv hs hr h he hre
  rw [exec_eq_run] at h
  have done := completed_of_run h he hre
  rcases hi with ⟨f, rfl⟩ | rfl | ⟨m, rfl⟩ | ⟨u, rfl⟩ | ⟨n, rfl⟩
  · exact callM_frame hp hv hs hr done
  · exact softTrap_frame hp hv hs hr done
  · exact softTrap_frame hp hv hs hr (ok_of_raiseIf done)
  · refine softTrap_frame hp hv hs hr (vec := 12) ?_
    cases u with
    | monadic m | dyadic five op sm dm => exact ok_of_raiseIf done
    | p1 op low | niladic sc => exact done
  · exact softTrap_frame hp hv hs hr done

end Sys2Proof.Proofs
end

section
/-! PROOF. SHL, SHR and USHR (45_shift.md R340, R342, R344, R346): a shift by the low five bits of the source is the product by a power
of two, or the quotient rounded down, of the destination's signed or unsigned value; no flag is named. -/

namespace Sys2Proof.Proofs

open Sys2Proof.Machine Sys2Proof.Laws

/-- A shift raises for no value of its operands and names no flag (R346), so its word alone, once it is the spec's, says what it writes.
MOV, whose operation has the same form, does not read its destination. -/
theorem writesDst_shift {op : DyOp} {shift val : Word → Word → Word} (h : dstAlu op = some (aluShift shift)) (hm : op ≠ .mov)
    (hv : ∀ a b, shift a b = val a b) : WritesDst op val (fun _ _ => {}) (fun _ => True) :=
  writesDst_of_alu h hm fun a b _ => by rw [aluShift, hv]

/-- Settles O15: the table of operations gives SHL, SHR and USHR their shifts, each word the spec's product or quotient. -/
theorem shiftResult : Obligations.ShiftResult :=
  ⟨writesDst_shift rfl (by decide) shlWord_eq, writesDst_shift rfl (by decide) shrWord_eq,
    writesDst_shift rfl (by decide) ushrWord_eq⟩

end Sys2Proof.Proofs
end

section
/-! PROOF. TADD and TSUB (46_tagged.md R360, R361, R362): a set tag leaves F alone written; with both tags clear the flags are written
first, and the result follows where it fits a word. -/

namespace Sys2Proof.Proofs

open Sys2Proof.Machine Sys2Proof.Laws

variable {op : DyOp} {alu : Word → Word → AluOut} {v : Word → Word → Bool} {k : Prefix} {f : Sys2Proof.Dyadic} {s : State}
  {a b r : Word} {c : Bool} {n : Int} {d : Opd} {t : Target}

/-! ## Tags and overflow -/

/-- The tag of a word is its two low bits (R362). -/
theorem and_three_ne_zero_iff (a : Word) : (a &&& 3 != 0) = true ↔ a.toNat % 4 ≠ 0 := by
  have low : (a &&& 3).toNat = a.toNat % 4 := by rw [BitVec.toNat_and]; exact Nat.and_two_pow_sub_one_eq_mod a.toNat 2
  rw [bne_iff_ne, ← low]
  exact not_congr BitVec.toNat_inj.symm

theorem tagged_iff (a b : Word) : tagged a b = true ↔ a.toNat % 4 ≠ 0 ∨ b.toNat % 4 ≠ 0 := by
  rw [tagged, Bool.or_eq_true, and_three_ne_zero_iff, and_three_ne_zero_iff]

/-- A tag set: F, and no result. -/
theorem aluTagged_of_tagged (h : tagged a b = true) :
    aluTagged alu v a b = { val := 0, flags := { f := some true }, store := false } := if_pos h

/-- Both tags clear: the operation's flags, with F its overflow, then the result if there is none. -/
theorem aluTagged_of_untagged (h : ¬ tagged a b = true) (ha : alu a b = { val := r, flags := { v := some (v a b), c := some c } }) :
    aluTagged alu v a b =
      { val := r, flags := { v := some (v a b), c := some c, f := some (v a b) }, store := !v a b, flagsFirst := true } := by
  rw [aluTagged, if_neg h, ha]

/-! ## The three outcomes -/

/-- An operation outside R495's list leaves no untruncated result. -/
theorem noteWide_of_not_leavesWide (h : leavesWideOp op = false) (s : State) (d : Opd) (x : Word) : s.noteWide op d x = s := by
  cases d <;> simp [State.noteWide, h]

/-- An instruction whose operation is a tagged one, `r` its result, `c` its carry and `n` its exact signed result. -/
theorem exec_tagged (h : dstAlu op = some (aluTagged alu v)) (hm : op ≠ .mov) (hw : leavesWideOp op = false)
    (hn : v a b = signedOut n) (ha : alu a b = { val := r, flags := { v := some (v a b), c := some c } })
    (hr : DstReady op k f s a b d t) :
    exec (dyadicInstr k op f) s =
      .next
        (if a.toNat % 4 ≠ 0 ∨ b.toNat % 4 ≠ 0 then { s.setFlags { f := some true } with pc := s.pc + (k.len + f.len) }
        else if n < -2147483648 ∨ 2147483647 < n then
          { s.setFlags { v := some true, c := some c, f := some true } with pc := s.pc + (k.len + f.len) }
        else
          { (s.setFlags { v := some false, c := some c, f := some false }).put t r with pc := s.pc + (k.len + f.len) }) := by
  rw [signedOut_eq] at hn
  by_cases tag : tagged a b = true
  · have out : aluTagged alu v a b = _ := aluTagged_of_tagged tag
    rw [exec_readWrite h hm hr (by rw [out]), noteWide_of_not_leavesWide hw, out, if_pos ((tagged_iff a b).1 tag)]
    rfl
  · have out := aluTagged_of_untagged tag ha
    rw [exec_readWrite h hm hr (by rw [out]), noteWide_of_not_leavesWide hw, out, if_neg (mt (tagged_iff a b).2 tag)]
    by_cases overflow : n < -2147483648 ∨ 2147483647 < n
    · rw [if_pos overflow, hn, decide_eq_true overflow]
      rfl
    · rw [if_neg overflow, hn, decide_eq_false overflow]
      rfl

/-- ADD's operation, its carry the spec's (R202). -/
theorem aluAdd_eq (a b : Word) :
    aluAdd a b = { val := a + b, flags := { v := some (addV a b), c := some (decide (0xFFFFFFFF < a.toNat + b.toNat)) } } := by
  rw [aluAdd, addC_eq]

/-- SUB's operation, its borrow the spec's (R202). -/
theorem aluSub_eq (a b : Word) :
    aluSub a b = { val := b - a, flags := { v := some (subV a b), c := some (decide (b.toNat < a.toNat)) } } := by
  rw [aluSub, subC_eq]

/-- Settles O16: TADD is the tagged form of ADD, TSUB that of SUB, each with its own carry and exact signed result. -/
theorem taggedResult : Obligations.TaggedResult := by
  intro k f s a b d t sub hr
  cases sub with
  | false => exact exec_tagged rfl (by decide) rfl rfl (aluAdd_eq a b) hr
  | true => exact exec_tagged rfl (by decide) rfl rfl (aluSub_eq a b) hr

end Sys2Proof.Proofs
end

section
/-! PROOF. NOP, the flag instructions and the flushes of text (47_other.md R370, R373 to R375, R382 to R384): the next state of each, and
what a flush of the decoded instruction cache and one of a quad-word of the prefetch buffer leave of old text between them, in either
order (20_memory.md R132). -/

namespace Sys2Proof.Proofs

open Sys2Proof.Machine Sys2Proof.Laws

variable {s t : State} {q : Word} {gone : PfbLine → Bool}

/-! ## NOP, CLRE, TESTC and TESTV (R370, R373 to R375) -/

/-- An instruction of one parcel that changes the state and goes on. -/
theorem run_update_advance (g : State → State) (s : State) :
    run (do modS g; advance 2) s = .next { g s with pc := (g s).pc + 2 } := rfl

/-- Settles O26: each writes the flags it names, noting the PSW it finds, and goes on by one parcel. -/
theorem flagInstructions : Obligations.FlagInstructions :=
  ⟨rfl, rfl, rfl, rfl, fun s => ⟨run_ok rfl, run_update_advance (fun s => s.setFlags { e := some false }) s,
    run_update_advance (fun s => s.setFlags { f := some s.psw.c, c := some false }) s,
    run_update_advance (fun s => s.setFlags { f := some s.psw.v, v := some false }) s⟩⟩

/-! ## The lines a FLUSHPBE drops (R384) -/

/-- The physical quad-word an access that needs no walk finds. -/
theorem quadPa_of_trans? {k : Kind} {a pa : Word} (h : s.trans? ⟨s.psw.vp, false⟩ k a = some pa) :
    s.quadPa k a = some (quadAlign pa) := by
  have found : ∃ c, translateAddr ⟨s.psw.vp, false⟩ k a (s.setBetween []) = .ok ⟨pa, c⟩ (s.setBetween []) := by
    cases hv : s.psw.vp with
    | false =>
      rw [hv] at h
      cases h
      exact ⟨false, translate_off _ rfl⟩
    | true =>
      have alone : s.alone = true := by
        rw [hv] at h
        simp only [State.trans?, if_true] at h
        split at h
        · simp_all
        · cases h
      rw [setBetween_nil alone]
      exact translate_ok (hv ▸ h)
  obtain ⟨c, found⟩ := found
  simp [State.quadPa, Machine.peek, found]

/-- The physical quad-word an access finds, from its translation. -/
theorem translate_of_quadPa {k : Kind} {a x : Word} (h : s.quadPa k a = some x) :
    ∃ (y : Xlat) (t : State), translateAddr ⟨s.psw.vp, false⟩ k a (s.setBetween []) = .ok y t ∧ x = quadAlign y.pa := by
  cases found : translateAddr ⟨s.psw.vp, false⟩ k a (s.setBetween []) with
  | ok y t => exact ⟨y, t, rfl, by simpa [State.quadPa, Machine.peek, found, eq_comm] using h⟩
  | error e t => simp [State.quadPa, Machine.peek, found] at h

/-- The four ways a line is the quad-word at an address (R384). -/
theorem holdsQuad_iff (a : Word) (l : PfbLine) :
    s.holdsQuad a l = true ↔ l.pa = quadAlign a ∨ quadAlign l.va = quadAlign a ∨
      ∃ kind : Kind, (kind = .text ∨ kind = .read) ∧ s.quadPa kind a = some l.pa := by
  simp [State.holdsQuad, or_assoc]

/-- A line that a FLUSHPBE leaves is found in none of the three ways. -/
theorem not_holdsQuad {a : Word} {l : PfbLine} (h : s.holdsQuad a l = false) :
    l.pa ≠ quadAlign a ∧ quadAlign l.va ≠ quadAlign a ∧
      ∀ (kind : Kind) (pa : Word), kind = .text ∨ kind = .read → s.trans? ⟨s.psw.vp, false⟩ kind a = some pa →
        l.pa ≠ quadAlign pa := by
  have out := mt (holdsQuad_iff (s := s) a l).2 (by simp [h])
  rw [not_or, not_or] at out
  obtain ⟨physical, virtual, translated⟩ := out
  refine ⟨physical, virtual, fun kind pa hk ht e => translated ⟨kind, hk, ?_⟩⟩
  rw [quadPa_of_trans? ht, e]

/-- With translation off an address is its own physical address. -/
theorem holdsQuad_physical (hv : s.psw.vp = false) (a : Word) (l : PfbLine) :
    s.holdsQuad a l = (l.pa == quadAlign a || quadAlign l.va == quadAlign a) := by
  have same (k : Kind) : s.quadPa k a = some (quadAlign a) := quadPa_of_trans? (by simp [State.trans?, hv])
  rw [Bool.eq_iff_iff, holdsQuad_iff]
  simp only [same, Bool.or_eq_true, beq_iff_eq, Option.some.injEq]
  constructor
  · rintro (h | h | ⟨-, -, h⟩)
    · exact .inl h
    · exact .inr h
    · exact .inl h.symm
  · exact Or.imp_right .inl

/-! ## The flushes (R382 to R384) -/

theorem exec_flushi (s : State) : exec .flushi s = .next { s.flushInstrs with pc := s.pc + 2 } := rfl

theorem exec_flushp (s : State) : exec .flushp s = .next { s.flushLines (fun _ => true) with pc := s.pc + 2 } := rfl

theorem exec_flushpbe_ok {k : Prefix} {i : Instr} {m : WordMode} {x a : Word}
    (hi : prefixed k .flushpbe (.word .flushpbe) (.p3 m x) = some i) (ha : s.addr? (wordArg s m x) = some a) :
    exec i s = .next { s.flushLines (s.holdsQuad a) with pc := s.pc + (k.len + 6) } := by
  rw [exec_flushpbe hi]
  exact run_ok (by simp [flushpbeM, flushAddr_ok ha, State.flushQuadText, State.flushLines])

/-- An instruction that flushes a quad-word drops, from the prefetch buffer, lines among which are all of that quad-word. -/
theorem exec_flushesQuad {i : Instr} (hf : flushesQuad i s q) (h : exec i s = .next t) :
    ∃ (gone : PfbLine → Bool) (pc : Word), (∀ l, l.pa = q → gone l = true) ∧ t = { s.flushLines gone with pc := pc } := by
  rcases hf with rfl | ⟨k, m, x, a, hi, ha, hq⟩
  · cases h
    exact ⟨fun _ => true, _, fun _ _ => rfl, rfl⟩
  · cases (exec_flushpbe_ok hi ha).symm.trans h
    refine ⟨s.holdsQuad a, _, fun l hl => (holdsQuad_iff a l).2 ?_, rfl⟩
    rcases hq with rfl | ⟨kind, pa, hk, ht, rfl⟩
    · exact .inl hl
    · exact .inr (.inr ⟨kind, hk, by rw [quadPa_of_trans? ht, hl]; rfl⟩)

/-! ## Two flushes one after the other (R132, D16) -/

/-- The chip holds no old text of a quad-word. -/
def NoOldText (q : Word) (u : State) : Prop :=
  u.ic = [] ∧ (∀ l ∈ u.pfb, l.pa ≠ q) ∧ (∀ e ∈ u.ahead, e.line.pa = q → u.oldLine e.line = false) ∧
    ∀ (r : TextRead) (h : LowerHalf), .upper r h ∈ u.prefetches → quadAlign r.pa = q → u.oldHalf r h = false

/-- FLUSHI first: what it marks old, the flush of the quad-word drops. -/
theorem noOldText_flushLines_flushInstrs (hg : ∀ l : PfbLine, l.pa = q → gone l = true) {pc : Word} :
    NoOldText q (({ s.flushInstrs with pc := pc } : State).flushLines gone) := by
  refine ⟨rfl, fun l hl e => ?_, fun e he hq => ?_, fun r h hu hq => ?_⟩
  · simp [State.flushLines, hg l e] at hl
  · obtain ⟨d, hd, rfl, kept⟩ := mem_flushLines_ahead he
    obtain ⟨c, -, rfl, -⟩ := mem_flushInstrs_ahead hd
    refine Bool.eq_false_of_not_eq_true fun (old : s.oldLine c.line = true) => ?_
    have unmarked : (c.line.aged || s.oldLine c.line) = false := kept (hg _ hq) old
    simp [old] at unmarked
  · obtain ⟨g, hm, rfl, kept⟩ := upper_mem_flushLines hu
    obtain ⟨c, -, rfl, -⟩ := upper_mem_flushInstrs hm
    refine Bool.eq_false_of_not_eq_true fun (old : s.oldHalf r c = true) => ?_
    have unmarked : (c.aged || s.oldHalf r c) = false := kept (hg _ hq) old
    simp [old] at unmarked

/-- FLUSHI last: what the flush of the quad-word marks old, it drops. -/
theorem noOldText_flushInstrs_flushLines (hg : ∀ l : PfbLine, l.pa = q → gone l = true) {pc : Word} :
    NoOldText q ({ s.flushLines gone with pc := pc } : State).flushInstrs := by
  refine ⟨rfl, fun l hl e => ?_, fun e he hq => ?_, fun r h hu hq => ?_⟩
  · obtain ⟨d, hd, rfl⟩ := List.mem_map.1 hl
    simp [State.flushLines, hg d e] at hd
  · obtain ⟨d, hd, rfl, kept⟩ := mem_flushInstrs_ahead he
    obtain ⟨c, -, rfl, -⟩ := mem_flushLines_ahead hd
    refine Bool.eq_false_of_not_eq_true fun (old : s.oldLine c.line = true) => ?_
    have unmarked : (c.flushed || (gone c.line && s.oldLine c.line)) = false := kept old
    simp [old, hg c.line hq] at unmarked
  · obtain ⟨g, hm, rfl, kept⟩ := upper_mem_flushInstrs hu
    obtain ⟨c, -, rfl, -⟩ := upper_mem_flushLines hm
    refine Bool.eq_false_of_not_eq_true fun (old : s.oldHalf r c = true) => ?_
    have unmarked : (c.flushed || (gone (r.line c 0 0) && s.oldHalf r c)) = false := kept old
    rw [old, hg (r.line c 0 0) hq] at unmarked
    simp at unmarked

/-- Settles O41: each flush is its update of the text on the chip, FLUSHPBE's the one of the lines found as the quad-word, and of two
flushes the second drops what the first found old. -/
theorem textFlush : Obligations.TextFlush := by
  refine ⟨fun s => ⟨rfl, ?_, fun k i m x a hi ha => ?_⟩, fun i s t u q h => ?_⟩
  · rw [exec_flushp]
    simp only [State.flushLines, Bool.not_true, List.filter_false]
    rfl
  · refine ⟨s.holdsQuad a, exec_flushpbe_ok hi ha, fun l => not_holdsQuad, fun l hl => ?_, fun hv => holdsQuad_physical hv a⟩
    rcases (holdsQuad_iff a l).1 hl with h | h | ⟨kind, hk, h⟩
    · exact .inl h
    · exact .inr (.inl h)
    · obtain ⟨y, t, ht, e⟩ := translate_of_quadPa h
      exact .inr (.inr ⟨kind, y, t, hk, ht, e⟩)
  · rcases h with ⟨hi, hq, hu⟩ | ⟨hq, hi, hu⟩
    · cases hi
      obtain ⟨gone, pc, hg, rfl⟩ := exec_flushesQuad hq hu
      exact noOldText_flushLines_flushInstrs hg
    · obtain ⟨gone, pc, hg, rfl⟩ := exec_flushesQuad hq hi
      cases hu
      exact noOldText_flushInstrs_flushLines hg

end Sys2Proof.Proofs
end

section
/-! PROOF. The unimplemented codes and the trapped niladics (60_exceptions.md R430, R431, D31): every instruction of either kind is the
shared sequence, which stores and goes to the handler, or raises with nothing changed. -/

namespace Sys2Proof.Proofs

open Sys2Proof.Machine Sys2Proof.Laws

variable {s : State} {p : Slot} {vec va pa : Word}

/-- A bus error on the store of the shared sequence is found before anything changes (D31). -/
theorem softTrap_busError (hp : s.slot? s.level s.csp 4 = some p) (hh : p.home = .phys pa)
    (hb : s.board.writeAnswer pa = .busError) : softTrap vec s = .error (.exc .busFault) s := by
  simp [softTrap, checkWrite_ok hp, checkAnswer, hh, hb]

/-- A mode that decoding does not reject leaves the shared sequence alone. -/
theorem run_softTrap_of_legal {b : Bool} (hb : b = false) (e : Exc) (vec : Word) (s : State) :
    run (do raiseIf b e; softTrap vec) s = run (softTrap vec) s := by
  rw [hb]
  rfl

/-- Settles O43: each of the codes runs the shared sequence, which completes or meets the bus error of its store. -/
theorem softTrapResult : Obligations.SoftTrapResult := by
  intro i s p n va hi hp
  have sequence : exec i s = run (softTrap n) s := by
    rcases hi with ⟨rfl, hi⟩ | ⟨rfl, c, rfl⟩
    · rcases hi with rfl | ⟨m, hm, hi⟩ | ⟨c, l, rfl⟩ | ⟨c, rfl⟩ | ⟨m, hm, hi⟩ | ⟨g, c, x, y, rfl⟩ | ⟨g, c, x, y, hl, rfl⟩
      · rfl
      · have legal : (!m.isWord) = false := by rw [hm]; rfl
        rcases hi with rfl | rfl <;> exact run_softTrap_of_legal legal .illegal 12 s
      · rfl
      · rfl
      · have legal : (!m.isWord) = false := by rw [hm]; rfl
        rcases hi with rfl | rfl <;> exact run_softTrap_of_legal legal .illegal 12 s
      · exact run_softTrap_of_legal (b := Prefix.none == .cpu && !cpuUnimplLegal x y) rfl .illegal 12 s
      · have legal : (Prefix.cpu == .cpu && !cpuUnimplLegal x y) = false := by rw [hl]; rfl
        exact run_softTrap_of_legal legal .illegal 12 s
    · rfl
  rw [sequence]
  refine ⟨fun hb hv => run_ok (softTrap_ok hp hb hv), ?_⟩
  rintro ⟨x, hx, hb⟩
  exact run_takes (softTrap_busError hp hx hb)

end Sys2Proof.Proofs
end

section
/-! PROOF. Which event a boundary takes and what ends a step (60_exceptions.md R407 to R411, R426, R432, R435, R436, R440 to R443, R450 to
R453): the requests in their order, the instructions that are traced, and what of a step's end counts for the timers and the trace. -/

namespace Sys2Proof.Proofs

open Sys2Proof.Machine Sys2Proof.Laws

variable {s old : State} {i : Instr} {pair : Option Bool}

/-! ## The requests (R407, R409) -/

/-- A maskable level is accepted below IPL. -/
theorem accepts_iff (p : Psw) (k : BitVec 3) : p.accepts k = true ↔ k.toNat < p.ipl.toNat := by simp [Psw.accepts]

/-- A pending NMI goes before everything else. -/
theorem request_nmi (hd : s.cur.defer = false) (hn : s.nmiPending = true) : s.request = some .nmi := by
  simp [State.request, hd, hn]

/-- The lines at level 1 go before the timers, which ask for the same level. -/
theorem request_levelOne (hd : s.cur.defer = false) (hn : s.nmiPending = false) (hl : s.cur.il = 1#3) :
    s.request = if 1 < s.psw.ipl.toNat then some (.line 1) else none := by
  by_cases h : 1 < s.psw.ipl.toNat <;> simp [State.request, hd, hn, hl, accepts_iff, h]

/-- A timer goes before the lines at any other level (D30). -/
theorem request_timer (hd : s.cur.defer = false) (hn : s.nmiPending = false) (hl : s.cur.il ≠ 1#3) (hi : 1 < s.psw.ipl.toNat) :
    (s.t1Req = true → s.request = some .timer1) ∧ (s.t1Req = false → s.t2Req = true → s.request = some .timer2) :=
  ⟨fun h1 => by simp [State.request, hd, hn, hl, accepts_iff, hi, h1],
    fun h1 h2 => by simp [State.request, hd, hn, hl, accepts_iff, hi, h1, h2]⟩

/-- With neither an NMI nor a timer a line of level 2 to 6 is taken below IPL. -/
theorem request_line (hd : s.cur.defer = false) (hn : s.nmiPending = false) (h1 : s.t1Req = false) (h2 : s.t2Req = false)
    (hl : s.cur.il ≠ 1#3) (h0 : s.cur.il ≠ 0#3) (h7 : s.cur.il ≠ 7#3) :
    s.request = if s.cur.il.toNat < s.psw.ipl.toNat then some (.line s.cur.il) else none := by
  simp [State.request, hd, hn, h1, h2, hl, h0, h7, accepts_iff]

/-- Lines at 000 or 111 give no request of their own (D32). -/
theorem request_noLine (hd : s.cur.defer = false) (hn : s.nmiPending = false) (h1 : s.t1Req = false) (h2 : s.t2Req = false)
    (hl : s.cur.il = 0 ∨ s.cur.il = 7) : s.request = none := by
  rcases hl with hl | hl <;> simp [State.request, hd, hn, h1, h2, hl]

/-- With IPL at most 1 nothing but an NMI is taken: every level a line can ask for is at least 1. -/
theorem request_masked (hd : s.cur.defer = false) (hn : s.nmiPending = false) (hi : s.psw.ipl.toNat ≤ 1) : s.request = none := by
  have one : ¬1 < s.psw.ipl.toNat := by omega
  have own : s.cur.il ≠ 0#3 → ¬s.cur.il.toNat < s.psw.ipl.toNat := fun h0 => by
    have pos : s.cur.il.toNat ≠ 0 := fun h => h0 (BitVec.eq_of_toNat_eq h)
    omega
  by_cases h0 : s.cur.il = 0#3
  · simp [State.request, hd, hn, accepts_iff, one, h0]
  · simp [State.request, hd, hn, accepts_iff, one, own h0]

/-- The place of a line in the vector table (R409). -/
theorem vector_line (k : BitVec 3) : Request.vector (.line k) = BitVec.ofNat 32 (16 + 4 * k.toNat) := by
  revert k
  decide

/-- What answering a request clears: its pending flag, and a due trace exception (R408, R453, D29). -/
theorem answer_eq (s : State) (r : Request) :
    s.answer r = { s with
      tracePending := false
      nmiPending := if r = .nmi then false else s.nmiPending
      t1Req := if r = .timer1 then false else s.t1Req
      t2Req := if r = .timer2 then false else s.t2Req } := by
  cases r <;> rfl

/-- The end of an event's step looks at the CONFIG and the level the step began with, which answering leaves. -/
theorem retireEvent_answer (t s : State) (r : Request) : t.retireEvent (s.answer r) = t.retireEvent s := by
  cases r <;> rfl

/-- A step whose boundary takes a request. -/
theorem step_request {r : Request} (hr : s.cur.hreset = false) (hf : s.folded = none) (hq : s.openBoundary.request = some r) :
    step s = mapNext (fun t => t.retireEvent s.openBoundary) (finish (interruptSequence r.vector (s.openBoundary.answer r))) := by
  simp [step, stepOnce, hr, hf, hq, eventStep, retireEvent_answer]

/-- Settles O57: the step answers what its boundary takes, and the requests are taken in the order of the tests. -/
theorem interruptAcceptance : Obligations.InterruptAcceptance := by
  refine ⟨fun s r hr hf hq => by rw [step_request hr hf hq, answer_eq], fun s hd =>
    ⟨request_nmi hd, ?_, fun hn hl => ⟨fun h1 h2 => request_noLine hd hn h1 h2 hl, ?_, ?_, request_masked hd hn⟩, rfl, rfl, rfl,
      vector_line⟩⟩
  · rintro hn k rfl h0 h7
    refine ⟨fun h1 => ?_, fun h1 r1 r2 => ?_, fun h1 r1 hi => (request_timer hd hn h1 hi).1 r1,
      fun h1 r1 r2 hi => (request_timer hd hn h1 hi).2 r1 r2, request_masked hd hn⟩
    · rw [request_levelOne hd hn h1]
      simp
    · rw [request_line hd hn r1 r2 h1 h0 h7]
      simp
  all_goals
    have h1 : s.cur.il ≠ 1 := by rcases hl with hl | hl <;> rw [hl] <;> decide
  · exact fun r1 hi => (request_timer hd hn h1 hi).1 r1
  · exact fun r1 r2 hi => (request_timer hd hn h1 hi).2 r1 r2

/-! ## The instructions that are traced (R440, R441) -/

/-- After CPU stand the same forms but for those of one parcel. -/
theorem prefixed_widen {F M : Type} (plain : Monadic F M → Instr) (body : Monadic Empty M → CpuBody) (g : Monadic Empty M) :
    prefixed .cpu plain body g.widen = some (.cpu (body g)) := by
  cases g with
  | p1 f => exact f.elim
  | p3 m x | illegal m => rfl

theorem prefixed_none {F M : Type} (plain : Monadic F M → Instr) (body : Monadic Empty M → CpuBody) (f : Monadic F M) :
    prefixed .none plain body f = some (plain f) := rfl

/-- KCALL, KRET and CRET, alone and after CPU. -/
theorem untraceable_iff (i : Instr) :
    untraceable i = true ↔ i = .kret ∨ i = .cret ∨ ∃ k f, prefixed k .kcall (.word .kcall) f = some i := by
  constructor
  · intro h
    unfold untraceable at h
    split at h
    · exact .inr (.inr ⟨.none, _, prefixed_none _ _ _⟩)
    · exact .inl rfl
    · exact .inr (.inl rfl)
    · exact .inr (.inr ⟨.cpu, _, prefixed_widen _ _ _⟩)
    · cases h
  · rintro (rfl | rfl | ⟨k, f, h⟩)
    · rfl
    · rfl
    · rcases prefixed_cases h with ⟨-, rfl⟩ | ⟨-, g, -, rfl⟩ <;> rfl

/-- CALL, RETURN and the jumps, alone and after CPU. -/
theorem blockEnd_iff (i : Instr) :
    blockEnd i = true ↔ (∃ k f, prefixed k .ret (.stack .ret) f = some i) ∨ ∃ k f,
      prefixed k .call (.flow .call) f = some i ∨ prefixed k .jmp (.flow .jmp) f = some i ∨
        prefixed k .jmpfn (.flow .jmpfn) f = some i ∨ prefixed k .jmpfy (.flow .jmpfy) f = some i ∨
        prefixed k .jmptn (.flow .jmptn) f = some i ∨ prefixed k .jmpty (.flow .jmpty) f = some i := by
  constructor
  · intro h
    cases i with
    | ret f => exact .inl ⟨.none, f, prefixed_none _ _ _⟩
    | call f => exact .inr ⟨.none, f, by simp [prefixed_none]⟩
    | jmp f => exact .inr ⟨.none, f, by simp [prefixed_none]⟩
    | jmpfn f => exact .inr ⟨.none, f, by simp [prefixed_none]⟩
    | jmpfy f => exact .inr ⟨.none, f, by simp [prefixed_none]⟩
    | jmptn f => exact .inr ⟨.none, f, by simp [prefixed_none]⟩
    | jmpty f => exact .inr ⟨.none, f, by simp [prefixed_none]⟩
    | cpu b =>
      cases b with
      | stack op g =>
        cases op with
        | ret => exact .inl ⟨.cpu, g.widen, prefixed_widen _ _ _⟩
        | popn => cases h
      | flow op g =>
        cases op with
        | ldraa => cases h
        | _ => exact .inr ⟨.cpu, g.widen, by simp [prefixed_widen]⟩
      | _ => cases h
    | _ => cases h
  · have ends {F M : Type} {k : Prefix} {plain : Monadic F M → Instr} {body : Monadic Empty M → CpuBody} {f : Monadic F M}
        (hp : ∀ f, blockEnd (plain f) = true) (hb : ∀ g, blockEnd (.cpu (body g)) = true) (h : prefixed k plain body f = some i) :
        blockEnd i = true := by
      rcases prefixed_cases h with ⟨-, rfl⟩ | ⟨-, g, -, rfl⟩
      · exact hp f
      · exact hb g
    rintro (⟨k, f, h⟩ | ⟨k, f, h | h | h | h | h | h⟩) <;> exact ends (fun _ => rfl) (fun _ => rfl) h

/-- When the trace bits call for a trace exception (R440, R441, R432). -/
theorem traceDue_cases (i : Instr) (ti tb : Bool) :
    traceDue i .none true tb = !untraceable i ∧ traceDue i .none false tb = (tb && blockEnd i && !untraceable i) ∧
      traceDue i .softTrap ti tb = ti ∧ traceDue i .exception ti tb = false ∧ traceDue i .reset ti tb = false := by
  refine ⟨?_, ?_, rfl, rfl, rfl⟩
  · simp [traceDue]
  · simp [traceDue, Bool.and_comm]

/-! ## The end of a step (R440 to R442, R450 to R453) -/

/-- The state at the end of an instruction's step, before a jump is folded into it. -/
def endState (s old : State) (i : Instr) (pair : Option Bool) : State :=
  { (s.tickTimers old (s.event == .none && pair.isNone)).pushHazard with
    tracePending := traceDue i s.event (pair.getD old.psw.ti) old.psw.tb }

/-- What joining the hazards changes. -/
theorem pushHazard_eq (s : State) : s.pushHazard = { s with recent := s.pushHazard.recent, hazard := s.pushHazard.hazard } := by
  unfold State.pushHazard
  split <;> rfl

/-- A jump folded into an instruction was fetched after it, and keeps the TI of its pair (R442, D28). -/
theorem foldNext_eq_some {ti : Bool} {t : State} (h : s.foldNext i ti = some t) :
    ∃ (j : Instr) (u : State) (p : JumpOp × BitVec 10), fetch s = .ok j u ∧
      t = { u with folded := some ⟨p.1, p.2, ti⟩, tracePending := false } := by
  unfold State.foldNext at h
  split at h
  · cases fetched : fetch s with
    | ok j u =>
      rw [fetched] at h
      obtain ⟨p, -, rfl⟩ := Option.map_eq_some_iff.1 h
      exact ⟨j, u, p, rfl, rfl⟩
    | error e u => rw [fetched] at h; cases h
  · cases h

/-- An instruction's step ends with no jump folded into it, or with one fetched after it. -/
theorem retire_cases (s old : State) (i : Instr) (pair : Option Bool) :
    s.retire old i pair = (endState s old i pair).closeStep ∨
      ∃ (j : Instr) (u : State) (p : JumpOp × BitVec 10), pair = none ∧ fetch (endState s old i pair) = .ok j u ∧
        s.retire old i pair = ({ u with folded := some ⟨p.1, p.2, old.psw.ti⟩, tracePending := false } : State).closeStep := by
  have event : (s.tickTimers old (s.event == .none && pair.isNone)).pushHazard.event = s.event := by rw [pushHazard_eq]; rfl
  have retired : s.retire old i pair =
      ((if pair.isNone then (endState s old i pair).foldNext i (pair.getD old.psw.ti) else none).getD
        (endState s old i pair)).closeStep := by
    simp only [State.retire, endState, event]
  rw [retired]
  cases pair with
  | some ti => exact .inl rfl
  | none =>
    cases folds : (endState s old i none).foldNext i old.psw.ti with
    | none => exact .inl (by simp [folds])
    | some t =>
      obtain ⟨j, u, p, fetched, rfl⟩ := foldNext_eq_some folds
      exact .inr ⟨j, u, p, rfl, fetched, by simp [folds]⟩

/-- What closing a step changes. -/
theorem closeStep_eq (s : State) : s.closeStep = { s.drainTo s.cur.hold with env := s.env.tail } := by
  rw [State.closeStep, drainTo_env]

/-- Settles O58: the step by what its boundary finds; the trace exception due where no jump is folded, since a folded one takes it over. -/
theorem traceTaken : Obligations.TraceTaken := by
  refine ⟨fun s hr hf hq ht => ?_, fun s j hr hf => ?_, fun s hr hf hq ht hl => ?_, fun s old i pair hf => ?_, fun i =>
    ⟨traceDue_cases i, untraceable_iff i, blockEnd_iff i⟩⟩
  · simp only [step, stepOnce, hr, hf, hq, ht, Bool.false_eq_true, if_false, if_true]
    rfl
  · simp only [step, stepOnce, hr, hf, Bool.false_eq_true, if_false]
    rfl
  · simp only [step, stepOnce, hr, hf, hq, ht, Bool.false_eq_true, if_false, if_pos hl]
    rfl
  · rcases retire_cases s old i pair with h | ⟨j, u, p, rfl, -, h⟩
    · have folded : (s.retire old i pair).folded = none := by
        rw [h, closeStep_eq, endState, pushHazard_eq]
        simpa [State.tickTimers] using hf
      have trace : (s.retire old i pair).tracePending = traceDue i s.event (pair.getD old.psw.ti) old.psw.tb := by
        rw [h, closeStep_eq]
        simp [endState]
      exact ⟨by simp [folded, trace], fun j hj => by rw [folded] at hj; cases hj⟩
    · have folded : (s.retire old i none).folded = some ⟨p.1, p.2, old.psw.ti⟩ := by simp [h, closeStep_eq]
      have trace : (s.retire old i none).tracePending = false := by simp [h, closeStep_eq]
      refine ⟨by simp [folded, trace], fun j hj => ?_⟩
      rw [folded] at hj
      cases hj
      exact ⟨rfl, rfl⟩

/-! ## The timers (R450 to R453) -/

/-- The timers and their requests are the same before and after. -/
def SameTimers (s t : State) : Prop :=
  t.timer1 = s.timer1 ∧ t.t1Req = s.t1Req ∧ t.timer2 = s.timer2 ∧ t.t2Req = s.t2Req

theorem sameTimers_of_ownPart {s t : State} (h : ownPart t = ownPart s) : SameTimers s t :=
  ⟨(congrArg State.timer1 h :), (congrArg State.t1Req h :), (congrArg State.timer2 h :), (congrArg State.t2Req h :)⟩

theorem SameTimers.trans {s t u : State} (h : SameTimers s t) (h' : SameTimers t u) : SameTimers s u :=
  ⟨h'.1.trans h.1, h'.2.1.trans h.2.1, h'.2.2.1.trans h.2.2.1, h'.2.2.2.trans h.2.2.2⟩

/-- The memory system, other agents and the prefetch unit leave them alone. -/
theorem sameTimers : Soft SameTimers where
  refl _ := ⟨rfl, rfl, rfl, rfl⟩
  trans _ _ _ h h' := h.trans h'
  draw _ _ := ⟨rfl, rfl, rfl, rfl⟩
  mem _ _ _ _ := ⟨rfl, rfl, rfl, rfl⟩
  tlb s k e := sameTimers_of_ownPart (own_agents.tlb s k e)
  npsr s k n := sameTimers_of_ownPart (own_agents.npsr s k n)
  block _ _ _ := ⟨rfl, rfl, rfl, rfl⟩
  sc _ _ _ _ := ⟨rfl, rfl, rfl, rfl⟩
  act s x := sameTimers_of_ownPart (act_own s x)
  between s l := by rw [setBetween_eq]; exact ⟨rfl, rfl, rfl, rfl⟩
  underConfig _ _ _ h := h

theorem fetch_sameTimers : Keeps SameTimers fetch :=
  sameTimers.fetch (fun _ => ⟨rfl, rfl, rfl, rfl⟩) (fun s c l => sameTimers_of_ownPart (own_agents.line s c l))
    fun s a ts => sameTimers_of_ownPart (own_agents.instr s a ts)

theorem closeStep_sameTimers (s : State) : SameTimers s s.closeStep := by
  rw [closeStep_eq]
  exact ⟨drainTo_timer1 s _, drainTo_t1Req s _, drainTo_timer2 s _, drainTo_t2Req s _⟩

/-- Nothing after the tick changes the timers. -/
theorem endState_sameTimers (s old : State) (i : Instr) (pair : Option Bool) :
    SameTimers (s.tickTimers old (s.event == .none && pair.isNone)) (endState s old i pair) := by
  rw [endState, pushHazard_eq]
  exact ⟨rfl, rfl, rfl, rfl⟩

/-- Of what ends an instruction's step only the tick changes the timers. -/
theorem retire_sameTimers (s old : State) (i : Instr) (pair : Option Bool) :
    SameTimers (s.tickTimers old (s.event == .none && pair.isNone)) (s.retire old i pair) := by
  have ended := endState_sameTimers s old i pair
  rcases retire_cases s old i pair with h | ⟨j, u, p, -, fetched, h⟩ <;> rw [h]
  · exact ended.trans (closeStep_sameTimers _)
  · have kept := fetch_sameTimers (endState s old i pair)
    rw [fetched] at kept
    exact (ended.trans kept).trans (closeStep_sameTimers ({ u with folded := _, tracePending := _ } : State))

/-- So too at the end of an event's step. -/
theorem retireEvent_sameTimers (s old : State) : SameTimers (s.tickTimers old false) (s.retireEvent old) :=
  closeStep_sameTimers _

/-- A timer that reaches 2^32 by one more has been at its last value. -/
theorem overflow_iff (x : Word) (n : Nat) (hn : n ≤ 1) : 2 ^ 32 ≤ x.toNat + n ↔ n = 1 ∧ x = 0xFFFFFFFF := by
  have last : x = 0xFFFFFFFF ↔ x.toNat = 0xFFFFFFFF := ⟨fun h => h ▸ rfl, fun h => BitVec.eq_of_toNat_eq h⟩
  rw [last]
  have := x.isLt
  omega

/-- How far a timer that counts instructions advances: by the instruction that completed, but not at user level with its K bit set. -/
def instrTick (k user counted : Bool) : Nat := if counted = true ∧ ¬(k = true ∧ user = true) then 1 else 0

theorem instrTick_le (k user counted : Bool) : instrTick k user counted ≤ 1 := by
  revert k user counted
  decide

theorem counted_of_instrTick {k user counted : Bool} (h : instrTick k user counted = 1) : counted = true := by
  revert k user counted
  decide

/-- A pending request stays; an overflow makes one where the I bit is set (R453, D20). -/
theorem overflowRequest_iff {req live irq : Bool} {x : Word} {n : Nat} (hn : n ≤ 1) (hl : n = 1 → live = true) :
    (req || (live && irq && decide (2 ^ 32 ≤ x.toNat + n))) = true ↔ req = true ∨ irq = true ∧ n = 1 ∧ x = 0xFFFFFFFF := by
  simp only [Bool.or_eq_true, Bool.and_eq_true, decide_eq_true_eq, overflow_iff x n hn]
  constructor
  · rintro (h | ⟨⟨-, hi⟩, ho⟩)
    · exact .inl h
    · exact .inr ⟨hi, ho⟩
  · rintro (h | ⟨hi, ho⟩)
    · exact .inl h
    · exact .inr ⟨⟨hl ho.1, hi⟩, ho⟩

section

variable {counted : Bool} {n : Nat} (hc : counted = true → s.event ≠ .reset)
include hc

/-- Timer1 counting instructions (R451). -/
theorem tickTimers_timer1 (he : old.config.t1ev = true) (hn : n = instrTick old.config.t1k old.psw.x counted) :
    (s.tickTimers old counted).timer1 = s.timer1 + BitVec.ofNat 32 n ∧
      ((s.tickTimers old counted).t1Req = true ↔ s.t1Req = true ∨ old.config.t1i = true ∧ n = 1 ∧ s.timer1 = 0xFFFFFFFF) := by
  have ticks : (if (old.config.t1k && old.psw.x) = true then 0 else if counted = true then 1 else 0) = n := by
    rw [hn]
    generalize old.config.t1k = k, old.psw.x = x
    cases k <;> cases x <;> cases counted <;> rfl
  have live : n = 1 → (s.event != .reset) = true := fun h => by simpa using hc (counted_of_instrTick (hn.symm.trans h))
  simp only [State.tickTimers, he, if_true, ticks]
  exact ⟨trivial, overflowRequest_iff (hn ▸ instrTick_le _ _ _) live⟩

/-- Timer2 counting instructions (R451). -/
theorem tickTimers_timer2 (he : old.config.t2ev = 1) (hn : n = instrTick old.config.t2k old.psw.x counted) :
    (s.tickTimers old counted).timer2 = s.timer2 + BitVec.ofNat 32 n ∧
      ((s.tickTimers old counted).t2Req = true ↔ s.t2Req = true ∨ old.config.t2i = true ∧ n = 1 ∧ s.timer2 = 0xFFFFFFFF) := by
  have ticks : (if (!(old.config.t2k && old.psw.x)) = true then if counted = true then 1 else 0 else 0) = n := by
    rw [hn]
    generalize old.config.t2k = k, old.psw.x = x
    cases k <;> cases x <;> cases counted <;> rfl
  have live : n = 1 → (s.event != .reset) = true := fun h => by simpa using hc (counted_of_instrTick (hn.symm.trans h))
  have instructions : old.config.t2ev ≠ 0 ∧ decide (old.config.t2ev = 1) = true ∧ (old.config.t2ev != 1) = false := by
    rw [he]
    decide
  obtain ⟨cycles, one, other⟩ := instructions
  simp only [State.tickTimers, if_neg cycles, one, other, Bool.true_and, Bool.and_false, Bool.false_and, Bool.false_eq_true, if_false,
    ticks]
  exact ⟨trivial, overflowRequest_iff (hn ▸ instrTick_le _ _ _) live⟩

end

/-- Timer2 stopped (R451). -/
theorem tickTimers_stopped (he : old.config.t2ev = 31) (counted : Bool) :
    (s.tickTimers old counted).timer2 = s.timer2 ∧ (s.tickTimers old counted).t2Req = s.t2Req := by
  have stopped : old.config.t2ev ≠ 0 ∧ decide (old.config.t2ev = 1) = false ∧ (old.config.t2ev != 31) = false := by
    rw [he]
    decide
  obtain ⟨cycles, instructions, other⟩ := stopped
  have last : decide (2 ^ 32 ≤ s.timer2.toNat + 0) = false := decide_eq_false (Nat.not_le.2 s.timer2.isLt)
  simp only [State.tickTimers, if_neg cycles, instructions, other, Bool.and_false, Bool.false_and, Bool.false_eq_true, if_false, last,
    Bool.or_false]
  exact ⟨BitVec.add_zero _, trivial⟩

/-- The instruction that counts is one that completed and is no folded branch. -/
theorem counted_tick (k user : Bool) :
    (if s.event = .none ∧ pair = none ∧ ¬(k = true ∧ user = true) then 1 else 0) =
      instrTick k user (s.event == .none && pair.isNone) := by
  simp [instrTick, and_assoc]

/-- An event counts as no instruction. -/
theorem uncounted_tick (k user : Bool) : 0 = instrTick k user false := by simp [instrTick]

/-- Settles O59: what a step leaves in the timers is its tick's, which counts the instruction that completed, or nothing. -/
theorem timerCounts : Obligations.TimerCounts := by
  intro s old
  have live (pair : Option Bool) : (s.event == .none && pair.isNone) = true → s.event ≠ .reset := by
    intro h e
    simp [e] at h
  refine ⟨fun he => ⟨fun i pair => ?_, ?_⟩, fun he => ⟨fun i pair => ?_, ?_⟩, fun he => ⟨fun i pair => ?_, ?_⟩⟩
  · obtain ⟨timer, req, -, -⟩ := retire_sameTimers s old i pair
    rw [timer, req]
    exact tickTimers_timer1 (live pair) he (counted_tick _ _)
  · obtain ⟨timer, req, -, -⟩ := retireEvent_sameTimers s old
    obtain ⟨same, iff⟩ := tickTimers_timer1 (s := s) (counted := false) nofun he (uncounted_tick _ _)
    exact ⟨timer.trans (same.trans (BitVec.add_zero _)), req.trans (Bool.eq_iff_iff.2 (by simpa using iff))⟩
  · obtain ⟨-, -, timer, req⟩ := retire_sameTimers s old i pair
    rw [timer, req]
    exact tickTimers_timer2 (live pair) he (counted_tick _ _)
  · obtain ⟨-, -, timer, req⟩ := retireEvent_sameTimers s old
    obtain ⟨same, iff⟩ := tickTimers_timer2 (s := s) (counted := false) nofun he (uncounted_tick _ _)
    exact ⟨timer.trans (same.trans (BitVec.add_zero _)), req.trans (Bool.eq_iff_iff.2 (by simpa using iff))⟩
  · obtain ⟨-, -, timer, req⟩ := retire_sameTimers s old i pair
    rw [timer, req]
    exact tickTimers_stopped he _
  · obtain ⟨-, -, timer, req⟩ := retireEvent_sameTimers s old
    rw [timer, req]
    exact tickTimers_stopped he _

end Sys2Proof.Proofs
end

section
/-! PROOF. Exceptions and interrupts in physical mode (60_exceptions.md R403, R410, R420, R421, R423): the event sequences begin with
the current stack pointer restored, push a frame of words in memory and go to a handler; and KRET (44_program_control.md R312) undoing an
interrupt (R413). -/

namespace Sys2Proof.Proofs

open Sys2Proof.Machine Sys2Proof.Laws

variable {s : State} {lv : Level} {a : Word}

/-! ## The beginning of an event (R410, R420) -/

/-- SP not falling, the stack cache keeps its words. -/
theorem lowerSp_of_le {v : Word} (h : s.sp ≤ v) (m : Word) : s.lowerSp v m = s := by
  have kept : ¬v < (if s.sp < m then s.sp else m) := by
    rw [BitVec.le_def] at h
    split <;> simp only [BitVec.lt_def] at * <;> omega
  simp only [State.lowerSp, if_neg kept]

theorem setCsp_sp (s : State) (v : Word) : (s.setCsp v).sp = if s.psw.s then v else s.sp := by
  unfold State.setCsp
  split <;> rfl

theorem setCsp_isp (s : State) (v : Word) : (s.setCsp v).isp = if s.psw.s then s.isp else v := by
  unfold State.setCsp
  split <;> rfl

/-- With nothing to drain, an event begins with the current stack pointer set to SHAD and no hazard remembered; the stack cache keeps
its words unless SP falls. -/
theorem beginEvent_eq (hb : s.storeBuf = []) :
    ∃ sc d, s.beginEvent = { s with
        sp := (s.setCsp s.shad).sp, isp := (s.setCsp s.shad).isp, sc := sc, draw := d, recent := [], hazard := {} } ∧
      ((s.psw.s = true → s.sp ≤ s.shad) → sc = s.sc) := by
  rw [setCsp_sp, setCsp_isp]
  cases hp : s.psw.s with
  | false =>
    refine ⟨s.sc, s.draw, ?_, fun _ => rfl⟩
    simp [State.beginEvent, drainAll_nil hb, hp, State.setCsp]
  | true =>
    refine ⟨(s.lowerSp s.shad s.msp).sc, (s.lowerSp s.shad s.msp).draw, ?_, fun h => by rw [lowerSp_of_le (h rfl)]⟩
    simp only [State.beginEvent, drainAll_nil hb, hp, if_true]
    rw [lowerSp_eq]
    simp [State.setCsp, hp]

/-- An exception writes FAULT or nothing (R423). -/
theorem noteFault_eq (e : Exc) (s : State) : e.noteFault s = { s with fault := (e.noteFault s).fault } := by cases e <;> rfl

/-- Taking an exception is its frame, pushed from the state the event begins with (R420). -/
theorem exceptionSequence_eq (hs : s.alone = true) (hb : s.storeBuf = []) (e : Exc) (epc : Word) :
    ∃ sc d, exceptionSequence e epc s = eventFrame (some e.id) epc 4 { s with
        sp := (s.setCsp s.shad).sp, isp := (s.setCsp s.shad).isp, fault := (e.noteFault s).fault, sc := sc, draw := d, recent := []
        hazard := {}, event := .exception } ∧
      ((s.psw.s = true → s.sp ≤ s.shad) → sc = s.sc) := by
  obtain ⟨sc, d, begun, kept⟩ := beginEvent_eq (s := { s with fault := (e.noteFault s).fault }) hb
  refine ⟨sc, d, ?_, kept⟩
  simp only [exceptionSequence, bind_run, others_run hs, modS_run]
  rw [noteFault_eq, begun]
  simp only [setCsp_sp, setCsp_isp]

/-- So is taking an interrupt, with no identifier (R410). -/
theorem interruptSequence_eq (hs : s.alone = true) (hb : s.storeBuf = []) (vec : Word) :
    ∃ sc d, interruptSequence vec s = eventFrame none s.pc vec { s with
        sp := (s.setCsp s.shad).sp, isp := (s.setCsp s.shad).isp, sc := sc, draw := d, recent := [], hazard := {} } ∧
      ((s.psw.s = true → s.sp ≤ s.shad) → sc = s.sc) := by
  obtain ⟨sc, d, begun, kept⟩ := beginEvent_eq hb
  refine ⟨sc, d, ?_, kept⟩
  simp only [interruptSequence, bind_run, others_run hs, getS_run, modS_run]
  rw [begun]

/-! ## A frame in memory (R403) -/

/-- In physical mode an access outside the stack cache goes to its own address (R110). -/
theorem home?_physical (hv : lv.vp = false) (hm : s.scHit a = false) (k : Kind) : s.home? lv k a = some (.phys a) := by
  simp [State.home?, hm, State.trans?, hv]

theorem frameHome?_physical (hv : lv.vp = false) (ha : aligned a 4 = true) (hm : s.scHit a = false)
    (hw : s.board.writeAnswer a = .ram) : s.frameHome? lv a = some (.phys a) := by
  simp [State.frameHome?, ha, home?_physical hv hm, hw]

theorem vector?_physical (hv : lv.vp = false) (hs : s.alone = true) (hr : s.board.readAnswer a = .ram) :
    s.vector? lv a = some a := by
  simp [State.vector?, State.trans?, hv, State.reads, hs, hr]

/-- Words written one after the other in memory: only the store buffer differs, and each word lies over what was there. -/
theorem wordsWritten (ws : List (Word × Word)) (s : State) :
    ∃ buf, (ws.map fun w => (Home.phys w.1, w.2)).foldl (fun u h => u.homeWrite h.1 0xFFFFFFFF h.2) s = { s with storeBuf := buf } ∧
      ∀ q, ({ s with storeBuf := buf } : State).physWord q =
        ws.foldl (fun old w => if wordAddr w.1 = wordAddr q then w.2 else old) (s.physWord q) := by
  induction ws generalizing s with
  | nil => exact ⟨s.storeBuf, rfl, fun _ => rfl⟩
  | cons w ws ih =>
    obtain ⟨buf, eq, words⟩ := ih (s.enqueue w.1 0xFFFFFFFF w.2)
    refine ⟨buf, eq, fun q => (words q).trans ?_⟩
    rw [enqueue_physWord, mergeLanes_all]
    rfl

/-- What an event leaves once its frame is written so (R410, R420). -/
theorem entered_of_written {hs : List (Home × Word)} {va : Word} {buf : List (List Store)}
    (eq : hs.foldl (fun u h => u.homeWrite h.1 0xFFFFFFFF h.2) s = { s with storeBuf := buf }) :
    s.entered hs va = { s with
      storeBuf := buf, isp := s.isp - 16, shad := s.isp - 16, psw := s.psw.cleared, oldSpace := none
      pc := textAddr (({ s with storeBuf := buf } : State).physWord va) } := by
  simp only [State.entered]
  rw [eq]

/-- The words of an event's frame below ISP are those pushed, and every other word is as it was. -/
structure FramePushed (ident : Option Word) (epc : Word) (s w : State) : Prop where
  identifier : ∀ v, ident = some v → w.physWord (s.isp - 12) = v
  savedPc : w.physWord (s.isp - 8) = epc
  savedPsw : w.physWord (s.isp - 4) = s.psw.toWord
  other : ∀ q, (ident = none ∨ wordAddr q ≠ s.isp - 12) → wordAddr q ≠ s.isp - 8 → wordAddr q ≠ s.isp - 4 →
    w.physWord q = s.physWord q

/-- A word below an aligned ISP is aligned. -/
theorem sub_toNat_mod (hi : a.toNat % 16 = 0) {i : Word} (h : i.toNat % 4 = 0) : (a - i).toNat % 4 = 0 := by
  rw [BitVec.toNat_sub]
  omega

/-- Two words of a frame are distinct. -/
theorem sub_ne_sub (a : Word) {i j : Word} (h : i ≠ j) : a - i ≠ a - j := fun e => h (sub_right_injective e)

theorem wordAddr_eq_self (h : a.toNat % 4 = 0) : wordAddr a = a := by
  apply BitVec.eq_of_toNat_eq
  rw [wordAddr_toNat]
  omega

/-- The frame and the vector of an event in physical mode, on an aligned ISP (R403, R410, R420). -/
theorem eventFrame_physical (ident : Option Word) (epc : Word) {vec : Word} (hv : s.psw.vp = false) (hs : s.alone = true)
    (hi : s.isp.toNat % 16 = 0)
    (hw : ∀ i : Word, i = 4 ∨ i = 8 ∨ i = 12 → s.scHit (s.isp - i) = false ∧ s.board.writeAnswer (s.isp - i) = .ram)
    (hr : s.board.readAnswer (s.vb + vec) = .ram) :
    ∃ buf, FramePushed ident epc s { s with storeBuf := buf } ∧
      eventFrame ident epc vec s = .ok () { s with
        storeBuf := buf, isp := s.isp - 16, shad := s.isp - 16, psw := s.psw.cleared, oldSpace := none
        pc := textAddr (({ s with storeBuf := buf } : State).physWord (s.vb + vec)) } := by
  have mod {i : Word} (h : i = 4 ∨ i = 8 ∨ i = 12) : (s.isp - i).toNat % 4 = 0 :=
    sub_toNat_mod hi (by rcases h with rfl | rfl | rfl <;> rfl)
  have home {i : Word} (h : i = 4 ∨ i = 8 ∨ i = 12) : s.frameHome? s.eventLevel (s.isp - i) = some (.phys (s.isp - i)) :=
    frameHome?_physical hv (by rw [aligned, mod h]; rfl) (hw i h).1 (hw i h).2
  have vector : s.vector? s.eventLevel (s.vb + vec) = some (s.vb + vec) := vector?_physical hv hs hr
  have at4 := wordAddr_eq_self (mod (.inl rfl))
  have at8 := wordAddr_eq_self (mod (.inr (.inl rfl)))
  have at12 := wordAddr_eq_self (mod (.inr (.inr rfl)))
  have ne84 : s.isp - 8 ≠ s.isp - 4 := sub_ne_sub _ (by decide)
  have ne48 := ne84.symm
  have ne124 : s.isp - 12 ≠ s.isp - 4 := sub_ne_sub _ (by decide)
  have ne812 : s.isp - 8 ≠ s.isp - 12 := sub_ne_sub _ (by decide)
  have ne412 := ne124.symm
  cases ident with
  | none =>
    obtain ⟨buf, eq, words⟩ := wordsWritten [(s.isp - 8, epc), (s.isp - 4, s.psw.toWord)] s
    simp only [List.foldl_cons, List.foldl_nil, at4, at8] at words
    refine ⟨buf, ⟨fun _ => nofun, ?_, ?_, fun q _ h8 h4 => ?_⟩, ?_⟩
    · simp only [words, at8, ne48, if_true, if_false]
    · simp only [words, at4, if_true]
    · simp only [words, h4.symm, h8.symm, if_false]
    · rw [eventFrame_none_ok epc vec (home (.inr (.inl rfl))) (home (.inl rfl)) vector]
      exact congrArg (EStateM.Result.ok ()) (entered_of_written eq)
  | some v =>
    obtain ⟨buf, eq, words⟩ := wordsWritten [(s.isp - 12, v), (s.isp - 8, epc), (s.isp - 4, s.psw.toWord)] s
    simp only [List.foldl_cons, List.foldl_nil, at4, at8, at12] at words
    refine ⟨buf, ⟨fun x hx => ?_, ?_, ?_, fun q h12 h8 h4 => ?_⟩, ?_⟩
    · cases hx
      simp only [words, at12, ne812, ne412, if_true, if_false]
    · simp only [words, at8, ne48, if_true, if_false]
    · simp only [words, at4, if_true]
    · have h12 : s.isp - 12 ≠ wordAddr q := (h12.resolve_left nofun).symm
      simp only [words, h4.symm, h8.symm, h12, if_false]
    · rw [eventFrame_ok v epc vec (home (.inr (.inr rfl))) (home (.inr (.inl rfl))) (home (.inl rfl)) vector]
      exact congrArg (EStateM.Result.ok ()) (entered_of_written eq)

/-! ## Taking an exception (R420, R421, R423) -/

/-- The PSW an event leaves is the old one with its low half clear. -/
theorem cleared_toWord (p : Psw) : p.cleared.toWord = p.toWord &&& 0xFFFF0000 := by
  have high : p.toWord.extractLsb' 16 16 = p.rsv ++ BitVec.ofBool p.vp := BitVec.extractLsb'_append_eq_left
  have packed : p.cleared.toWord = p.toWord.extractLsb' 16 16 ++ 0#16 := by
    rw [high]
    exact congrArg (fun low : BitVec 16 => p.rsv ++ BitVec.ofBool p.vp ++ low) (by dsimp only [Psw.cleared]; decide)
  exact packed.trans (append_zeros (n := 16) (m := 16) rfl p.toWord)

/-- A byte of memory is read with its word. -/
theorem physByte_of_physWord {t : State} (h : t.physWord a = s.physWord a) : t.physByte a = s.physByte a := by
  rw [State.physByte, State.physByte, h]

/-- Settles O50: the state an event begins with is that of the current stack pointer restored, and the frame is pushed from it. -/
theorem exceptionEntry : Obligations.ExceptionEntry := by
  rintro s u e epc hv hs hb rfl hi hw hr
  obtain ⟨sc, d, taken, kept⟩ := exceptionSequence_eq hs hb e epc
  obtain ⟨buf, frame, pushed⟩ := eventFrame_physical (vec := 4) (some e.id) epc
    (s := { s with
      sp := (s.setCsp s.shad).sp, isp := (s.setCsp s.shad).isp, fault := (e.noteFault s).fault, sc := sc, draw := d, recent := []
      hazard := {}, event := .exception })
    hv hs hi (fun i h => ⟨by simpa [State.scHit] using (hw i h).1, (hw i h).2⟩) hr
  exact ⟨_, taken.trans pushed, (frame.identifier _ rfl).trans (by cases e <;> rfl), frame.savedPc, frame.savedPsw,
    fun a h12 h8 h4 => physByte_of_physWord (frame.other a (.inr h12) h8 h4), rfl, cleared_toWord s.psw, rfl, rfl, rfl, rfl, kept, rfl,
    rfl, rfl, rfl, rfl, by cases e <;> rfl⟩

/-! ## An interrupt and the KRET after it (R410, R413, R312) -/

/-- The lanes of a word access are the whole word (R83). -/
theorem lanesOf_word (le : Bool) (a w : Word) : lanesOf le a 4 w = w :=
  (congrArg (· &&& 0xFFFFFFFF) (BitVec.ushiftRight_zero w)).trans BitVec.and_allOnes

/-- A word of memory read as data in physical mode with the stack cache off. -/
theorem load?_physical (hv : lv.vp = false) (hc : s.config.sce = false) (hs : s.alone = true) (hr : s.board.readAnswer a = .ram)
    (ha : a.toNat % 4 = 0) : s.load? lv a 4 = some (s.physWord a) := by
  have outside : s.scHit a = false := by simp [State.scHit, hc]
  have answered : s.word? (.phys a) = some (s.physWord a) := by simp [State.word?, State.reads, hs, hr]
  rw [load?_eq ha (home?_physical hv outside _) answered, lanesOf_word]

/-- With SHAD the current stack pointer an event restores it to what it is. -/
theorem setCsp_of_shad (h : s.shad = s.csp) : s.setCsp s.shad = s := by
  rw [h, State.setCsp, State.csp]
  split <;> rfl

/-- KRET in physical mode with the stack cache off, its frame in memory (R312). -/
theorem exec_kret_physical {v w : Word} (hv : s.psw.vp = false) (hx : s.psw.x = false) (hc : s.config.sce = false) (hs : s.alone = true)
    (hr : ∀ a, s.board.readAnswer a = .ram) (hi : s.isp.toNat % 4 = 0) (h8 : s.physWord (s.isp + 8) = v)
    (h12 : s.physWord (s.isp + 12) = w) : exec .kret s = .next (s.restore (Psw.ofWord w) v).drainAll := by
  have mod {i : Word} (h : i.toNat % 4 = 0) : (s.isp + i).toNat % 4 = 0 := by
    rw [BitVec.toNat_add]
    omega
  have pc := load?_physical (lv := s.level) hv hc hs (hr _) (mod (i := 8) rfl)
  have psw := load?_physical (lv := s.level) hv hc hs (hr _) (mod (i := 12) rfl)
  rw [h8] at pc
  rw [h12] at psw
  exact run_ok (kernelReturn_ok hs hx pc psw)

/-- Settles O51: with SHAD the current stack pointer an interrupt begins by changing nothing, and KRET finds the two words it pushed. -/
theorem kretUndoesInterrupt : Obligations.KretUndoesInterrupt := by
  intro s q hv hc hb hsh hs hi hpc hr
  obtain ⟨sc, d, taken, kept⟩ := interruptSequence_eq hs hb q.vector
  obtain rfl : sc = s.sc := kept fun h => by simp [hsh, State.csp, h]
  rw [setCsp_of_shad hsh] at taken
  obtain ⟨buf, frame, pushed⟩ := eventFrame_physical (vec := q.vector) none s.pc
    (s := { s with draw := d, recent := [], hazard := {} }) hv hs hi (fun i _ => ⟨by simp [State.scHit, hc], (hr _).2⟩) (hr _).1
  have at8 : s.isp - 16 + 8 = s.isp - 8 := by ring
  have at12 : s.isp - 16 + 12 = s.isp - 4 := by ring
  have even : textAddr s.pc = s.pc := textAddr_eq_self.2 (Nat.dvd_of_mod_eq_zero hpc)
  have back : s.isp - 16 + 16 = s.isp := sub_add_cancel _ _
  refine ⟨_, _, taken.trans pushed, frame.savedPc, frame.savedPsw, rfl, rfl, cleared_toWord s.psw, rfl,
    fun a h8 h4 => physByte_of_physWord (frame.other a (.inl rfl) h8 h4),
    exec_kret_physical hv rfl hc hs (fun a => (hr a).1) (sub_toNat_mod hi rfl) ((congrArg _ at8).trans frame.savedPc)
      ((congrArg _ at12).trans frame.savedPsw), ?_⟩
  simp only [drainAll_pc, drainAll_psw, drainAll_isp, drainAll_sp, drainAll_shad, drainAll_msp, drainAll_sc]
  refine ⟨even, psw_ofWord_toWord _, back, rfl, ?_, rfl, rfl⟩
  simp only [State.restore, psw_ofWord_toWord, back]
  exact hsh.symm

end Sys2Proof.Proofs
end

section
/-! PROOF. KRET with a frame that cannot be read (70_reset_and_hazards.md R480, R481; 44_program_control.md R312): a read of data changes
no register and not the stack cache, whatever it ends in, so the internal reset finds them as they were; and the faults for which the
premise holds. -/

namespace Sys2Proof.Proofs

open Sys2Proof.Machine Sys2Proof.Laws

variable {s t u : State} {a pa : Word} {e : Exc} {lv : Level}

/-! ## What a read leaves alone -/

/-- All that only the program and its events change is the same before and after, the script apart. -/
def SameOwn (s t : State) : Prop := ∃ env, ownPart t = { ownPart s with env := env }

theorem sameOwn_of_ownPart (h : ownPart t = ownPart s) : SameOwn s t := ⟨s.env, h⟩

theorem SameOwn.trans (h : SameOwn s t) (h' : SameOwn t u) : SameOwn s u := by
  obtain ⟨x, h⟩ := h
  obtain ⟨y, h'⟩ := h'
  exact ⟨y, by rw [h', h]⟩

/-- The table walker leaves it alone. -/
theorem sameOwn : Walks SameOwn where
  refl _ := sameOwn_of_ownPart rfl
  trans _ _ _ h h' := h.trans h'
  draw _ _ := sameOwn_of_ownPart rfl
  mem _ _ _ _ := sameOwn_of_ownPart rfl
  tlb s k e := sameOwn_of_ownPart (own_agents.tlb s k e)
  npsr s k n := sameOwn_of_ownPart (own_agents.npsr s k n)

/-- So do other agents between two accesses (D8). -/
theorem others_sameOwn : Keeps SameOwn others := by
  intro s
  rw [others_modS, final_ok, State.others]
  split
  · exact sameOwn.refl s
  · rename_i l r _
    refine (sameOwn_of_ownPart (acts_own l s)).trans ?_
    rw [setBetween_eq]
    exact ⟨_, rfl⟩

theorem walk_sameOwn (user : Bool) (k : Kind) (va : Word) : Keeps SameOwn (walk user k va) := by
  refine sameOwn.bind others_sameOwn fun _ => sameOwn.bind (sameOwn.readSte va) fun ste => ?_
  split
  · exact sameOwn.bind others_sameOwn fun _ => sameOwn.walkPage _ _ _ _
  · exact sameOwn.segmentEntry _ _ _

theorem translateAddr_sameOwn (lv : Level) (k : Kind) (va : Word) : Keeps SameOwn (translateAddr lv k va) := by
  have raised {α : Type} (x : Exc) : Keeps SameOwn (raise x : M α) := fun s => sameOwn.refl s
  have ended (e : Option Entry) : Keeps SameOwn (match e with
      | none => raise (k.faultAt va)
      | some e => if e.allows lv.user k va then pure (e.xlat va) else raise (k.faultAt va) : M Xlat) := by
    split
    · exact raised _
    · exact keeps_ite (sameOwn.pure _) (raised _)
  unfold translateAddr
  refine keeps_ite (sameOwn.bind others_sameOwn fun _ => sameOwn.bind sameOwn.getS fun s => ?_) (sameOwn.pure _)
  dsimp only
  split
  · exact sameOwn.bind (sameOwn.pure _) ended
  · exact sameOwn.bind (walk_sameOwn _ _ _) ended

theorem wordRead_sameOwn (pa : Word) : Keeps SameOwn (wordRead pa) := by
  intro s
  unfold wordRead
  split
  · exact sameOwn.refl s
  · exact sameOwn.draw s _
  · exact sameOwn.refl s

/-- A read of data (R96). -/
theorem memReadW_sameOwn (lv : Level) (a : Word) : Keeps SameOwn (memReadW lv a) := by
  have found : Keeps SameOwn (findHome lv .read a) := by
    refine sameOwn.bind sameOwn.getS fun s => keeps_ite ?_ ?_
    · refine sameOwn.bind (fun u => ?_) fun _ => sameOwn.pure _
      cases !s.scOk <;> exact sameOwn.refl u
    · exact sameOwn.bind (translateAddr_sameOwn _ _ _) fun _ => sameOwn.pure _
  have read (h : Home) : Keeps SameOwn (homeRead h) := by
    cases h with
    | sc b => exact sameOwn.bind sameOwn.getS fun _ => sameOwn.pure _
    | phys pa => exact sameOwn.bind others_sameOwn fun _ => wordRead_sameOwn pa
  refine sameOwn.bind (fun u => ?_) fun _ => sameOwn.bind found fun h => sameOwn.bind (read h) fun _ =>
    sameOwn.bind sameOwn.getS fun _ => sameOwn.pure _
  unfold alignCheck
  cases !aligned a 4 <;> exact sameOwn.refl u

/-! ## The reset (R481) -/

/-- The frame of KRET cannot be read: one of its two words is a fault, the state then being `u`. -/
def FrameFaults (s : State) (e : Exc) (u : State) : Prop :=
  memReadW s.level (s.isp + 8) s = .error (.exc e) u ∨
    ∃ (t : Word) (w : State), memReadW s.level (s.isp + 8) s = .ok t w ∧ memReadW s.level (s.isp + 12) w = .error (.exc e) u

/-- Such a KRET is the internal reset. -/
theorem exec_kret_frameFaults (hx : s.psw.x = false) (h : FrameFaults s e u) : exec .kret s = .next u.internalReset := by
  refine run_reset (m := kernelReturn) ?_
  rcases h with first | ⟨t, w, first, second⟩
  · simp only [kernelReturn, bind_run, getS_run, hx, raiseIf_false, guardReset_exc first]
  · simp only [kernelReturn, bind_run, getS_run, hx, raiseIf_false, guardReset_ok first, guardReset_exc second]

/-- Neither read has changed what only the program changes. -/
theorem sameOwn_of_frameFaults (h : FrameFaults s e u) : SameOwn s u := by
  have read {a : Word} {s u : State} {r : EStateM.Result Stop State Word} {lv : Level} (h : memReadW lv a s = r) (hu : final r = u) :
      SameOwn s u := hu ▸ h ▸ memReadW_sameOwn lv a s
  rcases h with first | ⟨t, w, first, second⟩
  · exact read first rfl
  · exact (read first rfl).trans (read second rfl)

/-! ## Reads that fault -/

/-- A bus error on the word. -/
theorem memReadW_busError (ha : aligned a 4 = true) (hs : s.alone = true) (hh : s.home? lv .read a = some (.phys pa))
    (hb : s.board.readAnswer pa = .busError) : memReadW lv a s = .error (.exc .busFault) s := by
  simp [memReadW, memRead, alignCheck_ok ha, findHome_ok hh, homeRead, physRead, others_run hs, wordRead, hb]

/-- A walk whose segment table entry is a bus error. -/
theorem walk_busError {user : Bool} {k : Kind} (hs : s.alone = true) (hb : s.board.readAnswer (steAddr s.stb a) = .busError) :
    walk user k a s = .error (.exc .walkFault) s := by
  simp [walk, others_run hs, readSte, busRead, hb]

theorem translate_walk_error {k : Kind} {x : Stop} (hv : lv.vp = true) (hs : s.alone = true) (hl : s.lookup k a = none)
    (hw : walk lv.user k a s = .error x t) : translateAddr lv k a s = .error x t := by
  simp [translateAddr, hv, others_run hs, hl, hw]

/-- A word whose segment table entry is a bus error or not valid. -/
theorem memReadW_walkFault (ha : aligned a 4 = true) (hs : s.alone = true) (hm : s.scHit a = false) (hv : lv.vp = true)
    (hl : s.lookup .read a = none)
    (hw : s.board.readAnswer (steAddr s.stb a) = .busError ∨
      (s.board.readAnswer (steAddr s.stb a) = .ram ∧ (s.mem.readWord (steAddr s.stb a)).getLsbD 0 = false)) :
    ∃ e, memReadW lv a s = .error (.exc e) s := by
  have fault : ∃ e, translateAddr lv .read a s = .error (.exc e) s := by
    rcases hw with hb | ⟨hr, hi⟩
    · exact ⟨_, translate_walk_error hv hs hl (walk_busError hs hb)⟩
    · obtain ⟨vp, user⟩ := lv
      cases hv
      exact ⟨_, translate_walk_absent hs hl (walk_invalid hs hr rfl hi)⟩
  obtain ⟨e, fault⟩ := fault
  exact ⟨e, by simp [memReadW, memRead, alignCheck_ok ha, findHome, hm, fault]⟩

/-- Settles O11: a read that faults is the internal reset, which finds the registers and the stack cache as they were; the named faults
leave memory too. -/
theorem frameFaultResets : Obligations.FrameFaultResets := by
  intro s hx
  refine ⟨fun u e h => ?_, fun a ha hal hs h => ?_⟩
  · obtain ⟨env, own⟩ := sameOwn_of_frameFaults h
    have zeroPsw : Psw.toWord {} = 0 := by decide
    have zeroConfig : Cfg.toWord {} = 0 := by decide
    have psw : u.psw = s.psw := (congrArg State.psw own :)
    refine ⟨u.internalReset, exec_kret_frameFaults hx h, congrArg (fun p : Psw => quadAlign p.toWord) psw, zeroPsw,
      zeroConfig, rfl, ?_⟩
    exact ⟨(congrArg State.sp own :), (congrArg State.msp own :), (congrArg State.isp own :), (congrArg State.vb own :),
      (congrArg State.stb own :), (congrArg State.fault own :), (congrArg State.timer1 own :), (congrArg State.timer2 own :),
      (congrArg State.sc own :), rfl⟩
  · have fault : ∃ e, memReadW s.level a s = .error (.exc e) s := by
      rcases h with ⟨pa, hh, hb⟩ | ⟨hm, hv, hl, hw⟩
      · exact ⟨_, memReadW_busError hal hs hh hb⟩
      · exact memReadW_walkFault hal hs hm hv hl hw
    obtain ⟨e, fault⟩ := fault
    have frame : FrameFaults s e s := by
      rcases ha with rfl | ⟨rfl, loaded⟩
      · exact .inl fault
      · obtain ⟨w, hw⟩ := Option.isSome_iff_exists.1 loaded
        exact .inr ⟨w, s, memRead_ok hw, fault⟩
    exact ⟨_, exec_kret_frameFaults hx frame, rfl, rfl, rfl, rfl⟩

end Sys2Proof.Proofs
end
